-- ==== Sys2Proof/Word.lean ====
section
/-! DEFINITION. The word types of the ATK-9120, bit fields, little-endian bytes (R2) and the one sparse store in
canonical form that memories, register files and tables are kept in. -/

namespace Sys2Proof

abbrev Byte := BitVec 8
abbrev W16 := BitVec 16
abbrev W32 := BitVec 32
abbrev W64 := BitVec 64
/-- One bit per lane of a bundle, bit i for lane i (BWIDTH is 32 on this part, R1). -/
abbrev Lanes := BitVec 32

/-- Field [hi:lo] of a word, as a number (R2). -/
def fld {n : Nat} (x : BitVec n) (hi lo : Nat) : Nat := (x.toNat >>> lo) % 2 ^ (hi + 1 - lo)

/-- Bit [i] of a word. -/
def bitAt {n : Nat} (x : BitVec n) (i : Nat) : Bool := x.getLsbD i

/-- A number's field [hi:lo]. -/
def nfld (x hi lo : Nat) : Nat := (x >>> lo) % 2 ^ (hi + 1 - lo)

def boolNat (b : Bool) : Nat := if b then 1 else 0

/-- The signed value of the low w bits of a number. -/
def sval (w x : Nat) : Int :=
  let y := x % 2 ^ w
  if 2 ^ w ≤ 2 * y then (y : Int) - (2 ^ w : Nat) else y

/-- The w-bit encoding of an integer, as a number. -/
def wrapInt (w : Nat) (z : Int) : Nat := (z % ((2 ^ w : Nat) : Int)).toNat

/-- The n bytes of a value, least significant first (R2). -/
def leBytes : Nat → Nat → List Byte
  | 0, _ => []
  | n + 1, v => BitVec.ofNat 8 v :: leBytes n (v / 256)

/-- The value of bytes stored least significant first (R2). -/
def leNat : List Byte → Nat
  | [] => 0
  | b :: r => b.toNat + 256 * leNat r

/-- A finite map with a default value, as data: keys rise strictly and no entry holds the default. -/
abbrev Sparse (α : Type) := List (Nat × α)

def Sparse.get {α : Type} (d : α) : Sparse α → Nat → α
  | [], _ => d
  | (k, v) :: r, i => if i = k then v else Sparse.get d r i

/-- Without an entry for a key. -/
def Sparse.erase {α : Type} : Sparse α → Nat → Sparse α
  | [], _ => []
  | (k, w) :: r, i => if i = k then Sparse.erase r i else (k, w) :: Sparse.erase r i

/-- With an entry for a key, in its place. -/
def Sparse.insert {α : Type} : Sparse α → Nat → α → Sparse α
  | [], i, v => [(i, v)]
  | (k, w) :: r, i, v => if i < k then (i, v) :: (k, w) :: r else if i = k then (i, v) :: r else (k, w) :: Sparse.insert r i v

/-- Write a value; writing the default removes the entry. -/
def Sparse.put {α : Type} [DecidableEq α] (d : α) (m : Sparse α) (i : Nat) (v : α) : Sparse α :=
  if v = d then Sparse.erase m i else Sparse.insert m i v

/-- The canonical form above a bound on the keys. -/
def Sparse.wfFrom {α : Type} [DecidableEq α] (d : α) : Nat → Sparse α → Bool
  | _, [] => true
  | lo, (k, v) :: r => decide (lo ≤ k) && decide (v ≠ d) && Sparse.wfFrom d (k + 1) r

def Sparse.wf {α : Type} [DecidableEq α] (d : α) (m : Sparse α) : Bool := Sparse.wfFrom d 0 m

/-- The lanes of a mask, in increasing order. -/
def laneList (m : Lanes) : List Nat := (List.range 32).filter fun i => m.getLsbD i

def laneBit (i : Nat) : Lanes := 1#32 <<< i

/-- The mask of the lanes below 32 for which a test holds. -/
def laneMask (f : Nat → Bool) : Lanes :=
  (List.range 32).foldl (fun m i => if f i then m ||| laneBit i else m) 0#32

def lowestLane (m : Lanes) : Nat := (laneList m).headD 0

def highestLane (m : Lanes) : Nat := (laneList m).getLastD 0

def popCount {n : Nat} (x : BitVec n) : Nat := ((List.range n).filter fun i => x.getLsbD i).length

end Sys2Proof
end

