-- ==== Sys2Proof/Syntax.lean ====
section
/-! DEFINITION. The steps of the ATK-9120: one constructor of Instr per row of spec/opcode_table.json. Encoded
instructions carry their decoded operands (Opn); steps of engines, homes, desk and host carry what names them. -/

namespace Sys2Proof

/-- The decoded operands of an encoded instruction, one record for every form (R22 to R34). A base form is held as
the extended form it stands for (R5), with the fields the form does not carry at zero; `len` and `pre` say which form it was. -/
structure Opn where
  /-- END (R22). -/
  e : Bool
  /-- LEN: 0 base, 1 base and literal, 2 extended, 3 extended and literal (R22). -/
  len : BitVec 2
  /-- A prefix word stands before the base word (R32), and its SB bit. -/
  pre : Bool
  sb : Bool
  /-- FN and the modifiers (R25, R26). A MEM base form has AK in mods[3] and SZ in mods[2:0]; SYS base fields that the
  extended form keeps in the modifiers stand there too. -/
  fn : BitVec 8
  mods : BitVec 13
  /-- Register fields D, A, B, C (R25). -/
  d : BitVec 11
  a : BitVec 11
  b : BitVec 11
  c : BitVec 11
  /-- Mask predicate, its negation, and zeroing (R30). A branch has PRED and NEG here (R83, R85, R383). -/
  mp : BitVec 4
  mn : Bool
  zm : Bool
  rm : BitVec 3
  la : BitVec 4
  ty : BitVec 4
  xf : BitVec 3
  /-- The literal, the sign-extended immediate or byte offset, a count or a code (R24). -/
  imm : W64
  deriving DecidableEq, Repr

/-- A letter: the 32-byte header of R185, the bytes after it, and the trailer fields of R220. -/
structure Letter where
  pm : W64
  tpkg : BitVec 14
  tpa : BitVec 40
  sp : Bool
  data : W64
  aux : W16
  ty : BitVec 4
  sz : BitVec 3
  aof : Bool
  step : W16
  world : Bool
  ush : BitVec 6
  op : BitVec 8
  /-- A reserved field of the header or trailer is non-zero. -/
  rsv : Bool
  body : List Byte
  rtag : W32
  member : BitVec 12
  elem : W32
  /-- AGE (R185, R186): 0 in a copy that leaves. REPLY_RECEIVE takes it from here, the steps of requests and of other letters as their own. -/
  age : BitVec 8
  deriving DecidableEq, Repr

/-- A ring segment (R358, R360). -/
structure Segment where
  group : Nat
  seq : W32
  chunk : Nat
  seg : Nat
  nmem : Nat
  nchunk : Nat
  /-- An all-gather segment holds complete values. -/
  complete : Bool
  /-- SAT [0], NAN [1], INF+ [2], INF- [3]. -/
  marks : BitVec 4
  vals : List W64
  deriving DecidableEq, Repr

/-- The assignment of worlds by the security firmware (R406): secure cores, secure queues and groups, secure ranges of device memory
(first address, first beyond), and the secure save pools of dies 0 to 3 (R387: first granule of 64 KiB, granules; none of size 0). -/
structure Worlds where
  cores : List Nat
  queues : List Nat
  groups : List Nat
  ranges : List (Nat × Nat)
  pools : List (Nat × Nat)
  deriving DecidableEq, Repr

/-- One constructor per row of spec/opcode_table.json. -/
inductive Instr where
  /-- NOP (R87). Does nothing; it ends the run when END is set. -/
  | nop (o : Opn)
  /-- BRA (R83). Predicated branch to PC plus 4 times OFFSET for the taking lanes, with an optional uniform decision. -/
  | bra (o : Opn)
  /-- BRX (R84). Branches through a scalar or per-lane register, or calls through one, with the function chosen by FN. -/
  | brx (o : Opn)
  /-- CALL (R83). Predicated branch that also writes the return address into LNK of each taking lane. -/
  | call (o : Opn)
  /-- RET (R85). Sends each selected lane to its LNK; raises ALIGN if any such LNK is misaligned. -/
  | ret (o : Opn)
  /-- EXIT (R85). Ends the thread of each selected lane, clears its rejoin bits and re-checks every join and barrier. -/
  | exit (o : Opn)
  /-- JENROL (R88). Enrols every active lane in rejoin mask jK. -/
  | jenrol (o : Opn)
  /-- JWAIT (R89). Parks enrolled lanes on jK, passes other lanes, and releases all enrolled lanes once every one has arrived. -/
  | jwait (o : Opn)
  /-- JMOV (R90). Copies a rejoin mask, or moves it to or from a scalar register; raises ROLE when the written mask has parked lanes. -/
  | jmov (o : Opn)
  /-- REFORM (R94). Parks the lanes with their next program counters, for filing through the sorting table. -/
  | reform (o : Opn)
  /-- MATCH (R92). Writes to each active lane the mask of active lanes holding an equal key, or the lane's rank among them. -/
  | matchKeys (o : Opn)
  /-- COMPACT (R93). Packs the selected or key-sorted values into the active lanes in increasing lane order. -/
  | compact (o : Opn)
  /-- SADD (R74). 64-bit scalar add, modulo 2^64. -/
  | sadd (o : Opn)
  /-- SSUB (R74). 64-bit scalar subtract. -/
  | ssub (o : Opn)
  /-- SMUL (R74). Low 64 bits of a scalar product. -/
  | smul (o : Opn)
  /-- SMULH (R74). High 64 bits of a signed or unsigned 128-bit scalar product. -/
  | smulh (o : Opn)
  /-- SAND (R74). Scalar bitwise AND. -/
  | sand (o : Opn)
  /-- SOR (R74). Scalar bitwise OR. -/
  | sor (o : Opn)
  /-- SXOR (R74). Scalar bitwise XOR. -/
  | sxor (o : Opn)
  /-- SSHL (R74). Scalar shift left; the result is 0 when n is 64 or more. -/
  | sshl (o : Opn)
  /-- SSHR (R74). Scalar logical shift right. -/
  | sshr (o : Opn)
  /-- SSAR (R74). Scalar arithmetic shift right. -/
  | ssar (o : Opn)
  /-- SMIN (R74). Scalar minimum, signed or unsigned by TY. -/
  | smin (o : Opn)
  /-- SMAX (R74). Scalar maximum, signed or unsigned by TY. -/
  | smax (o : Opn)
  /-- SSET (R75). Writes 1 when the FN condition holds between two scalars, and 0 otherwise. -/
  | sset (o : Opn)
  /-- SSEL (R74). Scalar select on s[C], where C equals D in base form. -/
  | ssel (o : Opn)
  /-- SLI (R76). Loads a sign-extended immediate, or a 64-bit literal, into a scalar register. -/
  | sli (o : Opn)
  /-- SMOV (R77). Moves values between scalar, vector and LNK registers, as FN selects. -/
  | smov (o : Opn)
  /-- SRD (R78). Reads a special register into a scalar register, or per lane into a vector register. -/
  | srd (o : Opn)
  /-- SWR (R78). Writes FPCTL, or clears FPSTAT flags, from a scalar register. -/
  | swr (o : Opn)
  /-- PLOG (R91). Computes a predicate by LUT from two predicates, or sets it from bits of a scalar. -/
  | plog (o : Opn)
  /-- VADD (R105). Element-wise integer add, modulo 2^w. -/
  | vadd (o : Opn)
  /-- VSUB (R105). Element-wise integer subtract. -/
  | vsub (o : Opn)
  /-- VMUL (R105). Low w bits of the element-wise product. -/
  | vmul (o : Opn)
  /-- VMULH (R105). High w bits of the element-wise product. -/
  | vmulh (o : Opn)
  /-- VMAD (R105). Integer multiply-add A times B plus C. -/
  | vmad (o : Opn)
  /-- VAND (R105). Element-wise bitwise AND. -/
  | vand (o : Opn)
  /-- VOR (R105). Element-wise bitwise OR. -/
  | vor (o : Opn)
  /-- VXOR (R105). Element-wise bitwise XOR. -/
  | vxor (o : Opn)
  /-- VSHL (R105). Element-wise shift left. -/
  | vshl (o : Opn)
  /-- VSHR (R105). Element-wise logical shift right. -/
  | vshr (o : Opn)
  /-- VSAR (R105). Element-wise arithmetic shift right. -/
  | vsar (o : Opn)
  /-- VMIN (R105). Element-wise integer minimum. -/
  | vmin (o : Opn)
  /-- VMAX (R105). Element-wise integer maximum. -/
  | vmax (o : Opn)
  /-- VABS (R105). Element-wise integer absolute value. -/
  | vabs (o : Opn)
  /-- VCMP (R106). Integer compare by FN condition into a predicate. -/
  | vcmp (o : Opn)
  /-- VSEL (R107). Per-lane select of A or B under predicate p[C]; needs a prefix or an extended form. -/
  | vsel (o : Opn)
  /-- VMOV (R105). Copies operand B bit for bit. -/
  | vmov (o : Opn)
  /-- VPOPC (R105). Counts the set bits of each element. -/
  | vpopc (o : Opn)
  /-- VCLZ (R105). Counts the leading zero bits of each element. -/
  | vclz (o : Opn)
  /-- VBREV (R105). Reverses the bits of each element. -/
  | vbrev (o : Opn)
  /-- VBFE (R108). Extracts a bit field given by position and length. -/
  | vbfe (o : Opn)
  /-- VBFI (R108). Inserts a bit field into C. -/
  | vbfi (o : Opn)
  /-- VMIX3 (R109). Computes any bitwise function of three inputs by table. -/
  | vmix3 (o : Opn)
  /-- VCVT (R110). Converts between integer widths, saturating or wrapping. -/
  | vcvt (o : Opn)
  /-- VADDS (R105). Saturating integer add. -/
  | vadds (o : Opn)
  /-- VSUBS (R105). Saturating integer subtract. -/
  | vsubs (o : Opn)
  /-- VLI (R111). Writes an immediate or literal constant to each active lane. -/
  | vli (o : Opn)
  /-- SWEEP (R34). Applies a vector operation over COUNT scratchpad segments, after checking every element first. -/
  | sweep (opc : BitVec 8) (o : Opn)
  /-- FADD (R112). Floating add, rounded once. -/
  | fadd (o : Opn)
  /-- FSUB (R112). Floating subtract. -/
  | fsub (o : Opn)
  /-- FMUL (R112). Floating multiply. -/
  | fmul (o : Opn)
  /-- FFMA (R112). Fused multiply-add, rounded once. -/
  | ffma (o : Opn)
  /-- FMIN (R113). IEEE minimumNumber. -/
  | fmin (o : Opn)
  /-- FMAX (R113). IEEE maximumNumber. -/
  | fmax (o : Opn)
  /-- FCMP (R117). Floating compare by FN condition into a predicate. -/
  | fcmp (o : Opn)
  /-- FCLASS (R118). Writes a one-hot class mask of the operand. -/
  | fclass (o : Opn)
  /-- FRINT (R114). Rounds the operand to an integral value in its own format. -/
  | frint (o : Opn)
  /-- FCVT (R121). Converts float to float; FN 1 and 2 give the block conversion and the slot decode. -/
  | fcvt (o : Opn)
  /-- FCVT_BLK (R122). Converts the bundle's lanes into one block-scaled block with ConvertBlock. -/
  | fcvtBlk (o : Opn)
  /-- FCVT_DEC (R123). Decodes slot-format element codes to f32. -/
  | fcvtDec (o : Opn)
  /-- ICVT (R121). Converts integer to float. -/
  | icvt (o : Opn)
  /-- FCVTI (R121). Converts float to integer, saturating. -/
  | fcvti (o : Opn)
  /-- FSCALE (R115). Forms A times 2^n and rounds once. -/
  | fscale (o : Opn)
  /-- FEXPN (R120). Extracts the exponent or the significand. -/
  | fexpn (o : Opn)
  /-- FEXPF (R124). 2^x for |x| up to 1. -/
  | fexpf (o : Opn)
  /-- FLOG2 (R124). Base-2 logarithm. -/
  | flog2 (o : Opn)
  /-- FRCP (R124). Reciprocal within 1 ulp. -/
  | frcp (o : Opn)
  /-- FRSQ (R124). Reciprocal square root. -/
  | frsq (o : Opn)
  /-- FSQRT (R124). Correctly rounded square root. -/
  | fsqrt (o : Opn)
  /-- FSIN (R124). sin(pi x). -/
  | fsin (o : Opn)
  /-- FCOS (R124). cos(pi x). -/
  | fcos (o : Opn)
  /-- FTANH (R124). Hyperbolic tangent. -/
  | ftanh (o : Opn)
  /-- FSGN (R116). Copies, negates, clears or XORs the sign bit. -/
  | fsgn (o : Opn)
  /-- FKEY (R119). Turns a floating value into an order-preserving unsigned key. -/
  | fkey (o : Opn)
  /-- XSHF (R134). Moves values between lanes by index, up, down or xor. -/
  | xshf (o : Opn)
  /-- XROT (R135). Rotates values towards lower lanes. -/
  | xrot (o : Opn)
  /-- XBCST (R136). Broadcasts the value of one lane. -/
  | xbcst (o : Opn)
  /-- XBAL (R137). Gathers a predicate across lanes into a mask or a count. -/
  | xbal (o : Opn)
  /-- XBCNT (R138). Selects the k lanes with the largest or the smallest keys. -/
  | xbcnt (o : Opn)
  /-- XRED (R140). Reduces the active lanes in a fixed tree order. -/
  | xred (o : Opn)
  /-- XSCAN (R140). Inclusive or exclusive scan over the active lanes. -/
  | xscan (o : Opn)
  /-- XMOV (R142). Handler-only read or write of one lane of the trapped bundle. -/
  | xmov (o : Opn)
  /-- LD (R147). Checks every lane, then reads die, host or scratchpad memory per lane into registers. -/
  | ld (o : Opn)
  /-- ST (R147). Checks every lane, then writes per-lane data; counts in the mem counter. -/
  | st (o : Opn)
  /-- LDA (R147). Load with acquire at its scope. -/
  | lda (o : Opn)
  /-- STL (R147). Store with release at its scope. -/
  | stl (o : Opn)
  /-- ATOM (R151). Per-lane read-modify-write at the ordering point, returning the old value. -/
  | atom (o : Opn)
  /-- LOAD_DATA_RETURN (R150). The data of an outstanding read returns and its destination is written. -/
  | loadDataReturn (op unit : Nat) (fresh err : Bool)
  /-- VECTOR_RESULT_WRITE (R101). A vector-pipeline or function-unit result is written to its destination some cycles after issue. -/
  | vectorResultWrite (op : Nat)
  /-- WRITE_PERFORMED (R150). An outstanding write is performed at its ordering point, and counters retire oldest first. -/
  | writePerformed (op unit : Nat)
  /-- FENCE (R176). Acquire, release or full fence; holds the next run until the mem counter is zero and earlier loads have returned. -/
  | fence (o : Opn)
  /-- TAGL (R156). Looks up a key in the tag table and returns the hit slot or a victim. -/
  | tagl (o : Opn)
  /-- TAGI (R156). Installs a key in slot k unless it, or the slot, is already taken. -/
  | tagi (o : Opn)
  /-- TAGX (R156). Invalidates a slot, or the slot holding a key. -/
  | tagx (o : Opn)
  /-- IFENCE (R154). Discards the fetch blocks and the instruction cache, and waits until the discard is done. -/
  | ifence (o : Opn)
  /-- PRF (R153). Hint that brings lines into home slices, or fills the TLB. -/
  | prf (o : Opn)
  /-- RADD (R196). Sends a remote add letter per lane, integer or into WX128. -/
  | radd (o : Opn)
  /-- RMIN (R196). Sends a remote minimum letter per lane. -/
  | rmin (o : Opn)
  /-- RMAX (R196). Sends a remote maximum letter per lane. -/
  | rmax (o : Opn)
  /-- ROR (R196). Sends a remote OR letter per lane. -/
  | ror (o : Opn)
  /-- RONCE (R200). Sends a write-once letter per lane of 8 or 16 bytes. -/
  | ronce (o : Opn)
  /-- RONCE_ROW (R200). Sends one write-once row from the scratchpad, optionally with arrive-on-fill. -/
  | ronceRow (o : Opn)
  /-- RARR (R204). Sends one arrival letter once older remote operations and the mem counter are done. -/
  | rarr (o : Opn)
  /-- RGET (R206). Sends per-lane remote read requests whose replies land in reply slots. -/
  | rget (o : Opn)
  /-- ACCRD (R207). Atomic read of a WX128 element with its status byte, as a value, raw or status. -/
  | accrd (o : Opn)
  /-- ACCDEF (R209). Installs a region descriptor in the die's region table. -/
  | accdef (o : Opn)
  /-- ACCDEF_FREE (R209). Removes the region entry whose BASE matches. -/
  | accdefFree (o : Opn)
  /-- ACCDEF_STEP (R209). Sets a region's step tag. -/
  | accdefStep (o : Opn)
  /-- ACCDEF_QUERY (R209). Writes STALE and CONFLICTS back into the descriptor. -/
  | accdefQuery (o : Opn)
  /-- ARRWAIT (R205). Parks until an arrival word reaches its target, or polls it once. -/
  | arrwait (o : Opn)
  /-- ARRWAIT_WAKE (R205). The home slice wakes a group parked at ARRWAIT once the condition holds. -/
  | arrwaitWake (b l : Nat)
  /-- LETTER_RECEIVE (R187). A home controller takes an arriving letter copy and applies it, drops it as a duplicate or refuses it, then acknowledges. -/
  | letterReceive (l : Letter) (age : Nat)
  /-- MEETING_CLEAR_COMPLETE (R221). The background clear ends; the round opens, CUR advances and HELD clears. -/
  | meetingClearComplete (die idx : Nat)
  /-- RGET_READ (R206). The home reads a request copy's target atomically and sends a reply. -/
  | rgetRead (l : Letter) (age : Nat)
  /-- REPLY_RECEIVE (R206). The requester writes the first reply for each lane into its slot and discards later copies. -/
  | replyReceive (l : Letter)
  /-- ACKNOWLEDGEMENT_RECEIVE (R189). The sender takes an acknowledgement: the letter is done, sent again or failed. -/
  | acknowledgementReceive (pm : W64) (status : Nat)
  /-- RESEND_TIMER (R189). 8 µs without an acknowledgement sends a new copy, or after 16 resends fails the letter with 0x31. -/
  | resendTimer (pm : W64)
  /-- REFUSED_RETRY (R189). After a refusal, the letter is sent again, typically 1 µs later. -/
  | refusedRetry (pm : W64)
  /-- SETTLE_NOTICE_SEND (R190). An owed settle notice is sent alone when no letter to that die has carried it within 2 µs. -/
  | settleNoticeSend (pm : W64)
  /-- SETTLE_NOTICE_RECEIVE (R190). The home removes a postmark on its settle notice. -/
  | settleNoticeReceive (die : Nat) (pm : W64)
  /-- POSTMARK_EXPIRY (R190). A postmark that has stood 200 µs is removed from the table. -/
  | postmarkExpiry (die : Nat) (pm : W64)
  /-- MOPEN (R223). Opens a meeting over two accumulator regions and begins round RTAG0. -/
  | mopen (o : Opn)
  /-- MPOST (R224). Sends one meeting post letter per active lane. -/
  | mpost (o : Opn)
  /-- MARR (R225). Sends the member's arrival letter after its earlier posts. -/
  | marr (o : Opn)
  /-- MWAIT (R226). Parks until a round is done, or polls it, and returns its status word. -/
  | mwait (o : Opn)
  /-- MWAIT_WAKE (R226). A group parked at MWAIT is woken once its round is done. -/
  | mwaitWake (b l : Nat)
  /-- MSTAT (R227). Reads a round status, a weight sum or a member entry. -/
  | mstat (o : Opn)
  /-- MREL (R225). Sends a consumer release letter for a round. -/
  | mrel (o : Opn)
  /-- MCLOSE (R228). Dissolves the meeting and frees its entry. -/
  | mclose (o : Opn)
  /-- CPY (R237). The leader lane queues an asynchronous tensor copy. -/
  | cpy (o : Opn)
  /-- CPYM (R249). Queues a copy multicast to the receivers of a barrier. -/
  | cpym (o : Opn)
  /-- COPY_DISPATCH (R231). A queue entry passes to the engine with the fewest copies in hand. -/
  | copyDispatch (core : Nat)
  /-- LEAVE_GRANT (R332). The power desk grants leave to a waiting request. -/
  | leaveGrant (team : Nat)
  /-- LEAVE_EXPIRY (R332). A team loses leave after 4,096 idle cycles, or when a pending PWRQ.rel takes effect. -/
  | leaveExpiry (team : Nat)
  /-- COPY_PAGE (R240). The engine translates and moves one page of a copy. -/
  | copyPage (job : Nat) (err : Bool)
  /-- COPY_COMPLETION_STEP (R244). Writes the completion record, fills the mailbag, posts the event and completes the counter operation. -/
  | copyCompletionStep (job : Nat)
  /-- CPOLL (R248). Takes or peeks at the completion record at HEAD if it is valid. -/
  | cpoll (o : Opn)
  /-- CSLEEP (R248). Parks until the ring slot at HEAD is valid, then acts as CPOLL. -/
  | csleep (o : Opn)
  /-- CSLEEP_WAKE (R248). A group parked at CSLEEP wakes once the record is written. -/
  | csleepWake (b l : Nat)
  /-- GLD (R256). Fills lanes with elements read through a handle in a dense or compressed layout. -/
  | gld (o : Opn)
  /-- GSC (R262). Writes, combines or packs elements through a handle. -/
  | gsc (o : Opn)
  /-- NZSCAN (R266). Lists the indices of non-zero lanes and advances the scan cursor. -/
  | nzscan (o : Opn)
  /-- HSET (R253). Binds a handle to a 64-byte descriptor. -/
  | hset (o : Opn)
  /-- GINV (R261). Invalidates the core's fetch cache after earlier acquires. -/
  | ginv (o : Opn)
  /-- MXP (R276). Queues a matrix product into an accumulator tile. -/
  | mxp (o : Opn)
  /-- MXD (R278). Queues the backward products dX and dW. -/
  | mxd (o : Opn)
  /-- MATRIX_GROUP (R272). The engine executes one group of a queued MXP or MXD, with pre-emption at its boundary. -/
  | matrixGroup (core : Nat) (soft again : Bool)
  /-- LDT (R283). Loads an A block from the scratchpad, plainly or transposed. -/
  | ldt (o : Opn)
  /-- UNPK (R284). Completes the transposition of 4-bit or 2-bit elements. -/
  | unpk (o : Opn)
  /-- ACCMV (R285). Moves tile elements to or from vector registers. -/
  | accmv (o : Opn)
  /-- MXSAVE (R286). Writes a tile image to memory bit for bit. -/
  | mxsave (o : Opn)
  /-- MXLOAD (R286). Fills a tile from a memory image. -/
  | mxload (o : Opn)
  /-- MXCLR (R287). Clears the selected tiles to +0. -/
  | mxclr (o : Opn)
  /-- MXCLR_LATCH (R287). Releases the bundle's A latch. -/
  | mxclrLatch (o : Opn)
  /-- MXSTAT (R288). Reads, reads the counters of, or clears the team's matrix status. -/
  | mxstat (o : Opn)
  /-- NBIN (R296). Queues a job that bins particles into a cell grid. -/
  | nbin (o : Opn)
  /-- NPAIR (R297). Queues a pair-stream job over a grid. -/
  | npair (o : Opn)
  /-- NPAIR_RES (R301). Queues a pair-stream job that resumes from the job block's cursor. -/
  | npairRes (o : Opn)
  /-- NSTAT (R304). Reads a job's STATUS word. -/
  | nstat (o : Opn)
  /-- NSTAT_ENG (R304). Reads the neighbour engine's state. -/
  | nstatEng (o : Opn)
  /-- QUEUED_MATRIX_INSTRUCTION (R267). The matrix engine executes and completes a queued ACCMV, MXSAVE, MXLOAD, MXCLR or MXSTAT, writing its registers, tile or memory and freeing its queue entry. -/
  | queuedMatrixInstruction (core : Nat)
  /-- POWER_DIVISION (R409). Every 10 µs, divides the power limit among the four desks. -/
  | powerDivision (watts : Nat)
  /-- NEIGHBOUR_JOB_START (R291). The engine starts the oldest queued job that may start. -/
  | neighbourJobStart (job : Nat) (err : Bool)
  /-- NPAIR_STAGE_FILL (R302). The engine writes a free mailbag stage and fills it. -/
  | npairStageFill (job : Nat)
  /-- NEIGHBOUR_JOB_COMPLETE (R303). Counts the arrival, writes the results and STATUS, and posts the event. -/
  | neighbourJobComplete (job : Nat)
  /-- LAUNCH (R313). Copies a child launch record and starts a child grid. -/
  | launch (o : Opn)
  /-- BAR (R323). Arrives at a team barrier, in mode all or counted, and parks. -/
  | bar (o : Opn)
  /-- BARV (R324). Arrives at a barrier by address without waiting, and registers a receiver. -/
  | barv (o : Opn)
  /-- BARV_SELF (R324). Returns the barrier address of the team's own barrier K. -/
  | barvSelf (o : Opn)
  /-- MBWAIT (R327). Takes or claims a mailbag stage, waiting or polling, or reads its counts. -/
  | mbwait (o : Opn)
  /-- MBWAIT_WAKE (R327). A parked MBWAIT group is served when its count condition holds. -/
  | mbwaitWake (b l : Nat)
  /-- MBFILL (R328). Adds 1 to FILL with a release. -/
  | mbfill (o : Opn)
  /-- MBFREE (R328). Adds 1 to FREE with a release. -/
  | mbfree (o : Opn)
  /-- WAITK (R330). Parks until a counter class falls to n or below, and raises a pending mark of that class. -/
  | waitk (o : Opn)
  /-- WAITK_RELEASE (R330). The group parked at WAITK resumes once its counter falls. -/
  | waitkRelease (b l : Nat)
  /-- YIELD (R331). Ends the run as if the bundle had just held the slot. -/
  | yield (o : Opn)
  /-- YIELD_GRP (R331). Counts the group as having just run. -/
  | yieldGrp (o : Opn)
  /-- SLEEP (R331). Parks the group for a number of CLK cycles. -/
  | sleep (o : Opn)
  /-- SLEEP_EXPIRY (R331). The sleep count elapses and the group becomes runnable. -/
  | sleepExpiry (b l : Nat)
  /-- PWRQ (R331). Requests leave for the team. -/
  | pwrq (o : Opn)
  /-- PWRQ_REL (R332). Gives up the team's leave when its running operations end. -/
  | pwrqRel (o : Opn)
  /-- EVGET (R341). Control core waits for and takes the oldest in-tray event, with acquire. -/
  | evget (o : Opn)
  /-- EVGET_WAKE (R341). A waiting EVGET completes when an event arrives. -/
  | evgetWake (core : Nat)
  /-- EVPOST (R342). Posts 16 bytes to the in-tray of this core with release. -/
  | evpost (o : Opn)
  /-- EVPOST_START (R334). Starts the control core for the issuing team. -/
  | evpostStart (o : Opn)
  /-- EVPOST_STAT (R343). Reads the control-core status word. -/
  | evpostStat (o : Opn)
  /-- EVPOST_HPC (R342). Reads the program counter at which the control core halted. -/
  | evpostHpc (o : Opn)
  /-- EVPOST_DROP (R342). Clears DROPS. -/
  | evpostDrop (o : Opn)
  /-- TAPEF (R345). Reads one tape entry into seven scalar registers. -/
  | tapef (o : Opn)
  /-- TDEC (R347). Atomically decrements a dependence counter, and notifies a core at zero. -/
  | tdec (o : Opn)
  /-- TDISP (R348). Claims a mailbag stage of a resident team and writes 32 bytes into it. -/
  | tdisp (o : Opn)
  /-- TDISP_FILL (R348). The mailbag unit fills the stage once its words are written and earlier claims are filled. -/
  | tdispFill (team mb : Nat)
  /-- LOCQ (R350). Looks up an expert's location by hashed probing or in the location cache. -/
  | locq (o : Opn)
  /-- LOCQ_INV (R351). Empties the location cache after earlier acquires. -/
  | locqInv (o : Opn)
  /-- CLSTAT (R367). Reads the hub's status of a collective instance. -/
  | clstat (o : Opn)
  /-- CLABORT (R368). Aborts a collective instance as cause 0x53. -/
  | clabort (o : Opn)
  /-- CLSTEP (R369). Sets the bundle's step tag. -/
  | clstep (o : Opn)
  /-- CLSTEP_RD (R369). Reads the bundle's step tag. -/
  | clstepRd (o : Opn)
  /-- TRAP (R383). Raises SOFT with a code in the selected lanes. -/
  | trap (o : Opn)
  /-- TRET (R385). Leaves the handler, killing, retrying or skipping lanes. -/
  | tret (o : Opn)
  /-- BKPT (R383). Raises DEBUG with a code. -/
  | bkpt (o : Opn)
  /-- HALT (R384). Saves the team to a frame and posts a kind 3 stop record. -/
  | halt (o : Opn)
  /-- SWRP_RD (R386). Reads a system word. -/
  | swrpRd (o : Opn)
  /-- SWRP_WR (R386). Writes a system word. -/
  | swrpWr (o : Opn)
  /-- SWRP_SB (R386). Reads a lane's side-buffer entry in a handler. -/
  | swrpSb (o : Opn)
  /-- RUN_SELECT (R319). At a run boundary, the arbiter picks the bundle and group whose run issues next. -/
  | runSelect (q : Nat)
  /-- TRAP_ENTRY (R373). Once pending writes are done, fills the trap state and side buffer and enters the handler, or kills the team. -/
  | trapEntry (b : Nat)
  /-- REFORM_FILING (R95). Once every lane is parked and the counters are zero, files the threads into pigeonholes. -/
  | reformFiling (b : Nat)
  /-- PIGEONHOLE_AGE_EXPIRY (R96). A pigeonhole past the age limit refills a waiting slot, oldest first. -/
  | pigeonholeAgeExpiry (core : Nat)
  /-- BUNDLE_FREE (R85). A bundle whose lanes are all empty or exited, with zero counters, is freed. -/
  | bundleFree (b : Nat)
  /-- LAUNCH_RECORD_TAKE (R309). The launch desk takes a queue's head record once its tail word shows it, and checks it. -/
  | launchRecordTake (q : Nat)
  /-- GUARD_MET (R311). A held record's guard word reaches its target, and the size word is read. -/
  | guardMet (grid : Nat)
  /-- TEAM_DISPATCH (R316). A dispatcher places the next team on the lowest qualifying core. -/
  | teamDispatch (grid : Nat)
  /-- EVICTION (R317). Saves lower-priority bundles or teams to make room. -/
  | eviction (grid : Nat)
  /-- RESTORE (R394). Restores saved work, or kills it and posts a kind 4 stop record on an invalid frame. -/
  | restore (k : Nat)
  /-- GRID_RETIRE (R312). Writes RSTAT and counts the DONE arrival once every team, child and job is finished. -/
  | gridRetire (grid : Nat)
  /-- CHUNK_FIRE (R357). The retirement of a chunk's last team starts its ring reduction, or the fire is held or discarded. -/
  | chunkFire (grid chunk : Nat)
  /-- SEGMENT_RECEIVE (R358). A ring segment arrives, is combined or written, and is forwarded. -/
  | segmentReceive (seg : Segment)
  /-- SEGMENT_TIMEOUT (R363). A segment awaited beyond TIMEOUT aborts the instance with cause 0x50. -/
  | segmentTimeout (group seq chunk : Nat)
  /-- LINK_LOSS (R363). Loss of the carrying port's link aborts the instance with 0x51. -/
  | linkLoss (port : Nat)
  /-- ABORT_RECEIVE (R364). An ABORT message marks the sequence ABORTED, forwards it and answers. -/
  | abortReceive (group seq cause src : Nat)
  /-- FQRESUME (R169). Host write that resumes a faulting instruction, copy or job for a FID, or fails it. -/
  | fqresume (v : W64)
  /-- TLBINVC (R166). Host write that starts a translation-cache invalidation command. -/
  | tlbinvc (v : W64)
  /-- TLBINV_COMPLETE (R166). Every cache has dropped the entries and every access using them is performed; BUSY clears. -/
  | tlbinvComplete
  /-- STRESUME_RESUME (R384). Host write with ACT 0 that restores a halted team from its frame. -/
  | stresumeResume (sid : W32)
  /-- STRESUME_KILL (R384). Host write with ACT 1 that kills a halted team. -/
  | stresumeKill (sid : W32)
  /-- GROUP_HOLD (R354). A write of HOLD = 1 to GCTL aborts the group's instances with cause 0x55. -/
  | groupHold (group : Nat)
  /-- FENCE_TABLE_WRITE (R370). Writing a fence entry stops letters and ring traffic from a package. -/
  | fenceTableWrite (f : Nat) (v : W64)
  /-- PKGID_WRITE (R404). Sets the package number once, while READY. -/
  | pkgidWrite (v : W64)
  /-- MBCMD_REPORT (R405). CODE 1 produces a signed attestation report over the nonce. -/
  | mbcmdReport
  /-- MBCMD_PUBKEY (R405). CODE 2 returns the identity public key. -/
  | mbcmdPubkey
  /-- REGISTER_WRITE (R397). An aligned 8-byte CXL.io write to a register with no behaviour of its own. -/
  | registerWrite (off size : Nat) (v : W64)
  /-- CXL_MEM_WRITE (R398). A host write is performed at its home slice and then completed. -/
  | cxlMemWrite (addr : Nat) (data : List Byte)
  /-- CXL_MEM_READ (R403). A host read of device memory; all-ones before READY, zero in a secure range. -/
  | cxlMemRead (addr n : Nat)
  /-- HOST_LINK_DOWN (R399). The host link goes down until package reset. -/
  | hostLinkDown
  /-- PACKAGE_RESET (R402). Resets the package and starts the boot ROM. -/
  | packageReset
  /-- BOOT_ROM (R402). Verifies the firmware image and enters FIRMWARE or FAILED. -/
  | bootRom (fail : Nat) (svn : W32)
  /-- BOOT_FIRMWARE (R402). Trains memory and links, assigns worlds and enters READY or FAILED. -/
  | bootFirmware (fail : Nat) (w : Worlds)
  /-- THERMAL_HOLD (R409). At 105 °C a die's desk sets HOLD and stops granting leave. -/
  | thermalHold (die temp : Nat)
  /-- THERMAL_SHUTDOWN (R409). At 115 °C the package stops every clock and drops the host link. -/
  | thermalShutdown (die temp : Nat)
  /-- THERMAL_HOLD_CLEAR (R409). When every sensor of a die falls below 105 °C, its desk clears HOLD and grants leave again. -/
  | thermalHoldClear (die temp : Nat)
  /-- GROUP_HOLD_CLEAR (R354). A write of HOLD = 0 to GCTL ends the hold, so that held fires of the group proceed. -/
  | groupHoldClear (group : Nat)
  /-- ABORT_ANSWER (R363). A tree neighbour's answer to an ABORT arrives; once all neighbours have answered, the receiver answers in turn, or the CLABORT operation completes. -/
  | abortAnswer (group seq src : Nat)
  /-- RING_TRAFFIC_ACKNOWLEDGEMENT (R362). A neighbour's acknowledgement of ring traffic arrives, and when it is the last one outstanding the instance finishes and CUR rises. -/
  | ringTrafficAcknowledgement (group seq : Nat)
  deriving DecidableEq, Repr

end Sys2Proof
end

