-- ==== Sys2Proof/Decode.lean ====
section
/-! DEFINITION. Decoding of instruction words, total and rejecting by name (R21 to R34, R39 to R41), and after it the
encoder written from the same layouts. -/

namespace Sys2Proof

/-- Why words are no instruction at all (R40, R41). Field values that an opcode does not allow are judged in WellFormed. -/
inductive DecodeError where
  /-- Fewer words than the LEN fields ask for. -/
  | short
  /-- Unassigned OPC (R40). -/
  | unassigned
  /-- LEN not allowed for the opcode (R39). -/
  | badLength
  /-- A misused prefix word (R33). -/
  | badPrefix
  /-- A non-zero reserved bit of the base word (R41). -/
  | reservedBit
  deriving DecidableEq, Repr

/-- The layouts of bits [20:0] of a base word (R23 and the chapters that own SYS opcodes). `rrr` holds D, A and B or IMM. -/
inductive Layout where
  | rrr | mem | br | prd | fence | cpy | mxp | mxd | bar | mb | waitk | tret | swrp | npair | reform
  deriving DecidableEq, Repr

/-- The opcode's base layout. -/
def layoutOf (opc : Nat) : Layout :=
  if opc = 0x01 ∨ opc = 0x03 then .br
  else if opc = 0x04 ∨ opc = 0x05 ∨ opc = 0xD8 ∨ opc = 0xDA then .prd
  else if opc = 0x09 then .reform
  else if opc = 0x6D then .fence
  else if (0x68 ≤ opc ∧ opc ≤ 0x6C) ∨ opc = 0x72 ∨ (0x78 ≤ opc ∧ opc ≤ 0x81) ∨ opc = 0xA5 ∨ opc = 0xA6
      ∨ opc = 0xCA ∨ opc = 0xCB ∨ opc = 0xCD then .mem
  else if opc = 0x90 ∨ opc = 0x91 then .cpy
  else if opc = 0xA0 then .mxp
  else if opc = 0xA1 then .mxd
  else if opc = 0xB1 then .npair
  else if opc = 0xB9 then .bar
  else if opc = 0xBB ∨ opc = 0xBC ∨ opc = 0xBD then .mb
  else if opc = 0xBE then .waitk
  else if opc = 0xD9 then .tret
  else if opc = 0xDC then .swrp
  else .rrr

/-- The LEN column of the opcode map (R39); none for an unassigned opcode (R40). -/
def lensOf (opc : Nat) : Option (List Nat) :=
  if opc = 0x00 ∨ opc = 0x04 ∨ opc = 0x05 ∨ opc = 0x1C ∨ opc = 0x1D ∨ opc = 0x6D ∨ opc = 0x71 ∨ opc = 0x9C
      ∨ (0xD8 ≤ opc ∧ opc ≤ 0xDB) then some [0]
  else if opc = 0x01 ∨ opc = 0x03 ∨ opc = 0x1A then some [0, 1]
  else if opc = 0x02 ∨ (0x06 ≤ opc ∧ opc ≤ 0x0B) ∨ opc = 0x1B ∨ opc = 0x1E ∨ (0x60 ≤ opc ∧ opc ≤ 0x67)
      ∨ (0x6E ≤ opc ∧ opc ≤ 0x70) ∨ (0x90 ≤ opc ∧ opc ≤ 0x93) ∨ (0x98 ≤ opc ∧ opc ≤ 0x9B)
      ∨ (0xA0 ≤ opc ∧ opc ≤ 0xA4) ∨ opc = 0xA7 ∨ opc = 0xA8 ∨ (0xB0 ≤ opc ∧ opc ≤ 0xB2)
      ∨ (0xB8 ≤ opc ∧ opc ≤ 0xC1) ∨ opc = 0xC8 ∨ opc = 0xC9 ∨ opc = 0xCC ∨ (0xD0 ≤ opc ∧ opc ≤ 0xD2)
      ∨ opc = 0xDC then some [0, 2]
  else if (0x0C ≤ opc ∧ opc ≤ 0x19) ∨ (0x20 ≤ opc ∧ opc ≤ 0x39) ∨ (0x40 ≤ opc ∧ opc ≤ 0x57)
      ∨ (0x68 ≤ opc ∧ opc ≤ 0x6C) ∨ opc = 0x72 ∨ (0x78 ≤ opc ∧ opc ≤ 0x81) ∨ opc = 0xA5 ∨ opc = 0xA6
      ∨ opc = 0xCA ∨ opc = 0xCB ∨ opc = 0xCD then some [0, 1, 2, 3]
  else if opc = 0x3A then some [0, 1, 3]
  else if 0x88 ≤ opc ∧ opc ≤ 0x8E then some [0, 2, 3]
  else none

/-- Opcodes that accept a prefix: those the map marks P (R33, R39). -/
def takesPre (opc : Nat) : Bool := decide ((0x20 ≤ opc ∧ opc ≤ 0x3A) ∨ (0x40 ≤ opc ∧ opc ≤ 0x57))

/-- An operand record with every field at zero. -/
def Opn.zero : Opn :=
  ⟨false, 0, false, false, 0, 0, 0, 0, 0, 0, 0, false, false, 0, 0, 0, 0, 0⟩

/-- The fields of bits [20:0] of a base word with LEN 00 or 01 (R23). -/
def unpackLow (l : Layout) (len low : Nat) (o : Opn) : Except DecodeError Opn :=
  match l with
  | .rrr => .ok { o with d := .ofNat 11 (nfld low 20 14), a := .ofNat 11 (nfld low 13 7), b := .ofNat 11 (nfld low 6 0) }
  | .mem =>
    let ak := nfld low 13 13
    .ok { o with d := .ofNat 11 (nfld low 20 14), a := .ofNat 11 (if ak = 0 then 2 * nfld low 12 7 else nfld low 12 7),
                 la := .ofNat 4 (nfld low 6 3), mods := .ofNat 13 (8 * ak + nfld low 2 0) }
  | .br =>
    if len = 1 ∧ nfld low 14 0 ≠ 0 then .error .reservedBit
    else .ok { o with mp := .ofNat 4 (nfld low 20 17), mn := nfld low 16 16 = 1, mods := .ofNat 13 (nfld low 15 15),
                      imm := if len = 1 then o.imm else (BitVec.ofNat 15 (nfld low 14 0)).signExtend 64 * 4#64 }
  | .prd => .ok { o with mp := .ofNat 4 (nfld low 20 17), mn := nfld low 16 16 = 1, imm := .ofNat 64 (nfld low 15 0) }
  | .fence =>
    if nfld low 16 0 ≠ 0 then .error .reservedBit
    else .ok { o with mods := .ofNat 13 (nfld low 20 17) }
  | .cpy =>
    if nfld low 0 0 ≠ 0 then .error .reservedBit
    else .ok { o with mods := .ofNat 13 (512 * nfld low 20 17 + 256 * nfld low 16 16), a := .ofNat 11 (nfld low 15 11),
                      b := .ofNat 11 (nfld low 10 6), c := .ofNat 11 (nfld low 5 1) }
  | .mxp =>
    .ok { o with mods := .ofNat 13 (512 * nfld low 20 17 + 256 * nfld low 16 16 + 128 * nfld low 15 15),
                 d := .ofNat 11 (nfld low 14 11), a := .ofNat 11 (nfld low 10 4), b := .ofNat 11 (nfld low 3 0) }
  | .mxd =>
    if nfld low 14 7 ≠ 0 then .error .reservedBit
    else .ok { o with mods := .ofNat 13 (512 * nfld low 20 17 + 256 * nfld low 16 16 + 128 * nfld low 15 15),
                      a := .ofNat 11 (nfld low 6 0) }
  | .bar =>
    if nfld low 15 7 ≠ 0 then .error .reservedBit
    else .ok { o with mods := .ofNat 13 (nfld low 20 17 + 16 * nfld low 16 16), b := .ofNat 11 (nfld low 6 0) }
  | .mb =>
    if nfld low 10 0 ≠ 0 then .error .reservedBit
    else .ok { o with d := .ofNat 11 (nfld low 20 14), mods := .ofNat 13 (nfld low 13 11) }
  | .waitk =>
    if nfld low 1 0 ≠ 0 then .error .reservedBit
    else .ok { o with mods := .ofNat 13 (nfld low 20 18), imm := .ofNat 64 (nfld low 17 2) }
  | .tret =>
    if nfld low 10 0 ≠ 0 then .error .reservedBit
    else .ok { o with a := .ofNat 11 (nfld low 20 16), b := .ofNat 11 (nfld low 15 11) }
  | .swrp =>
    if nfld low 12 9 ≠ 0 then .error .reservedBit
    else .ok { o with d := .ofNat 11 (nfld low 20 14), fn := .ofNat 8 (nfld low 13 13), mods := .ofNat 13 (nfld low 8 0) }
  | .npair =>
    if nfld low 20 15 ≠ 0 ∨ nfld low 6 0 ≠ 0 then .error .reservedBit
    else .ok { o with fn := .ofNat 8 (nfld low 14 14), a := .ofNat 11 (nfld low 13 7) }
  | .reform =>
    if nfld low 6 0 ≠ 0 then .error .reservedBit
    else .ok { o with mods := .ofNat 13 (nfld low 20 14), a := .ofNat 11 (nfld low 13 7) }

/-- The fields of an extended form (R25): FN and modifiers of the base word, and the 64-bit extension. -/
def unpackExt (low ext : Nat) (o : Opn) : Opn :=
  { o with fn := .ofNat 8 (nfld low 20 13), mods := .ofNat 13 (nfld low 12 0),
           d := .ofNat 11 (nfld ext 63 53), a := .ofNat 11 (nfld ext 52 42), b := .ofNat 11 (nfld ext 41 31),
           c := .ofNat 11 (nfld ext 30 20), mp := .ofNat 4 (nfld ext 19 16), mn := nfld ext 15 15 = 1,
           zm := nfld ext 14 14 = 1, rm := .ofNat 3 (nfld ext 13 11), la := .ofNat 4 (nfld ext 10 7),
           ty := .ofNat 4 (nfld ext 6 3), xf := .ofNat 3 (nfld ext 2 0) }

/-- The fields of a prefix word (R32). -/
def unpackPre (p : Nat) (o : Opn) : Opn :=
  { o with pre := true, c := .ofNat 11 (nfld p 20 14), mp := .ofNat 4 (nfld p 13 10), mn := nfld p 9 9 = 1,
           zm := nfld p 8 8 = 1, rm := .ofNat 3 (nfld p 7 5), sb := nfld p 0 0 = 1 }

/-- The constructor of an opcode and its function code; the table's rows. -/
def mkInstr (opc : Nat) (o : Opn) : Option Instr :=
  match opc with
  | 0x00 => some (.nop o)
  | 0x01 => some (.bra o)
  | 0x02 => some (.brx o)
  | 0x03 => some (.call o)
  | 0x04 => some (.ret o)
  | 0x05 => some (.exit o)
  | 0x06 => some (.jenrol o)
  | 0x07 => some (.jwait o)
  | 0x08 => some (.jmov o)
  | 0x09 => some (.reform o)
  | 0x0A => some (.matchKeys o)
  | 0x0B => some (.compact o)
  | 0x0C => some (.sadd o)
  | 0x0D => some (.ssub o)
  | 0x0E => some (.smul o)
  | 0x0F => some (.smulh o)
  | 0x10 => some (.sand o)
  | 0x11 => some (.sor o)
  | 0x12 => some (.sxor o)
  | 0x13 => some (.sshl o)
  | 0x14 => some (.sshr o)
  | 0x15 => some (.ssar o)
  | 0x16 => some (.smin o)
  | 0x17 => some (.smax o)
  | 0x18 => some (.sset o)
  | 0x19 => some (.ssel o)
  | 0x1A => some (.sli o)
  | 0x1B => some (.smov o)
  | 0x1C => some (.srd o)
  | 0x1D => some (.swr o)
  | 0x1E => some (.plog o)
  | 0x20 => some (.vadd o)
  | 0x21 => some (.vsub o)
  | 0x22 => some (.vmul o)
  | 0x23 => some (.vmulh o)
  | 0x24 => some (.vmad o)
  | 0x25 => some (.vand o)
  | 0x26 => some (.vor o)
  | 0x27 => some (.vxor o)
  | 0x28 => some (.vshl o)
  | 0x29 => some (.vshr o)
  | 0x2A => some (.vsar o)
  | 0x2B => some (.vmin o)
  | 0x2C => some (.vmax o)
  | 0x2D => some (.vabs o)
  | 0x2E => some (.vcmp o)
  | 0x2F => some (.vsel o)
  | 0x30 => some (.vmov o)
  | 0x31 => some (.vpopc o)
  | 0x32 => some (.vclz o)
  | 0x33 => some (.vbrev o)
  | 0x34 => some (.vbfe o)
  | 0x35 => some (.vbfi o)
  | 0x36 => some (.vmix3 o)
  | 0x37 => some (.vcvt o)
  | 0x38 => some (.vadds o)
  | 0x39 => some (.vsubs o)
  | 0x3A => some (.vli o)
  | 0x40 => some (.fadd o)
  | 0x41 => some (.fsub o)
  | 0x42 => some (.fmul o)
  | 0x43 => some (.ffma o)
  | 0x44 => some (.fmin o)
  | 0x45 => some (.fmax o)
  | 0x46 => some (.fcmp o)
  | 0x47 => some (.fclass o)
  | 0x48 => some (.frint o)
  | 0x49 => some (if o.fn = 1 then .fcvtBlk o else if o.fn = 2 then .fcvtDec o else .fcvt o)
  | 0x4A => some (.icvt o)
  | 0x4B => some (.fcvti o)
  | 0x4C => some (.fscale o)
  | 0x4D => some (.fexpn o)
  | 0x4E => some (.fexpf o)
  | 0x4F => some (.flog2 o)
  | 0x50 => some (.frcp o)
  | 0x51 => some (.frsq o)
  | 0x52 => some (.fsqrt o)
  | 0x53 => some (.fsin o)
  | 0x54 => some (.fcos o)
  | 0x55 => some (.ftanh o)
  | 0x56 => some (.fsgn o)
  | 0x57 => some (.fkey o)
  | 0x60 => some (.xshf o)
  | 0x61 => some (.xrot o)
  | 0x62 => some (.xbcst o)
  | 0x63 => some (.xbal o)
  | 0x64 => some (.xbcnt o)
  | 0x65 => some (.xred o)
  | 0x66 => some (.xscan o)
  | 0x67 => some (.xmov o)
  | 0x68 => some (.ld o)
  | 0x69 => some (.st o)
  | 0x6A => some (.lda o)
  | 0x6B => some (.stl o)
  | 0x6C => some (.atom o)
  | 0x6D => some (.fence o)
  | 0x6E => some (.tagl o)
  | 0x6F => some (.tagi o)
  | 0x70 => some (.tagx o)
  | 0x71 => some (.ifence o)
  | 0x72 => some (.prf o)
  | 0x78 => some (.radd o)
  | 0x79 => some (.rmin o)
  | 0x7A => some (.rmax o)
  | 0x7B => some (.ror o)
  | 0x7C => some (if o.fn = 1 then .ronceRow o else .ronce o)
  | 0x7D => some (.rarr o)
  | 0x7E => some (.rget o)
  | 0x7F => some (.accrd o)
  | 0x80 => some (if o.fn = 1 then .accdefFree o else if o.fn = 2 then .accdefStep o else if o.fn = 3 then .accdefQuery o else .accdef o)
  | 0x81 => some (.arrwait o)
  | 0x88 => some (.mopen o)
  | 0x89 => some (.mpost o)
  | 0x8A => some (.marr o)
  | 0x8B => some (.mwait o)
  | 0x8C => some (.mstat o)
  | 0x8D => some (.mrel o)
  | 0x8E => some (.mclose o)
  | 0x90 => some (.cpy o)
  | 0x91 => some (.cpym o)
  | 0x92 => some (.cpoll o)
  | 0x93 => some (.csleep o)
  | 0x98 => some (.gld o)
  | 0x99 => some (.gsc o)
  | 0x9A => some (.nzscan o)
  | 0x9B => some (.hset o)
  | 0x9C => some (.ginv o)
  | 0xA0 => some (.mxp o)
  | 0xA1 => some (.mxd o)
  | 0xA2 => some (.ldt o)
  | 0xA3 => some (.unpk o)
  | 0xA4 => some (.accmv o)
  | 0xA5 => some (.mxsave o)
  | 0xA6 => some (.mxload o)
  | 0xA7 => some (if o.fn = 1 then .mxclrLatch o else .mxclr o)
  | 0xA8 => some (.mxstat o)
  | 0xB0 => some (.nbin o)
  | 0xB1 => some (if o.fn = 1 then .npairRes o else .npair o)
  | 0xB2 => some (if o.fn = 1 then .nstatEng o else .nstat o)
  | 0xB8 => some (.launch o)
  | 0xB9 => some (.bar o)
  | 0xBA => some (if o.fn = 1 then .barvSelf o else .barv o)
  | 0xBB => some (.mbwait o)
  | 0xBC => some (.mbfill o)
  | 0xBD => some (.mbfree o)
  | 0xBE => some (.waitk o)
  | 0xBF => some (if o.fn = 1 then .yieldGrp o else .yield o)
  | 0xC0 => some (.sleep o)
  | 0xC1 => some (if o.fn = 1 then .pwrqRel o else .pwrq o)
  | 0xC8 => some (.evget o)
  | 0xC9 => some (if o.fn = 1 then .evpostStart o else if o.fn = 2 then .evpostStat o else if o.fn = 3 then .evpostHpc o else if o.fn = 4 then .evpostDrop o else .evpost o)
  | 0xCA => some (.tapef o)
  | 0xCB => some (.tdec o)
  | 0xCC => some (.tdisp o)
  | 0xCD => some (if o.fn = 1 then .locqInv o else .locq o)
  | 0xD0 => some (.clstat o)
  | 0xD1 => some (.clabort o)
  | 0xD2 => some (if o.fn = 1 then .clstepRd o else .clstep o)
  | 0xD8 => some (.trap o)
  | 0xD9 => some (.tret o)
  | 0xDA => some (.bkpt o)
  | 0xDB => some (.halt o)
  | 0xDC => some (if o.fn = 1 then .swrpWr o else if o.fn = 2 then .swrpSb o else .swrpRd o)
  | _ => none

/-- A 64-bit value held in two words, the low one first (R21). -/
def pairNat (lo hi : W32) : Nat := lo.toNat + 2 ^ 32 * hi.toNat

/-- The words after the base word that LEN asks for: extension, literal, and whether enough words are there (R21). -/
def takeTail (len : Nat) (ws : List W32) : Option (Nat × Nat) :=
  match len, ws with
  | 0, _ => some (0, 0)
  | 1, l0 :: l1 :: _ => some (0, pairNat l0 l1)
  | 2, x0 :: x1 :: _ => some (pairNat x0 x1, 0)
  | 3, x0 :: x1 :: l0 :: l1 :: _ => some (pairNat x0 x1, pairNat l0 l1)
  | _, _ => none

/-- Decode a base word (after its prefix word, if any) and the words that follow it. -/
def decodeBody (p : Option W32) (w : W32) (rest : List W32) : Except DecodeError Instr :=
  let opc := fld w 28 21
  let len := fld w 31 30
  let low := fld w 20 0
  match lensOf opc with
  | none => .error .unassigned
  | some lens =>
    if ¬ lens.contains len then .error .badLength
    else
      match takeTail len rest with
      | none => .error .short
      | some (ext, lit) =>
        let o : Opn := { Opn.zero with e := fld w 29 29 = 1, len := .ofNat 2 len, imm := .ofNat 64 lit }
        let o := match p with | none => o | some x => unpackPre x.toNat o
        let body := if 2 ≤ len then Except.ok (unpackExt low ext o) else unpackLow (layoutOf opc) len low o
        match body with
        | .error e => .error e
        | .ok o =>
          if 2 ≤ len ∧ o.xf = 1 ∧ takesPre opc then .ok (.sweep (.ofNat 8 opc) o)
          else match mkInstr opc o with
            | none => .error .unassigned
            | some i => .ok i

/-- A prefix word is misused by itself or with the word after it (R33). -/
def badPre (p w : W32) : Bool :=
  decide (fld p 31 30 ≠ 0 ∨ fld p 29 29 ≠ 0 ∨ fld p 4 1 ≠ 0 ∨ fld w 28 21 = 0xFF ∨ 2 ≤ fld w 31 30
    ∨ (fld p 0 0 = 1 ∧ fld w 31 30 = 1)) || !takesPre (fld w 28 21)

/-- Decode the instruction at the head of a list of words (R21). -/
def decodeWords : List W32 → Except DecodeError Instr
  | [] => .error .short
  | w :: rest =>
    if fld w 28 21 = 0xFF then
      match rest with
      | [] => .error .short
      | w1 :: r => if badPre w w1 then .error .badPrefix else decodeBody (some w) w1 r
    else decodeBody none w rest

/-- Words of an instruction after its base word, by LEN (R21, R22). -/
def tailWords (w : W32) : Nat :=
  if fld w 31 30 = 0 then 0 else if fld w 31 30 = 3 then 4 else 2

/-- The instruction an opcode-table word stands for: its bits, then zero words (the table's bit order is that of the base word). -/
def decodeTableWord (nbits w : Nat) : Option Instr :=
  let ws := (List.range 6).map fun k => BitVec.ofNat 32 ((w % 2 ^ nbits) >>> (32 * k))
  match decodeWords ws with
  | .ok i => some i
  | .error _ => none

/-! ## The encoder -/

/-- The opcode of an instruction; 0x100 for a step that has no encoding. -/
def opcOf : Instr → Nat
  | .nop _ => 0x00
  | .bra _ => 0x01
  | .brx _ => 0x02
  | .call _ => 0x03
  | .ret _ => 0x04
  | .exit _ => 0x05
  | .jenrol _ => 0x06
  | .jwait _ => 0x07
  | .jmov _ => 0x08
  | .reform _ => 0x09
  | .matchKeys _ => 0x0A
  | .compact _ => 0x0B
  | .sadd _ => 0x0C
  | .ssub _ => 0x0D
  | .smul _ => 0x0E
  | .smulh _ => 0x0F
  | .sand _ => 0x10
  | .sor _ => 0x11
  | .sxor _ => 0x12
  | .sshl _ => 0x13
  | .sshr _ => 0x14
  | .ssar _ => 0x15
  | .smin _ => 0x16
  | .smax _ => 0x17
  | .sset _ => 0x18
  | .ssel _ => 0x19
  | .sli _ => 0x1A
  | .smov _ => 0x1B
  | .srd _ => 0x1C
  | .swr _ => 0x1D
  | .plog _ => 0x1E
  | .vadd _ => 0x20
  | .vsub _ => 0x21
  | .vmul _ => 0x22
  | .vmulh _ => 0x23
  | .vmad _ => 0x24
  | .vand _ => 0x25
  | .vor _ => 0x26
  | .vxor _ => 0x27
  | .vshl _ => 0x28
  | .vshr _ => 0x29
  | .vsar _ => 0x2A
  | .vmin _ => 0x2B
  | .vmax _ => 0x2C
  | .vabs _ => 0x2D
  | .vcmp _ => 0x2E
  | .vsel _ => 0x2F
  | .vmov _ => 0x30
  | .vpopc _ => 0x31
  | .vclz _ => 0x32
  | .vbrev _ => 0x33
  | .vbfe _ => 0x34
  | .vbfi _ => 0x35
  | .vmix3 _ => 0x36
  | .vcvt _ => 0x37
  | .vadds _ => 0x38
  | .vsubs _ => 0x39
  | .vli _ => 0x3A
  | .fadd _ => 0x40
  | .fsub _ => 0x41
  | .fmul _ => 0x42
  | .ffma _ => 0x43
  | .fmin _ => 0x44
  | .fmax _ => 0x45
  | .fcmp _ => 0x46
  | .fclass _ => 0x47
  | .frint _ => 0x48
  | .fcvt _ => 0x49
  | .fcvtBlk _ => 0x49
  | .fcvtDec _ => 0x49
  | .icvt _ => 0x4A
  | .fcvti _ => 0x4B
  | .fscale _ => 0x4C
  | .fexpn _ => 0x4D
  | .fexpf _ => 0x4E
  | .flog2 _ => 0x4F
  | .frcp _ => 0x50
  | .frsq _ => 0x51
  | .fsqrt _ => 0x52
  | .fsin _ => 0x53
  | .fcos _ => 0x54
  | .ftanh _ => 0x55
  | .fsgn _ => 0x56
  | .fkey _ => 0x57
  | .xshf _ => 0x60
  | .xrot _ => 0x61
  | .xbcst _ => 0x62
  | .xbal _ => 0x63
  | .xbcnt _ => 0x64
  | .xred _ => 0x65
  | .xscan _ => 0x66
  | .xmov _ => 0x67
  | .ld _ => 0x68
  | .st _ => 0x69
  | .lda _ => 0x6A
  | .stl _ => 0x6B
  | .atom _ => 0x6C
  | .fence _ => 0x6D
  | .tagl _ => 0x6E
  | .tagi _ => 0x6F
  | .tagx _ => 0x70
  | .ifence _ => 0x71
  | .prf _ => 0x72
  | .radd _ => 0x78
  | .rmin _ => 0x79
  | .rmax _ => 0x7A
  | .ror _ => 0x7B
  | .ronce _ => 0x7C
  | .ronceRow _ => 0x7C
  | .rarr _ => 0x7D
  | .rget _ => 0x7E
  | .accrd _ => 0x7F
  | .accdef _ => 0x80
  | .accdefFree _ => 0x80
  | .accdefStep _ => 0x80
  | .accdefQuery _ => 0x80
  | .arrwait _ => 0x81
  | .mopen _ => 0x88
  | .mpost _ => 0x89
  | .marr _ => 0x8A
  | .mwait _ => 0x8B
  | .mstat _ => 0x8C
  | .mrel _ => 0x8D
  | .mclose _ => 0x8E
  | .cpy _ => 0x90
  | .cpym _ => 0x91
  | .cpoll _ => 0x92
  | .csleep _ => 0x93
  | .gld _ => 0x98
  | .gsc _ => 0x99
  | .nzscan _ => 0x9A
  | .hset _ => 0x9B
  | .ginv _ => 0x9C
  | .mxp _ => 0xA0
  | .mxd _ => 0xA1
  | .ldt _ => 0xA2
  | .unpk _ => 0xA3
  | .accmv _ => 0xA4
  | .mxsave _ => 0xA5
  | .mxload _ => 0xA6
  | .mxclr _ => 0xA7
  | .mxclrLatch _ => 0xA7
  | .mxstat _ => 0xA8
  | .nbin _ => 0xB0
  | .npair _ => 0xB1
  | .npairRes _ => 0xB1
  | .nstat _ => 0xB2
  | .nstatEng _ => 0xB2
  | .launch _ => 0xB8
  | .bar _ => 0xB9
  | .barv _ => 0xBA
  | .barvSelf _ => 0xBA
  | .mbwait _ => 0xBB
  | .mbfill _ => 0xBC
  | .mbfree _ => 0xBD
  | .waitk _ => 0xBE
  | .yield _ => 0xBF
  | .yieldGrp _ => 0xBF
  | .sleep _ => 0xC0
  | .pwrq _ => 0xC1
  | .pwrqRel _ => 0xC1
  | .evget _ => 0xC8
  | .evpost _ => 0xC9
  | .evpostStart _ => 0xC9
  | .evpostStat _ => 0xC9
  | .evpostHpc _ => 0xC9
  | .evpostDrop _ => 0xC9
  | .tapef _ => 0xCA
  | .tdec _ => 0xCB
  | .tdisp _ => 0xCC
  | .locq _ => 0xCD
  | .locqInv _ => 0xCD
  | .clstat _ => 0xD0
  | .clabort _ => 0xD1
  | .clstep _ => 0xD2
  | .clstepRd _ => 0xD2
  | .trap _ => 0xD8
  | .tret _ => 0xD9
  | .bkpt _ => 0xDA
  | .halt _ => 0xDB
  | .swrpRd _ => 0xDC
  | .swrpWr _ => 0xDC
  | .swrpSb _ => 0xDC
  | .sweep opc _ => opc.toNat
  | .loadDataReturn _ _ _ _ => 0x100
  | .writePerformed _ _ => 0x100
  | .arrwaitWake _ _ => 0x100
  | .letterReceive _ _ => 0x100
  | .meetingClearComplete _ _ => 0x100
  | .rgetRead _ _ => 0x100
  | .replyReceive _ => 0x100
  | .acknowledgementReceive _ _ => 0x100
  | .resendTimer _ => 0x100
  | .refusedRetry _ => 0x100
  | .settleNoticeSend _ => 0x100
  | .settleNoticeReceive _ _ => 0x100
  | .postmarkExpiry _ _ => 0x100
  | .mwaitWake _ _ => 0x100
  | .copyDispatch _ => 0x100
  | .leaveGrant _ => 0x100
  | .leaveExpiry _ => 0x100
  | .copyPage _ _ => 0x100
  | .copyCompletionStep _ => 0x100
  | .csleepWake _ _ => 0x100
  | .matrixGroup _ _ _ => 0x100
  | .neighbourJobStart _ _ => 0x100
  | .npairStageFill _ => 0x100
  | .neighbourJobComplete _ => 0x100
  | .mbwaitWake _ _ => 0x100
  | .waitkRelease _ _ => 0x100
  | .sleepExpiry _ _ => 0x100
  | .evgetWake _ => 0x100
  | .tdispFill _ _ => 0x100
  | .runSelect _ => 0x100
  | .trapEntry _ => 0x100
  | .reformFiling _ => 0x100
  | .pigeonholeAgeExpiry _ => 0x100
  | .bundleFree _ => 0x100
  | .launchRecordTake _ => 0x100
  | .guardMet _ => 0x100
  | .teamDispatch _ => 0x100
  | .eviction _ => 0x100
  | .restore _ => 0x100
  | .gridRetire _ => 0x100
  | .chunkFire _ _ => 0x100
  | .segmentReceive _ => 0x100
  | .segmentTimeout _ _ _ => 0x100
  | .linkLoss _ => 0x100
  | .abortReceive _ _ _ _ => 0x100
  | .fqresume _ => 0x100
  | .tlbinvc _ => 0x100
  | .tlbinvComplete => 0x100
  | .stresumeResume _ => 0x100
  | .stresumeKill _ => 0x100
  | .groupHold _ => 0x100
  | .fenceTableWrite _ _ => 0x100
  | .pkgidWrite _ => 0x100
  | .mbcmdReport => 0x100
  | .mbcmdPubkey => 0x100
  | .registerWrite _ _ _ => 0x100
  | .cxlMemWrite _ _ => 0x100
  | .cxlMemRead _ _ => 0x100
  | .hostLinkDown => 0x100
  | .packageReset => 0x100
  | .bootRom _ _ => 0x100
  | .bootFirmware _ _ => 0x100
  | .powerDivision _ => 0x100
  | .thermalHold _ _ => 0x100
  | .thermalShutdown _ _ => 0x100
  | .queuedMatrixInstruction _ => 0x100
  | .vectorResultWrite _ => 0x100
  | .thermalHoldClear _ _ => 0x100
  | .groupHoldClear _ => 0x100
  | .abortAnswer _ _ _ => 0x100
  | .ringTrafficAcknowledgement _ _ => 0x100

/-- The operands of an encoded instruction. -/
def opnOf : Instr → Option Opn
  | .nop o => some o
  | .bra o => some o
  | .brx o => some o
  | .call o => some o
  | .ret o => some o
  | .exit o => some o
  | .jenrol o => some o
  | .jwait o => some o
  | .jmov o => some o
  | .reform o => some o
  | .matchKeys o => some o
  | .compact o => some o
  | .sadd o => some o
  | .ssub o => some o
  | .smul o => some o
  | .smulh o => some o
  | .sand o => some o
  | .sor o => some o
  | .sxor o => some o
  | .sshl o => some o
  | .sshr o => some o
  | .ssar o => some o
  | .smin o => some o
  | .smax o => some o
  | .sset o => some o
  | .ssel o => some o
  | .sli o => some o
  | .smov o => some o
  | .srd o => some o
  | .swr o => some o
  | .plog o => some o
  | .vadd o => some o
  | .vsub o => some o
  | .vmul o => some o
  | .vmulh o => some o
  | .vmad o => some o
  | .vand o => some o
  | .vor o => some o
  | .vxor o => some o
  | .vshl o => some o
  | .vshr o => some o
  | .vsar o => some o
  | .vmin o => some o
  | .vmax o => some o
  | .vabs o => some o
  | .vcmp o => some o
  | .vsel o => some o
  | .vmov o => some o
  | .vpopc o => some o
  | .vclz o => some o
  | .vbrev o => some o
  | .vbfe o => some o
  | .vbfi o => some o
  | .vmix3 o => some o
  | .vcvt o => some o
  | .vadds o => some o
  | .vsubs o => some o
  | .vli o => some o
  | .fadd o => some o
  | .fsub o => some o
  | .fmul o => some o
  | .ffma o => some o
  | .fmin o => some o
  | .fmax o => some o
  | .fcmp o => some o
  | .fclass o => some o
  | .frint o => some o
  | .fcvt o => some o
  | .fcvtBlk o => some o
  | .fcvtDec o => some o
  | .icvt o => some o
  | .fcvti o => some o
  | .fscale o => some o
  | .fexpn o => some o
  | .fexpf o => some o
  | .flog2 o => some o
  | .frcp o => some o
  | .frsq o => some o
  | .fsqrt o => some o
  | .fsin o => some o
  | .fcos o => some o
  | .ftanh o => some o
  | .fsgn o => some o
  | .fkey o => some o
  | .xshf o => some o
  | .xrot o => some o
  | .xbcst o => some o
  | .xbal o => some o
  | .xbcnt o => some o
  | .xred o => some o
  | .xscan o => some o
  | .xmov o => some o
  | .ld o => some o
  | .st o => some o
  | .lda o => some o
  | .stl o => some o
  | .atom o => some o
  | .fence o => some o
  | .tagl o => some o
  | .tagi o => some o
  | .tagx o => some o
  | .ifence o => some o
  | .prf o => some o
  | .radd o => some o
  | .rmin o => some o
  | .rmax o => some o
  | .ror o => some o
  | .ronce o => some o
  | .ronceRow o => some o
  | .rarr o => some o
  | .rget o => some o
  | .accrd o => some o
  | .accdef o => some o
  | .accdefFree o => some o
  | .accdefStep o => some o
  | .accdefQuery o => some o
  | .arrwait o => some o
  | .mopen o => some o
  | .mpost o => some o
  | .marr o => some o
  | .mwait o => some o
  | .mstat o => some o
  | .mrel o => some o
  | .mclose o => some o
  | .cpy o => some o
  | .cpym o => some o
  | .cpoll o => some o
  | .csleep o => some o
  | .gld o => some o
  | .gsc o => some o
  | .nzscan o => some o
  | .hset o => some o
  | .ginv o => some o
  | .mxp o => some o
  | .mxd o => some o
  | .ldt o => some o
  | .unpk o => some o
  | .accmv o => some o
  | .mxsave o => some o
  | .mxload o => some o
  | .mxclr o => some o
  | .mxclrLatch o => some o
  | .mxstat o => some o
  | .nbin o => some o
  | .npair o => some o
  | .npairRes o => some o
  | .nstat o => some o
  | .nstatEng o => some o
  | .launch o => some o
  | .bar o => some o
  | .barv o => some o
  | .barvSelf o => some o
  | .mbwait o => some o
  | .mbfill o => some o
  | .mbfree o => some o
  | .waitk o => some o
  | .yield o => some o
  | .yieldGrp o => some o
  | .sleep o => some o
  | .pwrq o => some o
  | .pwrqRel o => some o
  | .evget o => some o
  | .evpost o => some o
  | .evpostStart o => some o
  | .evpostStat o => some o
  | .evpostHpc o => some o
  | .evpostDrop o => some o
  | .tapef o => some o
  | .tdec o => some o
  | .tdisp o => some o
  | .locq o => some o
  | .locqInv o => some o
  | .clstat o => some o
  | .clabort o => some o
  | .clstep o => some o
  | .clstepRd o => some o
  | .trap o => some o
  | .tret o => some o
  | .bkpt o => some o
  | .halt o => some o
  | .swrpRd o => some o
  | .swrpWr o => some o
  | .swrpSb o => some o
  | .sweep _ o => some o
  | .loadDataReturn _ _ _ _ => none
  | .writePerformed _ _ => none
  | .arrwaitWake _ _ => none
  | .letterReceive _ _ => none
  | .meetingClearComplete _ _ => none
  | .rgetRead _ _ => none
  | .replyReceive _ => none
  | .acknowledgementReceive _ _ => none
  | .resendTimer _ => none
  | .refusedRetry _ => none
  | .settleNoticeSend _ => none
  | .settleNoticeReceive _ _ => none
  | .postmarkExpiry _ _ => none
  | .mwaitWake _ _ => none
  | .copyDispatch _ => none
  | .leaveGrant _ => none
  | .leaveExpiry _ => none
  | .copyPage _ _ => none
  | .copyCompletionStep _ => none
  | .csleepWake _ _ => none
  | .matrixGroup _ _ _ => none
  | .neighbourJobStart _ _ => none
  | .npairStageFill _ => none
  | .neighbourJobComplete _ => none
  | .mbwaitWake _ _ => none
  | .waitkRelease _ _ => none
  | .sleepExpiry _ _ => none
  | .evgetWake _ => none
  | .tdispFill _ _ => none
  | .runSelect _ => none
  | .trapEntry _ => none
  | .reformFiling _ => none
  | .pigeonholeAgeExpiry _ => none
  | .bundleFree _ => none
  | .launchRecordTake _ => none
  | .guardMet _ => none
  | .teamDispatch _ => none
  | .eviction _ => none
  | .restore _ => none
  | .gridRetire _ => none
  | .chunkFire _ _ => none
  | .segmentReceive _ => none
  | .segmentTimeout _ _ _ => none
  | .linkLoss _ => none
  | .abortReceive _ _ _ _ => none
  | .fqresume _ => none
  | .tlbinvc _ => none
  | .tlbinvComplete => none
  | .stresumeResume _ => none
  | .stresumeKill _ => none
  | .groupHold _ => none
  | .fenceTableWrite _ _ => none
  | .pkgidWrite _ => none
  | .mbcmdReport => none
  | .mbcmdPubkey => none
  | .registerWrite _ _ _ => none
  | .cxlMemWrite _ _ => none
  | .cxlMemRead _ _ => none
  | .hostLinkDown => none
  | .packageReset => none
  | .bootRom _ _ => none
  | .bootFirmware _ _ => none
  | .powerDivision _ => none
  | .thermalHold _ _ => none
  | .thermalShutdown _ _ => none
  | .queuedMatrixInstruction _ => none
  | .vectorResultWrite _ => none
  | .thermalHoldClear _ _ => none
  | .groupHoldClear _ => none
  | .abortAnswer _ _ _ => none
  | .ringTrafficAcknowledgement _ _ => none

/-- Bits [20:0] of a base word with LEN 00 or 01. -/
def packLow (l : Layout) (o : Opn) : Nat :=
  match l with
  | .rrr => o.d.toNat * 2 ^ 14 + o.a.toNat * 2 ^ 7 + o.b.toNat
  | .mem =>
    let ak := nfld o.mods.toNat 3 3
    o.d.toNat * 2 ^ 14 + ak * 2 ^ 13 + (if ak = 0 then o.a.toNat / 2 else o.a.toNat) * 2 ^ 7 + o.la.toNat * 2 ^ 3
      + nfld o.mods.toNat 2 0
  | .br =>
    o.mp.toNat * 2 ^ 17 + boolNat o.mn * 2 ^ 16 + nfld o.mods.toNat 0 0 * 2 ^ 15
      + (if o.len = 1 then 0 else (o.imm.toNat / 4) % 2 ^ 15)
  | .prd => o.mp.toNat * 2 ^ 17 + boolNat o.mn * 2 ^ 16 + o.imm.toNat
  | .fence => o.mods.toNat * 2 ^ 17
  | .cpy =>
    nfld o.mods.toNat 12 9 * 2 ^ 17 + nfld o.mods.toNat 8 8 * 2 ^ 16 + o.a.toNat * 2 ^ 11 + o.b.toNat * 2 ^ 6 + o.c.toNat * 2
  | .mxp =>
    nfld o.mods.toNat 12 9 * 2 ^ 17 + nfld o.mods.toNat 8 8 * 2 ^ 16 + nfld o.mods.toNat 7 7 * 2 ^ 15 + o.d.toNat * 2 ^ 11
      + o.a.toNat * 2 ^ 4 + o.b.toNat
  | .mxd =>
    nfld o.mods.toNat 12 9 * 2 ^ 17 + nfld o.mods.toNat 8 8 * 2 ^ 16 + nfld o.mods.toNat 7 7 * 2 ^ 15 + o.a.toNat
  | .bar => nfld o.mods.toNat 3 0 * 2 ^ 17 + nfld o.mods.toNat 4 4 * 2 ^ 16 + o.b.toNat
  | .mb => o.d.toNat * 2 ^ 14 + o.mods.toNat * 2 ^ 11
  | .waitk => o.mods.toNat * 2 ^ 18 + o.imm.toNat * 2 ^ 2
  | .tret => o.a.toNat * 2 ^ 16 + o.b.toNat * 2 ^ 11
  | .swrp => o.d.toNat * 2 ^ 14 + o.fn.toNat * 2 ^ 13 + o.mods.toNat
  | .npair => o.fn.toNat * 2 ^ 14 + o.a.toNat * 2 ^ 7
  | .reform => o.mods.toNat * 2 ^ 14 + o.a.toNat * 2 ^ 7

/-- Bits [20:0] of a base word with LEN 10 or 11 (R25). -/
def packExtLow (o : Opn) : Nat := o.fn.toNat * 2 ^ 13 + o.mods.toNat

/-- The 64-bit extension (R25). -/
def packExt (o : Opn) : Nat :=
  o.d.toNat * 2 ^ 53 + o.a.toNat * 2 ^ 42 + o.b.toNat * 2 ^ 31 + o.c.toNat * 2 ^ 20 + o.mp.toNat * 2 ^ 16
    + boolNat o.mn * 2 ^ 15 + boolNat o.zm * 2 ^ 14 + o.rm.toNat * 2 ^ 11 + o.la.toNat * 2 ^ 7 + o.ty.toNat * 2 ^ 3 + o.xf.toNat

/-- The prefix word (R32). -/
def packPre (o : Opn) : Nat :=
  0xFF * 2 ^ 21 + o.c.toNat * 2 ^ 14 + o.mp.toNat * 2 ^ 10 + boolNat o.mn * 2 ^ 9 + boolNat o.zm * 2 ^ 8 + o.rm.toNat * 2 ^ 5
    + boolNat o.sb

def halves (n : Nat) : List W32 := [BitVec.ofNat 32 n, BitVec.ofNat 32 (n / 2 ^ 32)]

/-- The words of operands under an opcode, in address order (R21, R22). -/
def encodeOpn (opc : Nat) (o : Opn) : List W32 :=
  let low := if 2 ≤ o.len.toNat then packExtLow o else packLow (layoutOf opc) o
  let base := BitVec.ofNat 32 (o.len.toNat * 2 ^ 30 + boolNat o.e * 2 ^ 29 + opc * 2 ^ 21 + low)
  (if o.pre then [BitVec.ofNat 32 (packPre o)] else []) ++ [base]
    ++ (if 2 ≤ o.len.toNat then halves (packExt o) else [])
    ++ (if o.len.toNat % 2 = 1 then halves o.imm.toNat else [])

/-- The words of an instruction, in address order; a step without an encoding has none. -/
def encode (i : Instr) : List W32 :=
  match opnOf i with
  | none => []
  | some o => encodeOpn (opcOf i) o

/-- Size of an instruction in words, its prefix word included (R21). -/
def sizeWords (o : Opn) : Nat :=
  boolNat o.pre + (if o.len = 0 then 1 else if o.len = 3 then 5 else 3)

end Sys2Proof
end

