-- ==== Sys2Proof/Config.lean ====
section
/-! DEFINITION. What the spec leaves open, as opaque values that nothing can evaluate (log 2), and the part's fixed counts (R1, R10). -/

namespace Sys2Proof.Config

/-- A choice among the outcomes that the spec lists, drawn by the counter `Mach.free`; used only modulo the number of
outcomes, and only where the outcomes differ. -/
opaque choice : Nat → Nat

/-- A word the spec states no value for, drawn by the counter `Mach.free`. -/
opaque word : Nat → W64

/-- What the special function unit returns for an opcode, a type, and an operand with FPCTL in bits [95:64], before it is held to the values R124 allows. -/
opaque special : Nat → Nat → Nat → Nat

/-- The bytes of an attestation report and of the public key that the spec does not compute (R405): what (0 digest of the firmware image,
3 the public key, 4 the signature), what it depends on, and the byte. -/
opaque identity : Nat → Nat → Nat → Byte

/-- SHA3-512 of a sequence of numbers that stand for bytes or for a world assignment (R405), byte by byte: the spec does not compute it. -/
opaque digest : List Nat → Nat → Byte

/-- By how much a core's reading of CLK is ahead of the package's count (R79), before it is held to 0 to 64. -/
opaque skew : Nat → Nat

/-- Lanes of a bundle (R1). -/
def bwidth : Nat := 32

/-- Cycles in one microsecond (R1). -/
def usCycles : Nat := 2250

/-- Bytes of a scratchpad (R10). -/
def scratchBytes : Nat := 0x180000

/-- Device memory homed on one die (R161). -/
def dieBytes : Nat := 0x3000000000

/-- Spacing of the cores' scratchpads in the scratchpad store. -/
def scratchStride : Nat := 0x200000

end Sys2Proof.Config
end

