-- ==== Sys2Proof/Machine/State.lean ====
section
/-! DEFINITION. The state of one ATK-9120 package as plain data, and the package right after reset. Cores are numbered
die * 96 + core; a bundle's key is core * 256 + bundle slot, slot 128 being the control core; a team's key is
core * 128 + team slot; a quadrant's key is core * 8 + quadrant, quadrant 4 being the control core's issue slot. -/

namespace Sys2Proof.Machine

/-- Where a location's ordering point lies (R170): device memory, host memory, or a scratchpad (key core * 0x200000 + offset). -/
inductive Space where
  | dev | host | scratch
  deriving DecidableEq, Repr

/-- What a parked group waits for (R205, R226, R248, R327, R330, R331, R341); `d` is the scalar register written on waking. -/
inductive Wait where
  | arrival (d : Nat) (pa : Nat)
  | meeting (d : Nat) (pa : Nat) (tag : W32)
  | ring (peek : Bool) (d : Nat) (off : Nat)
  | mailbag (free : Bool) (d mb : Nat)
  | counter (cls n : Nat)
  | sleep (till : Nat)
  | event (d : Nat)
  /-- LOCQ waits for an entry at another home (R350): destination, descriptor, key, table base, LOG2N, PROBES, h, next probe. -/
  | locq (d desc : Nat) (key : W32) (tbase : W64) (log2n probes h i : Nat)
  deriving DecidableEq, Repr

/-- The state of a lane (R80). A parked lane stays at its instruction, whose size in bytes is `sz`; lanes parked by one issue
share `seq`; a lane at REFORM knows the CARRY and the next program counter (R94). -/
inductive LaneSt where
  | empty
  | exited
  | runnable
  | join (k sz : Nat)
  | reform (carry : Nat) (next : W64)
  | bar (k sz : Nat)
  | wait (w : Wait) (seq sz : Nat)
  deriving DecidableEq, Repr

/-- An entry of a thread's deterministic store buffer (R179): scratchpad offset in the team's allocation, and bytes. -/
structure StoreEntry where
  off : Nat
  data : List Byte
  deriving DecidableEq, Repr

/-- One lane: its thread's program counter, LNK (R77), TIDX (R12), the time its group last ran (R81), its store buffer. -/
structure Lane where
  st : LaneSt
  pc : W64
  lnk : W64
  tidx : Nat
  last : Nat
  sbuf : List StoreEntry
  deriving DecidableEq, Repr

def Lane.none : Lane := ⟨.empty, 0, 0, 0, 0, []⟩

/-- An operation counted in one of the six counters (R182): 0 copy, 1 mem, 2 gather, 3 matrix, 4 remote, 5 collective. -/
structure Out where
  id : Nat
  cls : Nat
  done : Bool
  deriving DecidableEq, Repr

/-- A mark awaiting report (R194, R245, R258, R280): its operation and whether that has completed, the trap class where an instruction
held for the operation's counter class reports it and where none does, cause, address, and the counter class; `held` says which of
the two it is, decided as the operation completes. -/
structure Mark where
  id : Nat
  ready : Bool
  cls : Nat
  loose : Nat
  cause : Nat
  addr : W64
  kind : Nat
  held : Bool
  deriving DecidableEq, Repr

/-- What one lane met in a trap (R374); cause 0 for a lane that only reports exceptions. -/
structure Cond where
  lane : Nat
  cls : Nat
  cause : Nat
  addr : W64
  flags : Nat
  deriving DecidableEq, Repr

/-- A trap to be entered (R373). -/
structure Trap where
  cls : Nat
  cause : Nat
  pc : W64
  noins : Bool
  sweep : Bool
  isz : Nat
  mask : Lanes
  conds : List Cond
  code : Nat
  iter : Nat
  deriving DecidableEq, Repr

/-- A side-buffer entry (R374). -/
structure SideEntry where
  addr : W64
  info : W64
  deriving DecidableEq, Repr

/-- The registers of a bundle (R14, R67, R68, R88, R369, R378): v keyed register * 32 + lane, p and j keyed by number. -/
structure Regs where
  v : Sparse W32
  s : Sparse W64
  p : Sparse Lanes
  j : Sparse Lanes
  w : Sparse W64
  fpctl : W32
  fpstat : W32
  stepTag : W16
  deriving DecidableEq, Repr

/-- The trap-state words (R375, R376) and the side buffer (R374). -/
structure TrapRegs where
  tvbase : W64
  dbgctl : W64
  tpc : W64
  tstat : W64
  tmask : W64
  tcond : W64
  tinfo : W64
  side : Sparse SideEntry
  deriving DecidableEq, Repr

/-- A latched A operand (R279): what names it, and its registers' words, register by register and lane by lane. -/
structure Latch where
  areg : Nat
  asreg : Nat
  ng : Nat
  fa : Nat
  arun : List W32
  srun : List W32
  deriving DecidableEq, Repr

/-- A sweep under way (R34, R128): its opcode, program counter and fields, its group, the lanes that take part and those it writes, the
iteration, and the offsets that D, A and B held at issue. -/
structure Sweep where
  opc : Nat
  pc : W64
  o : Opn
  grp : Lanes
  act : Lanes
  wrt : Lanes
  it : Nat
  offD : W64
  offA : W64
  offB : W64
  deriving DecidableEq, Repr

/-- A bundle slot, or the control core (R333). -/
structure Bundle where
  team : Nat
  bnum : Nat
  lanes : Sparse Lane
  regs : Regs
  trap : TrapRegs
  /-- Handler in progress, with its program counter (R373), and the tiles saved in this entry (R382). -/
  hand : Option W64
  savedTiles : List Nat
  /-- Operations counted and not retired, oldest first (R182). -/
  outs : List Out
  /-- Marks awaiting report, oldest first (R194). -/
  marks : List Mark
  latch : Option Latch
  /-- Time the bundle last held the issue slot (R319). -/
  last : Nat
  /-- The group whose single-step trap is due (R377). -/
  stepped : Lanes
  /-- A trap whose entry waits for register writes (R373). -/
  pend : Option Trap
  /-- The outstanding replayable fault (R168): its FID, and the trap that a failed resume raises (R169). -/
  fault : Option (W32 × Trap)
  /-- Sweep resumption point (R385): program counter, iteration, lanes. -/
  resume : Option (W64 × Nat × Lanes)
  /-- A FENCE holds the next run (R176). -/
  fenced : Bool
  /-- A RARR is held at issue (R194, R204). -/
  held : Bool
  /-- A REFORM deposit is complete and the slot waits for threads (R95). -/
  waiting : Bool
  /-- Filing of the bundle's threads is under way (R95). -/
  filing : Bool
  /-- Fetch blocks held by the front end (R184), keyed by physical block. -/
  blocks : Sparse (List Byte)
  /-- The sweep under way (R128). -/
  sweep : Option Sweep
  /-- WAITK of the handler (R330): counter class and count. -/
  hwait : Option (Nat × Nat)
  /-- Groups whose instruction marked W waits for accesses of the lanes given (R36, R319). -/
  calm : List (Lanes × Lanes)
  deriving DecidableEq, Repr

/-- A scheduling run (R36): the bundle, its group, the next program counter, instructions issued so far. -/
structure Run where
  key : Nat
  grp : Lanes
  pc : W64
  n : Nat
  deriving DecidableEq, Repr

/-- A team barrier (R322). `mode` 0 none, 1 all, 2 counted; receivers are team keys. -/
structure Barrier where
  mode : Nat
  e : Nat
  arrivals : Nat
  recv : List Nat
  last : List Nat
  deriving DecidableEq, Repr

def Barrier.none : Barrier := ⟨0, 0, 0, [], []⟩

/-- A mailbag (R326). -/
structure Mailbag where
  stages : Nat
  claim : W32
  fill : W32
  take : W32
  free : W32
  err : Bool
  deriving DecidableEq, Repr

def Mailbag.none : Mailbag := ⟨0, 0, 0, 0, 0, false⟩

/-- A stage claimed by TDISP and not yet filled (R348): mailbag, claim number, the control core's key and operation. -/
structure Dispatched where
  mb : Nat
  n : Nat
  key : Nat
  out : Nat
  deriving DecidableEq, Repr

/-- Leave of a team (R332): 0 none, 1 asked, 2 held, 3 released while operations run and asked for again; when asked or last used; a release
waits for running operations. -/
structure Leave where
  st : Nat
  since : Nat
  rel : Bool
  deriving DecidableEq, Repr

/-- A resident team. -/
structure Team where
  grid : Nat
  /-- Linear team index (R315). -/
  idx : Nat
  gen : W32
  nb : Nat
  /-- First scratchpad slot and their count (R155). -/
  scr : Nat
  nscr : Nat
  /-- Physical tile of each team tile. -/
  tiles : List Nat
  /-- Order of placement, youngest highest (R317). -/
  placed : Nat
  bars : Sparse Barrier
  mails : Sparse Mailbag
  disp : List Dispatched
  /-- Bound handles: the 64 bytes of each descriptor (R253). -/
  handles : Sparse (List Byte)
  mstat : W64
  reruns : W32
  mism2 : W32
  copySeq : W32
  leave : Leave
  /-- Bundles of the team evicted, by number (R317). -/
  away : List Nat
  killed : Bool
  /-- Store buffers of exited threads whose bundle is gone, with their TIDX (R180). -/
  left : List (Nat × List StoreEntry)
  deriving DecidableEq, Repr

/-- A chunk whose firing is due (R357): its leave, and the die whose desk is asked. -/
structure Due where
  chunk : Nat
  leave : Leave
  die : Nat
  deriving DecidableEq, Repr

/-- The parsed launch record of a grid (R306) and the grid's progress (R312, R315). -/
structure Grid where
  entry : W64
  gx : Nat
  gy : Nat
  gz : Nat
  threads : Nat
  regs : Nat
  scr : Nat
  tiles : Nat
  cls : Nat
  det : Bool
  legacy : Bool
  world : Bool
  chk : Nat
  age : Nat
  asid : Nat
  diemask : Nat
  roletab : W64
  mbs : W64
  /-- Size word, guard and DONE (R311): physical addresses in device memory. -/
  sizeaddr : Option Nat
  guard : Option Nat
  done : Option Nat
  hmask : W64
  htab : W64
  slots : List (BitVec 128)
  coll : List W64
  args : List W64
  pri : Nat
  depth : Nat
  parent : Option Nat
  /-- Where RSTAT lies in the record as taken (R312); none for a record in a scratchpad window. -/
  home : Option (Space × Nat)
  /-- The guard holds the teams back (R311). -/
  guarded : Bool
  next : Nat
  retired : Nat
  anyKilled : Bool
  device : Bool
  /-- The grid has retired (R312); it is kept while a chunk of its collective is due. -/
  closed : Bool
  /-- Teams of each chunk retired, and chunks whose firing is due (R357). -/
  chunks : Sparse Nat
  due : List Due
  deriving DecidableEq, Repr

/-- What a bundle gives the fresh bundle that receives its threads (R66, R97, R369, R376). -/
structure Origin where
  bnum : Nat
  s : Sparse W64
  fpctl : W32
  fpstat : W32
  stepTag : W16
  tvbase : W64
  dbgctl : W64
  deriving DecidableEq, Repr

/-- A thread in the sorting table (R95): TIDX, the CARRY of its REFORM, LNK, store buffer, v0 to v(CARRY - 1) by number, p1 to p15 as
bits, and what its bundle gives. -/
structure Filed where
  tidx : Nat
  carry : Nat
  lnk : W64
  sbuf : List StoreEntry
  v : Sparse W32
  p : W16
  origin : Origin
  deriving DecidableEq, Repr

/-- A pigeonhole of a core's sorting table (R94): team and next program counter, start of its age, threads in filing order. -/
structure Pigeon where
  team : Nat
  pc : W64
  born : Nat
  thr : List Filed
  deriving DecidableEq, Repr

/-- An in-tray event (R339). -/
structure Event where
  lo : W64
  hi : W64
  src : W64
  deriving DecidableEq, Repr

/-- One part of an outstanding memory operation, performed as one single-copy atomic step (R149, R152, R263). -/
inductive PartKind where
  /-- A read; the bytes given come from the thread's own store buffer (R179). -/
  | read (own : List (Nat × Byte))
  /-- A write of the bytes listed; bytes a higher lane also writes are left out (R149). -/
  | write (cells : List (Nat × Byte))
  /-- A read-modify-write: ATOM's FN, TY, operand and comparand (R151). -/
  | rmw (fn ty : Nat) (opd cmp : W64)
  /-- A decrement of a dependence counter, made by the core given (R347). -/
  | dec (core : Nat)
  /-- A 16-byte read of an element with its line's status byte: function, type, rounding mode at issue, with FTZ as 8 (R207). -/
  | acc (fn ty mode : Nat) (status : Nat) (b : Int)
  /-- One lane's element of a GLD: the value and column decoded at issue (R257, R260), or an uncorrectable error met on the way. -/
  | elem (val : W64) (col : Option W32) (bad : Bool)
  /-- A GSC.bpc chunk (R264): captured descriptor, chunk number, where its offset entry lies, stored positions and values; `stage` steps
  are made: 1 a claim of units from `unit` on, 2 the chunk written; `fail` is what stopped it. -/
  | pack (desc : List Byte) (q offPa : Nat) (elems : List (Nat × W64)) (stage unit : Nat) (fail : Option (Nat × W64))
  deriving DecidableEq, Repr

structure Part where
  lane : Nat
  space : Space
  addr : Nat
  size : Nat
  va : W64
  kind : PartKind
  done : Bool
  got : W64
  got2 : W64
  /-- A later access of the thread has been performed before this acquire (R174). -/
  passed : Bool
  deriving DecidableEq, Repr

/-- Where an operation's results go: vector registers from D (sign extension of the size given), a handler's w register
or a control core's s register, a tape entry's registers (R345), the fragments of LDT (R283), the sweep under way (R128), or nowhere. -/
inductive Dest where
  | none
  | vec (d : Nat) (sx : Bool)
  | wide (d : Nat) (sx : Bool)
  | scalar (d : Nat)
  | gather (d es : Nat) (nz : Bool)
  | tape (d : Nat)
  | ldt (d : Nat)
  | sweep
  deriving DecidableEq, Repr

/-- An outstanding memory operation of the request tracker (R150), in issue order. -/
structure Op where
  id : Nat
  key : Nat
  acq : Bool
  rel : Bool
  /-- Lanes are performed in increasing order (R152). -/
  serial : Bool
  dest : Dest
  /-- Size of one lane's access. -/
  size : Nat
  /-- Lanes whose lookahead window is open, with the instructions left in it (R37). -/
  win : List (Nat × Nat)
  parts : List Part
  /-- The operation's entry in a counter (R182). -/
  counted : Bool
  /-- The address space its accesses were translated in (R166). -/
  asid : Nat
  /-- The scope of its acquire or release: 0 die, 1 team, 2 bundle (R143, R174). -/
  scope : Nat := 0
  deriving DecidableEq, Repr

/-- A release of team or bundle scope performed before older accesses of its thread (R174): where, by which lane of which bundle and
team, its scope, and the parts that threads of the scope must still wait for. -/
structure Early where
  space : Space
  addr : Nat
  size : Nat
  key : Nat
  team : Nat
  scope : Nat
  waits : List (Nat × Nat)
  deriving DecidableEq, Repr

/-- A vector-pipeline or function-unit result not yet written (R101). -/
structure Later where
  id : Nat
  key : Nat
  writes : List (Nat × W32)
  lanes : Lanes
  win : List (Nat × Nat)
  deriving DecidableEq, Repr

/-- Who sent a letter: a bundle's operation, a copy with the image offset of the row, or a waiting LOCQ with its park number. -/
inductive Sender where
  | bundle (key out : Nat)
  | copy (job off : Nat)
  | locq (key seq : Nat)
  deriving DecidableEq, Repr

/-- The resend record of a letter (R189, R190). -/
structure Sent where
  letter : Letter
  sender : Sender
  va : W64
  /-- Time of the last copy, of the wait for an acknowledgement, resends made. -/
  last : Nat
  timer : Nat
  resends : Nat
  refused : Bool
  /-- The reply or the acknowledgement has come (R189, R206). -/
  acked : Bool
  /-- RGET: reply slot (space and key of the first byte). -/
  slot : Option (Space × Nat)
  /-- The address space, and the virtual spans that were translated in it (R166). -/
  asid : Nat
  spans : List (Nat × Nat)
  deriving DecidableEq, Repr

/-- A letter copy or a reply in flight. -/
structure Wire where
  letter : Letter
  time : Nat
  deriving DecidableEq, Repr

/-- An open meeting's share of a region entry (R223): record, member table, its regions' entries. -/
structure Meeting where
  record : Nat
  mem : Nat
  n : Nat
  acc0 : Nat
  acc1 : Nat
  deriving DecidableEq, Repr

/-- An entry of a die's region table (R208, R223); addresses are physical. -/
structure Region where
  base : Nat
  limit : Nat
  kind : Nat
  stepEn : Bool
  stepTag : W16
  b : Int
  /-- Status or presence bytes, and arrival words: address and length of each piece. -/
  aux : List (Nat × Nat)
  arr : List (Nat × Nat)
  arrn : Nat
  stale : W32
  conflicts : W32
  secure : Bool
  /-- The meeting entry that this accumulator region belongs to. -/
  owner : Option Nat
  meeting : Option Meeting
  deriving DecidableEq, Repr

/-- A copy (R230 to R245). `st` 0 queued, 1 with an engine, 2 waiting for a fault, 3 waiting for letters, 4 stopped or done. -/
structure Copy where
  id : Nat
  key : Nat
  team : Nat
  out : Nat
  multicast : Bool
  desc : List Byte
  coords : List W32
  c : W64
  tag : W32
  noRec : Bool
  arr : Option W64
  arrVa : W64
  ring : Option Nat
  stepTag : W16
  world : Bool
  asid : Nat
  st : Nat
  engine : Nat
  f : Nat
  status : Nat
  fault : Nat
  faultVa : W64
  fid : Option Nat
  started : Bool
  arrived : Bool
  recv : List (Nat × W32)
  skip : Nat
  /-- The queue entry is one of the team's reservation (R230). -/
  resv : Bool
  /-- The leader. -/
  lane : Nat
  deriving DecidableEq, Repr

/-- A matrix operand description captured from a parameter block (R273) with the A operand (R277). -/
structure MxArgs where
  fa : BitVec 128
  fb : BitVec 128
  ng : Nat
  ct : Nat
  dt : Nat
  zc : Bool
  chk : Nat
  bswz : Nat
  boff : Nat
  bsoff : Nat
  xoff : Nat
  arun : List W32
  srun : List W32
  deriving DecidableEq, Repr

inductive MxKind where
  | mxp (a : MxArgs)
  | mxd (a : MxArgs)
  /-- ACCMV read: FN, TY, RM, D, tile, ROW0, COL0, COUNT, lanes. -/
  | accRead (fn ty rm d tile row col count : Nat) (lanes : Lanes) (win : List (Nat × Nat))
  /-- ACCMV FN 0 of a bundle whose FPCTL enables an exception (R36): as accRead, with the lanes that ZM clears, and the program counter and
  the words of the instruction, at which its group waits. -/
  | accTrap (ty rm d tile row col count : Nat) (lanes zero : Lanes) (pc : W64) (isz : Nat)
  /-- ACCMV write: tile and the elements written. -/
  | accWrite (tile : Nat) (elems : List (Nat × BitVec 40))
  /-- MXSAVE and MXLOAD: tile, the image's pieces (space, key, length), and its address space and virtual address (R166). -/
  | save (tile : Nat) (segs : List (Space × Nat × Nat)) (asid va : Nat)
  | load (tile : Nat) (segs : List (Space × Nat × Nat)) (asid va : Nat)
  | clear (tiles : List Nat)
  /-- MXSTAT: FN, D, clear mask. -/
  | stat (fn d : Nat) (clr : W64)
  deriving DecidableEq, Repr

/-- An entry of the engine queue (R267). `g` groups are done; `out` is its matrix-counter operation; `lanes` issued it. -/
structure MxJob where
  id : Nat
  key : Nat
  team : Nat
  lanes : Lanes
  out : Option Nat
  kind : MxKind
  g : Nat
  deriving DecidableEq, Repr

/-- A neighbour job (R291), with the job block's bytes and the threads that issued it. `st` 0 queued, 1 active, 2 its work done. -/
structure NbrJob where
  id : Nat
  team : Nat
  key : Nat
  lanes : Lanes
  bin : Bool
  res : Bool
  blk : Nat
  job : List Byte
  st : Nat
  /-- The answers to what its work has asked for so far, oldest first (R295, R305). -/
  got : List (List Byte)
  /-- The fault record it waits on (R295); the address whose resumption failed. -/
  fid : Option Nat
  failVa : Option W64
  /-- Records still to be written to mailbag stages, oldest first (R302). -/
  recs : List (List Byte)
  /-- The outcome (R303). -/
  state : Nat
  cause : Nat
  count1 : W32
  aux : W32
  count2 : W32
  faultVa : W64
  cursor : W64
  /-- The fault record that the arrival waits on, and the cause of an arrival failure. -/
  arrFid : Option Nat
  arrFail : Option Nat
  deriving DecidableEq, Repr

/-- A translation: address space, span, physical base, attributes as R160's bits. -/
structure Xlat where
  asid : Nat
  lo : Nat
  hi : Nat
  pa : Nat
  attr : W64
  deriving DecidableEq, Repr

/-- The 64 range entries of an address space in a core's range cache (R164), their bytes by offset in the 2 KiB. -/
structure RangeCopy where
  asid : Nat
  cells : Sparse Byte
  deriving DecidableEq, Repr

/-- A table entry in a die's walker cache (R164): address space, its address and word, and the virtual addresses that it serves. -/
structure TableCopy where
  asid : Nat
  addr : Nat
  word : W64
  lo : Nat
  hi : Nat
  deriving DecidableEq, Repr

/-- A core. -/
structure Core where
  world : Bool
  gen : W32
  seq : Nat
  /-- Tag table: valid keys by physical slot (R155), and slots from most to least recently named (R156). -/
  tags : Sparse (Option W64)
  named : List Nat
  mx : List MxJob
  /-- Accumulator file, keyed tile * 4096 + row * 64 + column (R59). -/
  acc : Sparse (BitVec 40)
  fcache : Sparse (List Byte)
  icache : Sparse (List Byte)
  /-- Location cache (R351): descriptor physical key, expert, LOC. -/
  loc : List (Nat × Nat × W64)
  holes : List Pigeon
  tray : List Event
  drops : W32
  /-- Control core (R334): 0 IDLE, 1 RUN, 2 HALT; owner team; class, cause and program counter of the halt (R338). -/
  cst : Nat
  owner : Nat
  hcls : Nat
  hcause : Nat
  hpc : W64
  /-- Range cache: up to 4 address spaces; TLB: up to 256 leaf translations (R164). -/
  rcache : List RangeCopy
  tlb : List Xlat
  deriving DecidableEq, Repr

def Core.reset : Core :=
  ⟨false, 0, 0, [], [], [], [], [], [], [], [], [], 0, 0, 0, 0, 0, 0, [], []⟩

/-- A die. -/
structure Die where
  regions : Sparse (Option Region)
  /-- Postmark table: postmark and the time it was entered (R187). -/
  marks : Sparse (Option Nat)
  /-- Sequence counters of copy engines 0 to 7 and of the neighbour engine (8). -/
  seqs : Sparse Nat
  jobs : List NbrJob
  grants : W32
  hold : Bool
  temp : Nat
  /-- Watts of the desk's share not yet given out since the last division of power (R409). -/
  share : Nat
  /-- Second-level TLB: up to 65,536 leaf translations; walker cache (R164). -/
  tlb2 : List Xlat
  wcache : List TableCopy
  deriving DecidableEq, Repr

def Die.reset : Die := ⟨[], [], [], [], 0, false, 0, 0, [], []⟩

/-- A launch queue (R309). -/
structure Queue where
  base : W64
  ctl : W64
  tail : W64
  head : W32
  /-- When the head record was first observed (R310). -/
  seen : Option Nat
  deriving DecidableEq, Repr

def Queue.reset : Queue := ⟨0, 4, 0, 0, none⟩

/-- The launch desk's other registers (R165, R387, R400). -/
structure Desk where
  astbase : W64
  fqbase : W64
  fqsize : W64
  fqtail : W32
  fqhead : W32
  tlbinva : W64
  tlbinvc : W64
  stqbase : W64
  stqsize : W64
  stqtail : W32
  stqhead : W32
  elbase : W64
  elsize : W64
  eltail : W32
  elhead : W32
  /-- Save pools, keyed 0 to 3 and, secure, 4 to 7: base word and size (R387). -/
  svbase : Sparse W64
  svsize : Sparse W64
  /-- Records waiting for space in the fault, stop and error queues (R165, R387, R400). -/
  fqwait : List (List Byte)
  stqwait : List (List Byte)
  elwait : List (List Byte)
  fid : W32
  sid : W32
  deriving DecidableEq, Repr

def Desk.reset : Desk :=
  ⟨0, 0, 6, 0, 0, 0, 0, 0, 6, 0, 0, 0, 6, 0, 0, [], [], [], [], [], 0, 0⟩

/-- A bundle in a frame: its number, where its part of the frame lies (R391), and the bundle as it was saved, which gives what the
layout has no place for. -/
structure SavedPart where
  bnum : Nat
  addr : Nat
  b : Bundle
  deriving DecidableEq, Repr

/-- Evicted or halted work (R317, R384, R390): a whole team, or one bundle of a team that stays. -/
structure Frame where
  whole : Bool
  key : Nat
  addr : Nat
  size : Nat
  die : Nat
  secure : Bool
  grid : Nat
  order : Nat
  /-- Halt identifier of a halted team. -/
  sid : Option W32
  parts : List SavedPart
  /-- Of a whole team: the team, its filed threads, and its scratchpad slots from most to least recently named (R156). -/
  team : Option Team
  filed : List Filed
  named : List Nat
  deriving DecidableEq, Repr

/-- A chunk of a collective that has fired here (R358). Values are WX64 integers or encodings, by element. -/
structure Chunk where
  idx : Nat
  port : Nat
  own : List W64
  /-- Marks of each segment (R360). -/
  marks : List (BitVec 4)
  /-- The destination's pieces and the arrival word. -/
  dst : List (Nat × Nat)
  arr : Option Nat
  /-- Segments received, and since when the next one is awaited. -/
  rx : Nat
  since : Nat
  /-- The address space and virtual spans of its source and destination (R166). -/
  asid : Nat
  spans : List (Nat × Nat)
  deriving DecidableEq, Repr

/-- A collective instance on this package (R358 to R365). `st` 1 pending, 2 running, 3 done, 4 aborted. -/
structure Inst where
  group : Nat
  seq : W32
  st : Nat
  cause : Nat
  marks : BitVec 4
  nchunk : Nat
  /-- The die that holds the destination of the chunks fired (R356). -/
  home : Option Nat
  /-- Elements of a chunk, and the binding's word at 280: OP, SFMT, OFMT, E, ARR. -/
  n : Nat
  bind : Nat
  written : Nat
  chunks : List Chunk
  /-- Segments that came before their chunk fired. -/
  early : List Segment
  /-- Ring traffic sent and not acknowledged. -/
  unacked : Nat
  /-- Tree neighbours whose answer is awaited, who to answer then, and collective operations (bundle, operation) that then complete. -/
  awaiting : List Nat
  answer : Option Nat
  ops : List (Nat × Nat)
  deriving DecidableEq, Repr

/-- A group entry (R353). -/
structure Group where
  gctl : W64
  gring : W64
  gtree : W64
  cur : W32
  av : Bool
  last : W32
  aborts : W32
  stale : W32
  deriving DecidableEq, Repr

def Group.reset : Group := ⟨0, 0, 0, 0, false, 0, 0, 0⟩

/-- A message that has left this package for another (R188, R190, R358, R364). -/
inductive Sending where
  | letter (l : Letter)
  | ack (peer : Nat) (pm : W64) (status : Nat)
  | settle (peer die : Nat) (pm : W64)
  | segment (peer : Nat) (s : Segment)
  | abort (peer group : Nat) (seq : W32) (cause : Nat)
  | answer (peer group : Nat) (seq : W32)
  /-- The acknowledgement of a ring segment (R362). -/
  | ringAck (peer group : Nat) (seq : W32)
  /-- A CXL.io error message (R400), and the completion or data of a host access (R398, R403). -/
  | error
  | wrote
  | data (b : List Byte)
  deriving DecidableEq, Repr

/-- The machine that runs programs: everything but boot, identity and power. -/
structure Mach where
  clk : Nat
  pkg : Nat
  free : Nat
  nextOp : Nat
  dev : Sparse Byte
  host : Sparse Byte
  scratch : Sparse Byte
  linkUp : Bool
  desk : Desk
  queues : Sparse Queue
  grids : Sparse (Option Grid)
  nextGrid : Nat
  teams : Sparse (Option Team)
  bundles : Sparse (Option Bundle)
  runs : Sparse (Option Run)
  cores : Sparse Core
  dies : Sparse Die
  ops : List Op
  later : List Later
  /-- Releases performed early, whose scope still waits (R174). -/
  early : List Early
  copies : List Copy
  sent : List Sent
  /-- Postmarks whose letters have gone from `sent`, with the time until which their number is not used again (R19). -/
  spent : List (W64 × Nat)
  wire : List Wire
  /-- Acknowledgements and settle notices in flight inside the package. -/
  acks : List (W64 × Nat)
  settles : List (Nat × W64)
  out : List Sending
  frames : List Frame
  groups : Sparse Group
  insts : List Inst
  fence : Sparse W64
  /-- Secure ranges of device memory, first address and one beyond the last (R406). -/
  ranges : List (Nat × Nat)
  /-- The MODEL's own field: 64-byte lines of device memory that an uncorrectable error has struck (R400; log 5). -/
  bad : List Nat
  deriving DecidableEq, Repr

/-- Boot, identity, mailbox and power (R402 to R409). -/
structure Boot where
  state : Nat
  cause : Nat
  svn : W32
  pkgV : Bool
  secviol : W32
  mbBusy : Bool
  mbErr : Bool
  mbCode : Nat
  nonce : List Byte
  report : List Byte
  worlds : Worlds
  pwrlim : Nat
  pwrnow : Nat
  /-- Every clock has stopped (R409). -/
  stopped : Bool
  /-- The fused SVN counter and the CXL Memory_Active indication (R402). -/
  fuse : W32
  memActive : Bool
  /-- Time of the last division of power (R409). -/
  divided : Nat
  deriving DecidableEq, Repr

/-- What moves in a turn: the run of a quadrant's issue slot, an event, or the world outside. -/
inductive Move where
  | issue (q : Nat)
  | event (i : Instr)
  /-- An uncorrectable error strikes the line of device memory that holds this byte (R400). -/
  | damage (pa : Nat)
  /-- The host writes its own memory, which holds launch queues, fault and stop queues and what programs share with it (R309, R395). -/
  | hostStore (pa : Nat) (data : List Byte)
  deriving DecidableEq, Repr

/-- One turn of the agenda: cycles that pass, and what moves. -/
structure Turn where
  cycles : Nat
  move : Move
  deriving DecidableEq, Repr

structure State where
  agenda : List Turn
  /-- The quadrant whose run issues next. -/
  focus : Nat
  boot : Boot
  mach : Mach
  deriving DecidableEq, Repr

/-- Why the machine stops. -/
inductive Fault where
  /-- Raised by step: a sensor reached 115 degrees and every clock has stopped until package reset (R409). Safe. -/
  | clocksStopped
  deriving DecidableEq, Repr

/-- Why an instruction has no meaning in a state. -/
inductive Refusal where
  /-- Raised by an arm of exec whose instruction is not modelled yet. Safe. -/
  | notModelled (mnemonic : String)
  /-- Raised by the meaning of an encoded instruction where no bundle or control core holds the issue slot in focus, so
  that there is nothing that issues it. A step never asks for it. Safe. -/
  | noIssuer
  deriving DecidableEq, Repr

def Regs.reset : Regs := ⟨[], [], [], [], [], 0, 0, 0⟩

def TrapRegs.reset : TrapRegs := ⟨0, 0, 0, 0, 0, 0, 0, []⟩

/-- A bundle at start, without lanes (R308, R376). -/
def Bundle.start (team bnum : Nat) : Bundle :=
  ⟨team, bnum, [], .reset, .reset, none, [], [], [], none, 0, 0, none, none, none, false, false, false, false, [],
   none, none, []⟩

def Mach.reset : Mach :=
  ⟨0, 0, 0, 0, [], [], [], true, .reset, [], [], 0, [], [], [], [], [], [], [], [], [], [], [], [], [], [], [], [], [], [], [], [], []⟩

def Boot.reset : Boot := ⟨0, 0, 0, false, 0, false, false, 0, [], [], ⟨[], [], [], [], []⟩, 4200, 0, false, 0, false, 0⟩

/-- The package right after reset (R402). -/
def State.reset : State := ⟨[], 0, .reset, .reset⟩

end Sys2Proof.Machine
end

