-- ==== Sys2Proof/Machine/Ops.lean ====
section
/-! DEFINITION. The named operations over memory, registers, lanes, counters and record queues, killing a team (R381),
taking a trap (R373) and returning from one (R385). -/

namespace Sys2Proof.Machine

/-! ## Memory -/

/-- What a byte that nothing has written reads as (log 4). -/
def emptyByte : Byte := 0

def Mach.mem (m : Mach) : Space → Sparse Byte
  | .dev => m.dev
  | .host => m.host
  | .scratch => m.scratch

def Mach.readByte (m : Mach) (sp : Space) (a : Nat) : Byte := Sparse.get emptyByte (m.mem sp) a

def Mach.writeByte (m : Mach) (sp : Space) (a : Nat) (b : Byte) : Mach :=
  match sp with
  | .dev => { m with dev := Sparse.put emptyByte m.dev a b }
  | .host => { m with host := Sparse.put emptyByte m.host a b }
  | .scratch => { m with scratch := Sparse.put emptyByte m.scratch a b }

def Mach.readBytes (m : Mach) (sp : Space) (a n : Nat) : List Byte :=
  (List.range n).map fun k => m.readByte sp (a + k)

def Mach.writeCells (m : Mach) (sp : Space) : List (Nat × Byte) → Mach
  | [] => m
  | (a, b) :: r => (m.writeByte sp a b).writeCells sp r

/-- Pair bytes with rising addresses. -/
def cellsAt : Nat → List Byte → List (Nat × Byte)
  | _, [] => []
  | a, b :: r => (a, b) :: cellsAt (a + 1) r

def Mach.writeBytes (m : Mach) (sp : Space) (a : Nat) (bs : List Byte) : Mach := m.writeCells sp (cellsAt a bs)

/-- A little-endian read of n bytes (R2). -/
def Mach.readNat (m : Mach) (sp : Space) (a n : Nat) : Nat := leNat (m.readBytes sp a n)

def Mach.read64 (m : Mach) (sp : Space) (a : Nat) : W64 := .ofNat 64 (m.readNat sp a 8)

def Mach.writeNat (m : Mach) (sp : Space) (a n v : Nat) : Mach := m.writeBytes sp a (leBytes n v)

/-- A memory: bytes at strictly rising addresses. -/
abbrev Memory := List Host.Cell

/-- The canonical form of a memory: addresses rise strictly and no cell holds what an unlisted address reads as. -/
def Memory.wf (xs : Memory) : Bool := Sparse.wf emptyByte xs

/-- The three memories hold their canonical form. -/
def Mach.memWf (m : Mach) : Bool := Memory.wf m.dev && Memory.wf m.host && Memory.wf m.scratch

/-- The next value of the counter that names free values. -/
def Mach.draw (m : Mach) : Nat × Mach := (m.free, { m with free := m.free + 1 })

/-- One of the outcomes listed, by an opaque choice (R4); `d` stands for an empty list, which no rule gives. -/
def Mach.pick {α : Type} (m : Mach) (d : α) (xs : List α) : α × Mach :=
  match xs with
  | [] => (d, m)
  | [x] => (x, m)
  | x :: _ => (xs.getD (Config.choice m.free % xs.length) x, { m with free := m.free + 1 })

/-! ## Records by key -/

def Mach.core (m : Mach) (k : Nat) : Core := Sparse.get Core.reset m.cores k
def Mach.setCore (m : Mach) (k : Nat) (x : Core) : Mach := { m with cores := Sparse.put Core.reset m.cores k x }
def Mach.modCore (m : Mach) (k : Nat) (f : Core → Core) : Mach := m.setCore k (f (m.core k))

def Mach.die (m : Mach) (k : Nat) : Die := Sparse.get Die.reset m.dies k
def Mach.setDie (m : Mach) (k : Nat) (x : Die) : Mach := { m with dies := Sparse.put Die.reset m.dies k x }
def Mach.modDie (m : Mach) (k : Nat) (f : Die → Die) : Mach := m.setDie k (f (m.die k))

def Mach.bundle? (m : Mach) (k : Nat) : Option Bundle := Sparse.get none m.bundles k
def Mach.bundle (m : Mach) (k : Nat) : Bundle := (m.bundle? k).getD (Bundle.start 0 0)
def Mach.setBundle (m : Mach) (k : Nat) (x : Option Bundle) : Mach := { m with bundles := Sparse.put none m.bundles k x }
/-- Change a bundle slot that is in use. -/
def Mach.modBundle (m : Mach) (k : Nat) (f : Bundle → Bundle) : Mach :=
  match m.bundle? k with
  | none => m
  | some b => m.setBundle k (some (f b))

def Mach.team? (m : Mach) (k : Nat) : Option Team := Sparse.get none m.teams k
def Mach.setTeam (m : Mach) (k : Nat) (x : Option Team) : Mach := { m with teams := Sparse.put none m.teams k x }
def Mach.modTeam (m : Mach) (k : Nat) (f : Team → Team) : Mach :=
  match m.team? k with
  | none => m
  | some t => m.setTeam k (some (f t))

def Mach.grid? (m : Mach) (k : Nat) : Option Grid := Sparse.get none m.grids k
def Mach.setGrid (m : Mach) (k : Nat) (x : Option Grid) : Mach := { m with grids := Sparse.put none m.grids k x }
def Mach.modGrid (m : Mach) (k : Nat) (f : Grid → Grid) : Mach :=
  match m.grid? k with
  | none => m
  | some g => m.setGrid k (some (f g))

def Mach.run? (m : Mach) (q : Nat) : Option Run := Sparse.get none m.runs q
def Mach.setRun (m : Mach) (q : Nat) (r : Option Run) : Mach := { m with runs := Sparse.put none m.runs q r }

def Mach.queue (m : Mach) (q : Nat) : Queue := Sparse.get Queue.reset m.queues q
def Mach.setQueue (m : Mach) (q : Nat) (x : Queue) : Mach := { m with queues := Sparse.put Queue.reset m.queues q x }

def Mach.group (m : Mach) (g : Nat) : Group := Sparse.get Group.reset m.groups g
def Mach.setGroup (m : Mach) (g : Nat) (x : Group) : Mach := { m with groups := Sparse.put Group.reset m.groups g x }

/-- An empty grid, where a key names none. -/
def Grid.none : Grid :=
  ⟨0, 0, 0, 0, 0, 16, 0, 0, 0, false, false, false, 0, 1024, 0, 0, 0, 0, Option.none, Option.none, Option.none, 0, 0, [], [], [],
   0, 1, Option.none, Option.none, false, 0, 0, false, false, false, [], []⟩

def Team.none : Team :=
  ⟨0, 0, 0, 0, 0, 0, [], 0, [], [], [], [], 0, 0, 0, 0, ⟨0, 0, false⟩, [], false, []⟩

def Mach.team (m : Mach) (k : Nat) : Team := (m.team? k).getD Team.none
def Mach.gridOf (m : Mach) (tm : Team) : Grid := (m.grid? tm.grid).getD Grid.none

/-- The grid of a team that is resident or saved whole. -/
def Mach.gridOfTeam (m : Mach) (tk : Nat) : Grid :=
  match m.team? tk with
  | some t => m.gridOf t
  | none =>
    match m.frames.find? fun f => f.whole && decide (f.key = tk) with
    | some f => (m.grid? f.grid).getD Grid.none
    | none => Grid.none

/-- Core of a bundle key, of a team key, and its die. -/
def coreOfKey (k : Nat) : Nat := k / 256
def coreOfTeam (t : Nat) : Nat := t / 128
def dieOfCore (c : Nat) : Nat := c / 96

/-- The issue slot of a bundle: bundle slot s lies in quadrant s / 32, the control core has a slot of its own (R10; log 6). -/
def quadOfKey (k : Nat) : Nat := k / 256 * 8 + (if k % 256 = 128 then 4 else k % 256 / 32)

/-- Bytes of a team's scratchpad allocation (R155). -/
def Team.alloc (t : Team) : Nat := t.nscr * 2048

/-- The scratchpad key of an offset in a team's allocation. -/
def Team.phys (t : Team) (core off : Nat) : Nat := core * Config.scratchStride + t.scr * 2048 + off

/-! ## Lanes and registers -/

def Bundle.lane (b : Bundle) (l : Nat) : Lane := Sparse.get Lane.none b.lanes l

def Bundle.setLane (b : Bundle) (l : Nat) (x : Lane) : Bundle := { b with lanes := Sparse.put Lane.none b.lanes l x }

def Bundle.modLane (b : Bundle) (f : Nat → Lane → Lane) (l : Nat) : Bundle := b.setLane l (f l (b.lane l))

def Bundle.modLanes (b : Bundle) (ls : Lanes) (f : Nat → Lane → Lane) : Bundle :=
  (laneList ls).foldl (fun b l => b.modLane f l) b

/-- Lanes that hold a thread that has not exited. -/
def Bundle.live (b : Bundle) : Lanes := laneMask fun l => decide ((b.lane l).st ≠ .empty ∧ (b.lane l).st ≠ .exited)

def Bundle.runnable (b : Bundle) : Lanes := laneMask fun l => decide ((b.lane l).st = .runnable)

def Bundle.modRegs (b : Bundle) (f : Regs → Regs) : Bundle := { b with regs := f b.regs }

def Regs.getV (r : Regs) (n l : Nat) : W32 := Sparse.get 0 r.v (n * 32 + l)
def Regs.setV (r : Regs) (n l : Nat) (x : W32) : Regs := { r with v := Sparse.put 0 r.v (n * 32 + l) x }
/-- An even/odd pair, low half in the even register (R14). -/
def Regs.getV2 (r : Regs) (n l : Nat) : W64 := r.getV (n + 1) l ++ r.getV n l
def Regs.setV2 (r : Regs) (n l : Nat) (x : W64) : Regs := (r.setV n l (x.setWidth 32)).setV (n + 1) l ((x >>> 32).setWidth 32)
def Regs.getS (r : Regs) (n : Nat) : W64 := Sparse.get 0 r.s n
def Regs.setS (r : Regs) (n : Nat) (x : W64) : Regs := { r with s := Sparse.put 0 r.s n x }
def Regs.getW (r : Regs) (n : Nat) : W64 := Sparse.get 0 r.w n
def Regs.setW (r : Regs) (n : Nat) (x : W64) : Regs := { r with w := Sparse.put 0 r.w n x }
/-- p0 reads 1 in every lane and ignores writes (R14). -/
def Regs.getP (r : Regs) (n : Nat) : Lanes := if n = 0 then BitVec.allOnes 32 else Sparse.get 0 r.p n
def Regs.setP (r : Regs) (n : Nat) (x : Lanes) : Regs := if n = 0 then r else { r with p := Sparse.put 0 r.p n x }
def Regs.getJ (r : Regs) (n : Nat) : Lanes := Sparse.get 0 r.j n
def Regs.setJ (r : Regs) (n : Nat) (x : Lanes) : Regs := { r with j := Sparse.put 0 r.j n x }

/-- Write a predicate in the lanes of a mask. -/
def Regs.putP (r : Regs) (n : Nat) (ls x : Lanes) : Regs := r.setP n ((r.getP n &&& ~~~ls) ||| (x &&& ls))

/-! ## Outstanding-operation counters (R182) -/

/-- Operations of a class that are counted. -/
def Bundle.count (b : Bundle) (cls : Nat) : Nat := (b.outs.filter fun x => decide (x.cls = cls)).length

/-- Retire oldest first: a finished operation leaves once no older operation of its class is outstanding. -/
def retireOuts : List Out → List Nat → List Out
  | [], _ => []
  | x :: r, older => if x.done && !older.contains x.cls then retireOuts r older else x :: retireOuts r (x.cls :: older)

def finishOut (id : Nat) (outs : List Out) : List Out :=
  retireOuts (outs.map fun x => if x.id = id then { x with done := true } else x) []

/-- Count one operation; its identifier. -/
def Mach.count (m : Mach) (key cls : Nat) : Nat × Mach :=
  let m' : Mach := { m with nextOp := m.nextOp + 1 }
  (m.nextOp, m'.modBundle key fun b => { b with outs := b.outs ++ [⟨m.nextOp, cls, false⟩] })

/-- Operations of a class in a list of them. -/
def countOuts (outs : List Out) (cls : Nat) : Nat := (outs.filter fun x => decide (x.cls = cls)).length

/-- The 16-bit counts that a frame keeps at offset 0x0030 (R391): copy, remote, collective. -/
def frameCounts (outs : List Out) : Nat :=
  countOuts outs 0 % 65536 + 65536 * (countOuts outs 4 % 65536) + 2 ^ 32 * (countOuts outs 5 % 65536)

/-- The counts of a frame as they stand, less the operations that have retired (R390). -/
def stepCounts (x : Nat) (old new : List Out) : Nat :=
  let f := fun cls lo => (nfld x (lo + 15) lo + 65536 - (countOuts old cls - countOuts new cls) % 65536) % 65536
  f 0 0 + 65536 * f 4 16 + 2 ^ 32 * f 5 32

/-- A part of a frame counts an operation. -/
def SavedPart.has (p : SavedPart) (id : Nat) : Bool := p.b.outs.any fun x => decide (x.id = id)

/-- Change the saved bundle that counts an operation. -/
def Mach.modSaved (m : Mach) (id : Nat) (f : Bundle → Bundle) : Mach :=
  { m with frames := m.frames.map fun x =>
      if x.parts.any fun p => p.has id then
        { x with parts := x.parts.map fun p => if p.has id then { p with b := f p.b } else p }
      else x }

/-- The part of a frame that counts an operation. -/
def Mach.savedPart (m : Mach) (id : Nat) : Option SavedPart := m.frames.findSome? fun f => f.parts.find? fun p => p.has id

/-- An instruction of the bundle is held for a counter class: a RARR for the remote class, or a parked WAITK (R194). -/
def Bundle.heldFor (b : Bundle) (kind : Nat) : Bool :=
  (b.held && decide (kind = 4)) || b.lanes.any fun p => match p.2.st with | .wait (.counter k _) _ _ => decide (k = kind) | _ => false

/-- The marks of an operation that completes become ready for report: by an instruction that the bundle is held at for their class, or
otherwise at a run boundary (R194, R245, R280). -/
def Bundle.ripen (b : Bundle) (id : Nat) : Bundle :=
  if b.marks.any fun k => decide (k.id = id) then
    { b with marks := b.marks.map fun k => if k.id = id ∧ k.ready = false then { k with ready := true, held := b.heldFor k.kind } else k }
  else b

/-- The class that a mark is reported with. -/
def Mark.trapCls (k : Mark) : Nat := if k.held then k.cls else k.loose

/-- The word of a frame that holds a mark (R391). -/
def Mark.word (k : Mark) : Nat := k.cause + 256 * k.loose + 4096

/-- An operation of a saved bundle completes: the frame's count follows by an atomic step, and a mark goes to the frame (R390). -/
def Mach.completeSaved (m : Mach) (id : Nat) : Mach :=
  match m.savedPart id with
  | none => m
  | some p =>
    let outs := finishOut id p.b.outs
    let b := { p.b with outs := outs }.ripen id
    let m := m.writeNat .dev (p.addr + 0x30) 6 (stepCounts (m.readNat .dev (p.addr + 0x30) 6) p.b.outs outs)
    match b.marks.find? Mark.ready, decide (m.readNat .dev (p.addr + 0x38) 8 = 0) with
    | some k, true =>
      let m := m.modSaved id fun _ => { b with marks := b.marks.erase k }
      (m.writeNat .dev (p.addr + 0x38) 8 k.word).writeNat .dev (p.addr + 0xB8) 8 k.addr.toNat
    | _, _ => m.modSaved id fun _ => b

/-- The bundle that counts an operation: the one given, or another slot to which it has been restored (R390). -/
def Mach.ownerOf (m : Mach) (key id : Nat) : Option Nat :=
  let has := fun (b : Bundle) => b.outs.any fun x => decide (x.id = id)
  if has (m.bundle key) then some key
  else (m.bundles.find? fun p => match p.2 with | some b => has b | none => false).map Prod.fst

/-- An operation completes. -/
def Mach.complete (m : Mach) (key id : Nat) : Mach :=
  match m.ownerOf key id with
  | some key => m.modBundle key fun b => { b with outs := finishOut id b.outs }.ripen id
  | none => m.completeSaved id

/-- An identifier for an operation that counts in no counter. -/
def Mach.fresh (m : Mach) : Nat × Mach := (m.nextOp, { m with nextOp := m.nextOp + 1 })

/-- Mark a bundle with a failed operation of a counter class (R194, R245, R258, R280): the class is `cls` where an instruction is held for
it as the operation completes, `loose` otherwise. A mark for a bundle whose lanes have all exited is dropped. -/
def Mach.mark (m : Mach) (key id cls loose kind cause : Nat) (addr : W64) : Mach :=
  let k : Mark := ⟨id, false, cls, loose, cause, addr, kind, false⟩
  match m.ownerOf key id with
  | some key => m.modBundle key fun b => if b.live = 0 then b else { b with marks := b.marks ++ [k] }
  | none => m.modSaved id fun b => { b with marks := b.marks ++ [k] }

/-! ## Results not yet written -/

/-- Lanes whose results of an outstanding operation are not written. -/
def Op.pending (x : Op) : Lanes :=
  if x.dest = .none then 0#32 else laneMask fun l => x.parts.any fun p => decide (p.lane = l) && !p.done

/-- Lanes whose results of a queued matrix instruction are not written (R285, R288). -/
def MxJob.pending (x : MxJob) : Lanes :=
  match x.kind with
  | .accRead _ _ _ _ _ _ _ _ ls _ => ls
  | .stat _ _ _ => BitVec.allOnes 32
  | _ => 0#32

def MxJob.windows (x : MxJob) : List (Nat × Nat) :=
  match x.kind with
  | .accRead _ _ _ _ _ _ _ _ _ w => w
  | _ => []

/-- Fetch for the bundle is suspended until the instruction's exceptions are known (R36). -/
def MxJob.suspends (x : MxJob) : Bool := match x.kind with | .accTrap _ _ _ _ _ _ _ _ _ _ _ => true | _ => false

/-- A pair job has started: it has read the header's 16 words and been given leave (R297, R332). -/
def NbrJob.began (j : NbrJob) : Bool := !j.bin && decide (16 < j.got.length)

/-- Where the image of a queued MXSAVE or MXLOAD lies: address space and virtual address (R166). -/
def MxJob.image (x : MxJob) : Option (Nat × Nat) :=
  match x.kind with
  | .save _ _ asid va | .load _ _ asid va => some (asid, va)
  | _ => none

/-- The lanes of a list of open windows. -/
def winLanes (w : List (Nat × Nat)) : Lanes := laneMask fun l => w.any fun p => decide (p.1 = l)

/-- Lanes of a bundle with a register write outstanding and no open lookahead window (R37). -/
def Mach.blocked (m : Mach) (key : Nat) : Lanes :=
  let a := m.ops.foldl (fun s x => if x.key = key then s ||| (x.pending &&& ~~~winLanes x.win) else s) 0#32
  let b := m.later.foldl (fun s x => if x.key = key then s ||| (x.lanes &&& ~~~winLanes x.win) else s) a
  (m.core (coreOfKey key)).mx.foldl (fun s x => if x.key = key then s ||| (x.pending &&& ~~~winLanes x.windows) else s) b

/-- Vector registers that an operation's results go to. -/
def Op.regs (x : Op) : List Nat :=
  match x.dest with
  | .vec d _ => (List.range (max 1 (x.size / 4))).map (d + ·)
  | .gather d es nz => (List.range ((if es = 8 then 2 else 1) + boolNat nz)).map (d + ·)
  | .ldt d => [d]
  | _ => []

/-- A result of vector register r is outstanding in a lane (R37, R77). -/
def Mach.regPending (m : Mach) (key r l : Nat) : Bool :=
  (m.ops.any fun x => decide (x.key = key) && x.pending.getLsbD l && x.regs.contains r)
    || (m.later.any fun x => decide (x.key = key) && x.writes.any fun w => decide (w.1 = r * 32 + l))
    || (m.core (coreOfKey key)).mx.any fun x => decide (x.key = key) && x.pending.getLsbD l &&
      match x.kind with
      | .accRead _ _ _ d _ _ _ n _ _ => decide (d ≤ r ∧ r < d + n)
      | _ => false

/-- A bundle has a register write outstanding (R373). -/
def Mach.writing (m : Mach) (key : Nat) : Bool :=
  (m.ops.any fun x => decide (x.key = key ∧ x.pending ≠ 0#32)) || (m.later.any fun x => decide (x.key = key))
    || ((m.core (coreOfKey key)).mx.any fun x => decide (x.key = key ∧ x.pending ≠ 0#32))

/-- An earlier access of these threads to a space, or an acquire of theirs, is not yet performed (R173). -/
def Mach.threadBusy (m : Mach) (key : Nat) (ls : Lanes) (sp : Space) : Bool :=
  m.ops.any fun x => decide (x.key = key) &&
    x.parts.any fun p => !p.done && ls.getLsbD p.lane && (x.acq || decide (p.space = sp))

/-- One instruction of a group is counted in its threads' windows, or a transfer of control closes them (R37). -/
def stepWin (ls : Lanes) (close : Bool) (w : List (Nat × Nat)) : List (Nat × Nat) :=
  w.filterMap fun p =>
    if ls.getLsbD p.1 then (if close || p.2 ≤ 1 then none else some (p.1, p.2 - 1)) else some p

def stepMxWin (ls : Lanes) (close : Bool) (k : MxKind) : MxKind :=
  match k with
  | .accRead fn ty rm d t r c n a w => .accRead fn ty rm d t r c n a (stepWin ls close w)
  | k => k

/-- Windows after an instruction of the group `ls`; operations from `since` on are the instruction's own. -/
def Mach.stepWindows (m : Mach) (key since : Nat) (ls : Lanes) (close : Bool) : Mach :=
  let m : Mach := { m with
    ops := m.ops.map fun x => if x.key = key ∧ x.id < since then { x with win := stepWin ls close x.win } else x
    later := m.later.map fun x => if x.key = key ∧ x.id < since then { x with win := stepWin ls close x.win } else x }
  if (m.core (coreOfKey key)).mx = [] then m
  else m.modCore (coreOfKey key) fun c => { c with mx := c.mx.map fun x =>
    if x.key = key ∧ x.id < since then { x with kind := stepMxWin ls close x.kind } else x }

/-! ## Record queues (R165, R387, R400) -/

/-- The cells of a queue in host memory are reached only while the link is up (R399). -/
def Mach.queueReach (m : Mach) (host : Bool) : Bool := !host || m.linkUp

def qspace (host : Bool) : Space := if host then .host else .dev

/-- Records in the fault queue while it has room (R165). -/
def Mach.drainFaults : List (List Byte) → Mach → Mach
  | [], m => { m with desk := { m.desk with fqwait := [] } }
  | r :: rs, m =>
    let d := m.desk
    let host := bitAt d.fqbase 0
    let n := 2 ^ fld d.fqsize 4 0
    if (d.fqtail - d.fqhead).toNat < n ∧ m.queueReach host then
      let m' : Mach := { m with desk := { d with fqtail := d.fqtail + 1 } }
      drainFaults rs (m'.writeBytes (qspace host) (fld d.fqbase 63 12 * 4096 + 32 * (d.fqtail.toNat % n)) r)
    else { m with desk := { d with fqwait := r :: rs } }

def Mach.postFault (m : Mach) (r : List Byte) : Mach := m.drainFaults (m.desk.fqwait ++ [r])

/-- Add one to the saturating count in [63:32] of a size register. -/
def bumpLost (x : W64) : W64 := if fld x 63 32 = 2 ^ 32 - 1 then x else x + (1#64 <<< 32)

/-- Records in the stop queue while it has room; while EN is 0 each is dropped and counted in LOST (R387). -/
def Mach.drainStops : List (List Byte) → Mach → Mach
  | [], m => { m with desk := { m.desk with stqwait := [] } }
  | r :: rs, m =>
    let d := m.desk
    let host := bitAt d.stqbase 0
    let n := 2 ^ fld d.stqsize 4 0
    if bitAt d.stqbase 1 = false then drainStops rs { m with desk := { d with stqsize := bumpLost d.stqsize } }
    else if (d.stqtail - d.stqhead).toNat < n ∧ m.queueReach host then
      let m' : Mach := { m with desk := { d with stqtail := d.stqtail + 1 } }
      drainStops rs (m'.writeBytes (qspace host) (fld d.stqbase 63 12 * 4096 + 32 * (d.stqtail.toNat % n)) r)
    else { m with desk := { d with stqwait := r :: rs } }

def Mach.postStop (m : Mach) (r : List Byte) : Mach := m.drainStops (m.desk.stqwait ++ [r])

/-- Records in the error log (R400). -/
def Mach.drainErrors : List (List Byte) → Mach → Mach
  | [], m => { m with desk := { m.desk with elwait := [] } }
  | r :: rs, m =>
    let d := m.desk
    let n := 2 ^ fld d.elsize 4 0
    if (d.eltail - d.elhead).toNat < n then
      let m' : Mach := { m with desk := { d with eltail := d.eltail + 1 }, out := m.out ++ [Sending.error] }
      drainErrors rs (m'.writeBytes .dev (fld d.elbase 63 12 * 4096 + 32 * (d.eltail.toNat % n)) r)
    else { m with desk := { d with elwait := r :: rs } }

/-- An error record (R400, R401): KIND, UNIT, DIE and the failing device address. Whether a line's error is met in HBM
(KIND 1) or in the home slice (KIND 2) is open (log 5). -/
def Mach.logError (m : Mach) (kind unit die pa : Nat) : Mach :=
  let (kind, m) := if kind = 1 then m.pick 1 [1, 2] else (kind, m)
  if bitAt m.desk.elbase 0 then
    m.drainErrors (m.desk.elwait ++ [leBytes 8 (pa / 64 * 64) ++ leBytes 8 (kind + 256 * unit + 65536 * die)
      ++ leBytes 8 m.clk ++ leBytes 8 0])
  else { m with desk := { m.desk with elsize := bumpLost m.desk.elsize } }

/-- A line of device memory that holds one of these bytes has an uncorrectable error (R400). -/
def Mach.damaged (m : Mach) (sp : Space) (addr size : Nat) : Bool :=
  decide (sp = .dev) && m.bad.any fun l => decide (l * 64 < addr + size ∧ addr < l * 64 + 64)

/-- The first line with an uncorrectable error among these bytes of device memory. -/
def Mach.badLine (m : Mach) (a n : Nat) : Nat := ((m.bad.find? fun l => decide (l * 64 < a + n ∧ a < l * 64 + 64)).getD 0) * 64

/-- Bytes of device memory, those of lines with an uncorrectable error as free values. -/
def Mach.freeBytes (m : Mach) (a : Nat) : Nat → List Byte × Mach
  | 0 => ([], m)
  | n + 1 =>
    let (r, m) := m.freeBytes a n
    if m.damaged .dev (a + n) 1 then
      let (k, m) := m.draw
      (r ++ [(Config.word k).setWidth 8], m)
    else (r ++ [m.readByte .dev (a + n)], m)

/-- Bytes as a unit reads them: memory, or free values where a line has an uncorrectable error, which is logged (R400; log 5). -/
def Mach.readLogged (m : Mach) (unit die : Nat) (sp : Space) (a n : Nat) : List Byte × Mach :=
  if m.damaged sp a n then (m.logError 1 unit die (m.badLine a n)).freeBytes a n else (m.readBytes sp a n, m)

/-- What a step that reads several fields of these bytes finds there: where a line has an uncorrectable error it is logged, and the bytes
hold free values (R400; log 5). -/
def Mach.expose (m : Mach) (unit die a n : Nat) : Mach :=
  if m.damaged .dev a n then
    let (bs, m) := m.readLogged unit die .dev a n
    m.writeBytes .dev a bs
  else m

/-- A little-endian number as a unit reads it (R2, R400). -/
def Mach.readNatLogged (m : Mach) (unit die : Nat) (sp : Space) (a n : Nat) : Nat × Mach :=
  let (b, m) := m.readLogged unit die sp a n
  (leNat b, m)

/-- A fault record (R167). -/
def faultRecord (va : W64) (bslot die unit : Nat) (last x w : Bool) (asid : Nat) (fid : W32) (pc : W64) : List Byte :=
  leBytes 8 va.toNat
    ++ leBytes 8 (asid + 512 * boolNat w + 1024 * boolNat x + 2048 * boolNat last + 65536 * unit + 2 ^ 24 * die + 2 ^ 32 * bslot)
    ++ leBytes 8 fid.toNat ++ leBytes 8 pc.toNat

/-- A stop record (R388). -/
def stopRecord (pc : W64) (asid core bnum cause cls kind : Nat) (aux : W64) (ocls : Nat) (sid : W32) : List Byte :=
  leBytes 8 pc.toNat
    ++ leBytes 8 (kind + 16 * cls + 256 * cause + 2 ^ 16 * bnum + 2 ^ 24 * (core % 96) + 2 ^ 32 * (core / 96) + 2 ^ 40 * asid)
    ++ leBytes 8 aux.toNat ++ leBytes 8 (sid.toNat + 2 ^ 32 * ocls)

/-! ## Killing a team (R381) -/

/-- Every thread of the bundle ends and its store buffer is dropped. -/
def Bundle.killed (b : Bundle) : Bundle :=
  { b with
    lanes := b.lanes.map fun p => (p.1, { p.2 with st := if p.2.st = .empty then .empty else .exited, sbuf := [] })
    hand := none, pend := none, fault := none, marks := [], latch := none, resume := none, fenced := false
    held := false, waiting := false, filing := false, stepped := 0, sweep := none, hwait := none, calm := [] }

/-- The keys of a team's resident bundles. -/
def Mach.bundlesOf (m : Mach) (tk : Nat) : List Nat :=
  m.bundles.filterMap fun p =>
    match p.2 with
    | some b => if b.team = tk ∧ p.1 / 256 = coreOfTeam tk ∧ p.1 % 256 < 128 then some p.1 else none
    | none => none

/-- A team is killed: bundles stop, queued matrix instructions are dropped, barriers and mailbags are discarded, saved
frames return to the pool, and its control core becomes IDLE (R334). -/
def Mach.killTeam (m : Mach) (tk : Nat) : Mach :=
  match m.team? tk with
  | none => m
  | some t =>
    let ks := m.bundlesOf tk
    let core := coreOfTeam tk
    let m := ks.foldl (fun m k => m.modBundle k Bundle.killed) m
    let m : Mach := { m with
      runs := m.runs.filter fun p => match p.2 with | some r => !ks.contains r.key | none => false
      frames := m.frames.filter fun f => !(decide (f.key = tk) && !f.whole)
      later := m.later.filter fun x => !ks.contains x.key }
    let m := ((m.core core).mx.filter fun x => decide (x.team = tk)).foldl (fun m x =>
      match x.out with | some id => m.complete x.key id | none => m) m
    let m := m.modCore core fun c => { c with mx := c.mx.filter fun x => decide (x.team ≠ tk) }
    let m := if (m.core core).cst ≠ 0 ∧ (m.core core).owner = tk then
        ((m.setRun (core * 8 + 4) none).setBundle (core * 256 + 128) none).modCore core fun c => { c with cst := 0 }
      else m
    m.setTeam tk (some { t with bars := [], mails := [], away := [], killed := true })

/-! ## Taking a trap (R373, R374, R376) -/

/-- The lane holds a condition; an entry without a class and a cause only reports the exceptions that a lane raised (R374). -/
def Cond.holds (c : Cond) : Bool := decide (c.cause ≠ 0 ∨ c.cls ≠ 0)

/-- The side-buffer entry of a lane of the trapping group. -/
def sideEntry (t : Trap) (l : Nat) : SideEntry :=
  if t.mask.getLsbD l then
    match t.conds.find? fun c => decide (c.lane = l) with
    | some c => ⟨c.addr, .ofNat 64 (c.cause + 256 * c.cls + 4096 * boolNat c.holds + 8192 + 65536 * c.flags)⟩
    | none => ⟨0, 8192⟩
  else ⟨0, 0⟩

/-- The cause of the lowest lane that holds a condition, or of the instruction. -/
def Trap.lowest (t : Trap) : Option Cond :=
  (laneList t.mask).findSome? fun l => t.conds.find? fun c => decide (c.lane = l) && c.holds

def Trap.status (t : Trap) : W64 :=
  .ofNat 64 (t.cls + 256 * ((t.lowest.map (·.cause)).getD t.cause) + 65536 * boolNat t.noins + 131072 * boolNat t.sweep
    + 2 ^ 24 * t.isz)

/-- Entry to the handler: the trap-state words and every side-buffer entry are written, and the program counter goes to
TVBASE.BASE + 0x100 * class. -/
def Bundle.enterHandler (b : Bundle) (t : Trap) : Bundle :=
  { b with
    hand := some (BitVec.ofNat 64 (fld b.trap.tvbase 63 12 * 4096 + 0x100 * t.cls))
    pend := none, savedTiles := [], hwait := none, resume := if t.sweep then some (t.pc, t.iter, 0) else none
    trap := { b.trap with
      tpc := t.pc, tstat := t.status, tmask := t.mask.setWidth 64
      tcond := (laneMask fun l => t.mask.getLsbD l && t.conds.any fun c => decide (c.lane = l) && c.holds).setWidth 64
      tinfo := .ofNat 64 (t.code + 65536 * t.iter)
      side := (List.range 32).foldl (fun s l => Sparse.put ⟨0, 0⟩ s l (sideEntry t l)) [] } }

/-- A stop record of a killed team. -/
def Mach.stopFor (m : Mach) (key kind : Nat) (t : Trap) (ocls : Nat) (aux : W64) : Mach :=
  let b := m.bundle key
  let g := m.gridOf (m.team b.team)
  m.postStop (stopRecord t.pc g.asid (coreOfKey key) b.bnum ((t.lowest.map (·.cause)).getD t.cause) t.cls kind aux ocls 0)

/-- The control core halts at the instruction, its class, cause and program counter kept (R338). -/
def Mach.haltControl (m : Mach) (key : Nat) (t : Trap) : Mach :=
  let core := coreOfKey key
  ((m.modCore core fun c => { c with cst := 2, hcls := t.cls, hcause := (t.lowest.map (·.cause)).getD t.cause, hpc := t.pc }).setRun
    (core * 8 + 4) none).modBundle key fun b => b.modLanes 1 fun _ x => { x with pc := t.pc, st := .runnable }

/-- A trap raised by a bundle outside any run: TVBASE.EN 0 kills the team; a pending register write makes entry wait. -/
def Mach.takeTrap (m : Mach) (key : Nat) (t : Trap) : Mach :=
  let b := m.bundle key
  if ¬ bitAt b.trap.tvbase 0 then
    (m.stopFor key 1 t 0 ((t.lowest.map (·.addr)).getD 0)).killTeam b.team
  else
    let m := m.stepWindows key m.nextOp (BitVec.allOnes 32) true
    if m.writing key then m.modBundle key fun b => { b with pend := some t }
    else m.modBundle key fun b => b.enterHandler t

/-- The run of an issue slot ends; its lanes stand at the program counter given, with the time of this run (R81, R319). -/
def Mach.closeRun (m : Mach) (q : Nat) (r : Run) (pc : W64) : Mach :=
  (m.setRun q none).modBundle r.key fun b =>
    if b.hand.isSome then { b with hand := some pc, last := m.clk }
    else { b.modLanes r.grp fun _ x => { x with pc := pc, last := m.clk } with last := m.clk }

/-- A trap raised by an instruction of a run (R373, R380, R338). Lanes of the group outside the trap's mask go on after
the instruction (log 12). -/
def Mach.raise (m : Mach) (q : Nat) (r : Run) (t : Trap) : Mach :=
  let b := m.bundle r.key
  if r.key % 256 = 128 then m.haltControl r.key t
  else if b.hand.isSome then
    (m.stopFor r.key 2 t (fld b.trap.tstat 3 0)
      ((((laneList (b.trap.tcond.setWidth 32)).head?).map fun l => (Sparse.get ⟨0, 0⟩ b.trap.side l).addr).getD 0)).killTeam b.team
  else
    let m := m.closeRun q r t.pc
    let m := m.modBundle r.key fun b =>
      b.modLanes (r.grp &&& ~~~t.mask) fun _ x => { x with pc := t.pc + BitVec.ofNat 64 (4 * t.isz) }
    m.takeTrap r.key t

/-- The handler ends (R385): lanes killed, retried at TPC, or skipped past the instruction; the groups keep the time of the
trapping group. `exit` ends the threads killed. -/
def Mach.leaveHandler (m : Mach) (q : Nat) (r : Run) (retry kill : Lanes) : Mach :=
  let b := m.bundle r.key
  let t := b.trap
  let g := t.tmask.setWidth 32 &&& b.live
  let kill := kill &&& g
  let retry := retry &&& g &&& ~~~kill
  let skip := g &&& ~~~kill &&& ~~~retry
  let noins := bitAt t.tstat 16
  let sk := if noins then t.tpc else t.tpc + BitVec.ofNat 64 (4 * fld t.tstat 27 24)
  (m.setRun q none).modBundle r.key fun b =>
    { (b.modLanes retry fun _ x => { x with pc := t.tpc }).modLanes skip fun _ x => { x with pc := sk } with
      hand := none, hwait := none, last := m.clk
      resume := if bitAt t.tstat 17 ∧ b.resume.isSome ∧ retry ≠ 0 then some (t.tpc, fld t.tinfo 27 16, retry) else none }

end Sys2Proof.Machine
end

