-- ==== Sys2Proof/Machine/Xlate.lean ====
section
/-! DEFINITION. Translation of virtual addresses (R157 to R164) and the checks of an access with their cause codes (R145, R16, R17). -/

namespace Sys2Proof.Machine

/-! ## Trap classes (R372) -/

def clsIll : Nat := 0
def clsOperand : Nat := 1
def clsXlate : Nat := 2
def clsProt : Nat := 3
def clsAlign : Nat := 4
def clsRemote : Nat := 5
def clsArith : Nat := 6
def clsMxchk : Nat := 7
def clsQovf : Nat := 8
def clsNest : Nat := 9
def clsRole : Nat := 10
def clsSoft : Nat := 11
def clsDebug : Nat := 12
def clsAsync : Nat := 13

/-- The class of a cause of R145, R193, R258 or R372. -/
def classOf (cause : Nat) : Nat :=
  if cause ≤ 0x06 ∨ cause = 0x41 then clsXlate
  else if 0x10 ≤ cause ∧ cause ≤ 0x12 then clsAlign
  else if (0x20 ≤ cause ∧ cause ≤ 0x26) ∨ cause = 0x2A then clsProt
  else if (0x27 ≤ cause ∧ cause ≤ 0x2E) ∨ cause = 0x63 ∨ cause = 0x64 then clsOperand
  else if 0x30 ≤ cause ∧ cause ≤ 0x34 then clsRemote
  else if cause = 0x40 then clsAsync
  else if (0x65 ≤ cause ∧ cause ≤ 0x68) ∨ cause = 0x6F ∨ cause = 0x70 then clsRole
  else if cause = 0x69 then clsNest
  else if cause = 0x6A then clsQovf
  else if cause = 0x6B then clsArith
  else if cause = 0x6C then clsMxchk
  else if cause = 0x6D then clsSoft
  else if cause = 0x6E ∨ cause = 0x71 ∨ cause = 0x72 then clsDebug
  else clsIll

/-! ## Address spaces -/

/-- First address of the scratchpad window (R17). -/
def winBase : Nat := 0xFFFFFFFFFF000000

/-- First address beyond device memory (R161). -/
def devTop : Nat := 4 * Config.dieBytes

/-- Bits [63:56] all equal bit 55 (R16). -/
def canonical (va : W64) : Bool := decide (fld va 63 55 = 0 ∨ fld va 63 55 = 511)

/-- A translation, a cause, or cause 0x05 with the table address whose line had the uncorrectable error (R164). -/
inductive Walk where
  | found (x : Xlat)
  | bad (cause : Nat)
  | lost (pa : Nat)
  deriving DecidableEq, Repr

/-- A byte of a table, none where its line has an uncorrectable error. -/
def Mach.tableByte (m : Mach) (pa : Nat) : Option Byte :=
  if pa < devTop then (if m.bad.contains (pa / 64) then none else some (m.readByte .dev pa))
  else some (m.readByte .host pa)

/-- A word of a table, none where its line has an uncorrectable error (R164). Tables stand in device memory, or, beyond it,
in host memory (log 16). -/
def Mach.tableWord (m : Mach) (pa : Nat) : Option W64 :=
  if pa < devTop then (if m.bad.contains (pa / 64) then none else some (m.read64 .dev pa))
  else some (m.read64 .host pa)

/-- An entry's attributes break R158 or R160, or its span breaks R161. RPKG that is not zero where HK is not 10 breaks them (DEDUCED, log 137);
CA 01 where HK is not 01 does not (DEDUCED, log 138). -/
def attrBad (pkg : Nat) (e : W64) (pa len : Nat) : Bool :=
  let hk := fld e 6 5
  decide (2 ≤ fld e 9 8 ∨ hk = 3 ∨ (hk ≠ 2 ∧ fld e 63 50 ≠ 0) ∨ (hk = 1 ∧ fld e 9 8 = 1 ∧ bitAt e 4 = true)
    ∨ (hk ≠ 1 ∧ devTop < pa + len) ∨ (hk = 2 ∧ fld e 63 50 = pkg))

/-- Attributes kept of an entry: bits [15:0] and RPKG. -/
def attrOf (e : W64) : W64 := .ofNat 64 (fld e 15 0 + 2 ^ 50 * fld e 63 50)

/-- The range entries of a space as memory holds them, by offset in their 2 KiB (R158). -/
def Mach.rangeCells (m : Mach) (desc : Nat) : Sparse Byte :=
  (m.mem (if desc + 0x800 < devTop then .dev else .host)).filterMap fun p =>
    if desc + 0x800 ≤ p.1 ∧ p.1 < desc + 0x1000 then some (p.1 - (desc + 0x800), p.2) else none

/-- A copy of the range entries holds the entry at an offset: one with V = 0 is never cached (R164). -/
def heldRange (copy : Sparse Byte) (off : Nat) : Bool := bitAt (Sparse.get 0 copy (off / 32 * 32 + 24)) 0

/-- A byte of the range entries, of a cached copy where that holds the entry, and of memory otherwise. -/
def Mach.rangeByte (m : Mach) (desc : Nat) (copy : Sparse Byte) (off : Nat) : Option Byte :=
  if heldRange copy off then some (Sparse.get 0 copy off) else m.tableByte (desc + 0x800 + off)

def Mach.rangeWord (m : Mach) (desc : Nat) (copy : Sparse Byte) (off : Nat) : Option W64 :=
  (m.rangeByte desc copy off).map fun _ => .ofNat 64 (leNat ((List.range 8).map fun k => (m.rangeByte desc copy (off + k)).getD 0))

/-- The range entries from e on, in increasing order (R158); none when no entry matches. -/
def Mach.ranges? (m : Mach) (asid desc : Nat) (copy : Sparse Byte) (va : Nat) : Nat → Nat → Option Walk
  | 0, _ => none
  | n + 1, e =>
    let w := fun k => m.rangeWord desc copy (32 * e + 8 * k)
    match m.rangeByte desc copy (32 * e + 24) with
    | none => some (.lost (desc + 0x800 + 32 * e))
    | some v =>
      if ¬ bitAt v 0 then m.ranges? asid desc copy va n (e + 1)
      else
        match w 0, w 1, w 2, w 3 with
        | some lo, some hi, some off, some at_ =>
          if fld lo 15 0 ≠ 0 ∨ fld hi 15 0 ≠ 0 ∨ fld off 15 0 ≠ 0 ∨ canonical lo = false ∨ hi.toNat ≤ lo.toNat
              ∨ fld at_ 49 16 ≠ 0 ∨ bitAt at_ 1 = true ∨ attrBad m.pkg at_ off.toNat (hi.toNat - lo.toNat) = true then
            some (.bad 0x04)
          else if lo.toNat ≤ va ∧ va < hi.toNat then some (.found ⟨asid, lo.toNat, hi.toNat, off.toNat, attrOf at_⟩)
          else m.ranges? asid desc copy va n (e + 1)
        | _, _, _, _ => some (.lost (desc + 0x800 + 32 * e))

/-- A table's word as a walk may find it: that of memory, or an older one that the walker cache holds (R164). -/
def Mach.tableWords (m : Mach) (old : List TableCopy) (asid at_ : Nat) : List (Option W64) :=
  m.tableWord at_ :: old.filterMap fun x =>
    if x.asid = asid ∧ x.addr = at_ ∧ m.tableWord at_ ≠ some x.word then some (some x.word) else none

/-- Page tables from a level on (R159, R160): what a walk may give, memory's words first, with the table entries that it used. -/
def Mach.levels (m : Mach) (old : List TableCopy) (asid va : Nat) :
    List (Nat × Nat × Nat × Nat) → Nat → List TableCopy → List (Walk × List TableCopy)
  | [], _, path => [(.bad 0x04, path)]
  | (shift, bits, size, page) :: rest, table, path =>
    if table % size ≠ 0 then [(.bad 0x04, path)]
    else
      let at_ := table + 8 * ((va >>> shift) % 2 ^ bits)
      (m.tableWords old asid at_).flatMap fun w =>
        match w with
        | none => [(.lost at_, path)]
        | some e =>
          if ¬ bitAt e 0 then [(.bad 0x03, path)]
          else if bitAt e 1 then
            if rest = [] ∨ fld e 63 50 ≠ 0 ∨ fld e 7 2 ≠ 0 then [(.bad 0x04, path)]
            else m.levels old asid va rest (fld e 49 8 * 256)
              (⟨asid, at_, e, va / 2 ^ shift * 2 ^ shift, va / 2 ^ shift * 2 ^ shift + 2 ^ shift⟩ :: path)
          else if page = 0 ∨ (fld e 49 16 * 65536) % page ≠ 0 ∨ attrBad m.pkg e (fld e 49 16 * 65536) page = true then
            [(.bad 0x04, path)]
          else [(.found ⟨asid, va / page * page, va / page * page + page, fld e 49 16 * 65536, attrOf e⟩, path)]

/-- Levels: lowest address bit indexed, index bits, table size, page size of a leaf (R159). -/
def tableLevels : List (Nat × Nat × Nat × Nat) :=
  [(48, 8, 0x800, 0), (39, 9, 0x1000, 0), (30, 9, 0x1000, 0x40000000), (21, 9, 0x1000, 0x200000), (16, 5, 0x100, 0x10000)]

/-- Where an address space's descriptor lies (R157). -/
def Desk.space (d : Desk) (asid : Nat) : Nat := fld d.astbase 49 20 * 0x100000 + asid * 0x1000

/-- What a translation may give with a copy of the range entries, leaf translations and table entries that caches hold (R157 to R161,
R164); with none of them, what memory gives. Each result comes with the table entries that the walk used. -/
def Mach.walks (m : Mach) (asid va : Nat) (copy : Sparse Byte) (leaves : List Xlat) (old : List TableCopy) : List (Walk × List TableCopy) :=
  if ¬ bitAt m.desk.astbase 0 then [(.bad 0x06, [])]
  else
    let desc := m.desk.space asid
    match m.ranges? asid desc copy va 64 0 with
    | some w => [(w, [])]
    | none =>
      ((leaves.filter fun x => decide (x.asid = asid ∧ x.lo ≤ va ∧ va < x.hi)).map fun x => (.found x, []))
      ++ match m.tableWord desc with
        | none => [(.lost desc, [])]
        | some root => if bitAt root 0 then m.levels old asid va tableLevels (fld root 49 11 * 2048) [] else [(.bad 0x06, [])]

/-- The translation that the tables give as they stand. -/
def Mach.walk (m : Mach) (asid va : Nat) : Walk := ((m.walks asid va [] [] []).map Prod.fst).headD (.bad 0x06)

/-- Two walks give the address one translation and one set of attributes. -/
def sameXlat (va : Nat) : Walk → Walk → Bool
  | .found a, .found b => decide (a.pa + (va - a.lo) = b.pa + (va - b.lo) ∧ a.attr = b.attr)
  | .bad a, .bad b => decide (a = b)
  | .lost a, .lost b => decide (a = b)
  | _, _ => false

/-- Results that differ from those before them. -/
def distinctWalks (va : Nat) : List (Walk × List TableCopy) → List Walk → List (Walk × List TableCopy)
  | [], _ => []
  | x :: r, seen => if seen.any fun y => sameXlat va x.1 y then distinctWalks va r seen else x :: distinctWalks va r (x.1 :: seen)

/-- The core whose range cache and TLB serve a unit (R18, R164). -/
def unitCore (unit die : Nat) : Option Nat := if unit < 96 then some (die * 96 + unit) else none

/-- The copy of a space's range entries in a unit's range cache. -/
def Mach.rangeCopy (m : Mach) (asid unit die : Nat) : Sparse Byte :=
  ((unitCore unit die).bind fun c => ((m.core c).rcache.find? fun x => decide (x.asid = asid)).map RangeCopy.cells).getD []

/-- The leaf translations that serve a unit: those of its core's TLB and of its die's second-level TLB; the launch desk has neither
(log 117). -/
def Mach.leaves (m : Mach) (unit die : Nat) : List Xlat :=
  ((unitCore unit die).map fun c => (m.core c).tlb).getD [] ++ if unit ≤ 104 then (m.die die).tlb2 else []

/-- Every result that a unit's translation may give, the tables as they stand first: until TLBINV completes, an access may use an older
entry that a cache still holds (R164). -/
def Mach.allWalks (m : Mach) (asid va unit die : Nat) : List (Walk × List TableCopy) :=
  let old := if unit ≤ 104 then (m.die die).wcache else []
  distinctWalks va (m.walks asid va [] [] [] ++ m.walks asid va [] (m.leaves unit die) old
    ++ m.walks asid va (m.rangeCopy asid unit die) (m.leaves unit die) old) []

/-- Put an entry into a cache of n entries; which one a full cache gives up is open (log 51). -/
def Mach.intoCache {α : Type} [DecidableEq α] (m : Mach) (n : Nat) (x : α) (xs : List α) : List α × Mach :=
  if xs.contains x then (xs, m)
  else if xs.length < n then (x :: xs, m)
  else
    let (i, m) := m.pick 0 (List.range n)
    (x :: xs.eraseIdx i, m)

/-- The range cache of a core takes the entries of a space that it does not hold, from memory. -/
def Mach.cacheRanges (m : Mach) (asid core : Nat) : Mach :=
  let k := m.core core
  let old := ((k.rcache.find? fun x => decide (x.asid = asid)).map RangeCopy.cells).getD []
  let cells := (m.rangeCells (m.desk.space asid)).foldl (fun s p => if heldRange old p.1 then s else Sparse.put 0 s p.1 p.2)
    (old.filter fun p => heldRange old p.1)
  let (xs, m) := m.intoCache 4 ⟨asid, cells⟩ (k.rcache.filter fun x => decide (x.asid ≠ asid))
  m.modCore core fun k => { k with rcache := xs }

/-- What a translation found enters the caches of the unit's core and die (R164). -/
def Mach.cacheWalk (m : Mach) (asid unit die : Nat) (w : Walk) (path : List TableCopy) : Mach :=
  let m := match unitCore unit die with | some c => m.cacheRanges asid c | none => m
  match w with
  | .found x =>
    if path = [] ∨ 104 < unit then m
    else
      let m := match unitCore unit die with
        | some c => let (xs, m) := m.intoCache 256 x (m.core c).tlb; m.modCore c fun k => { k with tlb := xs }
        | none => m
      let (ys, m) := m.intoCache 65536 x (m.die die).tlb2
      m.modDie die fun d => { d with tlb2 := ys, wcache := (path.filter fun y => !d.wcache.contains y) ++ d.wcache }
  | _ => m

/-- Translation (R157 to R164). A walk whose table read failed is logged, with the line and the unit that met it (R164, R401). -/
def Mach.translate (m : Mach) (asid va unit die : Nat) : Walk × Mach :=
  let (r, m) := m.pick (.bad 0x06, []) (m.allWalks asid va unit die)
  let m := if bitAt m.desk.astbase 0 then m.cacheWalk asid unit die r.1 r.2 else m
  match r.1 with
  | .lost pa => (.bad 0x05, m.logError 3 unit die pa)
  | w => (w, m)

/-! ## Checks of an access (R145) -/

/-- What the home must be (R16, R161, R162, R193, R240, R258). -/
inductive HomeRule where
  | plain        -- this die, or host memory
  | letter       -- any device memory
  | local_        -- this die only
  | record        -- this die only, for an instruction of meetings
  | fetch        -- this package's device memory, or host memory
  | copyDest     -- any device memory, or host memory
  deriving DecidableEq, Repr

/-- What becomes of an address in the scratchpad window. -/
inductive WinRule where
  | allowed
  | denied (cause : Nat)
  deriving DecidableEq, Repr

/-- An access to be checked. -/
structure Access where
  va : W64
  size : Nat
  align : Nat
  r : Bool
  w : Bool
  x : Bool
  atom : Bool
  home : HomeRule
  win : WinRule
  deriving DecidableEq, Repr

/-- The agent that makes an access: address space, die, core, its world, its team's allocation and mode, and its unit (R18). -/
structure Agent where
  asid : Nat
  die : Nat
  core : Nat
  secure : Bool
  scr : Nat
  alloc : Nat
  det : Bool
  unit : Nat
  deriving DecidableEq, Repr

/-- A piece of an access that stays in one place: space, key, length; for another package, its number. -/
structure Piece where
  space : Space
  addr : Nat
  len : Nat
  pkg : Option Nat
  attr : W64
  deriving DecidableEq, Repr

/-- The bytes of an open meeting's record or member table (R217). -/
def Mach.inMeeting (m : Mach) (die pa len : Nat) : Bool :=
  (m.die die).regions.any fun p =>
    match p.2.bind Region.meeting with
    | some g =>
      decide ((pa < g.record + 128 ∧ g.record < pa + len) ∨ (pa < g.mem + 16 * g.n ∧ g.mem < pa + len))
    | none => false

/-- A translated part of an access: its translation, physical address and length. -/
structure Span where
  x : Xlat
  pa : Nat
  len : Nat
  deriving DecidableEq, Repr

/-- Step 4 over a span, part by part; `n` bounds the parts, which are never smaller than 64 KiB but at the ends. -/
def Mach.spans (m : Mach) (ag : Agent) : Nat → Nat → Nat → Except Nat (List Span) × Mach
  | 0, _, _ => (.ok [], m)
  | n + 1, va, len =>
    if len = 0 then (.ok [], m)
    else
      match m.translate ag.asid va ag.unit ag.die with
      | (.bad c, m) => (.error c, m)
      | (.lost _, m) => (.error 0x05, m)
      | (.found x, m) =>
        let k := min len (x.hi - va)
        match m.spans ag n (va + k) (len - k) with
        | (.error c, m) => (.error c, m)
        | (.ok ps, m) => (.ok (⟨x, x.pa + (va - x.lo), k⟩ :: ps), m)

/-- A part's entry lacks a permission that the access needs (step 5, R160). -/
def Span.denies (p : Span) (a : Access) : Bool :=
  (a.r && !bitAt p.x.attr 2) || (a.w && !bitAt p.x.attr 3) || (a.x && !bitAt p.x.attr 4)

/-- A plain write of a part touches an open meeting's record or member table (R215, R217): not a letter, and not the meeting's own
instructions (log 133). -/
def Span.strikesMeeting (p : Span) (m : Mach) (a : Access) : Bool :=
  a.w && decide (a.home = .plain ∨ a.home = .local_ ∨ a.home = .copyDest)
    && decide (fld p.x.attr 6 5 = 0) && m.inMeeting (p.pa / Config.dieBytes) p.pa p.len

/-- Step 6 on a part: where it lies, or the cause of a home that the instruction does not allow. -/
def Span.place (p : Span) (m : Mach) (ag : Agent) (a : Access) : Except Nat Piece :=
  match fld p.x.attr 6 5, a.home with
  | 0, .plain | 0, .local_ | 0, .record =>
    if p.pa / Config.dieBytes = ag.die then .ok ⟨.dev, p.pa, p.len, none, p.x.attr⟩ else .error 0x30
  | 0, _ => .ok ⟨.dev, p.pa, p.len, none, p.x.attr⟩
  | 1, .plain | 1, .fetch | 1, .copyDest => if m.linkUp then .ok ⟨.host, p.pa, p.len, none, p.x.attr⟩ else .error 0x41
  | 1, _ => .error 0x22
  | _, .letter | _, .copyDest => .ok ⟨.dev, p.pa, p.len, some (fld p.x.attr 63 50), p.x.attr⟩
  | _, .fetch => .error 0x22
  | _, _ => .error 0x30

/-- Step 6 over the parts in their order. -/
def Mach.placeAll (m : Mach) (ag : Agent) (a : Access) : List Span → Except Nat (List Piece)
  | [] => .ok []
  | p :: r =>
    match p.place m ag a, m.placeAll ag a r with
    | .error c, _ => .error c
    | .ok _, .error c => .error c
    | .ok q, .ok qs => .ok (q :: qs)

/-- Steps 4 to 6 of R145, each over the whole access before the next. -/
def Mach.checkSpan (m : Mach) (ag : Agent) (a : Access) (n va len : Nat) : Except Nat (List Piece) × Mach :=
  match m.spans ag n va len with
  | (.error c, m) => (.error c, m)
  | (.ok ps, m) =>
    if ps.any fun p => p.denies a then (.error 0x20, m)
    else if ps.any fun p => bitAt p.x.attr 7 && !ag.secure then (.error 0x21, m)
    else if ps.any fun p => p.strikesMeeting m a then (.error 0x26, m)
    else (m.placeAll ag a ps, m)

/-- The checks of R145 in their order; the pieces of the access, or the cause of the first check that fails. A fetch in the window beyond the
team's allocation gives 0x02, before R162's 0x20 (DEDUCED, log 135). -/
def Mach.check (m : Mach) (ag : Agent) (a : Access) : Except Nat (List Piece) × Mach :=
  let va := a.va.toNat
  let last := va + a.size - 1
  if ¬ canonical a.va then (.error 0x01, m)
  else if va % a.align ≠ 0 then (.error 0x10, m)
  else if (va < winBase ∧ winBase ≤ last) ∨ 2 ^ 64 ≤ last then (.error 0x11, m)
  else if winBase ≤ va then
    match a.win with
    | .denied c => (.error c, m)
    | .allowed =>
      let off := va - winBase
      if Config.scratchBytes < off + a.size ∨ ag.alloc < off + a.size then (.error 0x02, m)
      else if a.x then (.error 0x20, m)
      else if a.atom && ag.det then (.error 0x23, m)
      else (.ok [⟨.scratch, ag.core * Config.scratchStride + ag.scr * 2048 + off, a.size, none, 0⟩], m)
  else m.checkSpan ag a (a.size / 65536 + 2) va a.size

/-- A lane's condition of a cause, with its address. -/
def condOf (lane : Nat) (va : W64) (cause : Nat) : Cond := ⟨lane, classOf cause, cause, va, 0⟩

/-- The first piece of an access that lies in one piece. -/
def onePiece : List Piece → Piece
  | p :: _ => p
  | [] => ⟨.dev, 0, 0, none, 0⟩

end Sys2Proof.Machine
end

