-- ==== Sys2Proof/Machine/Operands.lean ====
section
/-! DEFINITION. Who issues an instruction, which encodings an opcode allows (R26 to R33, R41), register operands and their
limits (R14, R27, R148), and issue: the traps of R41 in the order of R42, the run and lookahead bookkeeping of R36 and R37,
and the outcomes of a meaning. -/

namespace Sys2Proof.Machine

/-! ## Context -/

/-- The issuer of an instruction and what it sees. -/
structure Ctx where
  q : Nat
  key : Nat
  core : Nat
  die : Nat
  b : Bundle
  tk : Nat
  tm : Team
  g : Grid
  run : Run
  /-- Lanes executing the issue, and those that take part (R30). -/
  grp : Lanes
  act : Lanes
  o : Opn
  pc : W64
  size : Nat
  /-- A handler, or the control core, issues. -/
  hand : Bool
  ctl : Bool
  /-- The instruction is a sweep (R34). -/
  swp : Bool := false

/-- The lanes that the mask fields let take part (R30). -/
def maskLanes (r : Regs) (o : Opn) : Lanes := if o.mn then ~~~r.getP o.mp.toNat else r.getP o.mp.toNat

/-- The issuer in focus, before any mask is applied. -/
def ctxOf (s : State) (o : Opn) : Option Ctx :=
  match s.mach.run? s.focus with
  | none => none
  | some r =>
    match s.mach.bundle? r.key with
    | none => none
    | some b =>
      let core := coreOfKey r.key
      let tm := s.mach.team b.team
      some ⟨s.focus, r.key, core, dieOfCore core, b, b.team, tm, s.mach.gridOf tm, r, r.grp, r.grp, o, r.pc, 4 * sizeWords o,
        b.hand.isSome, decide (r.key % 256 = 128), false⟩

def Ctx.agent (c : Ctx) : Agent :=
  ⟨c.g.asid, c.die, c.core, c.g.world, c.tm.scr, c.tm.alloc, c.g.det, c.core % 96⟩

/-- The program counter after this instruction. -/
def Ctx.nextPc (c : Ctx) : W64 := c.pc + BitVec.ofNat 64 c.size

/-! ## Encodings (R26, R29 to R33) -/

/-- What an opcode's function uses of an encoding. -/
structure Form where
  fns : List Nat := [0]
  /-- Modifier bits used. -/
  modBits : Nat := 0
  useD : Bool := false
  useA : Bool := false
  useB : Bool := false
  useC : Bool := false
  /-- 0 no mask, 1 MP and MN, 2 MP, MN and ZM. -/
  mask : Nat := 0
  /-- MP and MN hold a branch's PRED and NEG. -/
  pred : Bool := false
  rounds : Bool := false
  la : Bool := false
  tys : List Nat := [0]
  /-- The literal of LEN 01 and 11 is operand B (R24); otherwise it is a displacement, an offset or an immediate. -/
  litB : Bool := true
  /-- The form of a sweep (R34). -/
  sweeps : Bool := false

/-- FN, modifiers, register fields and element type hold nothing that the function does not use (R26, R28). -/
def Form.fieldsFit (f : Form) (o : Opn) : Bool :=
  f.fns.contains o.fn.toNat && decide (o.mods.toNat &&& (8191 - f.modBits) = 0)
    && (f.useD || decide (o.d = 0)) && (f.useA || decide (o.a = 0)) && (f.useB || decide (o.b = 0))
    && (f.useC || decide (o.c = 0)) && (decide (o.len.toNat < 2) || f.tys.contains o.ty.toNat)

/-- Mask, rounding and lookahead fields are ones the opcode honours (R29, R30, R37). -/
def Form.maskFits (f : Form) (o : Opn) : Bool :=
  (f.pred || decide (1 ≤ f.mask) || decide (o.mp = 0 ∧ o.mn = false)) && (decide (f.mask = 2) || !o.zm)
    && (if f.rounds then decide (o.rm.toNat ≤ 5) else decide (o.rm = 0)) && (f.la || decide (o.la = 0))

/-- The extended function, the broadcast and the literal fit the length and the opcode (R24, R31, R33, R34). -/
def Form.litFits (f : Form) (opc : Nat) (o : Opn) : Bool :=
  let vec := decide (0x20 ≤ opc ∧ opc ≤ 0x57)
  let odd := decide (o.len = 1 ∨ o.len = 3)
  match o.xf.toNat with
  | 0 => (!o.sb || f.useB)
      && (!(odd && f.litB) || (decide (o.b = 0) && f.useB))
  | 1 => f.sweeps && decide (o.len = 3)
  | 2 => vec && decide (o.len = 3 ∧ o.b = 0) && f.useB
  | 3 => vec && f.useB && (decide (o.len = 2) || decide (o.imm = 0))
  | _ => false

def Form.fits (f : Form) (opc : Nat) (o : Opn) : Bool := f.fieldsFit o && f.maskFits o && f.litFits opc o

/-- The element type: TY of an extended form, the opcode's own otherwise (R28). -/
def typeOf (o : Opn) (base : Nat) : Nat := if 2 ≤ o.len.toNat then o.ty.toNat else base

/-- Operand B is a literal (R24, R31). -/
def litB (o : Opn) : Bool := decide (o.len = 1) || (decide (o.len = 3) && decide (o.xf = 0 ∨ o.xf = 2))

/-- Operand B is a scalar register broadcast to every lane (R31, R32). -/
def bcastB (o : Opn) : Bool := o.sb || decide (o.xf = 3)

/-- The fourth operand's register: C, or D without a prefix or an extended form (R33). -/
def fourth (o : Opn) : Nat := if o.pre ∨ 2 ≤ o.len.toNat then o.c.toNat else o.d.toNat

/-! ## Register operands (R14, R27, R148) -/

inductive Opd where
  /-- A run of `n` vector registers from `r`, whose first is a multiple of `align`. -/
  | v (r n align : Nat)
  /-- A run of scalar registers, the first a multiple of `align`. -/
  | s (r n align : Nat)
  | p (r : Nat)
  | j (r : Nat)
  | t (r : Nat)
  | h (r : Nat)
  | f (r : Nat)
  deriving DecidableEq, Repr

/-- A register field is within its kind and the allocation; in a handler an s field names a w register (R378), and the
control core has v0 to v63 (R333). -/
def Opd.ok (c : Ctx) : Opd → Bool
  | .v r n al => decide (r % al = 0 ∧ r + n ≤ if c.ctl then 64 else c.g.regs)
  | .s r n al => decide (r % al = 0 ∧ r + n ≤ if c.hand then 32 else 128)
  | .p r => decide (r < 16)
  | .j r => decide (r < 8)
  | .t r => decide (r < c.tm.tiles.length)
  | .h r => decide (r < 64)
  | .f r => decide (r < 8)

/-- A vector operand of an element type: a pair for the 64-bit types (R27). -/
def vOpd (ty r : Nat) : Opd := if ty = 2 ∨ ty = 3 ∨ ty = 7 then .v r 2 2 else .v r 1 1

/-- Scalar registers, or w registers in a handler (R378). -/
def Regs.sget (r : Regs) (hand : Bool) (n : Nat) : W64 := if hand then r.getW n else r.getS n
def Regs.sset (r : Regs) (hand : Bool) (n : Nat) (x : W64) : Regs := if hand then r.setW n x else r.setS n x

def Ctx.s (c : Ctx) (n : Nat) : W64 := c.b.regs.sget c.hand n
def Ctx.v (c : Ctx) (n l : Nat) : W32 := c.b.regs.getV n l
def Ctx.v2 (c : Ctx) (n l : Nat) : W64 := c.b.regs.getV2 n l

/-- Write a scalar register of the issuer. -/
def Ctx.setS (c : Ctx) (m : Mach) (n : Nat) (x : W64) : Mach :=
  m.modBundle c.key fun b => b.modRegs fun r => r.sset c.hand n x

def Ctx.modRegs (c : Ctx) (m : Mach) (f : Regs → Regs) : Mach := m.modBundle c.key fun b => b.modRegs f

/-! ## What may issue where -/

/-- Run marks of the opcode map: T may fault in translation, C transfers control, W may wait (R39). -/
def markT (opc : Nat) : Bool :=
  decide ((0x68 ≤ opc ∧ opc ≤ 0x6C) ∨ (0x78 ≤ opc ∧ opc ≤ 0x81) ∨ (0x88 ≤ opc ∧ opc ≤ 0x8E) ∨ opc = 0x90 ∨ opc = 0x91
    ∨ opc = 0x98 ∨ opc = 0x99 ∨ opc = 0x9B ∨ opc = 0xA5 ∨ opc = 0xA6 ∨ opc = 0xB8 ∨ opc = 0xCA ∨ opc = 0xCB ∨ opc = 0xCD)

def markC (opc : Nat) : Bool :=
  decide ((0x01 ≤ opc ∧ opc ≤ 0x05) ∨ opc = 0x07 ∨ opc = 0x09 ∨ (0xD8 ≤ opc ∧ opc ≤ 0xDB))

def markW (opc : Nat) : Bool :=
  decide (opc = 0x07 ∨ opc = 0x09 ∨ opc = 0x6D ∨ opc = 0x71 ∨ opc = 0x81 ∨ opc = 0x8B ∨ opc = 0x93 ∨ (0xB9 ≤ opc ∧ opc ≤ 0xBB)
    ∨ opc = 0xBE ∨ opc = 0xBF ∨ opc = 0xC0 ∨ opc = 0xC8)

/-- Opcodes of which a handler may issue some form (R379). -/
def handlerOpc (opc : Nat) : Bool :=
  decide (opc ≤ 0x04 ∨ (0x0C ≤ opc ∧ opc ≤ 0x1D) ∨ (0x67 ≤ opc ∧ opc ≤ 0x6D) ∨ opc = 0xA0 ∨ opc = 0xA1 ∨ (0xA4 ≤ opc ∧ opc ≤ 0xA8)
    ∨ opc = 0xBE ∨ opc = 0xC1 ∨ opc = 0xD9 ∨ opc = 0xDB ∨ opc = 0xDC)

/-- What a handler may issue (R379). -/
def handlerOk (opc : Nat) (o : Opn) : Bool :=
  if o.pre then false
  else if opc = 0x00 ∨ (0x0C ≤ opc ∧ opc ≤ 0x1A) ∨ opc = 0x1D ∨ opc = 0x67 ∨ opc = 0x6D ∨ opc = 0xA0 ∨ opc = 0xA1
      ∨ (0xA4 ≤ opc ∧ opc ≤ 0xA8) ∨ opc = 0xBE ∨ opc = 0xC1 ∨ opc = 0xD9 ∨ opc = 0xDB ∨ opc = 0xDC then true
  else if opc = 0x01 ∨ opc = 0x03 ∨ opc = 0x04 then decide (o.mp = 0)
  else if opc = 0x02 then decide (o.fn.toNat ≤ 2)
  else if opc = 0x1B then decide (o.fn = 0)
  else if opc = 0x1C then decide (o.b.toNat ≠ 1 ∧ o.b.toNat ≠ 2)
  else if 0x68 ≤ opc ∧ opc ≤ 0x6C then decide (fld o.mods 3 3 = 1 ∧ fld o.mods 8 8 = 0 ∧ fld o.mods 2 0 ≤ 3)
  else false

/-- What the control core may issue (R336, R337). -/
def controlOk (opc : Nat) (o : Opn) : Bool :=
  if opc ≤ 0x05 ∨ (0x0C ≤ opc ∧ opc ≤ 0x1E) ∨ opc = 0x6D ∨ (0x88 ≤ opc ∧ opc ≤ 0x8E) ∨ opc = 0xBE ∨ opc = 0xC0
      ∨ (0xC8 ≤ opc ∧ opc ≤ 0xCD) then true
  else if (0x68 ≤ opc ∧ opc ≤ 0x6C) ∨ opc = 0x72 ∨ (0x78 ≤ opc ∧ opc ≤ 0x81) then decide (fld o.mods 3 3 = 1)
  else false

/-- Opcodes that only the control core issues (R337). -/
def controlOnly (opc : Nat) : Bool := decide (opc = 0xC8 ∨ (0xCA ≤ opc ∧ opc ≤ 0xCD))

/-- The bundle's role forbids the opcode (R321): 1 copy, 2 matrix, 3 vector. -/
def roleForbids (role opc : Nat) : Bool :=
  let mx := decide (opc = 0xA0 ∨ opc = 0xA1 ∨ (0xA4 ≤ opc ∧ opc ≤ 0xA8))
  let cp := decide (opc = 0x90 ∨ opc = 0x91)
  match role with
  | 1 => mx
  | 2 => cp
  | 3 => mx || cp
  | _ => false

/-- The role of a bundle of a grid (R306). -/
def Grid.role (g : Grid) (bnum : Nat) : Nat := nfld g.roletab.toNat (2 * bnum + 1) (2 * bnum)

/-! ## Traps of an instruction -/

/-- A trap with the conditions given. -/
def Ctx.trapWith (c : Ctx) (cls cause : Nat) (conds : List Cond) : Trap :=
  ⟨cls, cause, c.pc, false, c.swp, c.size / 4, if c.act = 0 then c.grp else c.act, conds, 0, 0⟩

/-- An instruction-wide trap: every lane of the trapping group holds the condition (R374). -/
def Ctx.trap (c : Ctx) (cls cause : Nat) : Trap :=
  c.trapWith cls cause ((laneList (if c.act = 0 then c.grp else c.act)).map fun l => ⟨l, cls, cause, 0, 0⟩)

/-- The outcomes of a meaning. -/
inductive Res where
  /-- The instruction is done and its group goes on at the next instruction. -/
  | done (m : Mach)
  /-- The lanes listed go to the program counters given and the run ends. -/
  | goto (m : Mach) (pcs : List (Nat × W64))
  /-- The meaning has ended the run itself. -/
  | closed (m : Mach)
  | trap (m : Mach) (t : Trap)
  /-- Held at issue: nothing changes, and the issue slot stays with the run (R319). -/
  | hold
  /-- An instruction marked W waits for the earlier accesses of these lanes: its run ends before it waits (R36, R319). -/
  | wait (m : Mach) (ls : Lanes)

/-- An opcode's function: its code, its encodings, its register operands, and whether it can raise ARITH. -/
structure Rule where
  opc : Nat
  form : Opn → Form
  /-- Further limits on field values that raise ILL. -/
  extra : Opn → Bool := fun _ => true
  /-- Limits that depend on who issues. -/
  site : Ctx → Bool := fun _ => true
  opds : Opn → List Opd := fun _ => []
  /-- Register operands whose limits depend on the issuer's registers (R27). -/
  held : Ctx → Bool := fun _ => true
  arith : Bool := false
  swp : Bool := false

/-- The trap of R41 that an instruction meets, if any, in the order ILL, OPERAND, ROLE (R42). -/
def Rule.refuses (r : Rule) (c : Ctx) : Option Trap :=
  let o := c.o
  if c.hand && !handlerOk r.opc o then some (c.trap clsIll 0x62)
  else if ¬ ((r.form o).fits r.opc o && r.extra o && r.site c) then some (c.trap clsIll 0x60)
  else if c.ctl && !controlOk r.opc o then some (c.trap clsIll 0x60)
  else if !c.ctl && controlOnly r.opc then some (c.trap clsIll 0x60)
  else if ¬ ((r.opds o).all (Opd.ok c) && r.held c) then some (c.trap clsOperand 0x63)
  else if !c.ctl && roleForbids (c.g.role c.b.bnum) r.opc then some (c.trap clsRole 0x65)
  else none

/-- Some floating-point exception is enabled in FPCTL (R36, R67). -/
def Regs.trapsOn (r : Regs) : Bool := decide (fld r.fpctl 12 8 ≠ 0)

/-- The run ends after this instruction (R36, R377); on the control core, where runs have no effect, after each (R335). -/
def Rule.endsRun (r : Rule) (c : Ctx) : Bool :=
  c.ctl || c.o.e || decide (24 ≤ c.run.n + 1) || r.swp || markT r.opc || markC r.opc || markW r.opc || (r.arith && c.b.regs.trapsOn)

/-- A single-step trap falls due for the group, outside handlers, where SS is set as the instruction completes (R377, R386). -/
def Ctx.step (c : Ctx) (m : Mach) : Mach :=
  if c.hand || c.ctl then m
  else m.modBundle c.key fun b => if bitAt b.trap.dbgctl 0 then { b with stepped := b.stepped ||| c.grp } else b

/-- DBGCTL.SS is set after the instruction (R377, R386). -/
def Ctx.stepping (c : Ctx) (m : Mach) : Bool := !c.hand && !c.ctl && bitAt (m.bundle c.key).trap.dbgctl 0

/-- After an instruction whose group goes on. -/
def Rule.finish (r : Rule) (c : Ctx) (since : Nat) (m : Mach) : Mach :=
  let m := c.step (m.stepWindows c.key since c.grp (markC r.opc))
  if r.endsRun c || c.stepping m then m.closeRun c.q { c.run with pc := c.nextPc } c.nextPc
  else m.setRun c.q (some { c.run with pc := c.nextPc, n := c.run.n + 1 })

/-- After an instruction that sends lanes to program counters of their own. -/
def Rule.finishGoto (r : Rule) (c : Ctx) (since : Nat) (m : Mach) (pcs : List (Nat × W64)) : Mach :=
  let m := c.step (m.stepWindows c.key since c.grp (markC r.opc))
  (m.setRun c.q none).modBundle c.key fun b =>
    if c.hand then { b with hand := if b.hand.isSome then (pcs.head?).map (·.2) else none, last := m.clk }
    else
      { b.modLanes c.grp fun l x =>
          { x with pc := ((pcs.find? fun p => decide (p.1 = l)).map (·.2)).getD x.pc, last := m.clk } with last := m.clk }

/-- The run ends before its instruction, which waits for accesses of the lanes `ls` (R36, R319). -/
def Ctx.waitFor (c : Ctx) (m : Mach) (ls : Lanes) : Mach :=
  (m.closeRun c.q c.run c.pc).modBundle c.key fun b => { b with calm := b.calm ++ [(c.grp, ls)] }

/-- An access of these threads is not yet performed, or has not returned its data. -/
def Mach.threadsBusy (m : Mach) (key : Nat) (ls : Lanes) : Bool :=
  m.ops.any fun x => decide (x.key = key) && x.parts.any fun p => !p.done && ls.getLsbD p.lane

/-- The resumption point of a retried sweep is held until its group next issues (R385). -/
def Ctx.leaveResume (c : Ctx) (m : Mach) : Mach :=
  match c.b.resume with
  | some (_, _, ls) => if c.hand ∨ c.grp &&& ls = 0 then m else m.modBundle c.key fun b => { b with resume := none }
  | none => m

/-- What the issuer sees under a rule: the lanes that the mask fields let take part (R30), and whether the instruction is a sweep (R34). -/
def Rule.view (r : Rule) (c : Ctx) : Ctx :=
  { c with
    swp := r.swp && decide (c.o.len = 3)
    act := if 1 ≤ (r.form c.o).mask ∧ c.hand = false then c.grp &&& maskLanes c.b.regs c.o else c.act }

/-- Issue an instruction: a pending result holds it (R37), the traps of R41 come first, then its meaning. -/
def issue (r : Rule) (o : Opn) (s : State) (body : Ctx → Mach → Res) : Host.Outcome State Fault Refusal :=
  match ctxOf s o with
  | none => .refused .noIssuer
  | some c =>
    if s.mach.blocked c.key &&& c.grp ≠ 0 then .next s
    else
      let m := c.leaveResume s.mach
      let c := r.view c
      match r.refuses c with
      | some t => .next { s with mach := m.raise c.q c.run t }
      | none =>
        match body c m with
        | .done m' => .next { s with mach := r.finish c m.nextOp m' }
        | .goto m' pcs => .next { s with mach := r.finishGoto c m.nextOp m' pcs }
        | .closed m' => .next { s with mach := m' }
        | .trap m' t => .next { s with mach := m'.raise c.q c.run t }
        | .hold => .next s
        | .wait m' ls => .next { s with mach := c.waitFor m' ls }

/-- An undone part of an operation. -/
def part (lane : Nat) (p : Piece) (va : W64) (k : PartKind) : Part := ⟨lane, p.space, p.addr, p.len, va, k, false, 0, 0, false⟩

/-- The part writes. -/
def PartKind.writes : PartKind → Bool
  | .write _ | .rmw _ _ _ _ | .dec _ | .pack _ _ _ _ _ _ _ => true
  | _ => false

/-! ## Replayable faults (R146, R167 to R169) -/

/-- The first lane of each distinct 64 KiB page, in increasing lane order. -/
def firstPages : List Cond → List Nat → List Cond
  | [], _ => []
  | x :: r, seen =>
    if seen.contains (x.addr.toNat / 65536) then firstPages r seen else x :: firstPages r (x.addr.toNat / 65536 :: seen)

/-- A record for each condition; `w` says which accesses need the page writable. -/
def Mach.postFaults (m : Mach) (bslot die unit : Nat) (x : Bool) (w : Cond → Bool) (asid : Nat) (fid : W32) (pc : W64) : List Cond → Mach
  | [] => m
  | c :: r => (m.postFault (faultRecord c.addr bslot die unit r.isEmpty x (w c) asid fid pc)).postFaults bslot die unit x w asid fid pc r

/-- Lanes met conditions: a cause other than 0x03 traps with the class of the lowest such lane; otherwise the records of a
replayable fault are sent and the bundle waits (R146). A handler and the control core never wait (R338, R380). -/
def Ctx.resolve (c : Ctx) (m : Mach) (conds : List Cond) (needW : Bool) (x : Bool := false) (w : Cond → Bool := fun _ => needW) : Res :=
  match conds.find? fun y => decide (y.cause ≠ 0x03) with
  | some y => .trap m (c.trapWith y.cls y.cause conds)
  | none =>
    let t := c.trapWith clsXlate 0x03 conds
    if c.hand || c.ctl then .trap m t
    else
      let fid := m.desk.fid
      let m : Mach := { m with desk := { m.desk with fid := fid + 1 } }
      let m := m.postFaults (c.key % 256) c.die (c.core % 96) x w c.g.asid fid c.pc (firstPages conds [])
      .closed ((m.closeRun c.q c.run c.pc).modBundle c.key fun b => { b with fault := some (fid, t) })

end Sys2Proof.Machine
end

