-- ==== Sys2Proof/Machine/Barrier.lean ====
section
/-! DEFINITION. Team barriers (R322, R323), the commit of deterministic store buffers (R180), the end of threads (R85), and
the release of rejoin masks (R89). -/

namespace Sys2Proof.Machine

/-! ## Frames of evicted bundles, as far as barriers see them (R391, R392) -/

/-- ST and WK of a lane of a bundle frame. -/
def Mach.frameSt (m : Mach) (addr l : Nat) : Nat × Nat :=
  let x := m.readNat .dev (addr + 0x600 + 16 * l + 8) 8
  (nfld x 2 0, nfld x 7 4)

/-- Frames of single bundles evicted from a resident team. -/
def Mach.awayFrames (m : Mach) (tk : Nat) : List Frame := m.frames.filter fun f => decide (f.key = tk) && !f.whole

/-! ## Store buffers (R179, R180) -/

/-- Store-buffer entries of a lane of a bundle frame, oldest first. -/
def Mach.frameStores (m : Mach) (addr l : Nat) : List StoreEntry :=
  let n := nfld (m.readNat .dev (addr + 0x600 + 16 * l + 8) 8) 13 8
  (List.range n).map fun e =>
    let at_ := addr + 0x1000 + 0x400 * l + 32 * e
    ⟨m.readNat .dev at_ 4, m.readBytes .dev (at_ + 16) (nfld (m.readNat .dev (at_ + 4) 4) 4 0)⟩

/-- The store buffers that a bundle's exited threads leave behind as its slot is freed or refilled (R180). -/
def Mach.keepStores (m : Mach) (key : Nat) : Mach :=
  let b := m.bundle key
  m.modTeam b.team fun t => { t with left := t.left ++ b.lanes.filterMap fun p =>
    if p.2.st = .exited ∧ p.2.sbuf ≠ [] then some (p.2.tidx, p.2.sbuf) else none }

/-- Put a thread's entries among those of other threads, by rising TIDX. -/
def insertByTidx (x : Nat × List StoreEntry) : List (Nat × List StoreEntry) → List (Nat × List StoreEntry)
  | [] => [x]
  | y :: r => if x.1 < y.1 then x :: y :: r else y :: insertByTidx x r

/-- The control core's key, where it serves the team (R333). -/
def Mach.controlOf (m : Mach) (tk : Nat) : List Nat :=
  if (m.core (coreOfTeam tk)).owner = tk ∧ (m.bundle? (coreOfTeam tk * 256 + 128)).isSome then [coreOfTeam tk * 256 + 128] else []

/-- Every thread's buffered stores of a team, in increasing TIDX order; the control core's TIDX is above all (R333). -/
def Mach.buffered (m : Mach) (tk : Nat) : List (Nat × List StoreEntry) :=
  let ctl := (m.controlOf tk).map fun k => (0xFFFFFFFF, ((m.bundle k).lane 0).sbuf)
  let here := (m.bundlesOf tk).flatMap fun k =>
    (m.bundle k).lanes.filterMap fun p => if p.2.sbuf = [] then none else some (p.2.tidx, p.2.sbuf)
  let away := (m.awayFrames tk).flatMap fun f =>
    (List.range 32).filterMap fun l =>
      let es := m.frameStores f.addr l
      if es = [] then none else some (nfld (m.readNat .dev (f.addr + 0x600 + 16 * l + 8) 8) 25 16, es)
  let filed := (m.core (coreOfTeam tk)).holes.flatMap fun h =>
    if h.team = tk then h.thr.filterMap fun t => if t.sbuf = [] then none else some (t.tidx, t.sbuf) else []
  (here ++ away ++ filed ++ (m.team tk).left ++ ctl).foldl (fun a x => insertByTidx x a) []

/-- Perform entries in program order at the team's scratchpad. -/
def Mach.performStores (m : Mach) (t : Team) (core : Nat) : List StoreEntry → Mach
  | [] => m
  | e :: r => (m.writeBytes .scratch (t.phys core e.off) e.data).performStores t core r

/-- Commit every store buffer of a team: threads in increasing TIDX order, entries in program order (R180). -/
def Mach.commitStores (m : Mach) (tk : Nat) : Mach :=
  match m.team? tk with
  | none => m
  | some t =>
    if (m.gridOf t).det then
      let m := (m.buffered tk).foldl (fun m x => m.performStores t (coreOfTeam tk) x.2) m
      let m := (m.bundlesOf tk ++ m.controlOf tk).foldl (fun m k => m.modBundle k fun b =>
        { b with lanes := b.lanes.map fun p => (p.1, { p.2 with sbuf := [] }) }) m
      let m := if (m.core (coreOfTeam tk)).holes = [] then m
        else m.modCore (coreOfTeam tk) fun c => { c with holes := c.holes.map fun h =>
          if h.team = tk then { h with thr := h.thr.map fun t => { t with sbuf := [] } } else h }
      let m := m.modTeam tk fun t => { t with left := [] }
      (m.awayFrames tk).foldl (fun m f => (List.range 32).foldl (fun m l =>
        let a := f.addr + 0x600 + 16 * l + 8
        let x := m.readNat .dev a 8
        m.writeNat .dev a 8 (x - nfld x 13 8 * 256)) m) m
    else m

/-! ## Barriers (R323) -/

def Team.bar (t : Team) (k : Nat) : Barrier := Sparse.get Barrier.none t.bars k
def Team.setBar (t : Team) (k : Nat) (b : Barrier) : Team := { t with bars := Sparse.put Barrier.none t.bars k b }

/-- The sorting table holds threads of the team (R94). -/
def Mach.anyFiled (m : Mach) (tk : Nat) : Bool :=
  (m.core (coreOfTeam tk)).holes.any fun h => decide (h.team = tk) && !h.thr.isEmpty

/-- Every thread of the team that has not exited is parked at barrier k; a thread in the sorting table is not (R98). -/
def Mach.allArrived (m : Mach) (tk k : Nat) : Bool :=
  ((m.bundlesOf tk).all fun key =>
    (m.bundle key).lanes.all fun p =>
      match p.2.st with
      | .empty | .exited => true
      | .bar j _ => decide (j = k)
      | _ => false)
  && ((m.awayFrames tk).all fun f => (List.range 32).all fun l =>
    let x := m.frameSt f.addr l
    decide (x.1 = 0 ∨ x.1 = 1 ∨ (x.1 = 6 ∧ x.2 = k)))
  && !m.anyFiled tk

/-- The phase of barrier k is complete. -/
def Mach.barFull (m : Mach) (tk k : Nat) : Bool :=
  match m.team? tk with
  | none => false
  | some t =>
    let b := t.bar k
    !t.killed && ((decide (b.mode = 1) && m.allArrived tk k) || (decide (b.mode = 2) && decide (b.arrivals = b.e)))

/-- Lanes of a bundle parked at barrier k leave it. -/
def Bundle.leaveBar (k : Nat) (b : Bundle) : Bundle :=
  { b with lanes := b.lanes.map fun p =>
    match p.2.st with
    | .bar j sz => if j = k then (p.1, { p.2 with st := .runnable, pc := p.2.pc + BitVec.ofNat 64 sz }) else p
    | _ => p }

/-- Lanes parked at barrier k in the frame of an evicted bundle leave it: their entries become runnable after the BAR (R318, R392). -/
def Mach.leaveSaved (m : Mach) (p : SavedPart) (k : Nat) : Mach :=
  (List.range 32).foldl (fun m l =>
    if m.frameSt p.addr l = (6, k) then
      let a := p.addr + 0x600 + 16 * l
      let sz := match (p.b.lane l).st with | .bar _ sz => sz | _ => 4
      let x := m.readNat .dev (a + 8) 8
      (m.writeNat .dev a 8 (m.readNat .dev a 8 + sz)).writeNat .dev (a + 8) 8 (x / 256 * 256 + 2)
    else m) m

/-- Completion: store buffers are committed, the parked lanes leave, and the phase starts anew (R323). -/
def Mach.completeBar (m : Mach) (tk k : Nat) : Mach :=
  if m.barFull tk k then
    let m := m.commitStores tk
    let m := (m.bundlesOf tk).foldl (fun m key => m.modBundle key (Bundle.leaveBar k)) m
    let m := (m.awayFrames tk).foldl (fun m f => f.parts.foldl (fun m p => m.leaveSaved p k) m) m
    m.modTeam tk fun t => t.setBar k ⟨0, 0, 0, [], (t.bar k).recv⟩
  else m

/-! ## Rejoin masks (R89) -/

/-- ReleaseCheck(K): once every enrolled lane is parked on the mask, all leave together and the mask is cleared. -/
def Bundle.releaseJoin (b : Bundle) (k : Nat) : Bundle :=
  let j := b.regs.getJ k
  let parked := laneMask fun l => match (b.lane l).st with | .join i _ => decide (i = k) | _ => false
  if j ≠ 0 ∧ j &&& ~~~parked = 0 then
    (b.modLanes j fun _ x =>
      match x.st with
      | .join _ sz => { x with st := .runnable, pc := x.pc + BitVec.ofNat 64 sz }
      | _ => x).modRegs fun r => r.setJ k 0
  else b

/-! ## The end of threads (R85) -/

/-- Threads of a team that have not exited: resident, filed, or in an evicted bundle. -/
def Mach.teamAlive (m : Mach) (tk : Nat) : Bool :=
  ((m.bundlesOf tk).any fun key => decide ((m.bundle key).live ≠ 0))
  || ((m.awayFrames tk).any fun f => (List.range 32).any fun l => decide (2 ≤ (m.frameSt f.addr l).1))
  || m.anyFiled tk

/-- The lanes of a bundle become exited, leave every rejoin mask, and the masks and barriers are checked again. The A latch
of a bundle without threads is freed (R279); the team's last thread commits the store buffers (R180). -/
def Mach.exitLanes (m : Mach) (key : Nat) (ls : Lanes) : Mach :=
  let tk := (m.bundle key).team
  let m := m.modBundle key fun b =>
    let b := (b.modLanes ls fun _ x => { x with st := .exited }).modRegs fun r =>
      (List.range 8).foldl (fun r k => r.setJ k (r.getJ k &&& ~~~ls)) r
    let b := (List.range 8).foldl (fun b k => b.releaseJoin k) b
    if b.live = 0 then { b with latch := none } else b
  if key % 256 = 128 then m
  else
    let m := (List.range 16).foldl (fun m k => if ((m.team tk).bar k).mode = 1 then m.completeBar tk k else m) m
    if m.teamAlive tk then m else m.commitStores tk

end Sys2Proof.Machine
end

