-- ==== Sys2Proof/Machine/Flags.lean ====
section
/-! DEFINITION. FPCTL and FPSTAT: the exception flags as bits of FPSTAT (R64, R68), their collection over lanes, and ARITH (R65). -/

namespace Sys2Proof.Machine

def flIV : Nat := 1
def flDZ : Nat := 2
def flOF : Nat := 4
def flUF : Nat := 8
def flNX : Nat := 16
def flSAT : Nat := 32

/-- Exceptions among these that FPCTL enables; SAT has no enable (R67). -/
def enabledOf (fpctl : W32) (fl : Nat) : Nat := fl &&& fld fpctl 12 8

/-- The OR of the lanes' exceptions. -/
def orFlags (fl : List (Nat × Nat)) : Nat := fl.foldl (fun a p => a ||| p.2) 0

/-- FPSTAT takes the exceptions raised (R65). -/
def Regs.raiseFlags (r : Regs) (fl : Nat) : Regs := { r with fpstat := r.fpstat ||| BitVec.ofNat 32 (fl % 64) }

/-- What the lanes met: each exception is recorded, and an enabled one is a condition (R65, R374). -/
def arithConds (fpctl : W32) (fl : List (Nat × Nat)) : List Cond :=
  fl.filterMap fun p =>
    if p.2 = 0 then none
    else if enabledOf fpctl p.2 = 0 then some ⟨p.1, 0, 0, 0, p.2⟩
    else some ⟨p.1, clsArith, 0x6B, 0, p.2⟩

/-- ARITH for the lanes that raise an enabled exception (R65). -/
def Ctx.arithTrap (c : Ctx) (fl : List (Nat × Nat)) : Trap := c.trapWith clsArith 0x6B (arithConds c.b.regs.fpctl fl)

/-- Lanes with their exceptions: FPSTAT takes them; an enabled one traps and nothing is written, otherwise the results are
written (R65). On the control core the instruction that halts it changes no register (R338). -/
def Ctx.withFlags (c : Ctx) (m : Mach) (fl : List (Nat × Nat)) (write : Mach → Res) : Res :=
  let m' := c.modRegs m fun r => r.raiseFlags (orFlags fl)
  if fl.any fun p => decide (enabledOf c.b.regs.fpctl p.2 ≠ 0) then .trap (if c.ctl then m else m') (c.arithTrap fl) else write m'

/-- FPCTL may hold this value (R67). -/
def fpctlOk (x : W64) : Bool := decide (fld x 63 13 = 0 ∧ fld x 7 5 = 0 ∧ fld x 2 0 ≤ 4)

/-- FPSTAT after a write: a one clears its flag (R68). -/
def fpstatClear (old : W32) (x : W64) : W32 := old &&& ~~~(x.setWidth 32 &&& 0x3F#32)

/-- The rounding mode in force: RM, or FPCTL.RMODE for the dynamic mode (R29, R63). -/
def modeOf (fpctl : W32) (rm : Nat) : Nat := if rm = 5 then fld fpctl 2 0 else rm

end Sys2Proof.Machine
end

