-- ==== Sys2Proof/Machine/Num.lean ====
section
/-! DEFINITION. Number formats (R48 to R62): values, encodings, rounding once with its exceptions (R63, R64), and format slots
(R69 to R71). -/

namespace Sys2Proof.Machine

/-- A binary format: exponent and fraction bits, bias, and its specials: 0 IEEE, 1 E4M3 (R52), 2 E2M1 (R56). -/
structure Fmt where
  eb : Nat
  fb : Nat
  bias : Nat
  kind : Nat
  deriving DecidableEq, Repr

def fmtF32 : Fmt := ⟨8, 23, 127, 0⟩
def fmtF16 : Fmt := ⟨5, 10, 15, 0⟩
def fmtBf16 : Fmt := ⟨8, 7, 127, 0⟩
def fmtF64 : Fmt := ⟨11, 52, 1023, 0⟩
def fmtE4m3 : Fmt := ⟨4, 3, 7, 1⟩
def fmtE5m2 : Fmt := ⟨5, 2, 15, 0⟩
def fmtE2m1 : Fmt := ⟨2, 1, 1, 2⟩
def fmtAcc40 : Fmt := ⟨8, 31, 127, 0⟩

/-- The floating format of an element type (R28). -/
def fmtOf (ty : Nat) : Fmt := if ty = 5 then fmtF16 else if ty = 6 then fmtBf16 else if ty = 7 then fmtF64 else fmtF32

/-- A value: a NaN and whether it signals, an infinity, or sign and magnitude m * 2^e (m = 0 for a zero). -/
inductive Val where
  | nan (sig : Bool)
  | inf (neg : Bool)
  | fin (neg : Bool) (m : Nat) (e : Int)
  deriving DecidableEq, Repr

/-- Exponent of the smallest normal. -/
def Fmt.emin (f : Fmt) : Int := 1 - (f.bias : Int)

/-- Unit of the subnormals. -/
def Fmt.qmin (f : Fmt) : Int := f.emin - (f.fb : Int)

def Fmt.sign (f : Fmt) (neg : Bool) : Nat := if neg then 2 ^ (f.eb + f.fb) else 0

def Fmt.infBits (f : Fmt) : Nat := (2 ^ f.eb - 1) * 2 ^ f.fb

/-- Magnitude bits of the largest finite value. -/
def Fmt.maxBits (f : Fmt) : Nat := if f.kind = 1 then 0x7E else if f.kind = 2 then 7 else f.infBits - 1

/-- The canonical NaN (R49, R52). -/
def Fmt.nanBits (f : Fmt) : Nat := if f.kind = 1 then 0x7F else f.infBits + 2 ^ (f.fb - 1)

def Fmt.width (f : Fmt) : Nat := 1 + f.eb + f.fb

/-- Decode an encoding (R48, R52, R56, R59, R429). -/
def Fmt.decode (f : Fmt) (x : Nat) : Val :=
  let neg := x.testBit (f.eb + f.fb)
  let ex := (x >>> f.fb) % 2 ^ f.eb
  let fr := x % 2 ^ f.fb
  if f.kind = 0 ∧ ex = 2 ^ f.eb - 1 then (if fr = 0 then .inf neg else .nan (!fr.testBit (f.fb - 1)))
  else if f.kind = 1 ∧ x % 128 = 0x7F then .nan false
  else if ex = 0 then .fin neg fr f.qmin
  else .fin neg (2 ^ f.fb + fr) ((ex : Int) - f.bias - f.fb)

/-- An encoding is subnormal. -/
def Fmt.subnormal (f : Fmt) (x : Nat) : Bool := decide ((x >>> f.fb) % 2 ^ f.eb = 0 ∧ x % 2 ^ f.fb ≠ 0)

/-- Decode an operand; with DAZ a subnormal reads as a zero of its sign (R51). -/
def Fmt.read (f : Fmt) (daz : Bool) (x : Nat) : Val :=
  if daz && f.subnormal x then .fin (x.testBit (f.eb + f.fb)) 0 0 else f.decode x

/-- Round m * 2^e to a multiple of 2^q by the mode of R29: the multiple, and whether it is inexact. -/
def roundAt (mode : Nat) (neg : Bool) (m : Nat) (e q : Int) : Nat × Bool :=
  if q ≤ e then (m <<< (e - q).toNat, false)
  else
    let k := (q - e).toNat
    let n := m >>> k
    let r := m % 2 ^ k
    let up :=
      match mode with
      | 1 => false
      | 2 => neg
      | 3 => !neg
      | 4 => decide (2 ^ k ≤ 2 * r)
      | _ => decide (2 ^ k < 2 * r ∨ (2 ^ k = 2 * r ∧ n % 2 = 1))
    (if r ≠ 0 ∧ up = true then n + 1 else n, decide (r ≠ 0))

/-- What an overflow delivers under a mode (R64): the IEEE default. -/
def Fmt.overflow (f : Fmt) (mode : Nat) (neg : Bool) : Nat :=
  let toMax := decide (mode = 1 ∨ (mode = 2 ∧ neg = false) ∨ (mode = 3 ∧ neg = true))
  f.sign neg + if toMax then f.maxBits else f.infBits

/-- A non-zero magnitude rounded once: magnitude bits with the exponent unbounded above, inexact, and tiny after rounding. -/
def Fmt.round (f : Fmt) (mode : Nat) (neg : Bool) (m : Nat) (e : Int) : Nat × Bool × Bool :=
  let top := (Nat.log2 m : Int) + e
  let q := max (top - f.fb) f.qmin
  let (n, nx) := roundAt mode neg m e q
  let tiny := decide (top < f.emin) &&
    !(decide (top = f.emin - 1 ∧ (roundAt mode neg m e (top - f.fb)).1 = 2 ^ (f.fb + 1)))
  ((q - f.qmin).toNat * 2 ^ f.fb + n, nx, tiny)

/-- Deliver an exact value in a format: its encoding and the exceptions raised (R50, R51, R63, R64). -/
def Fmt.deliver (f : Fmt) (mode : Nat) (ftz : Bool) (v : Val) : Nat × Nat :=
  match v with
  | .nan _ => (f.nanBits, 0)
  | .inf neg => (f.sign neg + f.infBits, 0)
  | .fin neg m e =>
    if m = 0 then (f.sign neg, 0)
    else
      let (bits, nx, tiny) := f.round mode neg m e
      if f.maxBits < bits then (f.overflow mode neg, flOF + flNX)
      else if ftz && f.subnormal bits then (f.sign neg, flUF + flNX)
      else (f.sign neg + bits, if nx then flNX + (if tiny then flUF else 0) else 0)

/-- Deliver under a slot's saturation policy (R64): 0 IEEE overflow, or NaN for E4M3, 1 the largest finite value. -/
def Fmt.store (f : Fmt) (satp mode : Nat) (ftz : Bool) (v : Val) : Nat × Nat :=
  let closed := fun neg => if satp = 1 then (f.sign neg + f.maxBits, flSAT + flNX)
    else if f.kind = 0 then (f.sign neg + f.infBits, flOF + flNX) else (f.nanBits, flOF + flNX)
  match v with
  | .inf neg => if satp = 0 ∧ f.kind = 0 then (f.sign neg + f.infBits, 0) else closed neg
  | .fin neg m e => if m ≠ 0 ∧ f.maxBits < (f.round mode neg m e).1 then closed neg else f.deliver mode ftz v
  | .nan s => f.deliver mode ftz (.nan s)

/-! ## Exact arithmetic -/

def Val.signals : Val → Bool
  | .nan s => s
  | _ => false

def Val.isNan : Val → Bool
  | .nan _ => true
  | _ => false

/-- IV when an operand signals. -/
def ivOf (vs : List Val) : Nat := if vs.any Val.signals then flIV else 0

/-- The signed multiple of 2^e that a finite value is. -/
def Val.scaled (e : Int) : Val → Int
  | .fin neg m k => (if neg then -1 else 1) * ((m <<< (k - e).toNat : Nat) : Int)
  | _ => 0

def Val.exp : Val → Int
  | .fin _ _ e => e
  | _ => 0

def valOfInt (zeroNeg : Bool) (n e : Int) : Val := if n = 0 then .fin zeroNeg 0 0 else .fin (decide (n < 0)) n.natAbs e

/-- Exact sum; an exact zero of operands of opposite sign is -0 only toward minus infinity (R112). -/
def Val.add (mode : Nat) (a b : Val) : Val × Nat :=
  match a, b with
  | .nan _, _ | _, .nan _ => (.nan false, ivOf [a, b])
  | .inf s, .inf t => if s = t then (.inf s, 0) else (.nan false, flIV)
  | .inf s, _ => (.inf s, 0)
  | _, .inf t => (.inf t, 0)
  | .fin s m e, .fin t n k =>
    if m = 0 ∧ n = 0 then (.fin (if s = t then s else decide (mode = 2)) 0 0, 0)
    else
      let q := min e k
      (valOfInt (decide (mode = 2)) ((Val.fin s m e).scaled q + (Val.fin t n k).scaled q) q, 0)

def Val.neg : Val → Val
  | .fin s m e => .fin (!s) m e
  | .inf s => .inf (!s)
  | .nan s => .nan s

/-- Exact product; 0 times an infinity is invalid. -/
def Val.mul (a b : Val) : Val × Nat :=
  match a, b with
  | .nan _, _ | _, .nan _ => (.nan false, ivOf [a, b])
  | .inf s, .inf t => (.inf (s ^^ t), 0)
  | .inf s, .fin t n _ => if n = 0 then (.nan false, flIV) else (.inf (s ^^ t), 0)
  | .fin s m _, .inf t => if m = 0 then (.nan false, flIV) else (.inf (s ^^ t), 0)
  | .fin s m e, .fin t n k => (.fin (s ^^ t) (m * n) (e + k), 0)

/-- Exact A * B + C; 0 times an infinity raises IV even when C is a quiet NaN (R112). -/
def Val.fma (mode : Nat) (a b c : Val) : Val × Nat :=
  let (p, f1) := a.mul b
  let (r, f2) := p.add mode c
  (r, f1 ||| f2)

/-- Finite or infinite values compare as numbers: less, equal. -/
def Val.cmp (a b : Val) : Bool × Bool :=
  match a, b with
  | .inf s, .inf t => (s && !t, decide (s = t))
  | .inf s, _ => (s, false)
  | _, .inf t => (!t, false)
  | a, b =>
    let q := min a.exp b.exp
    (decide (a.scaled q < b.scaled q), decide (a.scaled q = b.scaled q))

/-- Times 2^n. -/
def Val.shift (n : Int) : Val → Val
  | .fin s m e => .fin s m (e + n)
  | v => v

/-! ## Integers -/

/-- Round a value to an integer (R53): the integer clamped to [lo, hi], and the exceptions. -/
def Val.toInt (mode : Nat) (lo hi : Int) : Val → Int × Nat
  | .nan _ => (0, flIV)
  | .inf neg => (if neg then lo else hi, flIV)
  | .fin neg m e =>
    -- a magnitude of 2^4096 and beyond is out of every range
    let e := min e 4096
    let (n, nx) := roundAt mode neg m e 0
    let z : Int := if neg then -(n : Int) else n
    if z < lo then (lo, flIV) else if hi < z then (hi, flIV) else (z, if nx then flNX else 0)

/-- The integer w-bit encoding's bounds. -/
def intLo (signed : Bool) (w : Nat) : Int := if signed then -((2 ^ (w - 1) : Nat) : Int) else 0
def intHi (signed : Bool) (w : Nat) : Int := ((2 ^ (if signed then w - 1 else w) : Nat) : Int) - 1

/-- PlaceOnWx (R61). -/
inductive Placed where
  | nonfinite (v : Val)
  | out (neg : Bool)
  | num (n : Int)
  deriving DecidableEq, Repr

/-- Place a value on the grid of exponent b with an unscale shift, in a w-bit integer (R61, R62). -/
def placeOn (w : Nat) (v : Val) (u : Nat) (b : Int) : Placed :=
  match v with
  | .fin neg m e =>
    let (n, _) := roundAt 0 neg m e ((u : Int) + b)
    let z : Int := if neg then -(n : Int) else n
    if z < intLo true w ∨ intHi true w < z then .out neg else .num z
  | v => .nonfinite v

/-! ## Format slots (R69 to R71) -/

/-- The fields of a slot. -/
def slotEtype (s : BitVec 128) : Nat := fld s 7 0
def slotSmode (s : BitVec 128) : Nat := fld s 11 8
def slotBlk (s : BitVec 128) : Nat := fld s 15 12
def slotSatp (s : BitVec 128) : Nat := fld s 17 16
def slotRmode (s : BitVec 128) : Nat := fld s 20 18
def slotScale (s : BitVec 128) : Nat := fld s 127 96

/-- A slot's SMODE and SATP are ones R70 allows for its ETYPE. -/
def slotCombo (e sm sp : Nat) : Bool :=
  if 1 ≤ e ∧ e ≤ 3 then decide (sm = 0 ∨ sm = 2)
  else if e = 4 ∨ e = 5 then decide (sm = 0 ∨ sm = 2 ∨ (sm = 1 ∧ sp = 1))
  else if e = 6 then decide (sp = 1)
  else if e = 7 ∨ e = 8 then decide ((sm = 0 ∨ sm = 2) ∧ sp = 1)
  else decide (e = 9 ∧ sm = 1 ∧ sp = 1)

/-- A slot is valid (R70, R71). SCALE counts as zero under SMODE 0 and 1 where its encoding is 0, so that -0 is none (DESIGN CHOICE, log 134). -/
def slotOk (s : BitVec 128) : Bool :=
  decide (slotSmode s ≤ 2 ∧ slotSatp s ≤ 1 ∧ slotRmode s ≤ 5 ∧ fld s 95 21 = 0
    ∧ slotBlk s = (if slotSmode s = 1 then 5 else 0))
    && slotCombo (slotEtype s) (slotSmode s) (slotSatp s)
    && (match fmtF32.decode (slotScale s) with
      | .fin _ m _ => if slotSmode s = 2 then decide (m ≠ 0) else decide (slotScale s = 0)
      | _ => false)

def Grid.slot (g : Grid) (k : Nat) : BitVec 128 := g.slots.getD k 0

/-- The floating format of an ETYPE 1 to 6. -/
def etypeFmt (e : Nat) : Fmt :=
  match e with
  | 2 => fmtF16
  | 3 => fmtBf16
  | 4 => fmtE4m3
  | 5 => fmtE5m2
  | 6 => fmtE2m1
  | _ => fmtF32

/-- Bits of an element of an ETYPE. -/
def etypeBits (e : Nat) : Nat :=
  match e with
  | 1 => 32
  | 2 | 3 => 16
  | 4 | 5 | 7 => 8
  | 6 | 8 => 4
  | _ => 2

/-- The value of an element code (R48, R52, R53, R56, R57). -/
def etypeVal (e code : Nat) : Val :=
  match e with
  | 7 => valOfInt false (sval 8 code) 0
  | 8 => valOfInt false (sval 4 code) 0
  | 9 => if code % 4 = 1 then .fin false 1 0 else if code % 4 = 3 then .fin true 1 0 else .fin false 0 0
  | e => (etypeFmt e).decode code

/-- The value of an E8M0 scale (R54). -/
def e8m0 (x : Nat) : Val := if x % 256 = 0xFF then .nan false else .fin false 1 ((x % 256 : Nat) - 127)

/-- A per-tensor scale, or 1 (R69). -/
def slotScaleVal (s : BitVec 128) : Val := if slotSmode s = 2 then fmtF32.decode (slotScale s) else .fin false 1 0

/-! ## ConvertBlock (R58) -/

/-- floor(log2 |v|) of a non-zero finite value. -/
def Val.top : Val → Int
  | .fin _ m e => (Nat.log2 m : Int) + e
  | _ => 0

def Val.finiteNonzero : Val → Bool
  | .fin _ m _ => decide (m ≠ 0)
  | _ => false

/-- The scale exponent X of a block, from its largest finite magnitude (R58). -/
def blockExp (src elem : Fmt) (xs : List Val) : Int :=
  let emax : Int := if elem.kind = 1 then 8 else if elem.kind = 2 then 2 else 15
  let tops := (xs.filter Val.finiteNonzero).map Val.top
  let infs := xs.any fun v => match v with | .inf _ => true | _ => false
  let top : Option Int :=
    match tops with
    | [] => if infs then some src.bias else none
    | t :: r => some (r.foldl max t)
  match top with
  | none => -127
  | some t => max (-127) (min 127 (t - emax))

/-- The E8M0 scale, and each element's code and exceptions. A NaN governs the whole block. -/
def convertBlock (src elem : Fmt) (mode : Nat) (ftz : Bool) (xs : List Val) : Nat × List (Nat × Nat) :=
  if xs.any Val.isNan then (0xFF, xs.map fun _ => (0, flIV))
  else
    let x := blockExp src elem xs
    ((x + 127).toNat, xs.map fun v =>
      match v with
      | .inf neg => (elem.sign neg + elem.maxBits, flSAT + flNX)
      | v => elem.store 1 mode ftz (v.shift (-x)))

end Sys2Proof.Machine
end

