-- ==== Sys2Proof/Machine/Scalar.lean ====
section
/-! DEFINITION. The scalar unit: arithmetic (R73 to R76), SMOV (R77), special registers (R78), and PLOG (R91). -/

namespace Sys2Proof.Machine

/-- The literal, or scalar register B. -/
def Ctx.sB (c : Ctx) : W64 := if litB c.o then c.o.imm else c.s c.o.b.toNat

/-- Encodings and operands of SADD to SSEL (R73). -/
def scalarRule (opc : Nat) (fns tys : List Nat) : Rule where
  opc := opc
  form _ := { fns := fns, useD := true, useA := true, useB := true, useC := opc = 0x19, tys := tys }
  opds o :=
    [.s o.d.toNat 1 1, .s o.a.toNat 1 1] ++ (if litB o then [] else [.s o.b.toNat 1 1])
      ++ (if opc = 0x19 then [.s (fourth o) 1 1] else [])

/-- s[D] takes a function of s[A] and operand B. -/
def scalarOp (opc : Nat) (f : W64 → W64 → W64) (o : Opn) (s : State) : Host.Outcome State Fault Refusal :=
  issue (scalarRule opc [0] [0]) o s fun c m => .done (c.setS m o.d.toNat (f (c.s o.a.toNat) c.sB))

/-- As scalarOp, signed by default and unsigned with TY 3 (R73). -/
def scalarTyOp (opc : Nat) (f : Bool → W64 → W64 → W64) (o : Opn) (s : State) : Host.Outcome State Fault Refusal :=
  issue (scalarRule opc [0] [2, 3]) o s fun c m =>
    .done (c.setS m o.d.toNat (f (decide (typeOf o 2 = 2)) (c.s o.a.toNat) c.sB))

/-- a < b, signed or unsigned. -/
def ltBy (signed : Bool) (a b : W64) : Bool := if signed then a.slt b else a.ult b

/-- High 64 bits of the 128-bit product. -/
def mulHigh (signed : Bool) (a b : W64) : W64 :=
  if signed then ((a.signExtend 128 * b.signExtend 128) >>> 64).setWidth 64
  else ((a.setWidth 128 * b.setWidth 128) >>> 64).setWidth 64

def execSadd (o : Opn) (s : State) := scalarOp 0x0C (fun a b => a + b) o s
def execSsub (o : Opn) (s : State) := scalarOp 0x0D (fun a b => a - b) o s
def execSmul (o : Opn) (s : State) := scalarOp 0x0E (fun a b => a * b) o s
def execSmulh (o : Opn) (s : State) := scalarTyOp 0x0F mulHigh o s
def execSand (o : Opn) (s : State) := scalarOp 0x10 (fun a b => a &&& b) o s
def execSor (o : Opn) (s : State) := scalarOp 0x11 (fun a b => a ||| b) o s
def execSxor (o : Opn) (s : State) := scalarOp 0x12 (fun a b => a ^^^ b) o s
def execSshl (o : Opn) (s : State) := scalarOp 0x13 (fun a b => if 64 ≤ b.toNat then 0 else a <<< b.toNat) o s
def execSshr (o : Opn) (s : State) := scalarOp 0x14 (fun a b => if 64 ≤ b.toNat then 0 else a >>> b.toNat) o s
def execSsar (o : Opn) (s : State) := scalarOp 0x15 (fun a b => a.sshiftRight (min b.toNat 63)) o s
def execSmin (o : Opn) (s : State) := scalarTyOp 0x16 (fun sg a b => if ltBy sg b a then b else a) o s
def execSmax (o : Opn) (s : State) := scalarTyOp 0x17 (fun sg a b => if ltBy sg a b then b else a) o s

/-- The conditions of SSET, VCMP and their like by FN (R75): eq, ne, lt, le, gt, ge. -/
def condBy (fn : Nat) (eq lt : Bool) : Bool :=
  match fn with
  | 0 => eq
  | 1 => !eq
  | 2 => lt
  | 3 => lt || eq
  | 4 => !(lt || eq)
  | _ => !lt

/-- SSET (R75). -/
def execSset (o : Opn) (s : State) : Host.Outcome State Fault Refusal :=
  issue (scalarRule 0x18 [0, 1, 2, 3, 4, 5] [2, 3]) o s fun c m =>
    let a := c.s o.a.toNat
    let b := c.sB
    .done (c.setS m o.d.toNat (if condBy o.fn.toNat (decide (a = b)) (ltBy (decide (typeOf o 2 = 2)) a b) then 1 else 0))

/-- SSEL (R74). -/
def execSsel (o : Opn) (s : State) : Host.Outcome State Fault Refusal :=
  issue (scalarRule 0x19 [0] [0]) o s fun c m =>
    .done (c.setS m o.d.toNat (if c.s (fourth o) ≠ 0 then c.s o.a.toNat else c.sB))

/-- The sign-extended 7-bit immediate of an RI form, or its literal (R24). -/
def immOf (o : Opn) : W64 := if o.len = 0 then (BitVec.ofNat 7 o.b.toNat).signExtend 64 else o.imm

/-- What SLI allows and reads. -/
def sliRule : Rule :=
  { opc := 0x1A, form := fun _ => { useD := true, useB := true }, opds := fun o => [.s o.d.toNat 1 1] }

/-- SLI (R76). -/
def execSli (o : Opn) (s : State) : Host.Outcome State Fault Refusal :=
  issue sliRule o s fun c m =>
    .done (c.setS m o.d.toNat (immOf o))

/-- Encodings and operands of SMOV (R77). -/
def smovRule : Rule where
  opc := 0x1B
  form o :=
    match o.fn.toNat with
    | 1 => { fns := [1], useD := true, useA := true, useB := true }
    | 2 => { fns := [2], useD := true, useA := true, mask := 2 }
    | 3 => { fns := [3], useD := true }
    | 4 => { fns := [4], useA := true, mask := 2 }
    | _ => { fns := [0], useD := true, useA := true }
  opds o :=
    match o.fn.toNat with
    | 1 => [.s o.d.toNat 1 1, .v o.a.toNat 1 1, .s o.b.toNat 1 1]
    | 2 => [.v o.d.toNat 1 1, .s o.a.toNat 1 1]
    | 3 => [.v o.d.toNat 2 2]
    | 4 => [.v o.a.toNat 2 2]
    | _ => [.s o.d.toNat 1 1, .s o.a.toNat 1 1]

/-- Lanes that a per-thread write touches: those that take part, and with ZM those that the mask leaves out, which are
written with zero (R30). -/
def Ctx.written (c : Ctx) : Lanes := if c.o.zm then c.grp else c.act

/-- Write a vector register in each lane written: a value where the lane takes part, zero where ZM clears it. -/
def Ctx.putV (c : Ctx) (d : Nat) (f : Nat → W32) (r : Regs) : Regs :=
  (laneList c.written).foldl (fun r l => r.setV d l (if c.act.getLsbD l then f l else 0)) r

/-- As putV, for a register pair. -/
def Ctx.putV2 (c : Ctx) (d : Nat) (f : Nat → W64) (r : Regs) : Regs :=
  (laneList c.written).foldl (fun r l => r.setV2 d l (if c.act.getLsbD l then f l else 0)) r

/-- SMOV (R77); FN 1 waits for a result still to be written in the lane that it reads. The control core's v registers have lane 0 alone (R333). -/
def execSmov (o : Opn) (s : State) : Host.Outcome State Fault Refusal :=
  issue smovRule o s fun c m =>
    match o.fn.toNat with
    | 1 =>
      let l := (c.s o.b.toNat).toNat % Config.bwidth
      if m.regPending c.key o.a.toNat l then .hold
      else .done (c.setS m o.d.toNat (if c.ctl ∧ l ≠ 0 then 0 else (c.v o.a.toNat l).setWidth 64))
    | 2 => .done (c.modRegs m (c.putV o.d.toNat fun _ => (c.s o.a.toNat).setWidth 32))
    | 3 => .done (c.modRegs m (c.putV2 o.d.toNat fun l => (c.b.lane l).lnk))
    | 4 =>
      .done (m.modBundle c.key fun b => b.modLanes c.written fun l x =>
        { x with lnk := if c.act.getLsbD l then c.v2 o.a.toNat l else 0 })
    | _ => .done (c.setS m o.d.toNat (c.s o.a.toNat))

/-- TEAMIDX from the linear team index (R315). -/
def Ctx.teamIdx (c : Ctx) (k : Nat) : Nat :=
  if k = 0 then c.tm.idx % c.g.gx else if k = 1 then c.tm.idx / c.g.gx % c.g.gy else c.tm.idx / c.g.gx / c.g.gy

/-- A special register whose D is a scalar register (R78); the control core reads its owner team's (R333). Readings of CLK
on two cores may differ by up to 64 (R79, log 121). -/
def Ctx.special (c : Ctx) (m : Mach) (n : Nat) : W64 :=
  match n with
  | 0 => .ofNat 64 Config.bwidth
  | 3 => .ofNat 64 (c.teamIdx 0)
  | 4 => .ofNat 64 (c.teamIdx 1)
  | 5 => .ofNat 64 (c.teamIdx 2)
  | 6 => .ofNat 64 c.g.gx
  | 7 => .ofNat 64 c.g.gy
  | 8 => .ofNat 64 c.g.gz
  | 9 => .ofNat 64 c.g.depth
  | 10 => .ofNat 64 (c.core % 96)
  | 11 => .ofNat 64 c.die
  | 12 => .ofNat 64 m.pkg
  | 13 => .ofNat 64 c.g.cls
  | 14 => .ofNat 64 (if c.ctl then 0 else c.g.role c.b.bnum)
  | 15 => .ofNat 64 (boolNat c.g.world)
  | 16 => .ofNat 64 (m.clk + Config.skew c.core % 65)
  | 17 => c.b.regs.fpctl.setWidth 64
  | _ => c.b.regs.fpstat.setWidth 64

/-- An outstanding instruction of the bundle may yet set flags of FPSTAT: an ACCRD or an ACCMV that has not delivered (R65). -/
def Mach.flagsDue (m : Mach) (key : Nat) : Bool :=
  (m.ops.any fun x => decide (x.key = key) && x.parts.any fun p => !p.done && match p.kind with | .acc _ _ _ _ _ => true | _ => false)
  || (m.core (coreOfKey key)).mx.any fun x => decide (x.key = key) && match x.kind with | .accRead _ _ _ _ _ _ _ _ _ _ => true | _ => false

/-- What SRD allows and reads. -/
def srdRule : Rule :=
  { opc := 0x1C, form := fun _ => { useD := true, useB := true }, extra := fun o => decide (o.b.toNat ≤ 18)
    opds := fun o => if o.b = 1 ∨ o.b = 2 then [.v o.d.toNat 1 1] else [.s o.d.toNat 1 1] }

/-- SRD (R78). A read of FPSTAT waits for the flags of earlier instructions (R65). -/
def execSrd (o : Opn) (s : State) : Host.Outcome State Fault Refusal :=
  issue srdRule o s fun c m =>
    match o.b.toNat with
    | 1 => .done (c.modRegs m (c.putV o.d.toNat fun l => .ofNat 32 l))
    | 2 => .done (c.modRegs m (c.putV o.d.toNat fun l => if c.ctl then 0xFFFFFFFF#32 else .ofNat 32 (c.b.lane l).tidx))
    | 18 => if m.flagsDue c.key then .hold else .done (c.setS m o.d.toNat (c.special m 18))
    | n => .done (c.setS m o.d.toNat (c.special m n))

/-- What SWR allows and reads. -/
def swrRule : Rule :=
  { opc := 0x1D, form := fun _ => { useA := true, useB := true }, extra := fun o => decide (o.b = 17 ∨ o.b = 18)
    opds := fun o => [.s o.a.toNat 1 1] }

/-- SWR (R78, R67, R68). A write of FPSTAT waits for the flags of earlier instructions, for FPSTAT is updated in program order (R65). -/
def execSwr (o : Opn) (s : State) : Host.Outcome State Fault Refusal :=
  issue swrRule o s fun c m =>
    let x := c.s o.a.toNat
    if o.b = 17 then
      if fpctlOk x then .done (c.modRegs m fun r => { r with fpctl := x.setWidth 32 }) else .trap m (c.trap clsIll 0x60)
    else if m.flagsDue c.key then .hold
    else .done (c.modRegs m fun r => { r with fpstat := fpstatClear r.fpstat x })

/-- What PLOG allows and reads. -/
def plogRule : Rule :=
  { opc := 0x1E
    form := fun o => if o.fn = 1 then { fns := [1], useD := true, useA := true, mask := 2 }
    else { useD := true, useA := true, useB := true, modBits := 15, mask := 2 }
    opds := fun o => if o.fn = 1 then [.p o.d.toNat, .s o.a.toNat 1 1] else [.p o.d.toNat, .p o.a.toNat, .p o.b.toNat] }

/-- PLOG (R91). Lanes that the mask leaves out are cleared with ZM (R30). -/
def execPlog (o : Opn) (s : State) : Host.Outcome State Fault Refusal :=
  issue plogRule
    o s fun c m =>
      let lut := if 2 ≤ o.len.toNat then o.mods.toNat else 8
      let pa := c.b.regs.getP o.a.toNat
      let pb := c.b.regs.getP o.b.toNat
      let x := if o.fn = 1 then (c.s o.a.toNat).setWidth 32
        else laneMask fun l => lut.testBit (2 * boolNat (pa.getLsbD l) + boolNat (pb.getLsbD l))
      .done (c.modRegs m fun r => r.putP o.d.toNat c.written (x &&& c.act))

end Sys2Proof.Machine
end

