-- ==== Sys2Proof/Machine/Vec.lean ====
section
/-! DEFINITION. The common course of the vector instructions (R101 to R104): encodings, operands, masks, exceptions, delayed
results, and the sweep of one operation over scratchpad segments (R34, R35, R128). -/

namespace Sys2Proof.Machine

/-- What an element operation sees besides its operands. -/
structure VEnv where
  ty : Nat
  sty : Nat
  fn : Nat
  /-- Modifiers, or the default of a base or prefixed form. -/
  mods : Nat
  mode : Nat
  daz : Bool
  ftz : Bool
  /-- FPCTL as the instruction took it, on which a special function's choice may depend (R124). -/
  fpctl : Nat
  deriving DecidableEq, Repr

/-- An element operation: operand encodings to a result encoding and exceptions. -/
abbrev ElemOp := VEnv → Nat → Nat → Nat → Nat × Nat

/-- A vector opcode's encodings and operand types. -/
structure VRule where
  opc : Nat
  fns : List Nat := [0]
  tys : List Nat
  /-- Source types of a conversion; empty where the modifiers hold none. -/
  stys : List Nat := []
  /-- Default types of base and prefixed forms. -/
  base : Nat := 0
  sbase : Nat := 0
  modBits : Nat := 0
  useA : Bool := true
  useB : Bool := true
  useC : Bool := false
  rounds : Bool := false
  la : Bool := false
  arith : Bool := false
  /-- Function codes for which B must be zero. -/
  noB : List Nat := []
  aTy : VEnv → Nat := VEnv.ty
  bTy : VEnv → Nat := VEnv.ty
  dTy : VEnv → Nat := VEnv.ty

/-- A type of 64 bits (R103). -/
def wideTy (ty : Nat) : Bool := decide (ty = 2 ∨ ty = 3 ∨ ty = 7)

/-- Width of a type's encoding in its register. -/
def regBits (ty : Nat) : Nat := if wideTy ty then 64 else if ty = 5 ∨ ty = 6 then 16 else 32

def VRule.env (r : VRule) (o : Opn) (fpctl : W32) : VEnv :=
  let ext := decide (2 ≤ o.len.toNat)
  { ty := typeOf o r.base, sty := if ext then fld o.mods 3 0 else r.sbase, fn := o.fn.toNat
    mods := if ext then o.mods.toNat else 0xAC
    mode := modeOf fpctl o.rm.toNat, daz := bitAt fpctl 4, ftz := bitAt fpctl 3, fpctl := fpctl.toNat }

def VRule.usesB (r : VRule) (o : Opn) : Bool := r.useB && !r.noB.contains o.fn.toNat

def VRule.form (r : VRule) (o : Opn) : Form :=
  { fns := r.fns, modBits := if r.stys = [] then r.modBits else 15, useD := true, useA := r.useA, useB := r.usesB o
    useC := r.useC, mask := 2, rounds := r.rounds, la := r.la && decide (2 ≤ o.len.toNat), tys := r.tys }

def VRule.opds (r : VRule) (o : Opn) : List Opd :=
  let e := r.env o 0
  [vOpd (r.dTy e) o.d.toNat] ++ (if r.useA then [vOpd (r.aTy e) o.a.toNat] else [])
    ++ (if !r.usesB o || litB o then [] else if bcastB o then [.s o.b.toNat 1 1] else [vOpd (r.bTy e) o.b.toNat])
    ++ (if r.useC then [vOpd e.ty (fourth o)] else [])

def VRule.rule (r : VRule) : Rule where
  opc := r.opc
  form := r.form
  extra o := decide (r.stys = [] ∨ o.len.toNat < 2) || r.stys.contains (fld o.mods 3 0)
  opds := r.opds
  arith := r.arith

/-- A vector register's element of a type, as an encoding (R103). -/
def Ctx.elem (c : Ctx) (ty r l : Nat) : Nat := if wideTy ty then (c.v2 r l).toNat else (c.v r l).toNat % 2 ^ regBits ty

/-- Operand B: a literal, a broadcast scalar, or a vector element (R24, R102). -/
def Ctx.elemB (c : Ctx) (ty l : Nat) : Nat :=
  if litB c.o then c.o.imm.toNat % 2 ^ regBits ty
  else if bcastB c.o then (c.s c.o.b.toNat).toNat % 2 ^ regBits ty
  else c.elem ty c.o.b.toNat l

/-- The register writes of results, by lane. -/
def regWrites (ty d l x : Nat) : List (Nat × W32) :=
  if wideTy ty then [(d * 32 + l, .ofNat 32 x), ((d + 1) * 32 + l, .ofNat 32 (x / 2 ^ 32))] else [(d * 32 + l, .ofNat 32 x)]

/-- Results of every lane that takes part, and zeros where ZM clears. -/
def Ctx.allWrites (c : Ctx) (ty : Nat) (res : List (Nat × Nat × Nat)) : List (Nat × W32) :=
  (res.flatMap fun x => regWrites ty c.o.d.toNat x.1 x.2.1)
    ++ (laneList (c.written &&& ~~~c.act)).flatMap fun l => regWrites ty c.o.d.toNat l 0

def Regs.writeAll (r : Regs) (ws : List (Nat × W32)) : Regs :=
  ws.foldl (fun r w => { r with v := Sparse.put 0 r.v w.1 w.2 }) r

/-- The lookahead in force: none while ARITH is enabled (R36), none on the control core (R335). -/
def Ctx.la (c : Ctx) (arith : Bool) : Nat := if c.ctl || (arith && c.b.regs.trapsOn) then 0 else c.o.la.toNat

/-- Write results now, or, with a lookahead window, leave them outstanding (R37, R101). -/
def Ctx.putResults (c : Ctx) (m : Mach) (la : Nat) (ws : List (Nat × W32)) : Mach :=
  if la = 0 then c.modRegs m fun r => r.writeAll ws
  else
    let (id, m) := m.fresh
    { m with later := m.later ++ [⟨id, c.key, ws, c.written, (laneList c.grp).map fun l => (l, la)⟩] }

/-- A vector instruction on registers: one element operation in each lane that takes part. -/
def vecRegs (r : VRule) (f : ElemOp) (o : Opn) (s : State) : Host.Outcome State Fault Refusal :=
  issue r.rule o s fun c m =>
    let e := r.env o c.b.regs.fpctl
    let res := (laneList c.act).map fun l =>
      (l, f e (if r.useA then c.elem (r.aTy e) o.a.toNat l else 0) (if r.usesB o then c.elemB (r.bTy e) l else 0)
        (if r.useC then c.elem e.ty (fourth o) l else 0))
    c.withFlags m (res.map fun x => (x.1, x.2.2)) fun m => .done (c.putResults m (c.la r.arith) (c.allWrites (r.dTy e) res))

/-! ## Sweeps (R34, R35, R128) -/

def sweepCount (o : Opn) : Nat := fld o.imm 63 52
/-- The signed byte steps of D, A and B. -/
def sweepStep (o : Opn) (hi : Nat) : Int := sval 16 (fld o.imm hi (hi - 15))

/-- Element size (R34). -/
def sweepSize (ty : Nat) : Nat := if wideTy ty then 8 else if ty = 5 ∨ ty = 6 then 2 else 4

/-- The scratchpad offset of a lane's element in an iteration. -/
def sweepOff (base : W64) (it : Nat) (step : Int) (e l : Nat) : Int := (base.toNat : Int) + it * step + (l * e : Nat)

/-- The operand streams of a sweep: base register value and step for D, A and B. -/
def Ctx.streams (c : Ctx) (r : VRule) : List (W64 × Int) :=
  [(c.s c.o.d.toNat, sweepStep c.o 51)] ++ (if r.useA then [(c.s c.o.a.toNat, sweepStep c.o 35)] else [])
    ++ (if r.usesB c.o then [(c.s c.o.b.toNat, sweepStep c.o 19)] else [])

/-- The conditions of ValidateAll over every element that any iteration would touch (R35), a masked lane's being only those of D: ALIGN for every lane, else XLATE for the
lanes with an element outside the allocation. -/
def Ctx.sweepConds (c : Ctx) (r : VRule) (e : Nat) : List Cond :=
  let its := List.range (sweepCount c.o)
  let ls := laneList c.written
  if ls = [] then []
  else if its.any fun it => (if c.act = 0 then (c.streams r).take 1 else c.streams r).any fun x => decide (sweepOff x.1 it x.2 e 0 % (e : Int) ≠ 0) then
    ls.map fun l => ⟨l, clsAlign, 0x10, 0, 0⟩
  else
    (ls.filter fun l => its.any fun it => (if c.act.getLsbD l then c.streams r else (c.streams r).take 1).any fun x =>
      decide (sweepOff x.1 it x.2 e l < 0 ∨ (c.tm.alloc : Int) < sweepOff x.1 it x.2 e l + e)).map
        fun l => ⟨l, clsXlate, 0x02, 0, 0⟩

/-- A part of an iteration: lane l's element of a stream. -/
def Mach.sweepPart (m : Mach) (key : Nat) (w : Sweep) (base : W64) (step : Int) (size l : Nat) (k : Nat → PartKind) : Part :=
  let off := (sweepOff base w.it step size l).toNat
  let a := (m.team (m.bundle key).team).phys (coreOfKey key) off
  ⟨l, .scratch, a, size, BitVec.ofNat 64 (winBase + off), k a, false, 0, 0, false⟩

/-- The reads of an iteration: of each lane that takes part, A, B and, for a four-operand opcode, D. -/
def Mach.sweepReads (m : Mach) (key : Nat) (r : VRule) (w : Sweep) (size : Nat) : List Part :=
  (laneList w.act).flatMap fun l =>
    (if r.useA then [m.sweepPart key w w.offA (sweepStep w.o 35) size l fun _ => .read []] else [])
    ++ (if r.usesB w.o then [m.sweepPart key w w.offB (sweepStep w.o 19) size l fun _ => .read []] else [])
    ++ if r.useC then [m.sweepPart key w w.offD (sweepStep w.o 51) size l fun _ => .read []] else []

/-- The writes of an iteration: the lanes' results, and zero in the lanes that ZM clears. -/
def Mach.sweepWrites (m : Mach) (key : Nat) (w : Sweep) (size : Nat) (res : List (Nat × Nat)) : List Part :=
  (res ++ (laneList (w.wrt &&& ~~~w.act)).map fun l => (l, 0)).map fun (x : Nat × Nat) =>
    m.sweepPart key w w.offD (sweepStep w.o 51) size x.1 fun a => .write (cellsAt a (leBytes size x.2))

/-- Leave accesses of a sweep outstanding. -/
def Mach.sweepPush (m : Mach) (key size : Nat) (ps : List Part) : Mach :=
  let (id, m) := m.fresh
  { m with ops := m.ops ++ [{ id := id, key := key, acq := false, rel := false, serial := false, dest := .sweep, size := size, win := []
                              parts := ps, counted := false, asid := 0 }] }

/-- The element environment of a sweep. -/
def Mach.sweepEnv (m : Mach) (key : Nat) (r : VRule) (o : Opn) : VEnv := { r.env o (m.bundle key).regs.fpctl with sty := 0 }

/-- An iteration begins: its reads are outstanding, or, where no lane takes part, its writes. -/
def Mach.sweepBegin (m : Mach) (key : Nat) (r : VRule) (w : Sweep) : Mach :=
  let n := sweepSize (m.sweepEnv key r w.o).ty
  let m := m.modBundle key fun b => { b with sweep := some w }
  if w.act = 0 then m.sweepPush key n (m.sweepWrites key w n []) else m.sweepPush key n (m.sweepReads key r w n)

/-- The sweep is over: its group goes on at the next instruction (R128). -/
def Mach.sweepEnd (m : Mach) (key : Nat) (w : Sweep) : Mach :=
  m.modBundle key fun b =>
    { b.modLanes w.grp fun _ x => if x.pc = w.pc ∧ x.st = .runnable then { x with pc := w.pc + BitVec.ofNat 64 (4 * sizeWords w.o) } else x with
      sweep := none }

/-- An iteration raises an enabled exception: ARITH, which TRET with retry resumes at the iteration (R35). -/
def Mach.sweepTrap (m : Mach) (key : Nat) (w : Sweep) (fl : List (Nat × Nat)) : Mach :=
  let isz := sizeWords w.o
  let conds := arithConds (m.bundle key).regs.fpctl fl
  let m := m.modBundle key fun b =>
    { b.modLanes (w.grp &&& ~~~w.act) fun _ x => { x with pc := w.pc + BitVec.ofNat 64 (4 * isz) } with
      sweep := none, stepped := b.stepped &&& ~~~w.grp }
  m.takeTrap key ⟨clsArith, 0x6B, w.pc, false, true, isz, w.act, conds, 0, w.it⟩

/-- The results of an iteration from the values that its reads returned: by lane, with the exceptions raised. -/
def sweepResults (r : VRule) (f : ElemOp) (e : VEnv) (w : Sweep) (ps : List Part) : List (Nat × Nat × Nat) :=
  (laneList w.act).map fun l =>
    let v := (ps.filter fun p => decide (p.lane = l)).map fun p => p.got.toNat
    let (a, v) := if r.useA then (v.headD 0, v.tail) else (0, v)
    let (b, v) := if r.usesB w.o then (v.headD 0, v.tail) else (0, v)
    (l, f e a b (v.headD 0))

/-- The accesses of one half of an iteration are done: after the reads the results are written, unless one raises an enabled exception
(R35); after the writes the next iteration begins, or the sweep is over. -/
def Mach.sweepStage (m : Mach) (key : Nat) (r : VRule) (f : ElemOp) (ps : List Part) : Mach :=
  match (m.bundle key).sweep with
  | none => m
  | some w =>
    let e := m.sweepEnv key r w.o
    if ps.any fun p => p.kind.writes then
      if w.it + 1 < sweepCount w.o then m.sweepBegin key r { w with it := w.it + 1 } else m.sweepEnd key w
    else
      let res := sweepResults r f e w ps
      let fl := res.map fun x => (x.1, x.2.2)
      let m := m.modBundle key fun b => b.modRegs fun r => r.raiseFlags (orFlags fl)
      if fl.any fun p => decide (enabledOf (m.bundle key).regs.fpctl p.2 ≠ 0) then m.sweepTrap key w fl
      else m.sweepPush key (sweepSize e.ty) (m.sweepWrites key w (sweepSize e.ty) (res.map fun x => (x.1, x.2.1)))

/-- A sweep's encodings: the literal is its parameters, and each operand is a scalar register (R34). The step of an operand that the opcode
does not read may have any value and counts for nothing (DESIGN CHOICE, log 131). -/
def VRule.sweepRule (r : VRule) : Rule where
  opc := r.opc
  form o := { r.form o with modBits := if r.stys = [] then r.modBits else 0, litB := false, sweeps := true }
  extra o := decide (fld o.imm 3 0 = 0) && (!r.useC || decide (o.c = o.d))
  site c := !c.g.det
  opds o := [.s o.d.toNat 1 1] ++ (if r.useA then [.s o.a.toNat 1 1] else []) ++ (if r.usesB o then [.s o.b.toNat 1 1] else [])
    ++ (if r.useC then [.s o.c.toNat 1 1] else [])
  arith := r.arith
  swp := true

/-- Where a sweep begins: at the iteration that a retried sweep had reached, for the lanes retried (R35, R385). -/
def Ctx.sweepFrom (c : Ctx) : Nat :=
  match c.b.resume with
  | some (pc, it, ls) => if pc = c.pc ∧ c.grp &&& ls ≠ 0 then it else 0
  | none => 0

/-- A sweep of one element operation (R34, R35): every element is checked, and then the iterations are made one after the other, each
access at its own time (R128). -/
def sweepOp (r : VRule) (o : Opn) (s : State) : Host.Outcome State Fault Refusal :=
  issue r.sweepRule o s fun c m =>
    if sweepCount o = 0 ∨ c.written = 0 then .done m
    else
      match c.sweepConds r (sweepSize (r.env o c.b.regs.fpctl).ty) with
      | x :: xs => .trap m (c.trapWith x.cls x.cause (x :: xs))
      | [] =>
        let w : Sweep := ⟨r.opc, c.pc, o, c.grp, c.act, c.written, c.sweepFrom, c.s o.d.toNat, c.s o.a.toNat, c.s o.b.toNat⟩
        .goto (m.sweepBegin c.key r w) ((laneList c.grp).map fun l => (l, c.pc))

end Sys2Proof.Machine
end

