-- ==== Sys2Proof/Machine/Vector.lean ====
section
/-! DEFINITION. The integer vector instructions (R105 to R111). -/

namespace Sys2Proof.Machine

/-- Element width of an integer type, and elements in a register (R47). -/
def intBits (ty : Nat) : Nat := if ty = 2 ∨ ty = 3 then 64 else if ty = 8 ∨ ty = 9 then 16 else if ty = 10 ∨ ty = 11 then 8 else 32
def intCount (ty : Nat) : Nat := if ty = 8 ∨ ty = 9 then 2 else if ty = 10 ∨ ty = 11 then 4 else 1

/-- The signed types have even codes (R28). -/
def signedTy (ty : Nat) : Bool := decide (ty % 2 = 0)

/-- The integer that an encoding of w bits stands for. -/
def intVal (signed : Bool) (w x : Nat) : Int := if signed then sval w x else ((x % 2 ^ w : Nat) : Int)

/-- Apply an operation to each packed element alone (R47, R103). -/
def packed (w : Nat) (f : Nat → Nat → Nat → Nat) (a b c : Nat) : Nat → Nat
  | 0 => 0
  | n + 1 => f (a % 2 ^ w) (b % 2 ^ w) (c % 2 ^ w) % 2 ^ w + 2 ^ w * packed w f (a / 2 ^ w) (b / 2 ^ w) (c / 2 ^ w) n

/-- An integer element operation of a width and signedness. -/
def intElem (f : Bool → Nat → Nat → Nat → Nat → Nat) : ElemOp := fun e a b c =>
  (packed (intBits e.ty) (f (signedTy e.ty) (intBits e.ty)) a b c (intCount e.ty), 0)

/-- Clamp to the type's range (R105, R110). -/
def clampInt (signed : Bool) (w : Nat) (z : Int) : Int := max (intLo signed w) (min (intHi signed w) z)

def tysW : List Nat := [0, 1, 2, 3]
def tysWP : List Nat := [0, 1, 2, 3, 8, 9, 10, 11]

def elAdd : ElemOp := intElem fun _ _ a b _ => a + b
def elSub : ElemOp := intElem fun _ w a b _ => a + (2 ^ w - b)
def elMul : ElemOp := intElem fun _ _ a b _ => a * b
def elMulh : ElemOp := intElem fun sg w a b _ => wrapInt w (intVal sg w a * intVal sg w b / (2 ^ w : Nat))
def elMad : ElemOp := intElem fun _ _ a b c => a * b + c
def elAnd : ElemOp := intElem fun _ _ a b _ => a &&& b
def elOr : ElemOp := intElem fun _ _ a b _ => a ||| b
def elXor : ElemOp := intElem fun _ _ a b _ => a ^^^ b
def elShl : ElemOp := intElem fun _ w a b _ => if w ≤ b then 0 else a <<< b
def elShr : ElemOp := intElem fun _ w a b _ => if w ≤ b then 0 else a >>> b
def elSar : ElemOp := intElem fun _ w a b _ => wrapInt w (intVal true w a / (2 ^ min b w : Nat))
def elMin : ElemOp := intElem fun sg w a b _ => if intVal sg w b < intVal sg w a then b else a
def elMax : ElemOp := intElem fun sg w a b _ => if intVal sg w a < intVal sg w b then b else a
def elAbs : ElemOp := intElem fun _ w a _ _ => (intVal true w a).natAbs
def elMov : ElemOp := fun _ _ b _ => (b, 0)
def elPopc : ElemOp := fun e a _ _ => (popCount (BitVec.ofNat (intBits e.ty) a), 0)
def elClz : ElemOp := fun e a _ _ => ((if a = 0 then intBits e.ty else intBits e.ty - 1 - Nat.log2 a), 0)

/-- Bits of a value in reverse order. -/
def revBits : Nat → Nat → Nat
  | 0, _ => 0
  | w + 1, x => (x % 2) * 2 ^ w + revBits w (x / 2)

def elBrev : ElemOp := fun e a _ _ => (revBits (intBits e.ty) a, 0)
def elAdds : ElemOp := intElem fun sg w a b _ => wrapInt w (clampInt sg w (intVal sg w a + intVal sg w b))
def elSubs : ElemOp := intElem fun sg w a b _ => wrapInt w (clampInt sg w (intVal sg w a - intVal sg w b))

def vruleAdd : VRule := { opc := 0x20, tys := tysWP }
def vruleSub : VRule := { opc := 0x21, tys := tysWP }
def vruleMul : VRule := { opc := 0x22, tys := tysWP }
def vruleMulh : VRule := { opc := 0x23, tys := tysWP }
def vruleMad : VRule := { opc := 0x24, tys := tysWP, useC := true }
def vruleAnd : VRule := { opc := 0x25, tys := tysW }
def vruleOr : VRule := { opc := 0x26, tys := tysW }
def vruleXor : VRule := { opc := 0x27, tys := tysW }
def vruleShl : VRule := { opc := 0x28, tys := tysWP }
def vruleShr : VRule := { opc := 0x29, tys := tysWP }
def vruleSar : VRule := { opc := 0x2A, tys := tysWP }
def vruleMin : VRule := { opc := 0x2B, tys := tysWP }
def vruleMax : VRule := { opc := 0x2C, tys := tysWP }
def vruleAbs : VRule := { opc := 0x2D, tys := [0, 2, 8, 10], useB := false }
def vruleMov : VRule := { opc := 0x30, tys := tysW, useA := false }
def vrulePopc : VRule := { opc := 0x31, tys := tysW, useB := false, dTy := fun _ => 1 }
def vruleClz : VRule := { opc := 0x32, tys := tysW, useB := false, dTy := fun _ => 1 }
def vruleBrev : VRule := { opc := 0x33, tys := tysW, useB := false }
def vruleAdds : VRule := { opc := 0x38, tys := tysWP }
def vruleSubs : VRule := { opc := 0x39, tys := tysWP }

def execVadd (o : Opn) (s : State) := vecRegs vruleAdd elAdd o s
def execVsub (o : Opn) (s : State) := vecRegs vruleSub elSub o s
def execVmul (o : Opn) (s : State) := vecRegs vruleMul elMul o s
def execVmulh (o : Opn) (s : State) := vecRegs vruleMulh elMulh o s
def execVmad (o : Opn) (s : State) := vecRegs vruleMad elMad o s
def execVand (o : Opn) (s : State) := vecRegs vruleAnd elAnd o s
def execVor (o : Opn) (s : State) := vecRegs vruleOr elOr o s
def execVxor (o : Opn) (s : State) := vecRegs vruleXor elXor o s
def execVshl (o : Opn) (s : State) := vecRegs vruleShl elShl o s
def execVshr (o : Opn) (s : State) := vecRegs vruleShr elShr o s
def execVsar (o : Opn) (s : State) := vecRegs vruleSar elSar o s
def execVmin (o : Opn) (s : State) := vecRegs vruleMin elMin o s
def execVmax (o : Opn) (s : State) := vecRegs vruleMax elMax o s
def execVabs (o : Opn) (s : State) := vecRegs vruleAbs elAbs o s
def execVmov (o : Opn) (s : State) := vecRegs vruleMov elMov o s
def execVpopc (o : Opn) (s : State) := vecRegs vrulePopc elPopc o s
def execVclz (o : Opn) (s : State) := vecRegs vruleClz elClz o s
def execVbrev (o : Opn) (s : State) := vecRegs vruleBrev elBrev o s
def execVadds (o : Opn) (s : State) := vecRegs vruleAdds elAdds o s
def execVsubs (o : Opn) (s : State) := vecRegs vruleSubs elSubs o s

/-- Write a predicate in the lanes written: the value where a lane takes part, zero where ZM clears (R30, R106). -/
def Ctx.putPred (c : Ctx) (m : Mach) (f : Nat → Bool) : Mach :=
  c.modRegs m fun r => r.putP c.o.d.toNat c.written (laneMask f &&& c.act)

/-- VCMP's encodings; its D is a predicate (R106). -/
def vcmpRule : VRule := { opc := 0x2E, fns := [0, 1, 2, 3, 4, 5], tys := tysW }

/-- What VCMP allows and reads. -/
def vcmpIssueRule : Rule :=
  { vcmpRule.rule with opds := fun o => .p o.d.toNat :: (vcmpRule.opds o).drop 1 }

/-- VCMP (R106). -/
def execVcmp (o : Opn) (s : State) : Host.Outcome State Fault Refusal :=
  issue vcmpIssueRule o s fun c m =>
    let ty := typeOf o 0
    .done (c.putPred m fun l =>
      let a := intVal (signedTy ty) (intBits ty) (c.elem ty o.a.toNat l)
      let b := intVal (signedTy ty) (intBits ty) (c.elemB ty l)
      condBy o.fn.toNat (decide (a = b)) (decide (a < b)))

def vselRule : VRule := { opc := 0x2F, tys := [0, 2], useC := true }

/-- What VSEL allows and reads. -/
def vselIssueRule : Rule :=
  { vselRule.rule with
    extra := fun o => o.pre || decide (2 ≤ o.len.toNat)
    opds := fun o => (vselRule.opds o).dropLast ++ [.p o.c.toNat] }

/-- VSEL (R107). -/
def execVsel (o : Opn) (s : State) : Host.Outcome State Fault Refusal :=
  issue vselIssueRule o s fun c m =>
    let ty := typeOf o 0
    let p := c.b.regs.getP o.c.toNat
    .done (c.putResults m 0 (c.allWrites ty ((laneList c.act).map fun l =>
      (l, if p.getLsbD l then c.elem ty o.a.toNat l else c.elemB ty l, 0))))

/-- Position, and the bits that a field of VBFE or VBFI holds (R108). -/
def bitField (w b : Nat) : Nat × Nat :=
  let pos := b % 256
  (pos, if pos < w then min (b / 256 % 256) (w - pos) else 0)

def elBfe : ElemOp := intElem fun sg w a b _ =>
  let (pos, k) := bitField w b
  if k = 0 then 0
  else
    let x := (a >>> pos) % 2 ^ k
    if sg then wrapInt w (sval k x) else x

def elBfi : ElemOp := intElem fun _ w a b c =>
  let (pos, k) := bitField w b
  if k = 0 then c else c % 2 ^ pos + (a % 2 ^ k) * 2 ^ pos + c / 2 ^ (pos + k) * 2 ^ (pos + k)

def vruleBfe : VRule := { opc := 0x34, tys := tysW }
def vruleBfi : VRule := { opc := 0x35, tys := tysW, useC := true }
def execVbfe (o : Opn) (s : State) := vecRegs vruleBfe elBfe o s
def execVbfi (o : Opn) (s : State) := vecRegs vruleBfi elBfi o s

/-- Bit j is TAB[a + 2b + 4c] (R109). -/
def mixBits (tab a b c : Nat) : Nat → Nat
  | 0 => 0
  | n + 1 =>
    boolNat (tab.testBit (a % 2 + 2 * (b % 2) + 4 * (c % 2))) + 2 * mixBits tab (a / 2) (b / 2) (c / 2) n

def elMix3 : ElemOp := fun e a b c => (mixBits e.mods a b c (intBits e.ty), 0)
def vruleMix3 : VRule := { opc := 0x36, tys := tysW, useC := true, modBits := 0xFF }
def execVmix3 (o : Opn) (s : State) := vecRegs vruleMix3 elMix3 o s

/-- VCVT (R110): saturating, or keeping the low bits. -/
def elVcvt : ElemOp := fun e a _ _ =>
  let z := intVal (signedTy e.sty) (intBits e.sty) a
  let w := intBits e.ty
  if e.fn = 1 then (wrapInt w z, 0)
  else
    let y := clampInt (signedTy e.ty) w z
    (wrapInt w y, if y = z then 0 else flSAT)

def vruleVcvt : VRule :=
  { opc := 0x37, fns := [0, 1], tys := tysW, stys := tysW, base := 2, sbase := 0, useB := false, aTy := VEnv.sty }
def execVcvt (o : Opn) (s : State) := vecRegs vruleVcvt elVcvt o s

def vliRule : Rule where
  opc := 0x3A
  form _ := { useD := true, useB := true, mask := 2, tys := [0, 1, 2, 3, 4, 7] }
  extra o := decide (o.len.toNat < 2 ∨ o.xf = 0) && !o.sb && (decide (o.len = 0) || decide (o.b = 0))
  opds o := [vOpd (typeOf o 0) o.d.toNat]

/-- VLI (R111). -/
def execVli (o : Opn) (s : State) : Host.Outcome State Fault Refusal :=
  issue vliRule o s fun c m =>
    .done (c.putResults m 0 (c.allWrites (typeOf o 0) ((laneList c.act).map fun l => (l, (immOf o).toNat, 0))))

end Sys2Proof.Machine
end

