-- ==== Sys2Proof/Machine/Float.lean ====
section
/-! DEFINITION. Floating-point vector instructions and conversions (R112 to R123). -/

namespace Sys2Proof.Machine

def tysF : List Nat := [4, 5, 6, 7]

/-- An operand of the instruction's floating type. -/
def VEnv.read (e : VEnv) (x : Nat) : Val := (fmtOf e.ty).read e.daz x

/-- Deliver an exact value with exceptions already raised. -/
def VEnv.give (e : VEnv) (v : Val × Nat) : Nat × Nat :=
  let (x, fl) := (fmtOf e.ty).deliver e.mode e.ftz v.1
  (x, fl ||| v.2)

def elFadd : ElemOp := fun e a b _ => e.give ((e.read a).add e.mode (e.read b))
/-- A NaN keeps no sign, so that negation before the sum changes no result (R50). -/
def elFsub : ElemOp := fun e a b _ => e.give ((e.read a).add e.mode (e.read b).neg)
def elFmul : ElemOp := fun e a b _ => e.give ((e.read a).mul (e.read b))
def elFfma : ElemOp := fun e a b c => e.give (Val.fma e.mode (e.read a) (e.read b) (e.read c))

/-- An encoding with DAZ applied: a subnormal becomes the zero of its sign (R51, R113). -/
def Fmt.daz (f : Fmt) (on : Bool) (x : Nat) : Nat := if on && f.subnormal x then f.sign (x.testBit (f.eb + f.fb)) else x

/-- The order of minimumNumber, with -0 below +0 (R113). -/
def orderBelow (f : Fmt) (x y : Nat) : Bool :=
  let (lt, eq) := (f.decode x).cmp (f.decode y)
  lt || (eq && x.testBit (f.eb + f.fb) && !y.testBit (f.eb + f.fb))

/-- FMIN and FMAX of a format: the number when one operand is a NaN (R113). -/
def minMax (f : Fmt) (max : Bool) (daz : Bool) (a b : Nat) : Nat × Nat :=
  let x := f.daz daz a
  let y := f.daz daz b
  let vx := f.decode x
  let vy := f.decode y
  let r :=
    if vx.isNan && vy.isNan then f.nanBits
    else if vx.isNan then y
    else if vy.isNan then x
    else if max then (if orderBelow f x y then y else x) else (if orderBelow f y x then y else x)
  (r, ivOf [vx, vy])

def elFmin : ElemOp := fun e a b _ => minMax (fmtOf e.ty) false e.daz a b
def elFmax : ElemOp := fun e a b _ => minMax (fmtOf e.ty) true e.daz a b

/-- FRINT (R114): NX only with FN 1; the sign is A's. -/
def elFrint : ElemOp := fun e a _ _ =>
  match e.read a with
  | .fin neg m k =>
    let (n, nx) := roundAt e.mode neg m k 0
    (((fmtOf e.ty).deliver 0 false (.fin neg n 0)).1, if nx && decide (e.fn = 1) then flNX else 0)
  | v => e.give (v, ivOf [v])

/-- FSCALE (R115). Beyond 2^±8192 every finite non-zero result is an overflow or below half the smallest subnormal. Of an element of 8 bytes
that a sweep reads, n is the low 32 bits (DESIGN CHOICE, log 25). -/
def elFscale : ElemOp := fun e a b _ =>
  let v := e.read a
  e.give (v.shift (max (-8192) (min 8192 (sval 32 b))), ivOf [v])

/-- FSGN (R116). -/
def elFsgn : ElemOp := fun e a b _ =>
  let f := fmtOf e.ty
  let top := f.eb + f.fb
  let s := a.testBit top
  let t := b.testBit top
  let r := match e.fn with
    | 0 => t
    | 1 => !s
    | 2 => false
    | _ => s ^^ t
  (a % 2 ^ top + f.sign r, 0)

def fprule (opc : Nat) : VRule := { opc := opc, tys := tysF, base := 4, arith := true }
def fpruleR (opc : Nat) : VRule := { fprule opc with rounds := true }

def vruleFadd : VRule := fpruleR 0x40
def vruleFsub : VRule := fpruleR 0x41
def vruleFmul : VRule := fpruleR 0x42
def vruleFfma : VRule := { fpruleR 0x43 with useC := true }
def vruleFmin : VRule := fprule 0x44
def vruleFmax : VRule := fprule 0x45
def vruleFrint : VRule := { fpruleR 0x48 with fns := [0, 1], useB := false }
def vruleFscale : VRule := { fpruleR 0x4C with bTy := fun _ => 0 }
def vruleFsgn : VRule := { fprule 0x56 with fns := [0, 1, 2, 3], noB := [1, 2], arith := false }

def execFadd (o : Opn) (s : State) := vecRegs vruleFadd elFadd o s
def execFsub (o : Opn) (s : State) := vecRegs vruleFsub elFsub o s
def execFmul (o : Opn) (s : State) := vecRegs vruleFmul elFmul o s
def execFfma (o : Opn) (s : State) := vecRegs vruleFfma elFfma o s
def execFmin (o : Opn) (s : State) := vecRegs vruleFmin elFmin o s
def execFmax (o : Opn) (s : State) := vecRegs vruleFmax elFmax o s
def execFrint (o : Opn) (s : State) := vecRegs vruleFrint elFrint o s
def execFscale (o : Opn) (s : State) := vecRegs vruleFscale elFscale o s
def execFsgn (o : Opn) (s : State) := vecRegs vruleFsgn elFsgn o s

/-- FCMP's result and exceptions (R117). -/
def fcmp (fn : Nat) (a b : Val) : Bool × Nat :=
  let un := a.isNan || b.isNan
  let (lt, eq) := if un then (false, false) else a.cmp b
  let r := match fn with
    | 0 => eq
    | 1 => !eq
    | 2 => lt
    | 3 => lt || eq
    | 4 => !un && !(lt || eq)
    | 5 => !un && !lt
    | 6 => un
    | _ => !un
  (r, if 2 ≤ fn ∧ fn ≤ 5 ∧ un = true then flIV else ivOf [a, b])

def fcmpRule : VRule := { fprule 0x46 with fns := [0, 1, 2, 3, 4, 5, 6, 7] }

/-- What FCMP allows and reads. -/
def fcmpIssueRule : Rule :=
  { fcmpRule.rule with opds := fun o => .p o.d.toNat :: (fcmpRule.opds o).drop 1 }

/-- FCMP (R117). -/
def execFcmp (o : Opn) (s : State) : Host.Outcome State Fault Refusal :=
  issue fcmpIssueRule o s fun c m =>
    let e := fcmpRule.env o c.b.regs.fpctl
    let res := fun l => fcmp o.fn.toNat (e.read (c.elem e.ty o.a.toNat l)) (e.read (c.elemB e.ty l))
    c.withFlags m ((laneList c.act).map fun l => (l, (res l).2)) fun m => .done (c.putPred m fun l => (res l).1)

/-- FCLASS (R118). -/
def elFclass : ElemOp := fun e a _ _ =>
  let f := fmtOf e.ty
  let neg := a.testBit (f.eb + f.fb)
  let k := match f.decode a with
    | .nan s => if s then 8 else 9
    | .inf _ => if neg then 0 else 7
    | .fin _ m _ =>
      if m = 0 then (if neg then 3 else 4)
      else if f.subnormal a then (if neg then 2 else 5)
      else if neg then 1 else 6
  (2 ^ k, 0)

def vruleFclass : VRule := { fprule 0x47 with useB := false, dTy := fun _ => 1, arith := false }
def execFclass (o : Opn) (s : State) := vecRegs vruleFclass elFclass o s

/-- FKEY (R119). -/
def elFkey : ElemOp := fun e a _ _ =>
  let f := fmtOf e.ty
  let w := f.width
  if (f.decode a).isNan then (0, 0)
  else
    let key := if a.testBit (w - 1) then 2 ^ w - 1 - a else a + 2 ^ (w - 1)
    (if e.fn = 1 then 2 ^ w - 1 - key else key, 0)

def vruleFkey : VRule :=
  { fprule 0x57 with fns := [0, 1], useB := false, dTy := fun e => if e.ty = 7 then 3 else 1, arith := false }
def execFkey (o : Opn) (s : State) := vecRegs vruleFkey elFkey o s

/-- FEXPN (R120). -/
def elFexpn : ElemOp := fun e a _ _ =>
  let v := e.read a
  if e.fn = 0 then
    match v with
    | .fin _ m _ => if m = 0 then (0x80000000, flIV) else (wrapInt 32 v.top, 0)
    | .inf _ => (0x7FFFFFFF, flIV)
    | .nan _ => (0x80000000, flIV)
  else
    match v with
    | .fin _ m _ => if m = 0 then e.give (v, 0) else e.give (v.shift (-v.top), 0)
    | .inf _ => e.give (v, 0)
    | .nan _ => e.give (v, ivOf [v])

def vruleFexpn : VRule :=
  { fprule 0x4D with fns := [0, 1], useB := false, la := true, dTy := fun e => if e.fn = 0 then 0 else e.ty }
def execFexpn (o : Opn) (s : State) := vecRegs vruleFexpn elFexpn o s

/-! ## Conversions (R121) -/

def elFcvt : ElemOp := fun e a _ _ =>
  let v := (fmtOf e.sty).read e.daz a
  e.give (v, ivOf [v])

def elIcvt : ElemOp := fun e a _ _ => e.give (valOfInt false (intVal (signedTy e.sty) (intBits e.sty) a) 0, 0)

def elFcvti : ElemOp := fun e a _ _ =>
  let sg := signedTy e.ty
  let w := intBits e.ty
  let (z, fl) := ((fmtOf e.sty).read e.daz a).toInt e.mode (intLo sg w) (intHi sg w)
  (wrapInt w z, fl)

def vruleFcvt : VRule := { fpruleR 0x49 with base := 5, sbase := 4, stys := tysF, useB := false, aTy := VEnv.sty }
def vruleIcvt : VRule := { fpruleR 0x4A with base := 4, sbase := 0, stys := tysW, useB := false, aTy := VEnv.sty }
def vruleFcvti : VRule := { fpruleR 0x4B with tys := tysW, base := 0, sbase := 4, stys := tysF, useB := false, aTy := VEnv.sty }

def execFcvt (o : Opn) (s : State) := vecRegs vruleFcvt elFcvt o s
def execIcvt (o : Opn) (s : State) := vecRegs vruleIcvt elIcvt o s
def execFcvti (o : Opn) (s : State) := vecRegs vruleFcvti elFcvti o s

/-- A slot operand is valid and of one of the types listed, else OPERAND (R71). -/
def Ctx.slotTrap (c : Ctx) (k : Nat) (ok : BitVec 128 → Bool) : Option Trap :=
  if slotOk (c.g.slot k) && ok (c.g.slot k) then none else some (c.trap clsOperand 0x64)

/-- The rounding mode of a slot, FPCTL's where it is dynamic (R71). -/
def Ctx.slotMode (c : Ctx) (k : Nat) : Nat := modeOf c.b.regs.fpctl (slotRmode (c.g.slot k))

def blkRule (fn : Nat) (tys stys : List Nat) : Rule where
  opc := 0x49
  form _ := { fns := [fn], modBits := 15, useD := true, useA := true, useB := true, mask := 2, tys := tys, la := false }
  extra o := stys.contains (fld o.mods 3 0) && decide (o.len = 2 ∧ o.xf = 0)
  opds o := [.v o.d.toNat 1 1, .v o.a.toNat 1 1, .f o.b.toNat]
  arith := true

/-- FCVT.blk (R122): every lane of the bundle gives an element, +0 outside Active(); no lane outside Active() is written, with ZM too. -/
def execFcvtBlk (o : Opn) (s : State) : Host.Outcome State Fault Refusal :=
  issue (blkRule 1 [0] [4, 5, 6]) o s fun c m =>
    let k := o.b.toNat
    match c.slotTrap k (fun x => decide (4 ≤ slotEtype x ∧ slotEtype x ≤ 6 ∧ slotSmode x = 1)) with
    | some t => .trap m t
    | none =>
      let src := fmtOf (fld o.mods 3 0)
      let fpctl := c.b.regs.fpctl
      let xs := (List.range 32).map fun l =>
        if c.act.getLsbD l then src.read (bitAt fpctl 4) (c.elem (fld o.mods 3 0) o.a.toNat l) else .fin false 0 0
      let (sc, els) := convertBlock src (etypeFmt (slotEtype (c.g.slot k))) (c.slotMode k) (bitAt fpctl 3) xs
      let at_ := fun l => els.getD l (0, 0)
      c.withFlags m ((laneList c.act).map fun l => (l, (at_ l).2)) fun m =>
        .done (c.putResults m 0 ((laneList c.act).flatMap fun l => regWrites 0 o.d.toNat l ((at_ l).1 + 256 * sc)))

/-- The value of an element code of FCVT.dec; with DAZ a subnormal code reads as a zero of its sign (R51, R123). -/
def decValue (e : Nat) (daz : Bool) (code : Nat) : Val := if 4 ≤ e ∧ e ≤ 6 then (etypeFmt e).read daz code else etypeVal e code

/-- The sign of a value that is not a NaN. -/
def Val.negative : Val → Bool
  | .nan _ => false
  | .inf s => s
  | .fin s _ _ => s

/-- FCVT.dec (R123): an overflow gives an infinity in every rounding mode. -/
def execFcvtDec (o : Opn) (s : State) : Host.Outcome State Fault Refusal :=
  issue (blkRule 2 [4] [0]) o s fun c m =>
    let k := o.b.toNat
    match c.slotTrap k (fun x => decide (4 ≤ slotEtype x ∧ slotEtype x ≤ 8)) with
    | some t => .trap m t
    | none =>
      let sl := c.g.slot k
      let res := (laneList c.act).map fun l =>
        let x := (c.v o.a.toNat l).toNat
        let v := decValue (slotEtype sl) (bitAt c.b.regs.fpctl 4) (x % 2 ^ etypeBits (slotEtype sl))
        let sc := if slotSmode sl = 1 then e8m0 (x / 256) else slotScaleVal sl
        let p := v.mul sc
        let r := fmtF32.deliver (c.slotMode k) (bitAt c.b.regs.fpctl 3) p.1
        (l, if r.2 &&& flOF ≠ 0 then fmtF32.sign p.1.negative + fmtF32.infBits else r.1, r.2 ||| p.2)
      c.withFlags m (res.map fun x => (x.1, x.2.2)) fun m => .done (c.putResults m 0 (c.allWrites 4 res))

end Sys2Proof.Machine
end

