-- ==== Sys2Proof/Machine/Memory.lean ====
section
/-! DEFINITION. Plain memory instructions: addresses and checks (R143 to R146), LD, ST, LDA, STL, ATOM (R147 to R152), PRF, IFENCE
(R153, R154), the tag table (R155, R156), FENCE (R176), deterministic stores (R179, R181), and the order in which outstanding
accesses may be performed (R171 to R175). -/

namespace Sys2Proof.Machine

/-! ## The MEM format (R143, R144) -/

def memAk (o : Opn) : Bool := bitAt o.mods 3
def memIx (o : Opn) : Bool := bitAt o.mods 8
def memSz (o : Opn) : Nat := fld o.mods 2 0
def memSize (o : Opn) : Nat := 2 ^ memSz o
def memOrd (o : Opn) : Nat := fld o.mods 5 4
def memScope (o : Opn) : Nat := fld o.mods 7 6
/-- The displacement: the literal where the form has one. -/
def memDisp (o : Opn) : W64 := if o.len = 1 ∨ o.len = 3 then o.imm else 0

/-- The encoding of a MEM opcode: function codes, modifier bits besides AK, IX and SZ, masks, and the rest. -/
def memForm (o : Opn) (fns : List Nat) (mods mask : Nat) : Form :=
  { fns := fns, modBits := mods ||| 0x10F, useD := true, useA := true, useB := memIx o, mask := mask, litB := false }

/-- Index only with a scalar base; SCOPE 11 is reserved (R143). -/
def memFits (o : Opn) (maxSz : Nat) : Bool := (!memIx o || memAk o) && decide (memScope o ≠ 3 ∧ memSz o ≤ maxSz)

/-- The address registers (R144). -/
def addrOpds (o : Opn) : List Opd :=
  [if memAk o then .s o.a.toNat 1 1 else .v o.a.toNat 2 2] ++ if memIx o then [.v o.b.toNat 1 1] else []

/-- The effective address of a lane (R144). -/
def Ctx.ea (c : Ctx) (l : Nat) : W64 :=
  let o := c.o
  let base := if memAk o then c.s o.a.toNat else c.v2 o.a.toNat l
  let index : W64 := if memIx o then (c.v o.b.toNat l).setWidth 64 <<< memSz o else 0
  base + memDisp o + index

/-! ## Checking every lane (R145, R146) -/

/-- Check the lanes' accesses in order: pieces of the lanes that pass, conditions of the others. -/
def Ctx.checkLanes (c : Ctx) (acc : Nat → Access) : List Nat → Mach → List (Nat × List Piece) × List Cond × Mach
  | [], m => ([], [], m)
  | l :: r, m =>
    match m.check c.agent (acc l) with
    | (.error e, m) => let (ps, cs, m) := c.checkLanes acc r m; (ps, condOf l (acc l).va e :: cs, m)
    | (.ok p, m) => let (ps, cs, m) := c.checkLanes acc r m; ((l, p) :: ps, cs, m)

/-- A plain access of a size at a lane's effective address. -/
def Ctx.plain (c : Ctx) (size : Nat) (rd wr atom : Bool) (l : Nat) : Access :=
  ⟨c.ea l, size, size, rd, wr, false, atom, .plain, .allowed⟩

/-! ## The request tracker (R150) -/

/-- Insert a value into a list without repeats. -/
def addNew (x : Space × Nat) (xs : List (Space × Nat)) : List (Space × Nat) := if xs.contains x then xs else x :: xs

/-- The lines that the undone parts of an operation reach. -/
def lineCount (ps : List Part) : Nat := (ps.foldl (fun ls p => if p.done then ls else addNew (p.space, p.addr / 128) ls) []).length

/-- Requests outstanding from a core: one for each line of each operation (R10); a sweep's accesses are none. -/
def Mach.tracked (m : Mach) (core : Nat) : Nat :=
  m.ops.foldl (fun n x => if coreOfKey x.key = core ∧ x.dest ≠ .sweep then n + lineCount x.parts else n) 0

/-- The tracker has no room for an operation of these parts (R10). -/
def Mach.trackerFull (m : Mach) (core : Nat) (new : List Part) : Bool := decide (8192 < m.tracked core + lineCount new)

/-- The count of a class stands at its limit: a further operation is held at issue (R182). -/
def Ctx.counterFull (c : Ctx) (cls : Nat) : Bool := decide (65535 ≤ c.b.count cls)

/-- A 16-byte piece is two accesses of 8 bytes (R149). -/
def halvesOf (p : Piece) : List Piece :=
  if p.len = 16 then [{ p with len := 8 }, { p with addr := p.addr + 8, len := 8 }] else [p]

/-- The windows that an operation opens for the issuing group (R37). -/
def Ctx.windows (c : Ctx) : List (Nat × Nat) :=
  let la := if c.ctl then 0 else c.o.la.toNat
  if la = 0 then [] else (laneList c.grp).map fun l => (l, la)

/-! ## Order of performance (R149, R152, R171 to R175) -/

/-- Units of 16 bytes that a chunk of n elements takes (R264). -/
def packUnits (es n : Nat) : Nat := 1 + (n * es + 15) / 16

/-- Where a part's accesses lie: one place, and, of a GSC.bpc, its offset entry as well. -/
def Part.places (p : Part) : List (Space × Nat × Nat) :=
  (p.space, p.addr, p.size) :: match p.kind with
    | .pack _ _ offPa _ _ _ _ => [(.dev, offPa, 4)]
    | _ => []

/-- The virtual addresses of the chunk that a GSC.bpc writes: its units, or, before it has claimed them, the data area (R264). -/
def Part.chunk (p : Part) : Option (Nat × Nat) :=
  match p.kind with
  | .pack d _ _ elems stage unit _ =>
    let base := leNat (d.take 8)
    let es := 2 ^ nfld (leNat ((d.drop 48).take 8)) 3 2
    if stage = 0 then some (base, base + leNat ((d.drop 8).take 8))
    else some (base + 16 * unit, base + 16 * (unit + packUnits es elems.length))
  | _ => none

/-- A place touches another. -/
def meetsPlace (x y : Space × Nat × Nat) : Bool := decide (x.1 = y.1 ∧ x.2.1 < y.2.1 + y.2.2 ∧ y.2.1 < x.2.1 + x.2.2)

/-- The chunk of p, if it has one, holds bytes of q. -/
def Part.chunkMeets (p q : Part) : Bool :=
  p.chunk.any fun c => decide (c.1 < q.va.toNat + q.size ∧ q.va.toNat < c.2) || q.chunk.any fun d => decide (c.1 < d.2 ∧ d.1 < c.2)

/-- Two parts reach a byte in common. -/
def overlap (p q : Part) : Bool := (p.places.any fun x => q.places.any fun y => meetsPlace x y) || p.chunkMeets q || q.chunkMeets p

/-- A thread of bundle `key` belongs to the scope that an access of bundle `of`, in team `team`, names (R174). -/
def Mach.inScope (m : Mach) (scope of team key : Nat) : Bool :=
  match scope with
  | 2 => decide (key = of)
  | 1 => decide (coreOfKey key = coreOfKey of ∧ (m.bundle key).team = team)
  | _ => decide (dieOfCore (coreOfKey key) = dieOfCore (coreOfKey of))

/-- The parts, by operation and place, of older accesses of a lane's thread that are not performed. -/
def Mach.olderParts (m : Mach) (x : Op) (lane : Nat) : List (Op × Nat × Part) :=
  (m.ops.takeWhile fun y => decide (y.id ≠ x.id)).flatMap fun y =>
    if y.key = x.key then
      (y.parts.mapIdx fun i q => (y, i, q)).filter fun z => !z.2.2.done && decide (z.2.2.lane = lane)
    else []

/-- An older part holds back part p of operation x whatever its scope: they overlap, or order of die scope stands between them. -/
def holdsBack (x y : Op) (p q : Part) : Bool :=
  !q.done && decide (q.lane = p.lane) && ((y.acq && decide (y.scope = 0)) || (x.rel && decide (x.scope = 0)) || overlap p q)

/-- An acquire waits for a release of narrow scope that was performed before older accesses of its thread, where it would read what the release
wrote and the scope of each includes the other thread (R174). -/
def Mach.awaitsEarly (m : Mach) (x : Op) (p : Part) : Bool :=
  x.acq && m.early.any fun e =>
    decide (e.space = p.space ∧ p.addr < e.addr + e.size ∧ e.addr < p.addr + p.size ∧ e.waits ≠ [])
      && m.inScope e.scope e.key e.team x.key && m.inScope x.scope x.key (m.bundle x.key).team e.key

/-- A write waits for an acquire of narrow scope that later accesses of its thread have passed: the acquire must not read what a thread of
its scope writes from then on (R174). -/
def Mach.awaitsPassed (m : Mach) (x : Op) (p : Part) : Bool :=
  p.kind.writes && m.ops.any fun y => decide (y.id ≠ x.id) && y.acq && decide (y.scope ≠ 0) &&
    m.inScope y.scope y.key (m.bundle y.key).team x.key && y.parts.any fun q => q.passed && !q.done && overlap p q

/-- Part i of an operation may be performed if no older access matters but those that `stops` names. -/
def Mach.mayBut (m : Mach) (x : Op) (i : Nat) (stops : Op → Nat → Part → Part → Bool) : Bool :=
  match x.parts[i]? with
  | none => false
  | some p =>
    !p.done && !(x.serial && (x.parts.take i).any fun q => !q.done) && !m.awaitsEarly x p && !m.awaitsPassed x p
      && !(m.olderParts x p.lane).any fun z => stops z.1 z.2.1 z.2.2 p

/-- Part i of the operation may be performed (R171 to R175): no older access of its thread holds it back, and where lanes are serial every
lower lane's part is done. An older acquire of narrow scope holds it back unless the acquire could itself be performed now; a release of
narrow scope need not wait for older accesses elsewhere, for to threads outside its scope it is a relaxed write (R174). -/
def Mach.mayPerform (m : Mach) (x : Op) (i : Nat) : Bool :=
  m.mayBut x i fun y j q p =>
    holdsBack x y p q || (y.acq && decide (y.scope ≠ 0) && !m.mayBut y j fun z _ r s => z.acq || holdsBack y z s r)

/-- The order that performing part i leaves behind (R174): acquires of narrow scope that it passed, and what threads of its scope must still
wait for if it is a release of narrow scope. A plain write ends the wait for the release whose bytes it covers. -/
def Mach.noteOrder (m : Mach) (x : Op) (p : Part) : Mach :=
  let older := m.olderParts x p.lane
  let m : Mach :=
    if older.any fun z => z.1.acq && decide (z.1.scope ≠ 0) then
      { m with ops := m.ops.map fun y =>
          if y.acq ∧ y.scope ≠ 0 ∧ older.any fun z => decide (z.1.id = y.id) then
            { y with parts := y.parts.map fun q => if q.lane = p.lane ∧ q.done = false then { q with passed := true } else q }
          else y }
    else m
  let kept := m.early.filter fun e =>
    !(match p.kind with | .write _ => true | _ => false) || decide (¬ (e.space = p.space ∧ p.addr ≤ e.addr ∧ e.addr + e.size ≤ p.addr + p.size))
  let new := if x.rel ∧ x.scope ≠ 0 ∧ older ≠ [] then
      [⟨p.space, p.addr, p.size, x.key, (m.bundle x.key).team, x.scope, older.map fun z => (z.1.id, z.2.1)⟩]
    else []
  if kept = m.early ∧ new = [] then m else { m with early := kept ++ new }

/-- Part i of operation id is done: nothing waits for it any more. -/
def Mach.settleEarly (m : Mach) (id i : Nat) : Mach :=
  if m.early = [] then m
  else { m with early := (m.early.map fun e => { e with waits := e.waits.filter fun w => decide (w ≠ (id, i)) }).filter fun e => decide (e.waits ≠ []) }

/-- An access made at issue must wait: a conflicting older access of the thread, or an acquire of it, is not yet performed (R173). -/
def Mach.mustWait (m : Mach) (key : Nat) (ls : Lanes) (sp : Space) (addr len : Nat) : Bool :=
  m.ops.any fun x => decide (x.key = key) && x.parts.any fun p =>
    !p.done && ls.getLsbD p.lane && (x.acq || (p.places.any fun y => meetsPlace y (sp, addr, len)) || (p.chunk.isSome && decide (sp = .dev)))

/-! ## Deterministic store buffers (R179, R181) -/

/-- The accesses of this issuer to the scratchpad are buffered. -/
def Ctx.buffers (c : Ctx) : Bool := c.g.det && !c.hand

/-- The youngest entry that covers an offset gives its byte. -/
def ownByte (es : List StoreEntry) (off : Nat) : Option Byte :=
  es.foldl (fun r e => if e.off ≤ off ∧ off < e.off + e.data.length then some (e.data.getD (off - e.off) 0) else r) none

/-- The bytes of a piece that the thread's own buffer gives, by address. -/
def Ctx.ownBytes (c : Ctx) (l : Nat) (p : Piece) : List (Nat × Byte) :=
  if c.buffers ∧ p.space = .scratch then
    (List.range p.len).filterMap fun k =>
      (ownByte (c.b.lane l).sbuf (p.addr + k - c.tm.phys c.core 0)).map fun b => (p.addr + k, b)
  else []

/-! ## Loads (R147, R148) -/

/-- The data register operand of an access size (R148); in a handler a w register (R379). -/
def dataOpd (sz r : Nat) : Opd := if sz ≤ 2 then .v r 1 1 else if sz = 3 then .v r 2 2 else .v r 4 4

/-- Encodings of LD and LDA. -/
def loadRule (opc maxSz mods : Nat) (hand : Bool) : Rule where
  opc := opc
  form o := { memForm o [0, 1] mods 2 with la := true }
  extra o := memFits o maxSz && decide (o.fn = 0 ∨ memSz o ≤ 1)
  opds o := addrOpds o ++ [if hand then .s o.d.toNat 1 1 else dataOpd (memSz o) o.d.toNat]

/-- A handler is in progress at the issuer in focus, so that D names a w register. -/
def State.inHandler (s : State) : Bool :=
  match s.mach.run? s.focus with
  | some r => (s.mach.bundle r.key).hand.isSome
  | none => false

/-- Where a load's data goes. -/
def Ctx.loadDest (c : Ctx) (sx : Bool) : Dest := if c.hand then .wide c.o.d.toNat sx else .vec c.o.d.toNat sx

/-- Zero the destination in the lanes that ZM clears: `n` registers. -/
def Ctx.zeroMasked (c : Ctx) (m : Mach) (n : Nat) : Mach :=
  if c.o.zm then
    c.modRegs m fun r => (laneList (c.grp &&& ~~~c.act)).foldl (fun r l =>
      (List.range n).foldl (fun r k => r.setV (c.o.d.toNat + k) l 0) r) r
  else m

/-- Registers that an access size fills. -/
def sizeRegs (sz : Nat) : Nat := if sz ≤ 2 then 1 else 2 ^ (sz - 2)

/-- The scope of an acquire or release: SCOPE, or bundle scope for an access of a handler (R143, R379). -/
def Ctx.opScope (c : Ctx) : Nat := if c.hand then 2 else memScope c.o

/-- LD and LDA: check every lane, then leave the reads outstanding; a handler's are counted in the mem counter (R379). -/
def loadOp (opc maxSz mods : Nat) (acq : Bool) (o : Opn) (s : State) : Host.Outcome State Fault Refusal :=
  issue (loadRule opc maxSz mods s.inHandler) o s fun c m =>
    match c.checkLanes (c.plain (memSize o) true false false) (laneList c.act) m with
    | (_, x :: xs, m) => c.resolve m (x :: xs) false
    | (ps, [], m) =>
      let parts := ps.flatMap fun x => (halvesOf (onePiece x.2)).map fun p => part x.1 p (c.ea x.1) (.read (c.ownBytes x.1 p))
      if m.trackerFull c.core parts || (c.hand && c.counterFull 1) then .hold
      else
        let m := c.zeroMasked m (sizeRegs (memSz o))
        let (id, m) := if c.hand then m.count c.key 1 else m.fresh
        if parts = [] then .done (if c.hand then m.complete c.key id else m)
        else .done { m with ops := m.ops ++ [{
          id := id, key := c.key, acq := acq, rel := false, serial := false, dest := c.loadDest (decide (o.fn = 1)), size := memSize o
          win := c.windows, parts := parts, counted := c.hand, asid := c.g.asid, scope := c.opScope }] }

def execLd (o : Opn) (s : State) : Host.Outcome State Fault Refusal := loadOp 0x68 4 0 false o s
def execLda (o : Opn) (s : State) : Host.Outcome State Fault Refusal := loadOp 0x6A 3 0xC0 true o s

/-! ## Stores -/

def storeRule (opc maxSz mods : Nat) (hand : Bool) : Rule where
  opc := opc
  form o := memForm o [0] mods 1
  extra o := memFits o maxSz
  opds o := addrOpds o ++ [if hand then .s o.d.toNat 1 1 else dataOpd (memSz o) o.d.toNat]

/-- The bytes that a lane stores, read at issue (R148). -/
def Ctx.storeBytes (c : Ctx) (l : Nat) : List Byte :=
  let n := memSize c.o
  if c.hand then leBytes n (c.s c.o.d.toNat).toNat
  else leBytes n ((List.range (sizeRegs (memSz c.o))).foldr (fun k x => (c.v (c.o.d.toNat + k) l).toNat + 2 ^ 32 * x) 0)

/-- Bytes that no higher lane writes (R149): a lane's cells without those of the lanes after it. -/
def topCells : List (Nat × Space × List (Nat × Byte)) → List (Nat × Space × List (Nat × Byte))
  | [] => []
  | (l, sp, cs) :: r =>
    (l, sp, cs.filter fun c => !(r.any fun y => decide (y.2.1 = sp) && y.2.2.any fun d => decide (d.1 = c.1))) :: topCells r

/-- The pieces of a store that are performed in memory, each with the bytes it writes. -/
def Ctx.storeParts (c : Ctx) (ps : List (Nat × Piece)) : List Part :=
  let cells := topCells (ps.map fun x => (x.1, x.2.space, cellsAt x.2.addr (c.storeBytes x.1)))
  (ps.zip cells).flatMap fun y =>
    (halvesOf y.1.2).map fun p =>
      part y.1.1 p (c.ea y.1.1) (.write (y.2.2.2.filter fun z => decide (p.addr ≤ z.1 ∧ z.1 < p.addr + p.len)))

/-- Fill one entry of each lane's store buffer. -/
def Ctx.bufferStores (c : Ctx) (m : Mach) (ps : List (Nat × Piece)) : Mach :=
  ps.foldl (fun m x => m.modBundle c.key fun b => b.modLane (fun _ y =>
    { y with sbuf := y.sbuf ++ [⟨x.2.addr - c.tm.phys c.core 0, c.storeBytes x.1⟩] }) x.1) m

/-- ST and STL: check every lane; buffered stores enter their buffers, the others are left outstanding as one operation of the mem
counter. -/
def storeOp (opc maxSz mods : Nat) (rel : Bool) (o : Opn) (s : State) : Host.Outcome State Fault Refusal :=
  issue (storeRule opc maxSz mods s.inHandler) o s fun c m =>
    match c.checkLanes (c.plain (memSize o) false true false) (laneList c.act) m with
    | (_, x :: xs, m) => c.resolve m (x :: xs) true
    | (ps, [], m) =>
      let ps := ps.map fun x => (x.1, onePiece x.2)
      let det := ps.filter fun x => c.buffers && decide (x.2.space = .scratch)
      let full := det.filter fun x => decide (32 ≤ (c.b.lane x.1).sbuf.length)
      if full ≠ [] then .trap m (c.trapWith clsQovf 0x6A (full.map fun x => ⟨x.1, clsQovf, 0x6A, c.ea x.1, 0⟩))
      else
        let parts := c.storeParts (ps.filter fun x => !(c.buffers && decide (x.2.space = .scratch)))
        if m.trackerFull c.core parts || c.counterFull 1 then .hold
        else
          let m := c.bufferStores m det
          let (id, m) := m.count c.key 1
          if parts = [] then .done (m.complete c.key id)
          else .done { m with ops := m.ops ++ [{
            id := id, key := c.key, acq := false, rel := rel, serial := false, dest := .none, size := memSize o, win := [], parts := parts
            counted := true, asid := c.g.asid, scope := c.opScope }] }

def execSt (o : Opn) (s : State) : Host.Outcome State Fault Refusal := storeOp 0x69 4 0 false o s
def execStl (o : Opn) (s : State) : Host.Outcome State Fault Refusal := storeOp 0x6B 3 0xC0 true o s

/-! ## ATOM (R151, R152) -/

/-- The type in force: TY, or i32 or i64 by size in base form. -/
def atomTy (o : Opn) : Nat := typeOf o (if memSz o = 3 then 2 else 0)

def atomRule (hand : Bool) : Rule where
  opc := 0x6C
  form o := { memForm o [0, 1, 2, 3, 4, 5, 6, 7, 8] 0xF0 2 with
    useC := decide (o.fn = 7), la := true, tys := if o.fn = 8 then [4, 7] else [0, 1, 2, 3] }
  extra o := memFits o 3 && decide (memSz o = if wideTy (atomTy o) then 3 else 2)
  opds o := addrOpds o ++ (if hand then [.s o.d.toNat 1 1] else [vOpd (atomTy o) o.d.toNat])
    ++ if o.fn = 7 then [if hand then .s o.c.toNat 1 1 else vOpd (atomTy o) o.c.toNat] else []

/-- The new value of a location (R151): .fadd rounds RNE and honours subnormals. Codes 9 and 10 are the f32 minimum and maximum of
GSC (R263). -/
def atomNew (fn ty old opd cmp : Nat) : Nat :=
  let e : VEnv := ⟨ty, 0, 0, 0, 0, false, false, 0⟩
  match fn with
  | 0 => (elAdd e old opd 0).1
  | 1 => (elMin e old opd 0).1
  | 2 => (elMax e old opd 0).1
  | 3 => (elAnd e old opd 0).1
  | 4 => (elOr e old opd 0).1
  | 5 => (elXor e old opd 0).1
  | 6 => opd
  | 7 => if old = cmp then opd else old
  | 9 => (elFmin e old opd 0).1
  | 10 => (elFmax e old opd 0).1
  | _ => (elFadd e old opd 0).1

/-- A register operand of an atomic, from the lane or from a w register. -/
def Ctx.atomReg (c : Ctx) (r l : Nat) : W64 :=
  if c.hand then .ofNat 64 ((c.s r).toNat % 2 ^ regBits (atomTy c.o)) else .ofNat 64 (c.elem (atomTy c.o) r l)

def execAtom (o : Opn) (s : State) : Host.Outcome State Fault Refusal :=
  issue (atomRule s.inHandler) o s fun c m =>
    match c.checkLanes (c.plain (memSize o) true true true) (laneList c.act) m with
    | (_, x :: xs, m) => c.resolve m (x :: xs) true
    | (ps, [], m) =>
      let parts := ps.map fun x => part x.1 (onePiece x.2) (c.ea x.1)
        (.rmw o.fn.toNat (atomTy o) (c.atomReg o.d.toNat x.1) (if o.fn = 7 then c.atomReg o.c.toNat x.1 else 0))
      if m.trackerFull c.core parts || c.counterFull 1 then .hold
      else
        let m := c.zeroMasked m (sizeRegs (memSz o))
        let (id, m) := m.count c.key 1
        if parts = [] then .done (m.complete c.key id)
        else .done { m with ops := m.ops ++ [{
          id := id, key := c.key, acq := decide (memOrd o % 2 = 1), rel := decide (2 ≤ memOrd o), serial := true, dest := c.loadDest false
          size := memSize o, win := c.windows, parts := parts, counted := true, asid := c.g.asid, scope := c.opScope }] }

/-! ## PRF, IFENCE, FENCE -/

/-- What PRF allows and reads. -/
def prfRule : Rule :=
  { opc := 0x72
    form := fun o => { memForm o [0, 1] 0 1 with useD := false }
    extra := fun o => memFits o 0
    opds := addrOpds }

/-- PRF (R153): translations may be cached, and an error that a walk meets is logged (R164); nothing else is seen. -/
def execPrf (o : Opn) (s : State) : Host.Outcome State Fault Refusal :=
  issue prfRule o s fun c m =>
    match c.checkLanes (c.plain 1 false false false) (laneList c.act) m with
    | (_, _, m) => .done m

/-- What IFENCE allows and reads. -/
def ifenceRule : Rule :=
  { opc := 0x71, form := fun _ => {} }

/-- IFENCE (R154): the bundle's fetch blocks and the core's instruction cache are dropped. -/
def execIfence (o : Opn) (s : State) : Host.Outcome State Fault Refusal :=
  issue ifenceRule o s fun c m =>
    .done ((m.modBundle c.key fun b => { b with blocks := [] }).modCore c.core fun k => { k with icache := [] })

/-- What FENCE allows and reads. -/
def fenceRule : Rule :=
  { opc := 0x6D, form := fun _ => { modBits := 15 }
    extra := fun o => decide (fld o.mods 3 2 ≠ 0 ∧ fld o.mods 1 0 ≤ 1) }

/-- FENCE (R176): the bundle's next run waits for the mem counter and earlier loads. SEM is modifiers [3:2], SCOPE [1:0]. -/
def execFence (o : Opn) (s : State) : Host.Outcome State Fault Refusal :=
  issue fenceRule o s fun c m =>
    .done (m.modBundle c.key fun b => { b with fenced := true })

/-- A FENCE still holds the bundle (R176): a mem operation is counted, a load has not returned, or a release whose scope includes the bundle
was performed before older accesses of its thread (R174, R177). -/
def Mach.fenceHolds (m : Mach) (key : Nat) : Bool :=
  let b := m.bundle key
  b.fenced && (decide (b.count 1 ≠ 0) || (m.ops.any fun x => decide (x.key = key) && !x.counted)
    || m.early.any fun e => m.inScope e.scope e.key e.team key)

/-! ## The tag table (R155, R156) -/

def tagRule (opc : Nat) (fns : List Nat) (useB : Opn → Bool) : Rule where
  opc := opc
  form o := { fns := fns, useD := true, useA := true, useB := useB o }
  opds o := [.s o.d.toNat 1 1, .s o.a.toNat 1 1] ++ if useB o then [.s o.b.toNat 1 1] else []

/-- A key without its bit 63. -/
def tagKey (x : W64) : W64 := x &&& 0x7FFFFFFFFFFFFFFF#64

/-- The key of a physical slot, if valid. -/
def Core.tag (k : Core) (slot : Nat) : Option W64 := Sparse.get none k.tags slot
def Core.setTag (k : Core) (slot : Nat) (x : Option W64) : Core := { k with tags := Sparse.put none k.tags slot x }
/-- A slot becomes the most recently named. -/
def Core.name (k : Core) (slot : Nat) : Core := { k with named := slot :: k.named.filter fun x => decide (x ≠ slot) }

/-- The team slot that holds a key. -/
def Ctx.tagFind (c : Ctx) (k : Core) (key : W64) : Option Nat :=
  (List.range c.tm.nscr).find? fun i => decide (k.tag (c.tm.scr + i) = some key)

/-- The victim among team slots lo to hi - 1: the lowest invalid slot, else the one named least recently; 0xFFFF of none. -/
def Ctx.tagVictim (c : Ctx) (k : Core) (lo hi : Nat) : Nat :=
  let set := (List.range (hi - lo)).map (· + lo)
  match set.find? fun i => decide (k.tag (c.tm.scr + i) = none) with
  | some i => i
  | none =>
    match k.named.reverse.find? fun x => decide (c.tm.scr + lo ≤ x ∧ x < c.tm.scr + hi) with
    | some x => x - c.tm.scr
    | none => if set = [] then 0xFFFF else lo

/-- TAGL (R156). -/
def execTagl (o : Opn) (s : State) : Host.Outcome State Fault Refusal :=
  issue (tagRule 0x6E [0, 1] fun o => decide (o.fn = 1)) o s fun c m =>
    let k := m.core c.core
    match c.tagFind k (tagKey (c.s o.a.toNat)) with
    | some i => .done (c.setS (m.setCore c.core (k.name (c.tm.scr + i))) o.d.toNat (.ofNat 64 i))
    | none =>
      let b := c.s o.b.toNat
      let (lo, hi) := if o.fn = 1 then (fld b 15 0, min (fld b 15 0 + fld b 31 16) c.tm.nscr) else (0, c.tm.nscr)
      .done (c.setS m o.d.toNat (.ofNat 64 (2 ^ 63 + c.tagVictim k lo hi)))

/-- A slot number is within the allocation, else XLATE 0x02 (R156). -/
def Ctx.slotOut (c : Ctx) (x : W64) : Bool := decide (c.tm.nscr ≤ x.toNat)

/-- TAGI (R156). -/
def execTagi (o : Opn) (s : State) : Host.Outcome State Fault Refusal :=
  issue (tagRule 0x6F [0] fun _ => true) o s fun c m =>
    let k := m.core c.core
    let key := tagKey (c.s o.a.toNat)
    let i := (c.s o.b.toNat).toNat
    if c.slotOut (c.s o.b.toNat) then .trap m (c.trap clsXlate 0x02)
    else
      match c.tagFind k key with
      | some j => .done (c.setS m o.d.toNat (.ofNat 64 (2 ^ 63 + j)))
      | none =>
        if (k.tag (c.tm.scr + i)).isSome then .done (c.setS m o.d.toNat (.ofNat 64 (2 ^ 62 + i)))
        else .done (c.setS (m.setCore c.core ((k.setTag (c.tm.scr + i) (some key)).name (c.tm.scr + i))) o.d.toNat (.ofNat 64 i))

/-- TAGX (R156). -/
def execTagx (o : Opn) (s : State) : Host.Outcome State Fault Refusal :=
  issue (tagRule 0x70 [0, 1] fun _ => false) o s fun c m =>
    let k := m.core c.core
    let a := c.s o.a.toNat
    if o.fn = 0 then
      if c.slotOut a then .trap m (c.trap clsXlate 0x02)
      else .done (c.setS (m.setCore c.core (k.setTag (c.tm.scr + a.toNat) none)) o.d.toNat
        ((k.tag (c.tm.scr + a.toNat)).getD (BitVec.allOnes 64)))
    else
      match c.tagFind k (tagKey a) with
      | some j => .done (c.setS (m.setCore c.core (k.setTag (c.tm.scr + j) none)) o.d.toNat (.ofNat 64 j))
      | none => .done (c.setS m o.d.toNat (BitVec.allOnes 64))

/-! ## Performing one part -/

/-- The data of a read: memory with the thread's own buffered bytes; a free value where the line has an uncorrectable error, which
is logged (R179, R400). -/
def Mach.readPart (m : Mach) (core : Nat) (p : Part) (own : List (Nat × Byte)) (err : Bool) : Nat × Mach :=
  if (err && decide (p.space = .dev)) || m.damaged p.space p.addr p.size then
    let (k, m) := m.draw
    ((Config.word k).toNat % 2 ^ (8 * p.size), m.logError 1 (core % 96) (dieOfCore core) p.addr)
  else
    (leNat ((List.range p.size).map fun k =>
      match own.find? fun x => decide (x.1 = p.addr + k) with
      | some x => x.2
      | none => m.readByte p.space (p.addr + k)), m)

/-- Replace part i of an operation. -/
def setPart (xs : List Part) (i : Nat) (p : Part) : List Part := xs.mapIdx fun j q => if j = i then p else q

/-- The whole value that a lane's parts have read. -/
def laneValue (xs : List Part) (l : Nat) : Nat :=
  (xs.filter fun p => decide (p.lane = l)).foldr (fun p v => p.got.toNat + 2 ^ (8 * p.size) * v) 0

/-- Extend a load's data to w bits (R147, R379). -/
def extend (w size : Nat) (sx : Bool) (x : Nat) : Nat := if sx then wrapInt w (sval (8 * size) x) else x

/-- Write a lane's result to the operation's destination; a lane that has exited takes none (R85). -/
def Mach.deliverLane (m : Mach) (x : Op) (l : Nat) : Mach :=
  let v := laneValue x.parts l
  m.modBundle x.key fun b =>
    match x.dest with
    | .vec d sx =>
      if (b.lane l).st = .exited then b
      else b.modRegs fun r => (List.range (max 1 (x.size / 4))).foldl (fun r k =>
        r.setV (d + k) l (.ofNat 32 (extend 32 x.size sx v / 2 ^ (32 * k)))) r
    | .ldt d => if (b.lane l).st = .exited then b else b.modRegs fun r => r.setV d l (.ofNat 32 v)
    | .wide d sx => b.modRegs fun r => r.setW d (.ofNat 64 (extend 64 x.size sx v))
    | .scalar d => b.modRegs fun r => r.setS d (.ofNat 64 v)
    | _ => b

/-- Part i of an operation is done with the data given: the lane's result is written when it was the lane's last, and the operation
leaves the tracker when it was its last. -/
def Mach.finishPart (m : Mach) (x : Op) (i : Nat) (p : Part) (deliver : Mach → Op → Nat → Mach) : Mach :=
  let m := m.noteOrder x p
  let m := if p.done then m.settleEarly x.id i else m
  let x := { x with parts := setPart x.parts i p }
  let m := if x.parts.any fun q => decide (q.lane = p.lane) && !q.done then m else deliver m x p.lane
  if x.parts.all Part.done then
    let rest := m.ops.filter fun y => decide (y.id ≠ x.id)
    let m : Mach := { m with ops := rest }
    if x.counted then m.complete x.key x.id else m
  else
    let rest := m.ops.map fun y => if y.id = x.id then x else y
    { m with ops := rest }

end Sys2Proof.Machine
end

