-- ==== Sys2Proof/Machine/Remote.lean ====
section
/-! DEFINITION. Remote instructions (R192 to R209): letters and their sending, RADD, RMIN, RMAX, ROR, RONCE, RARR, RGET, ACCRD, ACCDEF
and ARRWAIT, and what a home does with their letters (R195, R197, R199, R201, R203, R210). -/

namespace Sys2Proof.Machine

/-! ## Sending (R18, R189, R190) -/

/-- A blank letter. -/
def blankLetter : Letter := ⟨0, 0, 0, false, 0, 0, 0, 0, false, 0, false, 0, 0, false, [], 0, 0, 0, 0⟩

/-- A postmark (R18). -/
def postmark (pkg die unit seq : Nat) : W64 :=
  .ofNat 64 (pkg * 2 ^ 50 + die * 2 ^ 48 + unit * 2 ^ 40 + seq % 2 ^ 40)

/-- Fields of a postmark. -/
def pmPkg (pm : W64) : Nat := fld pm 63 50
def pmDie (pm : W64) : Nat := fld pm 49 48
def pmUnit (pm : W64) : Nat := fld pm 47 40

/-- A letter that carried a postmark is not settled at its home (R19): its record stands, a notice is on its way, the home holds the
postmark, or the time after its record's end has not passed. -/
def Mach.unsettled (m : Mach) (pm : W64) : Bool :=
  (m.sent.any fun x => decide (x.letter.pm = pm)) || (m.spent.any fun x => decide (x.1 = pm ∧ m.clk < x.2))
    || (m.settles.any fun x => decide (x.2 = pm)) || m.dies.any fun p => (Sparse.get none p.2.marks pm.toNat).isSome

/-- The first sequence number from n on whose postmark no unsettled letter carries; `k` bounds the search. -/
def Mach.freeSeq (m : Mach) (die unit : Nat) : Nat → Nat → Nat
  | 0, n => n
  | k + 1, n => if m.unsettled (postmark m.pkg die unit n) then m.freeSeq die unit k ((n + 1) % 2 ^ 40) else n

/-- How many postmarks may be unsettled. -/
def Mach.postmarks (m : Mach) : Nat :=
  m.sent.length + m.spent.length + m.settles.length + m.dies.foldl (fun n p => n + p.2.marks.length) 0

/-- The unit's next sequence number (R18, R19), and the machine after it is used. Copy engines are units 96 to 103, the neighbour engine
104. -/
def Mach.nextSeq (m : Mach) (die unit : Nat) : Nat × Mach :=
  let n := m.freeSeq die unit m.postmarks
    (if unit < 96 then (m.core (die * 96 + unit)).seq else Sparse.get 0 (m.die die).seqs (unit - 96))
  (n, if unit < 96 then m.modCore (die * 96 + unit) fun c => { c with seq := (n + 1) % 2 ^ 40 }
    else m.modDie die fun d => { d with seqs := Sparse.put 0 d.seqs (unit - 96) ((n + 1) % 2 ^ 40) })

/-- The die of a package that a physical address is homed on. -/
def homeDie (pa : Nat) : Nat := pa / Config.dieBytes

/-- Time after the last copy at which a letter is settled whatever has arrived: its copies last 4 µs (R186) and the home keeps its postmark
200 µs (R190); of a request, 8 µs (R206). -/
def settleTime (l : Letter) : Nat := (if l.op = 0x09 then 8 else 204) * Config.usCycles

/-- A letter's record ends; its number is not used again until it is settled (R19). -/
def Mach.dropSent (m : Mach) (pm : W64) : Mach :=
  match m.sent.find? fun x => decide (x.letter.pm = pm) with
  | none => m
  | some x => { m with
      sent := m.sent.filter fun y => decide (y.letter.pm ≠ pm)
      spent := (m.spent.filter fun y => decide (m.clk < y.2)) ++ [(pm, x.last + settleTime x.letter)] }

/-- A settle notice leaves for the home of a letter, and the letter's record ends (R190). -/
def Mach.settle (m : Mach) (x : Sent) : Mach :=
  let m := m.dropSent x.letter.pm
  if x.letter.tpkg.toNat = m.pkg then { m with settles := m.settles ++ [(homeDie x.letter.tpa.toNat, x.letter.pm)] }
  else { m with out := m.out ++ [.settle x.letter.tpkg.toNat (homeDie x.letter.tpa.toNat) x.letter.pm] }

/-- A settle notice is owed: APPLIED is held and 4 µs have passed since the last copy (R190), so that no copy can still be taken. -/
def Sent.owes (x : Sent) (clk : Nat) : Bool := x.acked && decide (x.letter.op ≠ 0x09 ∧ x.last + 4 * Config.usCycles < clk)

/-- The time from which a settle notice is owed; `timer` is when the acknowledgement came. -/
def Sent.due (x : Sent) : Nat := max x.timer (x.last + 4 * Config.usCycles)

/-- Notices that ride on a letter from the same unit to the same die (R190). -/
def Mach.rideSettles (m : Mach) (l : Letter) : Mach :=
  (m.sent.filter fun x => x.owes m.clk && decide (fld x.letter.pm 63 40 = fld l.pm 63 40 ∧ x.letter.tpkg = l.tpkg
    ∧ homeDie x.letter.tpa.toNat = homeDie l.tpa.toNat)).foldl Mach.settle m

/-- A copy of a letter leaves, with an AGE of 0. -/
def Mach.launchCopy (m : Mach) (l : Letter) : Mach :=
  let m := m.rideSettles l
  if l.tpkg.toNat = m.pkg then { m with wire := m.wire ++ [⟨l, m.clk⟩] } else { m with out := m.out ++ [.letter l] }

/-- Send a letter from a unit: its postmark, its resend record, its first copy. `asid` and `spans` are what its addresses were translated
from (R166). -/
def Mach.sendLetter (m : Mach) (die unit : Nat) (l : Letter) (sender : Sender) (va : W64) (slot : Option (Space × Nat)) (asid : Nat)
    (spans : List (Nat × Nat)) : Mach :=
  let (n, m) := m.nextSeq die unit
  let l := { l with pm := postmark m.pkg die unit n }
  let m := m.launchCopy l
  { m with sent := m.sent ++ [⟨l, sender, va, m.clk, m.clk, 0, false, false, slot, asid, spans⟩] }

/-- Letters of an operation that are neither acknowledged nor answered. -/
def Mach.lettersOut (m : Mach) (s : Sender) : Bool := m.sent.any fun x => decide (x.sender = s) && !x.acked

/-! ## Regions (R195, R208) -/

def Region.covers (r : Region) (pa len : Nat) : Bool := decide (r.base ≤ pa ∧ pa + len ≤ r.limit)
/-- A span touches a region; a meeting's entry has the member table as a second span (R223). -/
def Region.touches (r : Region) (pa len : Nat) : Bool :=
  decide (r.base < pa + len ∧ pa < r.limit)
    || (match r.meeting with | some g => decide (g.mem < pa + len ∧ pa < g.mem + 16 * g.n) | none => false)

/-- The die's regions with their indexes. -/
def Die.table (d : Die) : List (Nat × Region) := d.regions.filterMap fun p => p.2.map fun r => (p.1, r)

/-- A span touches a region of its die. -/
def Mach.inRegion (m : Mach) (pa len : Nat) : Bool := (m.die (homeDie pa)).table.any fun p => p.2.touches pa len

/-- The region of a kind that holds a span. -/
def Mach.regionAt (m : Mach) (kind pa len : Nat) : Option (Nat × Region) :=
  (m.die (homeDie pa)).table.find? fun p => decide (p.2.kind = kind) && p.2.covers pa len

def Mach.modRegion (m : Mach) (die i : Nat) (f : Region → Region) : Mach :=
  m.modDie die fun d =>
    match Sparse.get none d.regions i with
    | some r => { d with regions := Sparse.put none d.regions i (some (f r)) }
    | none => d

/-- The address of byte k of an array held in pieces. -/
def pieceAddr : List (Nat × Nat) → Nat → Nat
  | [], k => k
  | (a, n) :: r, k => if k < n then a + k else pieceAddr r (k - n)

/-- A physical range of the secure world (R406) that a span touches. -/
def Mach.secureRange (m : Mach) (pa len : Nat) : Bool := m.ranges.any fun r => decide (r.1 < pa + len ∧ pa < r.2)

def satInc (x : W32) : W32 := if x = BitVec.allOnes 32 then x else x + 1

/-! ## Landing (R197, R199, R201, R203) -/

/-- IEEE 754 total order of f32 encodings as an integer (R197). -/
def totalKey (x : Nat) : Int := if x.testBit 31 then sval 32 (x ^^^ 0x7FFFFFFF) else sval 32 x

/-- The lesser of two operands by type. -/
def lesser (ty a b : Nat) : Bool :=
  if ty = 4 then decide (totalKey a < totalKey b) else decide (intVal (signedTy ty) (intBits ty) a < intVal (signedTy ty) (intBits ty) b)

/-- The new value of an integer letter (R197). -/
def letterNew (op ty old x : Nat) : Nat :=
  match op with
  | 1 => (old + x) % 2 ^ regBits ty
  | 3 => if lesser ty x old then x else old
  | 4 => if lesser ty old x then x else old
  | _ => old ||| x

/-- A number as a home slice reads it: free where its line has an uncorrectable error, which is logged (R400; log 5). -/
def Mach.homeRead (m : Mach) (pa n : Nat) : Nat × Mach := m.readNatLogged 0xFF (homeDie pa) .dev pa n

/-- Arrive (R203). -/
def Mach.arrive (m : Mach) (pa n : Nat) : Mach :=
  let (x, m) := m.homeRead pa 8
  let c := x % 2 ^ 32 + n
  let closed := decide (nfld x 55 32 < c)
  let hi := x / 2 ^ 32
  let hi := if closed && !hi.testBit 24 then hi + 2 ^ 24 else hi
  m.writeNat .dev pa 8 (hi * 2 ^ 32 + c % 2 ^ 32)

/-- The condition of an arrival word (R205). -/
def arrivalMet (x : Nat) : Bool := decide (nfld x 55 32 ≤ x % 2 ^ 32) || x.testBit 56

/-- Set bits of a status byte. -/
def Mach.setStatus (m : Mach) (a bits : Nat) : Mach :=
  let (x, m) := m.homeRead a 1
  m.writeNat .dev a 1 (x ||| bits)

/-- The status byte of a line of an accumulator region (R198). -/
def Region.statusAt (r : Region) (pa : Nat) : Nat := pieceAddr r.aux ((pa - r.base) / 128)

def nonfiniteBit : Val → Nat
  | .inf neg => if neg then 8 else 4
  | _ => 2

/-- A value times 2^n is no integer. -/
def inexactAt (v : Val) (n : Int) : Bool :=
  match v with
  | .fin _ m e => (roundAt 1 false m (e + n) 0).2
  | _ => false

/-- Land a contribution in a WX128 element (R199); its line's status byte is at `st`. -/
def Mach.landWx (m : Mach) (r : Region) (pa : Nat) (v : Val) (u : Nat) : Mach :=
  let st := r.statusAt pa
  match placeOn 128 v u r.b with
  | .nonfinite v => m.setStatus st (nonfiniteBit v)
  | .out _ => m.setStatus st 1
  | .num p =>
    let (n, m) := m.homeRead pa 16
    let s := sval 128 n + p
    if s < intLo true 128 ∨ intHi true 128 < s then m.setStatus st 1
    else
      let m := m.writeNat .dev pa 16 (wrapInt 128 s)
      if inexactAt v (-(u : Int) - r.b) then m.setStatus st 16 else m

/-- An 8-byte unit that a write-once letter covers: its address, the letter's bytes, its number in the region, and, as the home finds it,
whether it is present and differs. -/
structure Unit8 where
  pa : Nat
  data : Nat
  j : Nat
  present : Bool
  differs : Bool

/-- The units of a letter as the home finds them (R201). -/
def Mach.onceUnits (m : Mach) (r : Region) (pa : Nat) (data : List Byte) : Nat → List Unit8 × Mach
  | 0 => ([], m)
  | k + 1 =>
    let (us, m) := m.onceUnits r pa data k
    let a := pa + 8 * k
    let j := (a - r.base) / 8
    let (x, m) := m.homeRead (pieceAddr r.aux (j / 8)) 1
    let (old, m) := m.homeRead a 8
    let new := leNat ((data.drop (8 * k)).take 8)
    (us ++ [⟨a, new, j, x.testBit (j % 8), decide (old ≠ new)⟩], m)

/-- An absent unit is filled and becomes present. -/
def Mach.fillUnit (m : Mach) (r : Region) (u : Unit8) : Mach :=
  if u.present then m else (m.writeNat .dev u.pa 8 u.data).setStatus (pieceAddr r.aux (u.j / 8)) (2 ^ (u.j % 8))

/-- Apply a write-once letter to the region with index i (R201). -/
def Mach.landOnce (m : Mach) (i : Nat) (r : Region) (pa : Nat) (data : List Byte) (aof : Bool) (aux : Nat) : Mach :=
  let (units, m) := m.onceUnits r pa data (data.length / 8)
  if units.any fun u => u.present && u.differs then m.modRegion (homeDie pa) i fun r => { r with conflicts := satInc r.conflicts }
  else
    let m := units.foldl (fun m u => m.fillUnit r u) m
    if aof && units.all fun u => !u.present then m.arrive (pieceAddr r.arr (8 * aux)) 1 else m

/-- The bytes that a RONCE letter writes. -/
def onceData (l : Letter) : List Byte := if l.op = 0x06 ∧ l.sz = 3 then leBytes 8 l.data.toNat else l.body

/-- A letter for `len` bytes of a region: the world and step-tag checks, then what it does there (R210). -/
def Mach.atRegion (m : Mach) (l : Letter) (len die i : Nat) (r : Region) (act : Mach → Nat × Mach) : Nat × Mach :=
  if (r.secure || m.secureRange l.tpa.toNat len) && !l.world then (3, m)
  else if l.aof && decide (r.arrn ≤ l.aux.toNat) then (4, m)
  else if r.stepEn && decide (r.stepTag ≠ l.step) then (0, m.modRegion die i fun r => { r with stale := satInc r.stale })
  else act m

/-- Apply a letter other than a meeting's (R195 to R203): a status of R188, and the machine after it. -/
def Mach.applyPlain (m : Mach) (l : Letter) : Nat × Mach :=
  let pa := l.tpa.toNat
  let die := homeDie pa
  let w := if l.op = 0x08 then 8 else regBits l.ty.toNat / 8
  if l.op = 0x02 then
    match m.regionAt 1 pa 16 with
    | some (i, r) => if r.owner.isSome then (2, m) else m.atRegion l 16 die i r fun m => (0, m.landWx r pa ((fmtOf l.ty.toNat).decode l.data.toNat) l.ush.toNat)
    | none => (2, m)
  else if l.op = 0x06 ∨ l.op = 0x07 then
    match m.regionAt 2 pa (onceData l).length with
    | some (i, r) => m.atRegion l (onceData l).length die i r fun m => (0, m.landOnce i r pa (onceData l) l.aof l.aux.toNat)
    | none => (2, m)
  else if m.inRegion pa w then (2, m)
  else if !l.world && m.secureRange pa w then (3, m)
  else if l.op = 0x08 then (0, m.arrive pa (l.data.toNat % 2 ^ 32))
  else
    let (old, m) := m.homeRead pa w
    (0, m.writeNat .dev pa w (letterNew l.op.toNat l.ty.toNat old (l.data.toNat % 2 ^ (8 * w))))

/-! ## Instructions that send letters (R192 to R196) -/

def remNsw (o : Opn) : Bool := bitAt o.mods 5
def remAof (o : Opn) : Bool := bitAt o.mods 6
def remUsh (o : Opn) : Nat := fld o.mods 12 7

/-- The operands as a plain MEM form, without the remote modifiers. -/
def plainMem (o : Opn) : Opn := { o with mods := o.mods &&& 0xF }

/-- The effective address of a lane, IX being 0 (R192). -/
def Ctx.rea (c : Ctx) (l : Nat) : W64 :=
  let o := c.o
  (if memAk o then c.s o.a.toNat else c.v2 o.a.toNat l) + memDisp o

/-- The encoding of a remote opcode (R192); `mods` are the bits it uses besides AK and SZ. -/
def remForm (fns : List Nat) (mods : Nat) (lane : Bool) : Form :=
  { fns := fns, modBits := mods ||| 0x0F, useD := true, useA := true, mask := if lane then 1 else 0, litB := false }

/-- The sender's side of a letter: world, step tag (R192). -/
def Ctx.letter (c : Ctx) : Letter :=
  { blankLetter with world := c.g.world && !remNsw c.o, step := c.b.regs.stepTag }

/-- A letter's target access (R193). -/
def Ctx.target (c : Ctx) (size align : Nat) (rd : Bool) (l : Nat) : Access :=
  ⟨c.rea l, size, align, rd, !rd, false, false, .letter, .denied 0x24⟩

/-- Aim a letter at a piece. -/
def aimLetter (l : Letter) (pkg : Nat) (p : Piece) : Letter :=
  { l with tpkg := .ofNat 14 (p.pkg.getD pkg), tpa := .ofNat 40 p.addr }

/-- Send a letter of the bundle's operation `id`, translated from the spans given. -/
def Ctx.post (c : Ctx) (m : Mach) (id : Nat) (l : Letter) (p : Piece) (va : W64) (slot : Option (Space × Nat)) (spans : List (Nat × Nat)) :
    Mach :=
  m.sendLetter c.die (c.core % 96) (aimLetter l m.pkg p) (.bundle c.key id) va slot c.g.asid spans

/-- Send one letter for each lane as one operation of the remote counter (R194). Each lane's letter counts: the operation completes when
the last of them has, failed or not (log 128). `more` gives further spans that a lane's addresses were translated from. -/
def Ctx.sendAll (c : Ctx) (m : Mach) (len : Nat) (ps : List (Nat × Piece)) (mk : Nat → Letter) (slot : Nat → Option (Space × Nat))
    (more : Nat → List (Nat × Nat)) : Mach :=
  let (id, m) := m.count c.key 4
  if ps = [] then m.complete c.key id
  else ps.foldl (fun m x => c.post m id (mk x.1) x.2 (c.rea x.1) (slot x.1) (((c.rea x.1).toNat, len) :: more x.1)) m

/-- A per-lane letter instruction: check every lane, then send. -/
def sendOp (r : Rule) (size align : Opn → Nat) (mk : Ctx → Nat → Letter) (o : Opn) (s : State) : Host.Outcome State Fault Refusal :=
  issue r o s fun c m =>
    match c.checkLanes (c.target (size o) (align o) false) (laneList c.act) m with
    | (_, x :: xs, m) => c.resolve m (x :: xs) true
    | (ps, [], m) =>
      if c.counterFull 4 then .hold
      else .done (c.sendAll m (size o) (ps.map fun x => (x.1, onePiece x.2)) (mk c) (fun _ => none) fun _ => [])

/-- Type of RADD, RMIN, RMAX and ROR: TY, or by SZ in base form (R196). -/
def addTy (ror : Bool) (o : Opn) : Nat := typeOf o (if memSz o = 3 then (if ror then 3 else 2) else if ror then 1 else 0)

/-- RADD into WX128: a floating type. -/
def addWx (o : Opn) : Bool := decide (2 ≤ o.len.toNat ∧ (o.ty = 4 ∨ o.ty = 6 ∨ o.ty = 7))

/-- SZ that a type goes with. -/
def szOfTy (ty : Nat) : Nat := if wideTy ty then 3 else if ty = 6 then 1 else 2

def addRule (opc : Nat) (tys : List Nat) (wx : Bool) (ror : Bool) : Rule where
  opc := opc
  form o := { remForm [0] (0x20 ||| if wx && addWx o then 0x1F80 else 0) true with tys := tys }
  extra o := decide (memSz o = szOfTy (addTy ror o)) && tys.contains (addTy ror o)
  opds o := addrOpds (plainMem o) ++ [vOpd (addTy ror o) o.d.toNat]

/-- The letter of RADD, RMIN, RMAX or ROR. -/
def addLetter (op : Nat) (ror : Bool) (c : Ctx) (l : Nat) : Letter :=
  let ty := addTy ror c.o
  let wx := decide (op = 1) && addWx c.o
  { c.letter with
    op := .ofNat 8 (if wx then 2 else op), ty := .ofNat 4 ty, sz := .ofNat 3 (memSz c.o)
    ush := if wx then .ofNat 6 (remUsh c.o) else 0, data := .ofNat 64 (c.elem ty c.o.d.toNat l) }

def execRadd (o : Opn) (s : State) : Host.Outcome State Fault Refusal :=
  sendOp (addRule 0x78 [0, 2, 4, 6, 7] true false) (fun o => if addWx o then 16 else memSize o) (fun o => if addWx o then 16 else memSize o)
    (addLetter 1 false) o s
def execRmin (o : Opn) (s : State) : Host.Outcome State Fault Refusal :=
  sendOp (addRule 0x79 [0, 1, 2, 3, 4] false false) memSize memSize (addLetter 3 false) o s
def execRmax (o : Opn) (s : State) : Host.Outcome State Fault Refusal :=
  sendOp (addRule 0x7A [0, 1, 2, 3, 4] false false) memSize memSize (addLetter 4 false) o s
def execRor (o : Opn) (s : State) : Host.Outcome State Fault Refusal :=
  sendOp (addRule 0x7B [1, 3] false true) memSize memSize (addLetter 5 true) o s

/-! ## RONCE (R200) -/

/-- The arrival index of arrive-on-fill. -/
def Ctx.aofAux (c : Ctx) : W16 := if remAof c.o then (c.s c.o.c.toNat).setWidth 16 else 0

def ronceRule : Rule where
  opc := 0x7C
  form o := { remForm [0] 0x60 true with useC := remAof o }
  extra o := decide (memSz o = 3 ∨ memSz o = 4)
  opds o := addrOpds (plainMem o) ++ [dataOpd (memSz o) o.d.toNat]
    ++ if remAof o then [.s o.c.toNat 1 1] else []

/-- RONCE (R200). -/
def execRonce (o : Opn) (s : State) : Host.Outcome State Fault Refusal :=
  sendOp ronceRule memSize memSize (fun c l =>
    let body := c.storeBytes l
    { c.letter with
      op := 0x06, sz := .ofNat 3 (memSz c.o), aof := remAof c.o, aux := c.aofAux
      data := if memSz c.o = 3 then .ofNat 64 (leNat body) else 16
      body := if memSz c.o = 3 then [] else body }) o s

/-- Bytes of the team's scratchpad as a thread reads them, its own buffered stores included (R179). -/
def Ctx.scratchRead (c : Ctx) (m : Mach) (l off n : Nat) : List Byte :=
  (List.range n).map fun k =>
    match (if c.buffers then ownByte (c.b.lane l).sbuf (off + k) else none) with
    | some b => b
    | none => m.readByte .scratch (c.tm.phys c.core (off + k))

def rowRule : Rule where
  opc := 0x7C
  form o := { remForm [1] 0x60 false with useB := true, useC := remAof o }
  extra o := decide (memSz o = 3) && memAk o
  opds o := [.s o.a.toNat 1 1, .s o.d.toNat 1 1, .s o.b.toNat 1 1] ++ if remAof o then [.s o.c.toNat 1 1] else []

/-- The address of a bundle-scope form. -/
def Ctx.sea (c : Ctx) : W64 := c.s c.o.a.toNat + memDisp c.o

/-- A condition of a bundle-scope instruction, held by every lane of the group. -/
def Ctx.everyLane (c : Ctx) (va : W64) (cause : Nat) : List Cond := (laneList c.grp).map fun l => condOf l va cause

/-- RONCE.row (R200): the target's checks in the order of R145 with 0x12 among the alignment checks, then the row's. -/
def execRonceRow (o : Opn) (s : State) : Host.Outcome State Fault Refusal :=
  issue rowRule o s fun c m =>
    let va := c.sea
    let len := (c.s o.b.toNat).toNat
    let off := (c.s o.d.toNat).toNat
    let lead := lowestLane c.grp
    let badRow := decide (len % 8 ≠ 0 ∨ len < 8 ∨ 256 < len ∨ va.toNat % 65536 + len > 65536)
    let (r, m) := if canonical va && decide (va.toNat % 8 = 0) && badRow then (Except.error 0x12, m)
      else m.check c.agent ⟨va, if badRow then 8 else len, 8, false, true, false, false, .letter, .denied 0x24⟩
    match r with
    | .error e => c.resolve m (c.everyLane va e) true
    | .ok ps =>
      if c.tm.alloc < off + len then .trap m (c.trapWith clsXlate 0x02 (c.everyLane 0 0x02))
      else if c.counterFull 4 ∨ m.mustWait c.key (laneBit lead) .scratch (c.tm.phys c.core off) len = true then .hold
      else
        let l := { c.letter with
          op := 0x07, sz := 3, aof := remAof o, aux := c.aofAux, data := .ofNat 64 len, body := c.scratchRead m lead off len }
        let (id, m) := m.count c.key 4
        .done (c.post m id l (onePiece ps) va none [(va.toNat, len)])

/-! ## RARR (R204) -/

def rarrRule : Rule where
  opc := 0x7D
  form o := { remForm [0, 1] 0x20 false with useD := decide (o.fn = 1) }
  extra o := decide (memSz o = 3) && memAk o
  opds o := [.s o.a.toNat 1 1] ++ if o.fn = 1 then [.s o.d.toNat 1 1] else []

/-- The oldest mark that an instruction held for a counter class reports: its operation completed while the bundle was held (R194). -/
def Bundle.heldMark (b : Bundle) (kind : Nat) : Option Mark := b.marks.find? fun k => k.ready && k.held && decide (k.kind = kind)

/-- Take a mark out of a bundle's list. -/
def dropMark (k : Mark) : List Mark → List Mark
  | [] => []
  | x :: r => if x = k then r else x :: dropMark k r

/-- RARR (R204): held until the older remote operations and the mem counter are done; a failure while held raises REMOTE (R194). -/
def execRarr (o : Opn) (s : State) : Host.Outcome State Fault Refusal :=
  issue rarrRule o s fun c m =>
    match m.check c.agent ⟨c.sea, 8, 8, false, true, false, false, .letter, .denied 0x24⟩ with
    | (.error e, m) => c.resolve m (c.everyLane c.sea e) true
    | (.ok ps, m) =>
      match c.b.heldMark 4 with
      | some k =>
        .trap (m.modBundle c.key fun b => { b with held := false, marks := dropMark k b.marks })
          (c.trapWith k.trapCls k.cause [⟨lowestLane c.grp, k.trapCls, k.cause, k.addr, 0⟩])
      | none =>
        if c.b.count 4 ≠ 0 ∨ c.b.count 1 ≠ 0 then .closed (m.modBundle c.key fun b => { b with held := true })
        else
          let n : W64 := if o.fn = 1 then ((c.s o.d.toNat).setWidth 32).setWidth 64 else 1
          let l := { c.letter with op := 0x08, sz := 3, data := n }
          let (id, m) := m.count c.key 4
          let m := m.modBundle c.key fun b => { b with held := false }
          .done (c.post m id l (onePiece ps) c.sea none [(c.sea.toNat, 8)])

/-! ## RGET (R206) -/

/-- What RGET allows and reads; each of its sizes has a base form (DEDUCED, log 139). -/
def rgetRule : Rule where
  opc := 0x7E
  form _ := remForm [0] 0x20 true
  extra o := decide (2 ≤ memSz o ∧ memSz o ≤ 4)
  opds o := addrOpds (plainMem o) ++ [.s o.d.toNat 1 1]

/-- The reply slot of a lane: a home on another die or in host memory is 0x22 (R193). -/
def Ctx.slotAccess (c : Ctx) (l : Nat) : Access :=
  ⟨c.s c.o.d.toNat + BitVec.ofNat 64 (l * memSize c.o), memSize c.o, memSize c.o, false, true, false, false, .local_, .allowed⟩

/-- Check target, then reply slot, lane by lane. -/
def Ctx.rgetCheck (c : Ctx) : List Nat → Mach → List (Nat × Piece × Piece) × List Cond × Mach
  | [], m => ([], [], m)
  | l :: r, m =>
    let n := memSize c.o
    match m.check c.agent (c.target n n true l) with
    | (.error e, m) => let (ps, cs, m) := c.rgetCheck r m; (ps, condOf l (c.rea l) e :: cs, m)
    | (.ok p, m) =>
      match m.check c.agent (c.slotAccess l) with
      | (.error e, m) =>
        let (ps, cs, m) := c.rgetCheck r m
        (ps, condOf l (c.slotAccess l).va (if e = 0x30 then 0x22 else e) :: cs, m)
      | (.ok q, m) => let (ps, cs, m) := c.rgetCheck r m; ((l, onePiece p, onePiece q) :: ps, cs, m)

/-- The slot as a letter names it: an address of this die, or an offset in this core's scratchpad with bit 40 set (R185). -/
def slotWord (p : Piece) : W64 :=
  if p.space = .scratch then .ofNat 64 (2 ^ 40 + p.addr % Config.scratchStride) else .ofNat 64 p.addr

/-- RGET (R206): not sent before the threads' earlier acquires (R213). A record of a reply slot that is not present asks for W, one of a
target for R alone (R167, R193). -/
def execRget (o : Opn) (s : State) : Host.Outcome State Fault Refusal :=
  issue rgetRule o s fun c m =>
    match c.rgetCheck (laneList c.act) m with
    | (_, x :: xs, m) => c.resolve m (x :: xs) true (w := fun y => decide (y.addr ≠ c.rea y.lane))
    | (ps, [], m) =>
      if c.counterFull 4 ∨ (m.ops.any fun x => decide (x.key = c.key) && x.acq && x.parts.any fun p => !p.done && c.act.getLsbD p.lane) = true then
        .hold
      else
        let slot := fun l => (ps.find? fun x => decide (x.1 = l)).map fun x => (x.2.2.space, x.2.2.addr)
        let word := fun l => ((ps.find? fun x => decide (x.1 = l)).map fun x => slotWord x.2.2).getD 0
        .done (c.sendAll m (memSize o) (ps.map fun x => (x.1, x.2.1))
          (fun l => { c.letter with op := 0x09, sz := .ofNat 3 (memSz o), data := word l }) slot
          fun l => [((c.slotAccess l).va.toNat, memSize o)])

/-! ## ACCRD (R207) -/

def accrdRule : Rule where
  opc := 0x7F
  form o := { remForm [0, 1, 2] 0 true with la := true, rounds := decide (o.fn = 0), tys := if o.fn = 0 then [4, 7] else [0] }
  extra o := decide (memSz o = 4)
  opds o := addrOpds (plainMem o) ++ [if o.fn = 0 then vOpd (typeOf o 4) o.d.toNat
    else if o.fn = 1 then .v o.d.toNat 4 4 else .v o.d.toNat 1 1]
  arith := true

/-- The value of an element by its line's status byte: encoding and exceptions (R207). FTZ has no part in it (R51). -/
def accValue (ty mode : Nat) (st : Nat) (n : Int) (b : Int) : Nat × Nat :=
  let f := fmtOf ty
  if st.testBit 1 || st.testBit 0 || (st.testBit 2 && st.testBit 3) then (f.nanBits, 0)
  else if st.testBit 2 then (f.infBits, 0)
  else if st.testBit 3 then (f.sign true + f.infBits, 0)
  else f.deliver mode false (valOfInt false n b)

/-- A lane's address of ACCRD: a read of 16 bytes of this die (R193; step 5 of R145 is applied to it too, log 129). -/
def Ctx.accAccess (c : Ctx) (l : Nat) : Access := ⟨c.rea l, 16, 16, true, false, false, false, .local_, .denied 0x24⟩

/-- Check the lanes in order (R193): FN 0 and 2 outside an accumulator region of this die hold PROT 0x25. -/
def Ctx.accCheck (c : Ctx) : List Nat → Mach → List (Nat × Piece) × List Cond × Mach
  | [], m => ([], [], m)
  | l :: r, m =>
    match m.check c.agent (c.accAccess l) with
    | (.error e, m) => let (ps, cs, m) := c.accCheck r m; (ps, condOf l (c.rea l) e :: cs, m)
    | (.ok p, m) =>
      let out := decide (c.o.fn ≠ 1) && (m.regionAt 1 (onePiece p).addr 16).isNone
      let (ps, cs, m) := c.accCheck r m
      if out then (ps, condOf l (c.rea l) 0x25 :: cs, m) else ((l, onePiece p) :: ps, cs, m)

/-- The rounding mode in force at issue (R63, R67). -/
def Ctx.accMode (c : Ctx) : Nat := modeOf c.b.regs.fpctl c.o.rm.toNat

/-- The result of an ACCRD part: words of the destination, and exceptions; free values where a line has an uncorrectable error, which is
logged (R400). -/
def Mach.accRead (m : Mach) (core fn ty mode : Nat) (pa status : Nat) (b : Int) : (Nat × Nat) × Mach :=
  let unit := core % 96
  let die := dieOfCore core
  let (n, m) := if fn = 2 then (0, m) else m.readNatLogged unit die .dev pa 16
  let (st, m) := if fn = 1 then (0, m) else m.readNatLogged unit die .dev status 1
  (match fn with
    | 0 => accValue ty mode st (sval 128 n) b
    | 1 => (n, 0)
    | _ => (st, 0), m)

/-- The results of the lanes of an ACCRD that reads at issue. -/
def Ctx.accNow (c : Ctx) (fn ty : Nat) (info : Piece → Nat × Int) : List (Nat × Piece) → Mach → List (Nat × Nat × Nat) × Mach
  | [], m => ([], m)
  | (l, p) :: r, m =>
    let (x, m) := m.accRead c.core fn ty c.accMode p.addr (info p).1 (info p).2
    let (xs, m) := c.accNow fn ty info r m
    ((l, x) :: xs, m)

/-- Registers that an ACCRD function fills. -/
def accRegs (fn ty : Nat) : Nat := if fn = 1 then 4 else if fn = 0 ∧ wideTy ty = true then 2 else 1

/-- Register writes of one lane of ACCRD. -/
def accWrites (d n l x : Nat) : List (Nat × W32) := (List.range n).map fun k => ((d + k) * 32 + l, .ofNat 32 (x / 2 ^ (32 * k)))

/-- ACCRD (R207). The elements are read at their ordering points later, with the exponent and the status byte's place that the region has
at issue (log 130); while FPCTL enables an exception they are read at issue, before anything else of the bundle issues (R36). -/
def execAccrd (o : Opn) (s : State) : Host.Outcome State Fault Refusal :=
  issue accrdRule o s fun c m =>
    let fn := o.fn.toNat
    let ty := typeOf o 4
    match c.accCheck (laneList c.act) m with
    | (_, x :: xs, m) => c.resolve m (x :: xs) false
    | (ps, [], m) =>
      let info := fun (p : Piece) => ((m.regionAt 1 p.addr 16).map fun y => (y.2.statusAt p.addr, y.2.b)).getD (0, 0)
      if fn = 0 ∧ c.b.regs.trapsOn = true then
        if ps.any fun x => m.mustWait c.key (laneBit x.1) .dev x.2.addr 16 then .hold
        else
          let (res, m) := c.accNow fn ty info ps m
          c.withFlags m (res.map fun x => (x.1, x.2.2)) fun m => .done (c.modRegs m fun r =>
            r.writeAll (res.flatMap fun x => accWrites o.d.toNat (accRegs fn ty) x.1 x.2.1))
      else
        let parts := ps.map fun x => part x.1 x.2 (c.rea x.1) (.acc fn ty c.accMode (info x.2).1 (info x.2).2)
        if m.trackerFull c.core parts then .hold
        else
          let (id, m) := m.fresh
          if parts = [] then .done m
          else .done { m with ops := m.ops ++ [{
            id := id, key := c.key, acq := false, rel := false, serial := false, dest := .vec o.d.toNat false, size := 4 * accRegs fn ty
            win := c.windows, parts := parts, counted := false, asid := c.g.asid }] }

/-! ## ACCDEF (R208, R209) -/

def accdefRule (fn : Nat) : Rule where
  opc := 0x80
  form _ := { remForm [fn] 0 false with useC := decide (fn = 2) }
  extra o := decide (memSz o = 3) && memAk o
  opds o := [.s o.d.toNat 1 1, .s o.a.toNat 1 1] ++ if fn = 2 then [.s o.c.toNat 1 1] else []

/-- Read bytes that lie in pieces, as a unit reads them (R400). -/
def Mach.readPieces (m : Mach) (unit die : Nat) : List Piece → List Byte × Mach
  | [] => ([], m)
  | p :: r =>
    let (b, m) := m.readLogged unit die p.space p.addr p.len
    let (bs, m) := m.readPieces unit die r
    (b ++ bs, m)

/-- Read bytes that lie in pieces as a thread reads them, its own buffered stores included (R179). -/
def Ctx.readOwn (c : Ctx) (m : Mach) (l : Nat) : List Piece → List Byte
  | [] => []
  | p :: r =>
    let own := c.ownBytes l p
    ((List.range p.len).map fun k =>
      match own.find? fun x => decide (x.1 = p.addr + k) with
      | some x => x.2
      | none => m.readByte p.space (p.addr + k)) ++ c.readOwn m l r

/-- The same read as the instruction makes it: a line with an uncorrectable error gives free values and is logged (R400). -/
def Ctx.takeOwn (c : Ctx) (m : Mach) (l : Nat) (ps : List Piece) : List Byte × Mach :=
  if ps.any fun p => m.damaged p.space p.addr p.len then m.readPieces (c.core % 96) c.die ps else (c.readOwn m l ps, m)

/-- A little-endian field of a block of bytes. -/
def fieldAt (bs : List Byte) (off n : Nat) : Nat := leNat ((bs.drop off).take n)

/-- The pieces of a span on this die, whatever its permissions; none where part of it is not homed here. -/
def Ctx.localSpan (c : Ctx) (m : Mach) (va len : Nat) : Option (List Piece) × Mach :=
  match m.check c.agent ⟨.ofNat 64 va, len, 1, false, false, false, false, .local_, .denied 0x22⟩ with
  | (.ok ps, m) => (some ps, m)
  | (.error _, m) => (none, m)

/-- A malformed field of a descriptor (R209, code 3). -/
def descBad (d : List Byte) : Bool :=
  let base := fieldAt d 0 8
  let limit := fieldAt d 8 8
  let ctl := fieldAt d 16 8
  let kind := nfld ctl 1 0
  let arr := fieldAt d 32 8
  let arrn := fieldAt d 40 2
  decide (base % 128 ≠ 0 ∨ limit % 128 ≠ 0 ∨ limit ≤ base ∨ nfld ctl 47 41 ≠ 0 ∨ nfld ctl 31 3 ≠ 0 ∨ kind = 0 ∨ kind = 3
    ∨ (kind = 2 ∧ nfld ctl 40 32 ≠ 0) ∨ arr % 8 ≠ 0 ∨ (arrn = 0 ∧ arr ≠ 0) ∨ fieldAt d 42 6 ≠ 0 ∨ fieldAt d 52 4 ≠ 0
    ∨ fieldAt d 60 4 ≠ 0)

/-- An array of a descriptor in place: homed here and clear of the regions (R209). -/
def Ctx.arraySpan (c : Ctx) (m : Mach) (va len : Nat) (base limit : Nat) : Option (List (Nat × Nat)) × Mach :=
  if len = 0 then (some [], m)
  else
    match c.localSpan m va len with
    | (some ps, m) =>
      if ps.any fun p => m.inRegion p.addr p.len || decide (base < p.addr + p.len ∧ p.addr < limit) then (none, m)
      else (some (ps.map fun p => (p.addr, p.len)), m)
    | (none, m) => (none, m)

/-- The lowest free entry of a region table of 4,096. -/
def Die.freeRegion (d : Die) : Option Nat := (List.range 4096).find? fun i => decide (Sparse.get none d.regions i = none)

/-- An error word (R209). -/
def errWord (code : Nat) : W64 := .ofNat 64 (2 ^ 63 + code)

/-- ACCDEF.def: install a region, or the first error in R209's order. -/
def Ctx.define (c : Ctx) (m : Mach) (d : List Byte) : W64 × Mach :=
  let base := fieldAt d 0 8
  let limit := fieldAt d 8 8
  let ctl := BitVec.ofNat 64 (fieldAt d 16 8)
  let kind := fld ctl 1 0
  let arrn := fieldAt d 40 2
  let naux := if kind = 1 then (limit - base) / 128 else (limit - base) / 64
  if descBad d then (errWord 3, m)
  else
    match c.localSpan m base (limit - base) with
    | (none, m) => (errWord 4, m)
    | (some ps, m) =>
      let p := onePiece ps
      if ps.length ≠ 1 then (errWord 7, m)
      else if m.inRegion p.addr p.len then (errWord 2, m)
      else
        let (aux, m) := c.arraySpan m (fieldAt d 24 8) naux p.addr (p.addr + p.len)
        let (arr, m) := c.arraySpan m (fieldAt d 32 8) (8 * arrn) p.addr (p.addr + p.len)
        match aux, arr, (m.die c.die).freeRegion with
        | some aux, some arr, some i =>
          (.ofNat 64 i, m.modDie c.die fun x => { x with regions := Sparse.put none x.regions i (some
            ⟨p.addr, p.addr + p.len, kind, bitAt ctl 2, .ofNat 16 (fld ctl 63 48), sval 9 (fld ctl 40 32), aux, arr, arrn, 0, 0,
              c.g.world, none, none⟩) })
        | some _, some _, none => (errWord 1, m)
        | _, _, _ => (errWord 3, m)

/-- The entry whose BASE a descriptor names, by where it translates (R209), or an error code. -/
def Ctx.named (c : Ctx) (m : Mach) (d : List Byte) (meetings : Bool) : Except Nat (Nat × Region) × Mach :=
  match c.localSpan m (fieldAt d 0 8) 1 with
  | (none, m) => (.error 5, m)
  | (some ps, m) =>
    match (m.die c.die).table.find? fun p => decide (p.2.base = (onePiece ps).addr) with
    | none => (.error 5, m)
    | some (i, r) =>
      if r.secure && !c.g.world then (.error 6, m)
      else if !meetings && (r.owner.isSome || r.meeting.isSome) then (.error 8, m)
      else (.ok (i, r), m)

/-- The course of ACCDEF: held until the mem counter is zero, then the descriptor is read and the table acts. -/
def accdefOp (fn : Nat) (act : Ctx → Mach → List Byte → List Piece → W64 × Mach) (o : Opn) (s : State) : Host.Outcome State Fault Refusal :=
  issue (accdefRule fn) o s fun c m =>
    match m.check c.agent ⟨c.sea, 64, 64, true, decide (fn = 3), false, false, .local_, .allowed⟩ with
    | (.error e, m) => c.resolve m (c.everyLane c.sea e) (decide (fn = 3))
    | (.ok ps, m) =>
      if c.b.count 1 ≠ 0 ∨ m.threadBusy c.key c.grp (onePiece ps).space = true then .hold
      else
        let (d, m) := c.takeOwn m (lowestLane c.grp) ps
        let (x, m) := act c m d ps
        .done (c.setS m o.d.toNat x)

def execAccdef (o : Opn) (s : State) : Host.Outcome State Fault Refusal := accdefOp 0 (fun c m d _ => c.define m d) o s

def execAccdefFree (o : Opn) (s : State) : Host.Outcome State Fault Refusal :=
  accdefOp 1 (fun c m d _ =>
    match c.named m d false with
    | (.error e, m) => (errWord e, m)
    | (.ok (i, _), m) => (.ofNat 64 i, m.modDie c.die fun x => { x with regions := Sparse.put none x.regions i none })) o s

def execAccdefStep (o : Opn) (s : State) : Host.Outcome State Fault Refusal :=
  accdefOp 2 (fun c m d _ =>
    match c.named m d false with
    | (.error e, m) => (errWord e, m)
    | (.ok (i, _), m) => (.ofNat 64 i, m.modRegion c.die i fun r => { r with stepTag := (c.s o.c.toNat).setWidth 16 })) o s

def execAccdefQuery (o : Opn) (s : State) : Host.Outcome State Fault Refusal :=
  accdefOp 3 (fun c m d ps =>
    match c.named m d true with
    | (.error e, m) => (errWord e, m)
    | (.ok (i, r), m) =>
      let p := onePiece ps
      (.ofNat 64 i, (m.writeNat p.space (p.addr + 48) 4 r.stale.toNat).writeNat p.space (p.addr + 56) 4 r.conflicts.toNat)) o s

/-! ## Parking, and ARRWAIT (R205) -/

/-- Park the issuing group at this instruction. -/
def Ctx.park (c : Ctx) (m : Mach) (w : Wait) : Res :=
  let (id, m) := m.fresh
  .goto (m.modBundle c.key fun b => b.modLanes c.grp fun _ x => { x with st := .wait w id c.size, pc := c.pc, last := m.clk }) []

/-- The lanes parked by one issue. -/
def Bundle.parked (b : Bundle) (seq : Nat) : Lanes :=
  laneMask fun l => match (b.lane l).st with | .wait _ k _ => decide (k = seq) | _ => false

/-- A parked group goes on after its instruction, or issues it again. -/
def Bundle.wake (b : Bundle) (seq : Nat) (again : Bool) : Bundle :=
  b.modLanes (b.parked seq) fun _ x =>
    match x.st with
    | .wait _ _ sz => { x with st := .runnable, pc := if again then x.pc else x.pc + BitVec.ofNat 64 sz }
    | _ => x

/-- A step on the group that a lane is parked with. -/
def wakeStep (b l : Nat) (s : State) (f : Mach → Wait → Nat → Option Mach) : Host.Outcome State Fault Refusal :=
  match ((s.mach.bundle b).lane l).st with
  | .wait w seq _ =>
    match f s.mach w seq with
    | some m => .next { s with mach := m }
    | none => .next s
  | _ => .next s

def arrwaitRule : Rule where
  opc := 0x81
  form _ := remForm [0, 1] 0 false
  extra o := decide (memSz o = 3) && memAk o
  opds o := [.s o.d.toNat 1 1, .s o.a.toNat 1 1]

/-- ARRWAIT (R205). -/
def execArrwait (o : Opn) (s : State) : Host.Outcome State Fault Refusal :=
  issue arrwaitRule o s fun c m =>
    match m.check c.agent ⟨c.sea, 8, 8, true, false, false, false, .local_, .denied 0x24⟩ with
    | (.error e, m) => c.resolve m (c.everyLane c.sea e) false
    | (.ok ps, m) =>
      let pa := (onePiece ps).addr
      if m.mustWait c.key c.grp .dev pa 8 then .wait m c.grp
      else
        let (x, m) := m.readNatLogged (c.core % 96) c.die .dev pa 8
        if o.fn = 1 ∨ arrivalMet x = true then .done (c.setS m o.d.toNat (.ofNat 64 x))
        else c.park m (.arrival o.d.toNat pa)

/-- ARRWAIT_WAKE (R205): the word is written once its condition holds. -/
def execArrwaitWake (b l : Nat) (s : State) : Host.Outcome State Fault Refusal :=
  wakeStep b l s fun m w seq =>
    match w with
    | .arrival d pa =>
      let (x, m) := m.homeRead pa 8
      if arrivalMet x then some (m.modBundle b fun k => (k.wake seq false).modRegs fun r => r.setS d (.ofNat 64 x)) else none
    | _ => none

end Sys2Proof.Machine
end

