-- ==== Sys2Proof/Machine/Meeting.lean ====
section
/-! DEFINITION. Quorum meetings (R215 to R229, R430). -/

namespace Sys2Proof.Machine

/-! ## The record (R215, R216) -/

def tagAdd (t : Nat) (n : Nat) : Nat := (t + n) % 2 ^ 32
/-- The lag of b behind a. -/
def lagOf (a b : Nat) : Nat := (a + 2 ^ 32 - b) % 2 ^ 32

def Mach.rec8 (m : Mach) (rc off : Nat) : Nat := m.readNat .dev (rc + off) 8
def Mach.recRtag0 (m : Mach) (rc : Nat) : Nat := m.readNat .dev (rc + 32) 4
def Mach.recCur (m : Mach) (rc : Nat) : Nat := m.readNat .dev (rc + 40) 4
def Mach.recHeld (m : Mach) (rc : Nat) : Bool := (m.rec8 rc 40).testBit 32
def Mach.recDis (m : Mach) (rc : Nat) : Bool := (m.rec8 rc 40).testBit 33
def Mach.recPar (m : Mach) (rc t : Nat) : Nat := lagOf t (m.recRtag0 rc) % 2

/-- CUR, HELD and DIS. -/
def Mach.setCur (m : Mach) (rc cur : Nat) (held dis : Bool) : Mach :=
  m.writeNat .dev (rc + 40) 8 (cur + 2 ^ 32 * boolNat held + 2 ^ 33 * boolNat dis)

/-- A parity's word: TAG, RST, RELCNT, ARRCNT. -/
structure Par where
  tag : Nat
  rst : Nat
  rel : Nat
  arr : Nat
  deriving DecidableEq, Repr

def Mach.par (m : Mach) (rc p : Nat) : Par :=
  let x := m.rec8 rc (80 + 8 * p)
  ⟨nfld x 63 32, nfld x 31 29, nfld x 28 16, nfld x 12 0⟩

def Mach.setPar (m : Mach) (rc p : Nat) (x : Par) : Mach :=
  m.writeNat .dev (rc + 80 + 8 * p) 8 (x.tag * 2 ^ 32 + x.rst * 2 ^ 29 + x.rel * 2 ^ 16 + x.arr)

/-- Add one to a saturating 32-bit count. -/
def Mach.bump32 (m : Mach) (a : Nat) : Mach := m.writeNat .dev a 4 (min (m.readNat .dev a 4 + 1) (2 ^ 32 - 1))

/-! ## Applying meeting letters (R221) -/

/-- A member is too late: it is cut off and the letter counts as dead. -/
def Mach.meetDead (m : Mach) (g : Meeting) (mem : Nat) : Mach :=
  let a := g.mem + 16 * mem + 8
  let x := m.readNat .dev a 8
  let x := x - nfld x 55 32 * 2 ^ 32 + min (nfld x 55 32 + 1) (2 ^ 24 - 1) * 2 ^ 32
  let x := if x.testBit 56 then x else x + 2 ^ 56
  (m.writeNat .dev a 8 x).bump32 (g.record + 96)

/-- Begin to open round t: its parity is clearing. -/
def Mach.beginOpen (m : Mach) (rc t : Nat) : Mach :=
  let p := m.recPar rc t
  (m.setPar rc p ⟨t, 3, 0, 0⟩).writeNat .dev (rc + 48 + 16 * p) 16 0

/-- Close round c. -/
def Mach.closeRound (m : Mach) (rc c : Nat) : Mach :=
  let p := m.recPar rc c
  let m := m.setPar rc p { m.par rc p with rst := 2 }
  let m := m.setCur rc c true false
  if (m.par rc (1 - p)).rst = 0 then m.beginOpen rc (tagAdd c 1) else m

/-- MREL at the home. -/
def Mach.release (m : Mach) (rc nc t : Nat) : Nat × Mach :=
  let p := m.recPar rc t
  let x := m.par rc p
  if x.rst ≠ 2 ∨ x.tag ≠ t then (2, m)
  else if x.rel + 1 = nc then
    let m := m.setPar rc p { x with rel := x.rel + 1, rst := 0 }
    let next := tagAdd (m.recCur rc) 1
    (0, if m.recHeld rc ∧ m.recPar rc next = p then m.beginOpen rc next else m)
  else (0, m.setPar rc p { x with rel := x.rel + 1 })

/-- A member's entry: the fields the rules change. -/
def Mach.setAtag (m : Mach) (g : Meeting) (mem t : Nat) : Mach := m.writeNat .dev (g.mem + 16 * mem) 4 t
def Mach.setPtag (m : Mach) (g : Meeting) (mem t : Nat) : Mach := m.writeNat .dev (g.mem + 16 * mem + 4) 4 t

/-- Clear LAG. -/
def Mach.rejoin (m : Mach) (g : Meeting) (mem : Nat) : Mach :=
  let a := g.mem + 16 * mem + 8
  let x := m.readNat .dev a 8
  if x.testBit 56 then m.writeNat .dev a 8 (x - 2 ^ 56) else m

/-- MPOST at the home: round c open, lag d. -/
def Mach.post (m : Mach) (die : Nat) (g : Meeting) (l : Letter) (c d w : Nat) : Nat × Mach :=
  let i := if m.recPar g.record c = 0 then g.acc0 else g.acc1
  match Sparse.get none (m.die die).regions i with
  | none => (2, m)
  | some r =>
    if (r.limit - r.base) / 16 ≤ l.elem.toNat then (2, m)
    else if r.stepEn && decide (r.stepTag ≠ l.step) then (0, m.modRegion die i fun r => { r with stale := satInc r.stale })
    else
      let m := m.landWx r (r.base + 16 * l.elem.toNat) ((fmtOf l.ty.toNat).decode l.data.toNat) (l.ush.toNat + w * d)
      let mem := l.member.toNat
      if d = 0 then (0, m.setPtag g mem c)
      else
        let m := m.bump32 (g.record + 100)
        let t := l.rtag.toNat
        if m.readNat .dev (g.mem + 16 * mem + 4) 4 = t then
          let a := g.mem + 16 * mem + 8
          let x := m.readNat .dev a 8 / 2 ^ 32
          let x := if x.testBit 25 then x else x + 2 ^ 25
          (0, m.writeNat .dev a 8 (t + 2 ^ 32 * x))
        else (0, m)

/-- Add a weight to a weight sum; a sum beyond 2^127 - 1, which the spec gives no value, becomes free (log 13). -/
def Mach.addWeight (m : Mach) (a : Nat) (n : Int) : Mach :=
  let s := sval 128 (m.readNat .dev a 16) + n
  if s ≤ intHi true 128 then m.writeNat .dev a 16 (wrapInt 128 s)
  else
    let (k1, m) := m.draw
    let (k2, m) := m.draw
    m.writeNat .dev a 16 ((Config.word k1).toNat + 2 ^ 64 * (Config.word k2).toNat)

/-- MARR at the home. -/
def Mach.arrived (m : Mach) (g : Meeting) (l : Letter) (c d w k : Nat) : Mach :=
  let mem := l.member.toNat
  let t := l.rtag.toNat
  let e := lagOf t (m.readNat .dev (g.mem + 16 * mem) 4)
  if e = 0 ∨ 2 ^ 31 ≤ e then m
  else
    let m := m.setAtag g mem t
    let p := m.recPar g.record c
    let m := match placeOn 128 (.fin false 1 0) (w * d) (-120) with
      | .num n => m.addWeight (g.record + 48 + 16 * p) n
      | _ => m
    if d = 0 then
      let x := m.par g.record p
      let m := m.setPar g.record p { x with arr := x.arr + 1 }
      if x.arr + 1 = k then m.closeRound g.record c else m
    else m

/-- Apply a meeting letter (R221). -/
def Mach.applyMeeting (m : Mach) (l : Letter) : Nat × Mach :=
  let pa := l.tpa.toNat
  let die := homeDie pa
  match (m.die die).table.findSome? fun p => p.2.meeting.bind fun g => if g.record = pa then some (p.2, g) else none with
  | none => (2, m)
  | some (r, g) =>
    let m := (m.expose 0xFF die pa 128).expose 0xFF die (g.mem + 16 * l.member.toNat) 16
    let x := m.rec8 pa 24
    let nc := nfld x 52 40
    let lim := nfld x 35 32
    let w := nfld x 39 36
    let t := l.rtag.toNat
    let mem := l.member.toNat
    if (r.secure || m.secureRange pa 128) && !l.world then (3, m)
    else if l.op = 0x12 then m.release pa nc t
    else if g.n ≤ mem then (4, m)
    else if m.recHeld pa then (1, m)
    else
      let c := m.recCur pa
      let d := lagOf c t
      let lag := (m.readNat .dev (g.mem + 16 * mem + 8) 8).testBit 56
      if 2 ^ 31 ≤ d then (if t = tagAdd c 1 then (1, m) else (0, m.meetDead g mem))
      else if lim < d ∨ (lag = true ∧ d ≠ 0) then (0, m.meetDead g mem)
      else
        let m := if d = 0 then m.rejoin g mem else m
        if l.op = 0x10 then m.post die g l c d w else (0, m.arrived g l c d w (nfld x 28 16))

/-- Zero a span of device memory. -/
def Mach.zeroSpan (m : Mach) (a n : Nat) : Mach :=
  { m with dev := m.dev.filter fun p => decide (p.1 < a ∨ a + n ≤ p.1) }

/-- MEETING_CLEAR_COMPLETE (R221): the clearing round opens. -/
def execMeetingClearComplete (die idx : Nat) (s : State) : Host.Outcome State Fault Refusal :=
  let m := s.mach
  match (Sparse.get none (m.die die).regions idx).bind Region.meeting with
  | none => .next s
  | some g =>
    match [0, 1].find? fun p => decide ((m.par g.record p).rst = 3) with
    | none => .next s
    | some p =>
      let x := m.par g.record p
      match Sparse.get none (m.die die).regions (if p = 0 then g.acc0 else g.acc1) with
      | none => .next s
      | some r =>
        let m := m.zeroSpan r.base (r.limit - r.base)
        let m := r.aux.foldl (fun m a => m.zeroSpan a.1 a.2) m
        .next { s with mach := (m.setPar g.record p { x with rst := 1 }).setCur g.record x.tag false false }

/-! ## Instructions (R218, R219) -/

/-- The encoding of a meeting opcode. -/
def meetForm (fns : List Nat) (useD : Bool) : Form := { fns := fns, useD := useD, useA := true, litB := false }

def meetRule (opc : Nat) (fns : List Nat) (useD : Bool) : Rule where
  opc := opc
  form _ := meetForm fns useD
  opds o := [.s o.a.toNat 2 2] ++ if useD then [.s o.d.toNat 1 1] else []

/-- The record's address, with the literal as displacement. -/
def Ctx.recVa (c : Ctx) : W64 := c.s c.o.a.toNat + memDisp c.o
/-- The tag word (R218). -/
def Ctx.tagWord (c : Ctx) : W64 := c.s (c.o.a.toNat + 1)
def Ctx.tagBad (c : Ctx) : Bool := decide (fld c.tagWord 63 44 ≠ 0)
def Ctx.roundTag (c : Ctx) : Nat := fld c.tagWord 31 0
def Ctx.memberNo (c : Ctx) : Nat := fld c.tagWord 43 32

/-- OPERAND for a bad tag word or a member beyond N. -/
def Ctx.tagTrap (c : Ctx) : Trap := c.trap clsOperand 0x2E

def Ctx.recAccess (c : Ctx) (w local' : Bool) : Access :=
  ⟨c.recVa, 128, 128, !w || local', w, false, false, if local' then .record else .letter, .denied 0x24⟩

/-- A condition held by the lanes that take part. -/
def Ctx.actLanes (c : Ctx) (va : W64) (cause : Nat) : List Cond := (laneList c.act).map fun l => condOf l va cause

def mpostRule : Rule where
  opc := 0x89
  form _ := { meetForm [0] true with useB := true, modBits := 0x1FA0, mask := 1, tys := [4, 6, 7] }
  opds o := [vOpd (typeOf o 4) o.d.toNat, .s o.a.toNat 2 2, .v o.b.toNat 1 1]

/-- MPOST (R224). -/
def execMpost (o : Opn) (s : State) : Host.Outcome State Fault Refusal :=
  issue mpostRule o s fun c m =>
    if c.tagBad then .trap m c.tagTrap
    else if c.act = 0 then .done m
    else
      match m.check c.agent (c.recAccess true false) with
      | (.error e, m) => c.resolve m (c.actLanes c.recVa e) true
      | (.ok ps, m) =>
        if c.counterFull 4 then .hold
        else
          let ty := typeOf o 4
          let mk := fun l => { c.letter with
            op := 0x10, ty := .ofNat 4 ty, sz := .ofNat 3 (szOfTy ty), ush := .ofNat 6 (remUsh o)
            data := .ofNat 64 (c.elem ty o.d.toNat l), rtag := .ofNat 32 c.roundTag, member := .ofNat 12 c.memberNo
            elem := c.v o.b.toNat l }
          let (id, m) := m.count c.key 4
          .done ((laneList c.act).foldl (fun m l =>
            c.post m id (mk l) (onePiece ps) c.recVa none [(c.recVa.toNat, 128)]) m)

/-- The bundle's remote and mem counters are zero and its loads have returned (R225). -/
def Ctx.quiet (c : Ctx) (m : Mach) : Bool :=
  decide (c.b.count 4 = 0 ∧ c.b.count 1 = 0) && !(m.ops.any fun x => decide (x.key = c.key) && !x.counted)

/-- MARR and MREL: one letter, after everything older (R225). -/
def meetSend (opc op : Nat) (member : Bool) (o : Opn) (s : State) : Host.Outcome State Fault Refusal :=
  issue (meetRule opc [0] false) o s fun c m =>
    if c.tagBad then .trap m c.tagTrap
    else
      match m.check c.agent (c.recAccess true false) with
      | (.error e, m) => c.resolve m (c.everyLane c.recVa e) true
      | (.ok ps, m) =>
        if !c.quiet m then .hold
        else
          let l := { c.letter with
            op := .ofNat 8 op, sz := 3, rtag := .ofNat 32 c.roundTag, member := if member then .ofNat 12 c.memberNo else 0 }
          let (id, m) := m.count c.key 4
          .done (c.post m id l (onePiece ps) c.recVa none [(c.recVa.toNat, 128)])

def execMarr (o : Opn) (s : State) : Host.Outcome State Fault Refusal := meetSend 0x8A 0x11 true o s
def execMrel (o : Opn) (s : State) : Host.Outcome State Fault Refusal := meetSend 0x8D 0x12 false o s

/-! ## Reading a round (R226, R227) -/

/-- The parity that holds a tag. -/
def Mach.holding (m : Mach) (rc t : Nat) : Option (Nat × Par) :=
  [0, 1].findSome? fun p => let x := m.par rc p; if x.tag = t ∧ x.rst ≠ 0 then some (p, x) else none

/-- STATE, ARRCNT and RELCNT of a round. -/
def Mach.roundState (m : Mach) (rc t : Nat) : Nat × Nat × Nat :=
  if m.recDis rc then (5, 0, 0)
  else
    match m.holding rc t with
    | some (_, x) => (x.rst, x.arr, x.rel)
    | none => (if 2 ^ 31 ≤ lagOf (m.recCur rc) t then 0 else 4, 0, 0)

/-- The round status word. -/
def Mach.roundWord (m : Mach) (rc t : Nat) : W64 :=
  let (st, a, r) := m.roundState rc t
  .ofNat 64 (st * 2 ^ 61 + a * 2 ^ 32 + r * 2 ^ 16)

def Mach.roundDone (m : Mach) (rc t : Nat) : Bool := [2, 4, 5].contains (m.roundState rc t).1

/-- MWAIT (R226). -/
def execMwait (o : Opn) (s : State) : Host.Outcome State Fault Refusal :=
  issue (meetRule 0x8B [0, 1] true) o s fun c m =>
    if c.tagBad then .trap m c.tagTrap
    else
      match m.check c.agent (c.recAccess false true) with
      | (.error e, m) => c.resolve m (c.everyLane c.recVa e) false
      | (.ok ps, m) =>
        let rc := (onePiece ps).addr
        if m.mustWait c.key c.grp .dev rc 128 then .wait m c.grp
        else
          let m := m.expose (c.core % 96) c.die rc 128
          if o.fn = 1 ∨ m.roundDone rc c.roundTag = true then .done (c.setS m o.d.toNat (m.roundWord rc c.roundTag))
          else c.park m (.meeting o.d.toNat rc (.ofNat 32 c.roundTag))

/-- MWAIT_WAKE (R226). -/
def execMwaitWake (b l : Nat) (s : State) : Host.Outcome State Fault Refusal :=
  wakeStep b l s fun m w seq =>
    match w with
    | .meeting d rc t =>
      let m := m.expose 0xFF (homeDie rc) rc 128
      if m.roundDone rc t.toNat then
        some (m.modBundle b fun k => (k.wake seq false).modRegs fun r => r.setS d (m.roundWord rc t.toNat))
      else none
    | _ => none

/-- The open meeting at a record. -/
def Mach.meetingAt (m : Mach) (die rc : Nat) : Option (Nat × Meeting) :=
  (m.die die).table.findSome? fun p => p.2.meeting.bind fun g => if g.record = rc then some (p.1, g) else none

/-- Where a member's entry lies: in the meeting's table, or, with none open, at MEMBASE translated now (R430). -/
def Ctx.memberEntry (c : Ctx) (m : Mach) (rc : Nat) : Except (W64 × Nat) Nat × Mach :=
  match m.meetingAt c.die rc with
  | some (_, g) => (.ok (g.mem + 16 * c.memberNo), m)
  | none =>
    let va := m.read64 .dev (rc + 16) + BitVec.ofNat 64 (16 * c.memberNo)
    match m.check c.agent ⟨va, 16, 16, true, false, false, false, .local_, .denied 0x24⟩ with
    | (.error e, m) => (.error (va, e), m)
    | (.ok ps, m) => (.ok (onePiece ps).addr, m)

/-- MSTAT (R227, R430). -/
def execMstat (o : Opn) (s : State) : Host.Outcome State Fault Refusal :=
  issue (meetRule 0x8C [0, 1, 2] true) o s fun c m =>
    if c.tagBad then .trap m c.tagTrap
    else
      match m.check c.agent (c.recAccess false true) with
      | (.error e, m) => c.resolve m (c.everyLane c.recVa e) false
      | (.ok ps, m) =>
        let rc := (onePiece ps).addr
        if m.mustWait c.key c.grp .dev rc 128 then .hold
        else
          let m := m.expose (c.core % 96) c.die rc 128
          if o.fn = 0 then .done (c.setS m o.d.toNat (m.roundWord rc c.roundTag))
          else if o.fn = 1 then
            let x := match m.holding rc c.roundTag with
              | some (p, _) => (fmtF64.deliver 0 false (valOfInt false (sval 128 (m.readNat .dev (rc + 48 + 16 * p) 16)) (-120))).1
              | none => fmtF64.nanBits
            .done (c.setS m o.d.toNat (.ofNat 64 x))
          else if nfld (m.rec8 rc 24) 12 0 ≤ c.memberNo then .trap m c.tagTrap
          else
            match c.memberEntry m rc with
            | (.error (va, e), m) => c.resolve m (c.everyLane va e) false
            | (.ok a, m) =>
              if m.mustWait c.key c.grp .dev a 16 then .hold
              else
                let (x, m) := m.readNatLogged (c.core % 96) c.die .dev (a + 8) 8
                .done (c.setS m o.d.toNat (.ofNat 64 x))

/-! ## MOPEN and MCLOSE (R223, R228) -/

/-- A record field outside its range, a reserved field that is not zero, or ACC0 equal to ACC1 (R223, first in order). The reserved fields
are all those of R215's table, which software must write as zero (R3). -/
def recordBad (d : List Byte) : Bool :=
  let x := fieldAt d 24 8
  let n := nfld x 12 0
  let k := nfld x 28 16
  let nc := nfld x 52 40
  decide (n = 0 ∨ 4096 < n ∨ k = 0 ∨ n < k ∨ nc = 0 ∨ 4096 < nc ∨ nfld x 15 13 ≠ 0 ∨ nfld x 31 29 ≠ 0 ∨ nfld x 63 53 ≠ 0
    ∨ fieldAt d 36 4 ≠ 0 ∨ fieldAt d 16 8 % 16 ≠ 0 ∨ fieldAt d 0 8 = fieldAt d 8 8 ∨ nfld (fieldAt d 40 8) 63 34 ≠ 0
    ∨ nfld (fieldAt d 80 8) 15 13 ≠ 0 ∨ nfld (fieldAt d 88 8) 15 13 ≠ 0 ∨ fieldAt d 104 24 ≠ 0)

/-- The accumulator region of this die with a BASE. -/
def Ctx.accRegion (c : Ctx) (m : Mach) (va : Nat) : Option (Nat × Region) × Mach :=
  match c.localSpan m va 1 with
  | (none, m) => (none, m)
  | (some ps, m) => ((m.die c.die).table.find? fun p => decide (p.2.kind = 1 ∧ p.2.base = (onePiece ps).addr), m)

/-- Set the owner of a region. -/
def Mach.ownRegion (m : Mach) (die i : Nat) (w : Option Nat) : Mach := m.modRegion die i fun r => { r with owner := w }

/-- Install a meeting: its table entry, its members, its record, and the first clear (R223). -/
def Ctx.install (c : Ctx) (m : Mach) (rc mem n i i0 i1 : Nat) : Mach :=
  let m := m.modDie c.die fun x => { x with regions := Sparse.put none x.regions i (some
    ⟨rc, rc + 128, 3, false, 0, 0, [], [], 0, 0, 0, c.g.world, none, some ⟨rc, mem, n, i0, i1⟩⟩) }
  let m := (m.ownRegion c.die i0 (some i)).ownRegion c.die i1 (some i)
  let t0 := m.recRtag0 rc
  let old := lagOf t0 1
  let m := (List.range n).foldl (fun m k => m.writeBytes .dev (mem + 16 * k) (leBytes 4 old ++ leBytes 4 old ++ leBytes 4 old ++ leBytes 4 0)) m
  let x := m.rec8 rc 24
  let m := if c.o.fn = 0 then m.writeNat .dev (rc + 24) 8 (x - nfld x 39 32 * 2 ^ 32 + 0x11 * 2 ^ 32) else m
  let m := m.writeBytes .dev (rc + 48) (List.replicate 80 0)
  ((m.setCur rc old true false).setPar rc 1 ⟨old, 0, 0, 0⟩).beginOpen rc t0

/-- The outcome of MOPEN, in R223's order of causes. -/
def Ctx.mopen (c : Ctx) (m : Mach) (rc : Nat) (d : List Byte) : W64 × Mach :=
  let n := nfld (fieldAt d 24 8) 12 0
  if recordBad d then (errWord 3, m)
  else
    match c.localSpan m (fieldAt d 16 8) (16 * n) with
    | (none, m) => (errWord 4, m)
    | (some ps, m) =>
      let mem := (onePiece ps).addr
      let (r0, m) := c.accRegion m (fieldAt d 0 8)
      let (r1, m) := c.accRegion m (fieldAt d 8 8)
      if ps.length ≠ 1 then (errWord 7, m)
      else
        match r0, r1 with
        | some (i0, r0), some (i1, r1) =>
          if r0.owner.isSome || r1.owner.isSome then (errWord 8, m)
          else if (r0.secure || r1.secure) && !c.g.world then (errWord 6, m)
          else if r0.limit - r0.base ≠ r1.limit - r1.base ∨ i0 = i1 then (errWord 3, m)
          else if m.inRegion rc 128 || m.inRegion mem (16 * n) then (errWord 2, m)
          else
            match (m.die c.die).freeRegion with
            | none => (errWord 1, m)
            | some i => (.ofNat 64 i, c.install m rc mem n i i0 i1)
        | _, _ => (errWord 5, m)

/-- MOPEN and MCLOSE: held until the mem counter is zero, then one step on the region table. -/
def meetTable (opc : Nat) (fns : List Nat) (act : Ctx → Mach → Nat → W64 × Mach) (o : Opn) (s : State) :
    Host.Outcome State Fault Refusal :=
  issue (meetRule opc fns true) o s fun c m =>
    match m.check c.agent (c.recAccess true true) with
    | (.error e, m) => c.resolve m (c.everyLane c.recVa e) true
    | (.ok ps, m) =>
      if c.b.count 1 ≠ 0 ∨ m.threadBusy c.key c.grp .dev = true then .hold
      else
        let (x, m) := act c m (onePiece ps).addr
        .done (c.setS m o.d.toNat x)

def execMopen (o : Opn) (s : State) : Host.Outcome State Fault Refusal :=
  meetTable 0x88 [0, 1] (fun c m rc =>
    let m := m.expose (c.core % 96) c.die rc 128
    c.mopen m rc (m.readBytes .dev rc 128)) o s

/-- MCLOSE (R228). -/
def execMclose (o : Opn) (s : State) : Host.Outcome State Fault Refusal :=
  meetTable 0x8E [0] (fun c m rc =>
    match m.meetingAt c.die rc with
    | none => (errWord 5, m)
    | some (i, g) =>
      let m := m.setCur rc (m.recCur rc) (m.recHeld rc) true
      let m := m.modDie c.die fun x => { x with regions := Sparse.put none x.regions i none }
      (0, (m.ownRegion c.die g.acc0 none).ownRegion c.die g.acc1 none)) o s

end Sys2Proof.Machine
end

