-- ==== Sys2Proof/Machine/Team.lean ====
section
/-! DEFINITION. What the members and the engines of a team share: leave of the power desk (R332), mailbags (R326 to R329), the in-tray
(R340), barrier addresses (R324), and the reads of an engine. -/

namespace Sys2Proof.Machine

/-! ## Leave (R332) -/

/-- Leave is held: granted, not given up, and used within the last 4,096 cycles. -/
def Leave.held (v : Leave) (clk : Nat) : Bool := decide (v.st = 2 ∧ clk < v.since + 4096) && !v.rel

def Mach.leaveHeld (m : Mach) (tk : Nat) : Bool := (m.team tk).leave.held m.clk

/-- Ask for leave, unless it is held or already asked for. -/
def Mach.askLeave (m : Mach) (tk : Nat) : Mach :=
  m.modTeam tk fun t =>
    if t.leave.st = 0 ∨ (t.leave.st = 2 ∧ t.leave.rel = false ∧ t.leave.since + 4096 ≤ m.clk) then { t with leave := ⟨1, m.clk, false⟩ }
    else if t.leave.st = 2 ∧ t.leave.rel = true then { t with leave := ⟨3, m.clk, false⟩ }
    else t

/-- An operation that needs leave starts, or a group of one executes: leave that is held lasts on. -/
def Mach.useLeave (m : Mach) (tk : Nat) : Mach :=
  m.modTeam tk fun t => if t.leave.held m.clk then { t with leave := { t.leave with since := m.clk } } else t

def Mach.dropLeave (m : Mach) (tk : Nat) : Mach := m.modTeam tk fun t => { t with leave := ⟨0, 0, false⟩ }

/-! ## Mailbags (R326 to R329) -/

def Team.mail (t : Team) (k : Nat) : Mailbag := Sparse.get Mailbag.none t.mails k
def Team.setMail (t : Team) (k : Nat) (x : Mailbag) : Team := { t with mails := Sparse.put Mailbag.none t.mails k x }
def Mach.modMail (m : Mach) (tk k : Nat) (f : Mailbag → Mailbag) : Mach := m.modTeam tk fun t => t.setMail k (f (t.mail k))

def Mailbag.canTake (b : Mailbag) : Bool := decide (b.take ≠ b.fill)
def Mailbag.canClaim (b : Mailbag) : Bool := decide ((b.claim - b.free).toNat < b.stages)

/-- The condition of MBWAIT, or of MBWAIT.free. -/
def Mailbag.ready (b : Mailbag) (free : Bool) : Bool := if free then b.canClaim else b.canTake

/-- The count that the service uses: TAKE or CLAIM. -/
def Mailbag.event (b : Mailbag) (free : Bool) : Nat := if free then b.claim.toNat else b.take.toNat

/-- One taken, or one claimed. -/
def Mailbag.serve (b : Mailbag) (free : Bool) : Mailbag := if free then { b with claim := b.claim + 1 } else { b with take := b.take + 1 }

/-- The word of a success: stage, phase and low bits of the count. -/
def Mailbag.word (b : Mailbag) (n : Nat) : W64 := .ofNat 64 (n % b.stages + 16 * (n / b.stages % 2) + 2 ^ 32 * (n % 65536))

/-- A fill by an engine: it never waits, and it claims too when nothing is claimed (R329). A killed team has no mailbags (R381). -/
def Mach.engineFill (m : Mach) (tk k : Nat) : Mach :=
  m.modMail tk k fun b =>
    if b.stages = 0 then b
    else if b.fill = b.claim then { b with claim := b.claim + 1, fill := b.fill + 1, err := true }
    else { b with fill := b.fill + 1 }

/-! ## The in-tray (R340) -/

/-- The source word (R339). -/
def srcWord (unit kind : Nat) : W64 := .ofNat 64 (256 * unit + kind)

/-- An event of an engine or a notice: dropped and counted while the in-tray is full. -/
def Mach.postTray (m : Mach) (core : Nat) (e : Event) : Mach :=
  m.modCore core fun c =>
    if 256 ≤ c.tray.length then { c with drops := satInc c.drops } else { c with tray := c.tray ++ [e] }

/-! ## Barrier addresses (R324) -/

def barAddr (tk : Nat) (gen : W32) (k : Nat) : W64 :=
  .ofNat 64 (gen.toNat * 2 ^ 18 + tk % 128 * 2 ^ 11 + tk / 128 % 96 * 16 + k)

/-- The team that a barrier address names on a die: its key, if the slot is in use and the generation agrees. -/
def Mach.addressed (m : Mach) (die : Nat) (a : W64) : Option Nat :=
  let core := fld a 10 4
  let tk := (die * 96 + core) * 128 + fld a 17 11
  if 96 ≤ core ∨ fld a 63 50 ≠ 0 then none
  else
    match m.team? tk with
    | some t => if t.gen.toNat = fld a 49 18 ∧ t.killed = false then some tk else none
    | none => none

/-! ## Engines -/

/-- The agent that an engine, by its unit number, acts as for a team. -/
def Mach.engineAgent (m : Mach) (tk asid : Nat) (secure : Bool) (unit : Nat) : Agent :=
  let t := m.team tk
  ⟨asid, dieOfCore (coreOfTeam tk), coreOfTeam tk, secure, t.scr, t.alloc, (m.gridOfTeam tk).det, unit⟩

/-- A page as translated: addresses of one key share it; window addresses go by 2 KiB slots. -/
def pageKey (va : W64) : Nat := if winBase ≤ va.toNat then 2 ^ 61 + va.toNat / 2048 else va.toNat / 65536
def pageOff (va : W64) : Nat := va.toNat % (if winBase ≤ va.toNat then 2048 else 65536)

/-- Reach the page of an address: its key, and where its first byte lies, or the cause that forbids it. -/
def Mach.reachPage (m : Mach) (ag : Agent) (va : W64) (w : Bool) (home : HomeRule) : Except Nat (Nat × Piece) × Mach :=
  match m.check ag ⟨va, 1, 1, !w, w, false, false, home, .allowed⟩ with
  | (.error e, m) => (.error e, m)
  | (.ok ps, m) =>
    let p := onePiece ps
    (.ok (pageKey va, { p with addr := p.addr - pageOff va }), m)

/-- A fault record of an engine and its FID (R167, R242). -/
def Mach.engineFault (m : Mach) (va : W64) (die unit : Nat) (w : Bool) (asid : Nat) : Nat × Mach :=
  let fid := m.desk.fid
  let m : Mach := { m with desk := { m.desk with fid := fid + 1 } }
  (fid.toNat, m.postFault (faultRecord va 0 die unit true false w asid fid 0))

end Sys2Proof.Machine
end

