-- ==== Sys2Proof/Machine/Copy.lean ====
section
/-! DEFINITION. Asynchronous copies (R230 to R250): CPY and CPYM, the engines, completion, completion rings, CPOLL and CSLEEP. -/

namespace Sys2Proof.Machine

/-! ## The tensor layout record (R232, R233) -/

def cpCtl (d : List Byte) : Nat := fieldAt d 8 8
def cpRank (d : List Byte) : Nat := nfld (cpCtl d) 2 0
def cpEsize (d : List Byte) : Nat := 2 ^ nfld (cpCtl d) 5 3
def cpDir (d : List Byte) : Nat := nfld (cpCtl d) 7 6
def cpSwz (d : List Byte) : Nat := nfld (cpCtl d) 11 10
def cpBarn (d : List Byte) : Nat := nfld (cpCtl d) 30 27

/-- Extent, byte stride and box size of a dimension; one beyond RANK has extent 1 and box 1. -/
def cpExt (d : List Byte) (k : Nat) : Nat := if k < cpRank d then fieldAt d (16 + 4 * k) 4 else 1
def cpStride (d : List Byte) (k : Nat) : Nat := if k = 0 then cpEsize d else 16 * fieldAt d (32 + 4 * k) 4
def cpBox (d : List Byte) (k : Nat) : Nat := fieldAt d (52 + k) 1 + 1

/-- Bytes of the image. -/
def cpSize (d : List Byte) : Nat := cpBox d 0 * cpBox d 1 * cpBox d 2 * cpBox d 3 * cpBox d 4 * cpEsize d

/-- A field of a dimension at or above RANK is not zero. -/
def cpDimBad (d : List Byte) (k : Nat) : Bool :=
  if k < cpRank d then decide (fieldAt d (16 + 4 * k) 4 = 0)
  else decide (fieldAt d (16 + 4 * k) 4 ≠ 0 ∨ fieldAt d (52 + k) 1 ≠ 0 ∨ (k ≠ 0 ∧ fieldAt d (32 + 4 * k) 4 ≠ 0))

/-- A malformed record (R233). -/
def cpBad (multicast : Bool) (d : List Byte) : Bool :=
  let x := cpCtl d
  let y := fieldAt d 56 8
  decide (nfld x 63 31 ≠ 0 ∨ nfld x 23 19 ≠ 0 ∨ nfld x 15 15 ≠ 0 ∨ nfld x 13 12 = 3 ∨ 2 ≤ nfld x 9 8 ∨ nfld x 7 6 = 3
    ∨ nfld x 5 3 > 4 ∨ cpRank d = 0 ∨ 5 < cpRank d ∨ nfld y 15 9 ≠ 0 ∨ nfld y 63 32 ≠ 0 ∨ 2 ^ 32 < cpSize d
    ∨ (cpSwz d ≠ 0 ∧ (cpDir d = 2 ∨ cpSize d % 128 ≠ 0)) ∨ (nfld y 8 8 = 0 ∧ nfld y 31 16 ≠ 0))
  || (if multicast then decide (cpDir d ≠ 0) else decide (cpBarn d ≠ 0))
  || (List.range 5).any (cpDimBad d)

/-- Swz (R235). -/
def swizzle (swz o : Nat) : Nat :=
  if swz = 0 then o
  else
    let u := 2 ^ (swz + 1)
    let p := 128 / u
    128 * (o / 128) + u * ((o % 128 / u + o / 128) % p) + o % u

/-! ## Issue (R237 to R239) -/

/-- The leader: the lowest lane of Active() whose guard holds. -/
def Ctx.leader (c : Ctx) : Option Nat :=
  let p := c.b.regs.getP (fld c.o.mods 12 9)
  (laneList (c.grp &&& (if bitAt c.o.mods 8 then ~~~p else p))).head?

/-- The encoding of CPY and CPYM. A register field beyond its kind raises OPERAND whether or not there is a leader (R27); that D + 1 names
a register is asked of a leader (R239; log 39). -/
def cpyRule (opc : Nat) : Rule where
  opc := opc
  form o :=
    { modBits := 0x1F80, litB := false
      useA := true, useB := true, useC := true, useD := bitAt o.mods 7 }
  opds o := [.s o.a.toNat 1 1, .s o.b.toNat 1 1, .s o.c.toNat 1 1] ++ if bitAt o.mods 7 then [.s o.d.toNat 1 1] else []
  held c := c.leader.isNone || !bitAt c.o.mods 7 || (Opd.s c.o.d.toNat 2 1).ok c

/-- Copies that hold an entry of the core's queue, and whether an entry is free: a shared one (false) or one of the team's
reservation (true) (R230). -/
def Mach.copyEntry (m : Mach) (core tk : Nat) : Option Bool :=
  let here := m.copies.filter fun x => decide (coreOfKey x.key = core)
  let residents := (m.teams.filter fun p => decide (coreOfTeam p.1 = core) && p.2.isSome).length
  if 320 ≤ here.length then none
  else if (here.filter fun x => !x.resv).length < 320 - 2 * residents then some false
  else if (here.filter fun x => x.resv && decide (x.team = tk)).length < 2 then some true
  else none

/-- The ring that a copy names: team offset of its header. -/
def ringOf (d : List Byte) (cw : Bool) (ctl : W64) : Option Nat :=
  if cw && bitAt ctl 34 then some (fld ctl 50 35 * 64)
  else if nfld (fieldAt d 56 8) 8 8 = 1 then some (nfld (fieldAt d 56 8) 31 16 * 64) else none

/-- A ring header, at a scratchpad key: LOG2N, SLOTS, TAIL, HEAD. -/
def Mach.ringHead (m : Mach) (a : Nat) : Nat × Nat × Nat × Nat :=
  (nfld (m.readNat .scratch a 8) 36 32, m.readNat .scratch a 4, m.readNat .scratch (a + 8) 8, m.readNat .scratch (a + 16) 8)

/-- The header that lies at an offset, as the leader reads it, and the slots it names lie within the allocation. -/
def Ctx.ringFits (c : Ctx) (m : Mach) (l off : Nat) : Bool :=
  if c.tm.alloc < off + 64 then false
  else
    let h := c.scratchRead m l off 8
    decide (fieldAt h 0 4 + 16 * 2 ^ nfld (fieldAt h 0 8) 36 32 ≤ c.tm.alloc)

/-- The scratchpad checks of R239, in its order: alignment of the image (log 20), its span, the ring. -/
def Ctx.copyFits (c : Ctx) (m : Mach) (l : Nat) (d : List Byte) (ring : Option Nat) : Option (Nat × Nat) :=
  let off := (c.s c.o.c.toNat).toNat
  if off % cpEsize d ≠ 0 ∨ (cpSwz d ≠ 0 ∧ off % 128 ≠ 0) then some (clsAlign, 0x10)
  else if cpDir d ≠ 2 ∧ c.tm.alloc < off + cpSize d then some (clsXlate, 0x02)
  else match ring with
    | some r => if c.ringFits m l r then none else some (clsXlate, 0x02)
    | none => none

/-- A condition held by the leader. -/
def Ctx.leads (c : Ctx) (l cls cause : Nat) (va : W64) : Trap := c.trapWith cls cause [⟨l, cls, cause, va, 0⟩]

/-- The receivers of a CPYM: teams of the last phase, with their generations, and the bits of those skipped (R249). -/
def Ctx.receivers (c : Ctx) (m : Mach) (d : List Byte) : List (Nat × W32) × Nat :=
  let rs := (c.tm.bar (cpBarn d)).last.map fun tk => (tk, (m.team tk).gen)
  let off := (c.s c.o.c.toNat).toNat
  let bits := rs.mapIdx fun i r => if (m.team r.1).alloc < off + cpSize d then 2 ^ i else 0
  (rs, bits.foldl (· + ·) 0)

/-- Queue a copy that has passed its checks (R238, R239). -/
def Ctx.queueCopy (c : Ctx) (m : Mach) (multicast : Bool) (d : List Byte) (ring : Option Nat) (arr : Option (Piece × W64)) (resv : Bool)
    (l : Nat) : Mach :=
  let cw := bitAt c.o.mods 7
  let ctl := if cw then c.s c.o.d.toNat else 0
  let seq := c.tm.copySeq + 1
  let m := m.modTeam c.tk fun t => { t with copySeq := seq }
  let (id, m) := m.count c.key 0
  let rs := if multicast then c.receivers m d else ([], 0)
  let coords := (List.range (cpRank d)).map fun k => BitVec.ofNat 32 ((c.s (c.o.b.toNat + k / 2)).toNat / 2 ^ (32 * (k % 2)))
  { m with copies := m.copies ++ [
    { id := id, key := c.key, team := c.tk, out := id, multicast := multicast, desc := d, coords := coords, c := c.s c.o.c.toNat
      tag := if cw then ctl.setWidth 32 else seq, noRec := bitAt ctl 33
      arr := arr.map fun x => BitVec.ofNat 64 ((x.1.pkg.getD m.pkg) * 2 ^ 40 + x.1.addr), arrVa := (arr.map fun x => x.2).getD 0
      ring := ring, stepTag := c.b.regs.stepTag, world := c.g.world, asid := c.g.asid, st := 0, engine := 0, f := 0, status := 0
      fault := 0, faultVa := 0, fid := none, started := false, arrived := false, recv := rs.1, skip := rs.2, resv := resv, lane := l }] }

/-- The register fields and the record of a copy pass (R239): the cause of the first check that fails. -/
def Ctx.recordBad (c : Ctx) (multicast : Bool) (d : List Byte) : Option (Nat × Nat) :=
  let x := fld (BitVec.ofNat 64 (cpCtl d)) 26 24
  let ctl := if bitAt c.o.mods 7 then c.s c.o.d.toNat else 0
  if 128 < c.o.b.toNat + (cpRank d + 1) / 2 then some (clsOperand, 0x63)
  else if cpBad multicast d || decide (fld ctl 63 51 ≠ 0 ∨ (bitAt ctl 32 = false ∧ bitAt c.o.mods 7 = true ∧ c.s (c.o.d.toNat + 1) ≠ 0)) then
    some (clsOperand, 0x27)
  else if nfld (cpCtl d) 17 17 = 1 ∧ (c.tm.mail x).stages = 0 then some (clsRole, 0x66)
  else none

/-- CPY and CPYM (R237 to R239). -/
def copyOp (opc : Nat) (multicast : Bool) (o : Opn) (s : State) : Host.Outcome State Fault Refusal :=
  issue (cpyRule opc) o s fun c m =>
    match c.leader with
    | none => .done m
    | some l =>
      let va := c.s o.a.toNat
      match m.check c.agent ⟨va, 64, 64, true, false, false, false, .local_, .allowed⟩ with
      | (.error e, m) => c.resolve m [condOf l va e] false
      | (.ok ps, m) =>
        if m.mustWait c.key (laneBit l) (onePiece ps).space (onePiece ps).addr 64 then .hold
        else
          let (d, m) := c.takeOwn m l ps
          let ring := ringOf d (bitAt o.mods 7) (c.s o.d.toNat)
          if ring.any fun r => m.mustWait c.key (laneBit l) .scratch (c.tm.phys c.core r) 64 then .hold
          else
            match c.recordBad multicast d, c.copyFits m l d ring with
            | some (cls, cause), _ => .trap m (c.trap cls cause)
            | none, some (cls, cause) => .trap m (c.leads l cls cause 0)
            | none, none =>
              let wantArr := bitAt o.mods 7 && bitAt (c.s o.d.toNat) 32
              let ava := c.s (o.d.toNat + 1)
              let (r, m) : Except Nat (Option (Piece × W64)) × Mach :=
                if wantArr then
                  match m.check c.agent ⟨ava, 8, 8, false, true, false, false, .letter, .denied 0x24⟩ with
                  | (.error e, m) => (.error e, m)
                  | (.ok qs, m) => (.ok (some (onePiece qs, ava)), m)
                else (.ok none, m)
              match r with
              | .error e => c.resolve m [condOf l ava e] true
              | .ok arr =>
                match (if c.counterFull 0 then none else m.copyEntry c.core c.tk) with
                | none => .hold
                | some resv => .done (c.queueCopy m multicast d ring arr resv l)

def execCpy (o : Opn) (s : State) : Host.Outcome State Fault Refusal := copyOp 0x90 false o s
def execCpym (o : Opn) (s : State) : Host.Outcome State Fault Refusal := copyOp 0x91 true o s

/-! ## Dispatch to the engines (R231, R243) -/

def Mach.modCopy (m : Mach) (id : Nat) (f : Copy → Copy) : Mach :=
  { m with copies := m.copies.map fun x => if x.id = id then f x else x }

/-- Copies in hand of an engine of a die. -/
def Mach.inHand (m : Mach) (die e : Nat) : Nat :=
  (m.copies.filter fun x => decide (dieOfCore (coreOfKey x.key) = die ∧ x.st ≠ 0 ∧ x.engine = e)).length

/-- The engine with the fewest copies in hand, the lower of equals. -/
def Mach.leastEngine (m : Mach) (die : Nat) : Nat :=
  (List.range 8).foldl (fun b e => if m.inHand die e < m.inHand die b then e else b) 0

/-- COPY_DISPATCH (R231): an engine works on up to 16 copies; one over 64 KiB asks for leave (R243). -/
def execCopyDispatch (core : Nat) (s : State) : Host.Outcome State Fault Refusal :=
  let m := s.mach
  match m.copies.find? fun x => decide (coreOfKey x.key = core ∧ x.st = 0) with
  | none => .next s
  | some x =>
    let e := m.leastEngine (dieOfCore core)
    if 16 ≤ m.inHand (dieOfCore core) e then .next s
    else
      let m := m.modCopy x.id fun x => { x with st := 1, engine := e }
      .next { s with mach := if 65536 < cpSize x.desc then m.askLeave x.team else m }

/-! ## Moving the image (R234 to R242) -/

/-- Index vector of image element e, by dimension. -/
def Copy.idx (x : Copy) (e k : Nat) : Int :=
  let below := (List.range k).foldl (fun n j => n * cpBox x.desc j) 1
  sval 32 ((x.coords.getD k 0).toNat) + ((e / below % cpBox x.desc k : Nat) : Int)

/-- The memory address of image byte o, if its element is in bounds. -/
def Copy.memVa (x : Copy) (o : Nat) : Option W64 :=
  let e := o / cpEsize x.desc
  let dims := List.range (cpRank x.desc)
  if dims.all fun k => decide (0 ≤ x.idx e k ∧ x.idx e k < (cpExt x.desc k : Int)) then
    some (BitVec.ofInt 64 ((fieldAt x.desc 0 8 : Int) + dims.foldl (fun n k => n + x.idx e k * (cpStride x.desc k : Int)) 0
      + ((o % cpEsize x.desc : Nat) : Int)))
  else none

/-- Where an image byte comes from. -/
inductive CopySrc where
  | fill (b : Byte)
  | scratch (off : Nat)
  | mem (va : W64)
  deriving DecidableEq, Repr

/-- Where an image byte goes; nowhere for an element out of bounds of DIR 01 and 10. -/
inductive CopyDst where
  | nowhere
  | scratch (off : Nat)
  | mem (va : W64)
  deriving DecidableEq, Repr

/-- The scratchpad offset of image byte o. -/
def Copy.scratchOff (x : Copy) (o : Nat) : Nat := x.c.toNat + swizzle (cpSwz x.desc) o

def Copy.src (x : Copy) (o : Nat) : CopySrc :=
  if cpDir x.desc = 1 then .scratch (x.scratchOff o)
  else match x.memVa o with
    | some va => .mem va
    | none => .fill (if nfld (cpCtl x.desc) 9 8 = 1 then 0xFF else 0)

def Copy.dst (x : Copy) (o : Nat) : CopyDst :=
  match cpDir x.desc, x.memVa o with
  | 0, _ => .scratch (x.scratchOff o)
  | _, none => .nowhere
  | 1, some va => .mem va
  | _, some _ => .mem (x.c + BitVec.ofNat 64 o)

/-- The pages that a step has reached: of the source and of the destination. -/
abbrev Reached := Option (Nat × Piece)

/-- One byte of the source: read, or failed with a status and a cause, or beyond the page that the step has reached. -/
inductive Pull where
  | byte (b : Byte)
  | fail (status cause : Nat) (va : W64)
  | later
  deriving DecidableEq, Repr

/-- Read image byte o; `far` lets the step reach a further page of the source. -/
def Mach.pull (m : Mach) (x : Copy) (err far : Bool) (src : Reached) (o : Nat) : Pull × Reached × Mach :=
  match x.src o with
  | .fill b => (.byte b, src, m)
  | .scratch off => (.byte (m.readByte .scratch ((m.team x.team).phys (coreOfTeam x.team) off)), src, m)
  | .mem va =>
    let known := src.filter fun p => decide (p.1 = pageKey va)
    if known = none ∧ src.isSome = true ∧ far = false then (.later, src, m)
    else
      let (r, m) := match known with
        | some p => (Except.ok p, m)
        | none => m.reachPage (m.engineAgent x.team x.asid x.world (96 + x.engine)) va false .local_
      match r with
      | .error e => (.fail 2 (if e = 0x30 then 0x22 else e) va, src, m)
      | .ok p =>
        let a := p.2.addr + pageOff va
        if err || m.damaged p.2.space a 1 then
          (.fail 3 0x40 va, some p, m.logError 1 (96 + x.engine) (dieOfCore (coreOfKey x.key)) a)
        else (.byte (m.readByte p.2.space a), some p, m)

/-- Write a byte to every team that the copy fills; nothing reaches the scratchpad of a killed team (R381) or a team that has gone. -/
def Mach.fillScratch (m : Mach) (x : Copy) (off : Nat) (b : Byte) : Mach :=
  let keys := if x.multicast then (x.recv.mapIdx fun i r => (i, r)).filterMap fun p =>
      if x.skip.testBit p.1 ∨ (m.team p.2.1).gen ≠ p.2.2 then none else some p.2.1
    else [x.team]
  keys.foldl (fun m tk =>
    match m.team? tk with
    | some t => if t.killed then m else m.writeByte .scratch (t.phys (coreOfTeam tk) off) b
    | none => m) m

/-- Bytes of the row that starts at image byte o, at most n of them: consecutive destinations within 256 bytes (R241). -/
def Copy.rowLen (x : Copy) (o : Nat) (va : W64) : Nat → Nat
  | 0 => 0
  | n + 1 =>
    let k := x.rowLen o va n
    if k < n then k
    else if o + n < cpSize x.desc ∧ x.dst (o + n) = .mem (va + BitVec.ofNat 64 n) ∧ va.toNat % 256 + n < 256 then n + 1 else n

/-- Gather the bytes of a row; stop at one that fails. -/
def Mach.pullRow (m : Mach) (x : Copy) (err : Bool) : Nat → Nat → Reached → List Byte → List Byte × Option Pull × Reached × Mach
  | 0, _, src, acc => (acc.reverse, none, src, m)
  | n + 1, o, src, acc =>
    match m.pull x err true src o with
    | (.byte b, src, m) => m.pullRow x err n (o + 1) src (b :: acc)
    | (p, src, m) => (acc.reverse, some p, src, m)

/-- A copy stops, or waits for the host (R242); a lost host link gives STATUS 3 (R399). -/
def Mach.stopCopy (m : Mach) (x : Copy) (status cause : Nat) (va : W64) (w : Bool) : Copy × Mach :=
  if cause = 0x03 then
    let (fid, m) := m.engineFault va (dieOfCore (coreOfKey x.key)) (96 + x.engine) w x.asid
    ({ x with st := 2, fid := some fid, faultVa := va }, m)
  else ({ x with st := 3, status := if cause = 0x41 then 3 else status, fault := cause, faultVa := va }, m)

/-- A row letter (R241): step tag, world and unit of the copy. -/
def Mach.sendRow (m : Mach) (x : Copy) (op : BitVec 8) (pkg pa : Nat) (data : W64) (body : List Byte) (off : Nat) (va : W64) : Mach :=
  let l := { blankLetter with
    op := op, sz := 3, world := x.world && decide (nfld (cpCtl x.desc) 16 16 = 0), step := x.stepTag
    tpkg := .ofNat 14 pkg, tpa := .ofNat 40 pa, data := data, body := body }
  m.sendLetter (dieOfCore (coreOfKey x.key)) (96 + x.engine) l (.copy x.id off) va none x.asid [(va.toNat, max 8 body.length)]

/-- How many of n destination bytes from an address on lie before an open meeting's record or member table (R217). -/
def Mach.beforeMeeting (m : Mach) (p : Piece) (a : Nat) : Nat → Nat
  | 0 => 0
  | n + 1 =>
    let k := m.beforeMeeting p a n
    if k < n ∨ (p.space = .dev ∧ p.pkg = none ∧ m.inMeeting (homeDie (a + n)) (a + n) 1 = true) then k else n + 1

/-- Move image bytes from F on, `n` at most, within one page of the source and one of the destination. A copy stops before the bytes of an
open meeting's record or member table (R217). -/
def Mach.copyRun (err : Bool) : Nat → Copy → Reached → Reached → Mach → Copy × Mach
  | 0, x, _, _, m => (x, m)
  | n + 1, x, src, dst, m =>
    if cpSize x.desc ≤ x.f then (x, m)
    else
      match x.dst x.f with
      | .nowhere => copyRun err n { x with f := x.f + 1 } src dst m
      | .scratch off =>
        match m.pull x err false src x.f with
        | (.later, _, m) => (x, m)
        | (.fail st e va, _, m) => m.stopCopy x st e va false
        | (.byte b, src, m) => copyRun err n { x with f := x.f + 1 } src dst (m.fillScratch x off b)
      | .mem va =>
        let known := dst.filter fun p => decide (p.1 = pageKey va)
        if known = none ∧ dst.isSome = true then (x, m)
        else
          let (r, m) := match known with
            | some p => (Except.ok p, m)
            | none => m.reachPage (m.engineAgent x.team x.asid x.world (96 + x.engine)) va true .copyDest
          match r with
          | .error e => m.stopCopy x 2 e va true
          | .ok p =>
            let a := p.2.addr + pageOff va
            if m.beforeMeeting p.2 a 1 = 0 then m.stopCopy x 2 0x26 va true
            else if p.2.space = .dev ∧ (p.2.pkg.isSome = true ∨ homeDie a ≠ dieOfCore (coreOfKey x.key)) then
              let len := m.beforeMeeting p.2 a (x.rowLen x.f va 256)
              if va.toNat % 8 ≠ 0 ∨ len % 8 ≠ 0 then m.stopCopy x 2 0x12 va true
              else
                let (bs, bad, src, m) := m.pullRow x err len x.f src []
                let k := bs.length / 8 * 8
                let m := if k = 0 then m else
                  m.sendRow x 0x07 (p.2.pkg.getD m.pkg) a (.ofNat 64 k) (bs.take k) x.f va
                match bad with
                | some (.fail st e sva) => m.stopCopy { x with f := x.f + k } st e sva false
                | _ => copyRun err n { x with f := x.f + k } src (some p) m
            else
              match m.pull x err false src x.f with
              | (.later, _, m) => (x, m)
              | (.fail st e sva, _, m) => m.stopCopy x st e sva false
              | (.byte b, src, m) =>
                let m := if p.2.space = .scratch ∧ (m.team x.team).killed = true then m else m.writeByte p.2.space a b
                copyRun err n { x with f := x.f + 1 } src (some p) m

/-- Letters of a copy that are neither acknowledged nor failed. -/
def Mach.copyLetters (m : Mach) (id : Nat) : Bool :=
  m.sent.any fun y => !y.acked && match y.sender with | .copy j _ => decide (j = id) | _ => false

/-- The image is done, or the copy has stopped: once its letters are settled it sends its arrival, and then it is ready to complete. -/
def Mach.copyAdvance (m : Mach) (id : Nat) : Mach :=
  match m.copies.find? fun x => decide (x.id = id ∧ x.st = 3) with
  | none => m
  | some x =>
    if m.copyLetters id then m
    else
      match x.arr with
      | some a =>
        if x.fault = 0 ∧ x.arrived = false then
          (m.sendRow x 0x08 (a.toNat / 2 ^ 40) (a.toNat % 2 ^ 40) 1 [] (cpSize x.desc) x.arrVa).modCopy id fun x => { x with arrived := true }
        else m.modCopy id fun x => { x with st := 4 }
      | none => m.modCopy id fun x => { x with st := 4 }

/-- An access of a thread, issued before an operation, is not yet performed: an engine's reads come after it (R183). -/
def Mach.issuerBusy (m : Mach) (key lane id : Nat) : Bool :=
  m.ops.any fun y => decide (y.key = key ∧ y.id < id) && y.parts.any fun p => !p.done && decide (p.lane = lane)

/-- COPY_PAGE (R240 to R243, R249). -/
def execCopyPage (job : Nat) (err : Bool) (s : State) : Host.Outcome State Fault Refusal :=
  let m := s.mach
  match m.copies.find? fun x => decide (x.id = job ∧ x.st = 1) with
  | none => .next s
  | some x =>
    let big := decide (65536 < cpSize x.desc)
    if m.issuerBusy x.key x.lane x.id then .next s
    else if big && !x.started && !m.leaveHeld x.team then .next { s with mach := m.askLeave x.team }
    else
      let m := if big && !x.started then m.useLeave x.team else m
      let (y, m) := m.copyRun err (cpSize x.desc - x.f) { x with started := true } none none
      let gone := (y.recv.mapIdx fun i r => if y.skip.testBit i ∨ (m.team r.1).gen = r.2 then 0 else 2 ^ i).foldl (· + ·) 0
      let y := { y with skip := y.skip + gone }
      let y := if y.st = 1 ∧ cpSize y.desc ≤ y.f then { y with st := 3, status := if y.skip = 0 then 1 else 5 } else y
      .next { s with mach := (m.modCopy job fun _ => y).copyAdvance job }

/-! ## Completion (R244 to R247) -/

/-- Claim a slot of a ring (R247): its scratchpad offset and PH, or a count of a record not written. -/
def Mach.claimSlot (m : Mach) (t : Team) (core off : Nat) : Option (Nat × Nat) × Mach :=
  let a := t.phys core off
  let drop := m.writeNat .scratch (a + 24) 8 ((m.readNat .scratch (a + 24) 8 + 1) % 2 ^ 64)
  if t.alloc < off + 64 then (none, m)
  else
    let (n, slots, tail, head) := m.ringHead a
    let reserved := decide (nfld (m.readNat .scratch a 8) 63 37 ≠ 0 ∨ m.readNat .scratch (a + 32) 32 ≠ 0)
    if n < 4 ∨ 16 < n ∨ t.alloc < slots + 16 * 2 ^ n ∨ reserved = true then (none, drop)
    else if 2 ^ n ≤ (tail + 2 ^ 64 - head) % 2 ^ 64 then (none, drop)
    else
      (some (slots + 16 * (tail % 2 ^ n), (tail / 2 ^ n + 1) % 2), m.writeNat .scratch (a + 8) 8 ((tail + 1) % 2 ^ 64))

/-- The completion record without PH (R246). -/
def Copy.recLo (x : Copy) : Nat := x.f * 2 ^ 24 + (96 + x.engine) * 65536 + x.fault * 256 + x.status
def Copy.recHi (x : Copy) : Nat := x.skip * 2 ^ 32 + x.tag.toNat

/-- Step 1 of R244: the record, with the PH it took. A killed team's scratchpad takes no write (R381). -/
def Mach.writeRecord (m : Mach) (x : Copy) : Nat × Mach :=
  let t := m.team x.team
  match x.ring with
  | none => (0, m)
  | some off =>
    if x.noRec || t.killed then (0, m)
    else
      match m.claimSlot t (coreOfTeam x.team) off with
      | (none, m) => (0, m)
      | (some (slot, ph), m) =>
        let a := t.phys (coreOfTeam x.team) slot
        (ph, (m.writeNat .scratch a 8 x.recLo).writeNat .scratch (a + 8) 8 (x.recHi + ph * 2 ^ 63))

/-- An earlier copy has still to fill the same mailbag (R329). -/
def Mach.fillsFirst (m : Mach) (x : Copy) : Bool :=
  (m.copies.takeWhile fun y => decide (y.id ≠ x.id)).any fun y =>
    decide (y.team = x.team ∧ nfld (cpCtl y.desc) 17 17 = 1 ∧ nfld (cpCtl x.desc) 17 17 = 1
      ∧ nfld (cpCtl y.desc) 26 24 = nfld (cpCtl x.desc) 26 24)

/-- COPY_COMPLETION_STEP (R244, R245). -/
def execCopyCompletionStep (job : Nat) (s : State) : Host.Outcome State Fault Refusal :=
  let m := s.mach
  match m.copies.find? fun x => decide (x.id = job ∧ x.st = 4) with
  | none => .next s
  | some x =>
    if m.fillsFirst x then .next s
    else
      let (ph, m) := m.writeRecord x
      let m := if nfld (cpCtl x.desc) 17 17 = 1 then m.engineFill x.team (nfld (cpCtl x.desc) 26 24) else m
      let m := if nfld (cpCtl x.desc) 18 18 = 1 then
          m.postTray (coreOfKey x.key) ⟨.ofNat 64 x.recLo, .ofNat 64 (x.recHi + ph * 2 ^ 63), srcWord (96 + x.engine) 1⟩
        else m
      let m : Mach := { m with copies := m.copies.filter fun y => decide (y.id ≠ job) }
      let m := if nfld (cpCtl x.desc) 14 14 = 1 ∧ x.status ≠ 1 then m.mark x.key x.out clsAsync clsAsync 0 x.fault x.faultVa else m
      .next { s with mach := m.complete x.key x.out }

/-! ## CPOLL and CSLEEP (R248) -/

def pollRule (opc : Nat) : Rule where
  opc := opc
  form _ := { fns := [0, 1], useD := true, useA := true, litB := false }
  opds o := [.s o.d.toNat 2 2, .s o.a.toNat 1 1]

/-- The slot at HEAD: its scratchpad key and whether it is valid; none where the header or the slot lies beyond the allocation. -/
def Mach.headSlot (m : Mach) (t : Team) (core off : Nat) : Option (Nat × Bool) :=
  if t.alloc < off + 64 then none
  else
    let (n, slots, _, head) := m.ringHead (t.phys core off)
    let so := slots + 16 * (head % 2 ^ n)
    if t.alloc < so + 16 then none
    else
      let a := t.phys core so
      some (a, decide (nfld (m.readNat .scratch (a + 8) 8) 63 63 = (head / 2 ^ n + 1) % 2))

/-- Take or peek at the record of a valid slot: s[D] and s[D+1] = the record. -/
def Mach.takeRecord (m : Mach) (key : Nat) (t : Team) (core off slot d : Nat) (peek : Bool) : Mach :=
  let lo := m.read64 .scratch slot
  let hi := m.read64 .scratch (slot + 8)
  let a := t.phys core off + 16
  let m := if peek then m else m.writeNat .scratch a 8 ((m.readNat .scratch a 8 + 1) % 2 ^ 64)
  m.modBundle key fun b => b.modRegs fun r => (r.setS d lo).setS (d + 1) hi

/-- CPOLL and CSLEEP: `sleep` parks on a slot that is not valid. -/
def pollOp (opc : Nat) (sleep : Bool) (o : Opn) (s : State) : Host.Outcome State Fault Refusal :=
  issue (pollRule opc) o s fun c m =>
    let off := (c.s o.a.toNat).toNat
    if off % 64 ≠ 0 then .trap m (c.trap clsAlign 0x10)
    else if m.threadBusy c.key c.grp .scratch then (if sleep then .wait m c.grp else .hold)
    else
      match m.headSlot c.tm c.core off with
      | none => .trap m (c.trap clsOperand 0x27)
      | some (a, true) => .done (m.takeRecord c.key c.tm c.core off a o.d.toNat (decide (o.fn = 1)))
      | some (_, false) =>
        if sleep then c.park m (.ring (decide (o.fn = 1)) o.d.toNat off)
        else .done (c.modRegs m fun r => (r.setS o.d.toNat 0).setS (o.d.toNat + 1) 0)

def execCpoll (o : Opn) (s : State) : Host.Outcome State Fault Refusal := pollOp 0x92 false o s
def execCsleep (o : Opn) (s : State) : Host.Outcome State Fault Refusal := pollOp 0x93 true o s

/-- CSLEEP_WAKE (R248). A header that no longer fits sends the group back to its instruction. -/
def execCsleepWake (b l : Nat) (s : State) : Host.Outcome State Fault Refusal :=
  wakeStep b l s fun m w seq =>
    match w with
    | .ring peek d off =>
      let t := m.team (m.bundle b).team
      match m.headSlot t (coreOfKey b) off with
      | none => some (m.modBundle b fun k => k.wake seq true)
      | some (_, false) => none
      | some (a, true) => some ((m.takeRecord b t (coreOfKey b) off a d peek).modBundle b fun k => k.wake seq false)
    | _ => none

end Sys2Proof.Machine
end

