-- ==== Sys2Proof/Machine/Sync.lean ====
section
/-! DEFINITION. Team barriers, mailbags, WAITK, YIELD, SLEEP and leave (R322 to R332). -/

namespace Sys2Proof.Machine

/-! ## Barriers (R323, R324) -/

def barRule : Rule where
  opc := 0xB9
  form o := { modBits := 0x1F, useB := bitAt o.mods 4, litB := false }
  opds o := if bitAt o.mods 4 then [.s o.b.toNat 1 1] else []

/-- An arrival of n lanes is a misuse (R323): `e` is the count of a counted arrival. -/
def Barrier.misuse (b : Barrier) (e : Option Nat) (n : Nat) : Bool :=
  match e with
  | some e => decide (e = 0 ∨ 65535 < e ∨ b.mode = 1 ∨ (b.mode = 2 ∧ b.e ≠ e) ∨ e < b.arrivals + n)
  | .none => decide (b.mode = 2)

/-- BAR (R323): every lane of Active() arrives and parks. What precedes the arrival happens before what follows the completion
(R325): the threads' earlier accesses are performed first. -/
def execBar (o : Opn) (s : State) : Host.Outcome State Fault Refusal :=
  issue barRule o s fun c m =>
    let k := fld o.mods 3 0
    let e := if bitAt o.mods 4 then some (c.s o.b.toNat).toNat else none
    let n := popCount c.grp
    if ((c.tm.bar k).misuse e n) = true then .trap m (c.trap clsRole 0x66)
    else if m.threadsBusy c.key c.grp then .wait m c.grp
    else
      let m := m.modTeam c.tk fun t =>
        let b := t.bar k
        t.setBar k { b with mode := if e.isSome then 2 else 1, e := e.getD 0, arrivals := b.arrivals + n }
      let m := m.modBundle c.key fun b =>
        b.modLanes c.grp fun _ x => { x with st := .bar k c.size, pc := c.pc, last := m.clk }
      .goto (m.completeBar c.tk k) []

/-- The issuer's mem counter is zero and every earlier load of it has returned its data (R324, R328, R342). -/
def Ctx.memQuiet (c : Ctx) (m : Mach) : Bool :=
  decide (c.b.count 1 = 0) && !(m.ops.any fun x => decide (x.key = c.key) && !x.counted)

/-- What BARV meets at a barrier address: the team, or a code in the order of R324. -/
def Ctx.barTarget (c : Ctx) (m : Mach) (a : W64) : Except Nat Nat :=
  if fld a 10 4 / 8 ≠ c.core % 96 / 8 then .error 2
  else
    match m.addressed c.die a with
    | none => .error 1
    | some tk =>
      let b := (m.team tk).bar (fld a 3 0)
      if !c.g.world && (m.gridOf (m.team tk)).world then .error 4
      else if b.mode = 2 ∧ b.e < b.arrivals + 1 then .error 3
      else .ok tk

/-- What BARV allows and reads. -/
def barvRule : Rule :=
  { opc := 0xBA, form := fun _ => { useD := true, useA := true, litB := false }
    opds := fun o => [.s o.d.toNat 1 1, .s o.a.toNat 1 1] }

/-- BARV (R324). -/
def execBarv (o : Opn) (s : State) : Host.Outcome State Fault Refusal :=
  issue barvRule o s fun c m =>
    if !c.memQuiet m then .wait m (BitVec.allOnes 32)
    else
      let a := c.s o.a.toNat
      match c.barTarget m a with
      | .error e => .done (c.setS m o.d.toNat (errWord e))
      | .ok tk =>
        let k := fld a 3 0
        let m := c.setS m o.d.toNat 0
        let m := m.modTeam tk fun t =>
          let b := t.bar k
          t.setBar k { b with
            arrivals := if b.mode = 1 then b.arrivals else b.arrivals + 1
            recv := if b.recv.length < 8 then b.recv ++ [c.tk] else b.recv }
        .done (m.completeBar tk k)

/-- What BARV.self allows and reads. -/
def barvSelfRule : Rule :=
  { opc := 0xBA, form := fun _ => { fns := [1], modBits := 15, useD := true, litB := false }
    opds := fun o => [.s o.d.toNat 1 1] }

/-- BARV.self (R324). -/
def execBarvSelf (o : Opn) (s : State) : Host.Outcome State Fault Refusal :=
  issue barvSelfRule o s fun c m =>
    .done (c.setS m o.d.toNat (barAddr c.tk c.tm.gen (fld o.mods 3 0)))

/-! ## Mailbags (R327, R328) -/

def mailRule (opc : Nat) (fns : List Nat) (useD : Bool) : Rule where
  opc := opc
  form _ := { fns := fns, modBits := 7, useD := useD, litB := false }
  opds o := if useD then [.s o.d.toNat 1 1] else []

/-- The park numbers of the team's groups that wait on a condition of a mailbag. -/
def Mach.mailWaiters (m : Mach) (tk mb : Nat) (free : Bool) : List Nat :=
  (m.bundlesOf tk).flatMap fun k => (m.bundle k).lanes.filterMap fun p =>
    match p.2.st with
    | .wait (.mailbag f _ n) seq _ => if f = free ∧ n = mb then some seq else none
    | _ => none

/-- Take or claim a stage for s[D] of a bundle. -/
def Mach.serveMail (m : Mach) (key tk mb d : Nat) (free : Bool) : Mach :=
  let b := (m.team tk).mail mb
  (m.modMail tk mb fun b => b.serve free).modBundle key fun k => k.modRegs fun r => r.setS d (b.word (b.event free))

/-- The word of MBWAIT.stat. -/
def Mailbag.stat (b : Mailbag) : W64 :=
  .ofNat 64 (2 ^ 63 * boolNat b.err + 2 ^ 48 * ((b.stages - 1) % 16) + 2 ^ 40 * ((b.claim - b.fill).toNat % 32)
    + 2 ^ 32 * ((b.fill - b.take).toNat % 32) + 2 ^ 24 * ((b.take - b.free).toNat % 32))

/-- MBWAIT (R327). -/
def execMbwait (o : Opn) (s : State) : Host.Outcome State Fault Refusal :=
  issue (mailRule 0xBB [0, 1, 2, 3, 4] true) o s fun c m =>
    let mb := fld o.mods 2 0
    let fn := o.fn.toNat
    let free := decide (fn % 2 = 1)
    let b := c.tm.mail mb
    if b.stages = 0 then .trap m (c.trap clsRole 0x66)
    else if fn = 4 then .done (c.setS m o.d.toNat b.stat)
    else if b.ready free && decide (m.mailWaiters c.tk mb free = []) then .done (m.serveMail c.key c.tk mb o.d.toNat free)
    else if 2 ≤ fn then .done (c.setS m o.d.toNat (.ofNat 64 (2 ^ 63)))
    else c.park m (.mailbag free o.d.toNat mb)

/-- MBWAIT_WAKE (R327): the group that parked first is served. -/
def execMbwaitWake (b l : Nat) (s : State) : Host.Outcome State Fault Refusal :=
  wakeStep b l s fun m w seq =>
    match w with
    | .mailbag free d mb =>
      let tk := (m.bundle b).team
      if ((m.team tk).mail mb).ready free && (m.mailWaiters tk mb free).all fun n => decide (seq ≤ n) then
        some ((m.serveMail b tk mb d free).modBundle b fun k => k.wake seq false)
      else none
    | _ => none

/-- MBFILL and MBFREE (R328). -/
def mailAdd (opc : Nat) (bad : Mailbag → Bool) (add : Mailbag → Mailbag) (o : Opn) (s : State) : Host.Outcome State Fault Refusal :=
  issue (mailRule opc [0] false) o s fun c m =>
    let mb := fld o.mods 2 0
    if (c.tm.mail mb).stages = 0 then .trap m (c.trap clsRole 0x66)
    else if !c.memQuiet m then .hold
    else if bad (c.tm.mail mb) then .trap m (c.trap clsRole 0x66)
    else .done (m.modMail c.tk mb add)

def execMbfill (o : Opn) (s : State) : Host.Outcome State Fault Refusal :=
  mailAdd 0xBC (fun b => decide (b.fill = b.claim)) (fun b => { b with fill := b.fill + 1 }) o s
def execMbfree (o : Opn) (s : State) : Host.Outcome State Fault Refusal :=
  mailAdd 0xBD (fun b => decide (b.free = b.take)) (fun b => { b with free := b.free + 1 }) o s

/-! ## WAITK (R330) -/

def waitkRule : Rule where
  opc := 0xBE
  form o := { modBits := 7, useA := decide (2 ≤ o.len.toNat), litB := false }
  extra o := decide (fld o.mods 2 0 ≤ 5)
  opds o := if 2 ≤ o.len.toNat then [.s o.a.toNat 1 1] else []

/-- WAITK (R330). In a handler it raises no mark (R373); the handler goes on when the counter allows it (log 15). -/
def execWaitk (o : Opn) (s : State) : Host.Outcome State Fault Refusal :=
  issue waitkRule o s fun c m =>
    let cls := fld o.mods 2 0
    let n := if 2 ≤ o.len.toNat then min (c.s o.a.toNat).toNat 65535 else o.imm.toNat
    if c.b.count cls ≤ n then .done m
    else if c.hand then .goto (m.modBundle c.key fun b => { b with hwait := some (cls, n) }) [(0, c.pc)]
    else c.park m (.counter cls n)

/-- The trap of a mark, raised by the instruction at which a group is parked (R194, R330). -/
def markTrap (k : Mark) (pc : W64) (isz : Nat) (ls : Lanes) : Trap :=
  ⟨k.trapCls, k.cause, pc, false, false, isz, ls, [⟨lowestLane ls, k.trapCls, k.cause, k.addr, 0⟩], 0, 0⟩

/-- The control core halts at the instruction that waits; a bundle enters its trap (R338, R373), and no single-step trap follows (R377). -/
def Mach.trapParked (m : Mach) (key seq : Nat) (t : Trap) : Mach :=
  let m := m.modBundle key fun b => { b.wake seq true with stepped := b.stepped &&& ~~~b.parked seq }
  if key % 256 = 128 then m.haltControl key t else m.takeTrap key t

/-- No handler, trap, fault or run of the bundle is under way: a trap may be raised at a run boundary (R36, R373). -/
def Mach.atBoundary (m : Mach) (key : Nat) : Bool :=
  let b := m.bundle key
  b.hand.isNone && b.pend.isNone && b.fault.isNone
    && m.runs.all fun p => match p.2 with | some r => decide (r.key ≠ key) | none => true

/-- WAITK_RELEASE (R330): a mark of the class that came while the group waits is raised; else the group goes on once the counter is at
n or below. -/
def execWaitkRelease (b l : Nat) (s : State) : Host.Outcome State Fault Refusal :=
  wakeStep b l s fun m w seq =>
    match w, ((m.bundle b).lane l).st with
    | .counter cls n, .wait _ _ sz =>
      match (m.bundle b).heldMark cls with
      | some k =>
        if !m.atBoundary b then none
        else
          let t := markTrap k ((m.bundle b).lane l).pc (sz / 4) ((m.bundle b).parked seq)
          some ((m.modBundle b fun x => { x with marks := dropMark k x.marks }).trapParked b seq t)
      | none => if (m.bundle b).count cls ≤ n then some (m.modBundle b fun k => k.wake seq false) else none
    | _, _ => none

/-! ## YIELD, SLEEP, PWRQ (R331) -/

/-- What YIELD allows and reads. -/
def yieldRule : Rule :=
  { opc := 0xBF, form := fun _ => { litB := false } }

/-- YIELD (R331): the run ends, and the bundle has just held the slot. -/
def execYield (o : Opn) (s : State) : Host.Outcome State Fault Refusal :=
  issue yieldRule o s fun c m =>
    .done (m.modBundle c.key fun b => { b with last := m.clk })

/-- What YIELD.grp allows and reads. -/
def yieldGrpRule : Rule :=
  { opc := 0xBF, form := fun _ => { fns := [1], litB := false } }

/-- YIELD.grp (R331): the group has just run. -/
def execYieldGrp (o : Opn) (s : State) : Host.Outcome State Fault Refusal :=
  issue yieldGrpRule o s fun c m =>
    .done (m.modBundle c.key fun b => b.modLanes c.grp fun _ x => { x with last := m.clk })

/-- What SLEEP allows and reads. -/
def sleepRule : Rule :=
  { opc := 0xC0, form := fun _ => { useA := true, litB := false }, opds := fun o => [.s o.a.toNat 1 1] }

/-- SLEEP (R331). -/
def execSleep (o : Opn) (s : State) : Host.Outcome State Fault Refusal :=
  issue sleepRule o s fun c m =>
    let x := c.s o.a.toNat
    if fld x 63 32 ≠ 0 then .trap m (c.trap clsOperand 0x63) else c.park m (.sleep (m.clk + x.toNat))

/-- SLEEP_EXPIRY (R331). -/
def execSleepExpiry (b l : Nat) (s : State) : Host.Outcome State Fault Refusal :=
  wakeStep b l s fun m w seq =>
    match w with
    | .sleep till => if till ≤ m.clk then some (m.modBundle b fun k => k.wake seq false) else none
    | _ => none

/-- What PWRQ allows and reads. -/
def pwrqRule : Rule :=
  { opc := 0xC1, form := fun _ => { useD := true, litB := false }, opds := fun o => [.s o.d.toNat 1 1] }

/-- PWRQ (R331, R332). -/
def execPwrq (o : Opn) (s : State) : Host.Outcome State Fault Refusal :=
  issue pwrqRule o s fun c m =>
    .done ((c.setS m o.d.toNat (if m.leaveHeld c.tk then 1 else 0)).askLeave c.tk)

/-- An operation of the team that needs leave runs (R332). -/
def Mach.leaveRuns (m : Mach) (tk : Nat) : Bool :=
  ((m.core (coreOfTeam tk)).mx.any fun x => decide (x.team = tk ∧ 0 < x.g) && match x.kind with | .mxp _ | .mxd _ => true | _ => false)
  || (m.copies.any fun x => decide (x.team = tk ∧ 65536 < cpSize x.desc) && x.started)
  || (m.die (dieOfCore (coreOfTeam tk))).jobs.any fun j => decide (j.team = tk) && j.began

/-- What PWRQ.rel allows and reads. -/
def pwrqRelRule : Rule :=
  { opc := 0xC1, form := fun _ => { fns := [1], useD := true, litB := false }, opds := fun o => [.s o.d.toNat 1 1] }

/-- PWRQ.rel (R331, R332): at once, or when the last running operation ends; what starts later asks again. -/
def execPwrqRel (o : Opn) (s : State) : Host.Outcome State Fault Refusal :=
  issue pwrqRelRule o s fun c m =>
    let m := c.setS m o.d.toNat 0
    if ¬ m.leaveHeld c.tk then .done m
    else if m.leaveRuns c.tk then .done (m.modTeam c.tk fun t => { t with leave := { t.leave with rel := true } })
    else .done (m.dropLeave c.tk)

/-! ## The power desk (R332, R409) -/

/-- A request for leave: class, time, and what asks: a team's key, or 2^40 + grid * 2^32 + chunk (R357). -/
structure Request where
  cls : Nat
  since : Nat
  who : Nat
  deriving DecidableEq, Repr

def chunkWho (g chunk : Nat) : Nat := 2 ^ 40 + g * 2 ^ 32 + chunk

/-- The requests that wait at a die's desk. -/
def Mach.requests (m : Mach) (die : Nat) : List Request :=
  (m.teams.filterMap fun p => p.2.bind fun t =>
    if t.leave.st = 1 ∧ dieOfCore (coreOfTeam p.1) = die then some ⟨(m.gridOf t).cls, t.leave.since, p.1⟩ else none)
  ++ m.grids.flatMap fun p => (p.2.map fun g => g.due.filterMap fun d =>
    if d.leave.st = 1 ∧ d.die = die then some ⟨g.cls, d.leave.since, chunkWho p.1 d.chunk⟩ else none).getD []

/-- The request that is granted first: the highest class, then the oldest. -/
def bestRequest (xs : List Request) : Option Request :=
  xs.foldl (fun b x =>
    match b with
    | none => some x
    | some y => if y.cls < x.cls ∨ (x.cls = y.cls ∧ x.since < y.since) then some x else b) none

/-- Leave is held from now on. -/
def Mach.grantTo (m : Mach) (who : Nat) : Mach :=
  if who < 2 ^ 40 then m.modTeam who fun t => { t with leave := ⟨2, m.clk, false⟩ }
  else m.modGrid ((who - 2 ^ 40) / 2 ^ 32) fun g => { g with due := g.due.map fun d =>
    if d.chunk = who % 2 ^ 32 then { d with leave := ⟨2, m.clk, false⟩ } else d }

/-- LEAVE_GRANT (R332, R409): the first request in order, while the die is not too hot and the desk's share allows what the grant takes of it,
which is open. -/
def execLeaveGrant (team : Nat) (s : State) : Host.Outcome State Fault Refusal :=
  let m := s.mach
  let go := [0, 1, 2, 3].find? fun d => (bestRequest (m.requests d)).any fun r => decide (r.who = team)
  match go with
  | none => .next s
  | some d =>
    let k := m.die d
    let (n, m) := m.draw
    let cost := (Config.word n).toNat
    if k.hold || decide (k.share < cost) then .next { s with mach := m }
    else .next { s with mach := (m.modDie d fun k => { k with share := k.share - cost, grants := k.grants + 1 }).grantTo team }

/-- LEAVE_EXPIRY (R332): leave that is no longer held ends; leave given up while operations ran, and asked for again, is asked for from
when it was. -/
def execLeaveExpiry (team : Nat) (s : State) : Host.Outcome State Fault Refusal :=
  let m := s.mach
  let v := (m.team team).leave
  if v.st = 2 ∧ ((v.rel = true ∧ m.leaveRuns team = false) ∨ (v.rel = false ∧ v.since + 4096 ≤ m.clk)) then
    .next { s with mach := m.dropLeave team }
  else if v.st = 3 ∧ m.leaveRuns team = false then
    .next { s with mach := m.modTeam team fun t => { t with leave := { t.leave with st := 1 } } }
  else .next s

end Sys2Proof.Machine
end

