-- ==== Sys2Proof/Machine/ControlCore.lean ====
section
/-! DEFINITION. Control-core and routing instructions (R333 to R352). -/

namespace Sys2Proof.Machine

def controlKey (core : Nat) : Nat := core * 256 + 128

/-! ## The in-tray (R341, R342) -/

def evgetRule (fn : Nat) : Rule where
  opc := 0xC8
  form _ := { fns := [fn], useD := true, litB := false }
  opds o := [.s o.d.toNat 3 1]

/-- Take the oldest event into s[D] to s[D+2] of the control core. -/
def Mach.takeEvent (m : Mach) (core d : Nat) (e : Event) (rest : List Event) : Mach :=
  (m.modCore core fun k => { k with tray := rest }).modBundle (controlKey core) fun b =>
    b.modRegs fun r => ((r.setS d e.lo).setS (d + 1) e.hi).setS (d + 2) e.src

/-- What EVGET allows and reads. -/
def evgetIssueRule : Rule :=
  { evgetRule 0 with form := fun _ => { fns := [0, 1], useD := true, litB := false } }

/-- EVGET and EVGET.poll (R341). -/
def execEvget (o : Opn) (s : State) : Host.Outcome State Fault Refusal :=
  issue evgetIssueRule o s fun c m =>
    let d := o.d.toNat
    match (m.core c.core).tray with
    | e :: r => .done (m.takeEvent c.core d e r)
    | [] => if o.fn = 1 then .done (c.modRegs m fun r => ((r.setS d 0).setS (d + 1) 0).setS (d + 2) 0) else c.park m (.event d)

/-- EVGET_WAKE (R341). -/
def execEvgetWake (core : Nat) (s : State) : Host.Outcome State Fault Refusal :=
  wakeStep (controlKey core) 0 s fun m w seq =>
    match w, (m.core core).tray with
    | .event d, e :: r => some ((m.takeEvent core d e r).modBundle (controlKey core) fun b => b.wake seq false)
    | _, _ => none

def evpostRule (fn : Nat) (opds : Opn → List Opd) (useA : Bool) : Rule where
  opc := 0xC9
  form _ := { fns := [fn], useD := true, useA := useA, litB := false }
  opds o := .s o.d.toNat 1 1 :: opds o

/-- EVPOST (R342). UNIT is the bundle slot; of the control core's own posts it is open (log 21). -/
def execEvpost (o : Opn) (s : State) : Host.Outcome State Fault Refusal :=
  issue (evpostRule 0 (fun o => [.s o.a.toNat 2 2]) true) o s fun c m =>
    if !c.memQuiet m then .hold
    else if 256 ≤ (m.core c.core).tray.length then .done (c.setS m o.d.toNat (errWord 1))
    else
      let (unit, m) : Nat × Mach := if c.ctl then let (n, m) := m.draw; ((Config.word n).toNat % 256, m) else (c.key % 256, m)
      let e : Event := ⟨c.s o.a.toNat, c.s (o.a.toNat + 1), srcWord unit (if c.ctl then 4 else 3)⟩
      .done (c.setS (m.modCore c.core fun k => { k with tray := k.tray ++ [e] }) o.d.toNat 0)

/-- Start the control core for a team (R334): results that its halted program still awaited reach no register. -/
def Ctx.startControl (c : Ctx) (m : Mach) : Mach :=
  let key := controlKey c.core
  let a := c.o.a.toNat
  let old := m.bundle key
  let b := { Bundle.start c.tk 0 with
    lanes := [(0, { Lane.none with st := .runnable, pc := c.s a, tidx := 0xFFFFFFFF })]
    outs := old.outs
    regs := { ((((Regs.reset.setS 0 (c.s (a + 1))).setS 1 (c.s (a + 2))).setS 2 (c.s (a + 3))).setS 3 (c.s (a + 4))) with
      stepTag := c.b.regs.stepTag } }
  let m : Mach := { m with
    ops := m.ops.map fun x => if x.key = key then { x with dest := .none } else x
    later := m.later.filter fun x => decide (x.key ≠ key) }
  ((m.setBundle key (some b)).setRun (c.core * 8 + 4) none).modCore c.core fun k =>
    { k with tray := [], drops := 0, cst := 1, owner := c.tk, hcls := 0, hcause := 0, hpc := 0 }

/-- EVPOST.start (R334, R342). -/
def execEvpostStart (o : Opn) (s : State) : Host.Outcome State Fault Refusal :=
  issue (evpostRule 1 (fun o => [.s o.a.toNat 5 1]) true) o s fun c m =>
    if !c.memQuiet m then .hold
    else
      let pc := c.s o.a.toNat
      if (m.core c.core).cst = 1 then .done (c.setS m o.d.toNat (errWord 2))
      else if canonical pc = false ∨ pc.toNat % 4 ≠ 0 then .done (c.setS m o.d.toNat (errWord 3))
      else .done (c.setS (c.startControl m) o.d.toNat 0)

/-- The control-core status word (R343). -/
def Core.status (k : Core) : W64 :=
  .ofNat 64 (k.drops.toNat * 2 ^ 32 + k.tray.length * 65536 + k.hcause * 256 + k.hcls * 16 + k.cst)

def execEvpostStat (o : Opn) (s : State) : Host.Outcome State Fault Refusal :=
  issue (evpostRule 2 (fun _ => []) false) o s fun c m => .done (c.setS m o.d.toNat (m.core c.core).status)

def execEvpostHpc (o : Opn) (s : State) : Host.Outcome State Fault Refusal :=
  issue (evpostRule 3 (fun _ => []) false) o s fun c m =>
    .done (c.setS m o.d.toNat (if (m.core c.core).cst = 2 then (m.core c.core).hpc else 0))

/-- What EVPOST.drop allows and reads. -/
def evpostDropRule : Rule :=
  { evpostRule 4 (fun _ => []) false with site := fun c => c.ctl }

/-- EVPOST.drop (R342): the control core alone may issue it. -/
def execEvpostDrop (o : Opn) (s : State) : Host.Outcome State Fault Refusal :=
  issue evpostDropRule o s fun c m =>
    .done (c.setS (m.modCore c.core fun k => { k with drops := 0 }) o.d.toNat 0)

/-! ## Tapes (R344, R345) -/

/-- The encoding of TAPEF, TDEC and LOCQ: AK is 1, SZ as given, every other modifier 0. -/
def tapeRule (opc sz n : Nat) : Rule where
  opc := opc
  form _ := { modBits := 0x0F, useD := true, useA := true, litB := false }
  extra o := memAk o && decide (memSz o = sz)
  opds o := [.s o.d.toNat n 1, .s o.a.toNat 1 1]

/-- The first register of TAPEF: the opcode, or an error code. -/
def tapeOpc (d : List Byte) : W64 :=
  let x := fieldAt d 0 8
  if 0x80 ≤ x % 256 then errWord 1
  else if nfld x 15 11 ≠ 0 ∨ nfld (fieldAt d 8 8) 63 41 ≠ 0 then errWord 2
  else .ofNat 64 (x % 256)

/-- The seven registers of TAPEF. -/
def tapeWords (d : List Byte) : List W64 :=
  let x := fieldAt d 0 8
  [tapeOpc d, .ofNat 64 (fieldAt d 8 4), .ofNat 64 (nfld (fieldAt d 8 8) 40 32),
    .ofNat 64 (nfld x 31 16 + 65536 * nfld x 10 8 + 2 ^ 32 * fieldAt d 20 4),
    .ofNat 64 (fieldAt d 16 2 + 2 ^ 32 * fieldAt d 18 2), .ofNat 64 (fieldAt d 24 8), .ofNat 64 (nfld x 63 32)]

/-- The registers of a tape entry that its four reads have returned (R345). -/
def Mach.deliverTape (m : Mach) (x : Op) (d : Nat) : Mach :=
  let ws := tapeWords (leBytes 32 (laneValue x.parts 0))
  m.modBundle x.key fun b => b.modRegs fun r => (List.range 7).foldl (fun r k => r.setS (d + k) (ws.getD k 0)) r

/-- TAPEF (R345): four single-copy atomic reads of 8 bytes, left outstanding as LD's are. -/
def execTapef (o : Opn) (s : State) : Host.Outcome State Fault Refusal :=
  issue (tapeRule 0xCA 0 7) o s fun c m =>
    match m.check c.agent ⟨c.sea, 32, 32, true, false, false, false, .local_, .allowed⟩ with
    | (.error e, m) => c.resolve m (c.everyLane c.sea e) false
    | (.ok ps, m) =>
      let parts := (List.range 4).map fun k =>
        let p := { onePiece ps with addr := (onePiece ps).addr + 8 * k, len := 8 }
        part 0 p (c.sea + BitVec.ofNat 64 (8 * k)) (.read (c.ownBytes 0 p))
      if m.trackerFull c.core parts then .hold
      else
        let (id, m) := m.fresh
        .done { m with ops := m.ops ++ [{
          id := id, key := c.key, acq := false, rel := false, serial := false, dest := .tape o.d.toNat, size := 32, win := [], parts := parts
          counted := false, asid := c.g.asid }] }

/-! ## Dependence counters (R346, R347) -/

/-- TDEC (R347): one atomic step left outstanding, with acquire and release. -/
def execTdec (o : Opn) (s : State) : Host.Outcome State Fault Refusal :=
  issue (tapeRule 0xCB 3 1) o s fun c m =>
    match m.check c.agent ⟨c.sea, 8, 8, false, true, false, false, .local_, .denied 0x24⟩ with
    | (.error e, m) => c.resolve m (c.everyLane c.sea e) true
    | (.ok ps, m) =>
      let parts := [part 0 (onePiece ps) c.sea (.dec (c.core % 96))]
      if m.trackerFull c.core parts || c.counterFull 1 then .hold
      else
        let (id, m) := m.count c.key 1
        .done { m with ops := m.ops ++ [{
          id := id, key := c.key, acq := true, rel := true, serial := true, dest := .scalar o.d.toNat, size := 8, win := [], parts := parts
          counted := true, asid := c.g.asid }] }

/-- The atomic step of TDEC: the word for s[D], and the machine after the decrement and its notice. -/
def Mach.decrement (m : Mach) (die core : Nat) (p : Part) : W64 × Mach :=
  let (n, m) := m.readPart (die * 96 + core) p [] false
  let old : W64 := .ofNat 64 n
  if fld old 31 0 = 0 then (old ||| 0x8000000000000000#64, m)
  else
    let new := old - 1
    let m := m.writeNat p.space p.addr 8 new.toNat
    (old, if fld new 31 0 = 0 ∧ bitAt old 47 = true ∧ fld old 55 48 ≤ 95 then
      m.postTray (die * 96 + fld old 55 48) ⟨p.va, new, srcWord core 5⟩ else m)

/-! ## Dispatch to a team (R348) -/

def tdispRule : Rule where
  opc := 0xCC
  form o := { fns := [0, 1], useD := true, useA := true, useB := true, useC := decide (o.fn = 1), litB := false }
  opds o := [.s o.d.toNat 1 1, .s o.a.toNat 4 2, .s o.b.toNat 1 1] ++ if o.fn = 1 then [.s o.c.toNat 1 1] else []

/-- The team that TDISP names on this core. -/
def Ctx.dispTarget (c : Ctx) (m : Mach) : Option Nat :=
  if c.o.fn = 0 then some c.tk
  else (m.addressed c.die (c.s c.o.c.toNat)).filter fun tk => decide (coreOfTeam tk = c.core)

/-- TDISP (R348). -/
def execTdisp (o : Opn) (s : State) : Host.Outcome State Fault Refusal :=
  issue tdispRule o s fun c m =>
    let w := c.s o.b.toNat
    let mb := fld w 34 32
    match (if fld w 63 35 ≠ 0 then none else c.dispTarget m) with
    | none => .done (c.setS m o.d.toNat (errWord 2))
    | some tk =>
      let t := m.team tk
      let b := t.mail mb
      if b.stages = 0 then .done (c.setS m o.d.toNat (errWord 3))
      else if t.alloc < fld w 31 0 + 32 * b.stages then .done (c.setS m o.d.toNat (errWord 4))
      else if !c.g.world && (m.gridOf t).world then .done (c.setS m o.d.toNat (errWord 5))
      else if ¬ b.canClaim then .done (c.setS m o.d.toNat (errWord 1))
      else
        let n := b.claim.toNat
        let at_ := t.phys c.core (fld w 31 0 + 32 * (n % b.stages))
        if c.counterFull 1 || m.mustWait c.key c.grp .scratch at_ 32 then .hold
        else
          let words := (List.range 4).flatMap fun k => leBytes 8 (c.s (o.a.toNat + k)).toNat
          let m := m.writeBytes .scratch at_ words
          let (id, m) := m.count c.key 1
          let m := m.modTeam tk fun t => { t.setMail mb { b with claim := b.claim + 1 } with disp := t.disp ++ [⟨mb, n, c.key, id⟩] }
          .done (c.setS m o.d.toNat (.ofNat 64 n))

/-- TDISP_FILL (R348): once every earlier claim is filled and the control core's earlier accesses are performed. Of a killed team
nothing is filled (R381). -/
def execTdispFill (team mb : Nat) (s : State) : Host.Outcome State Fault Refusal :=
  let m := s.mach
  let t := m.team team
  match t.disp.find? fun d => decide (d.mb = mb) with
  | none => .next s
  | some d =>
    let early := decide (2 ^ 31 ≤ ((t.mail mb).fill - BitVec.ofNat 32 d.n).toNat)
    if !t.killed && (early || m.issuerBusy d.key 0 d.out) then .next s
    else
      let m := if t.killed then m else m.engineFill team mb
      let m := m.modTeam team fun t => { t with disp := t.disp.filter fun x => decide (x ≠ d) }
      .next { s with mach := m.complete d.key d.out }

/-! ## Expert location (R349 to R351) -/

/-- A malformed location descriptor (R349). -/
def locBad (d : List Byte) : Bool :=
  let x := fieldAt d 8 8
  decide (fieldAt d 0 8 % 16 ≠ 0 ∨ nfld x 4 0 < 4 ∨ 30 < nfld x 4 0 ∨ nfld x 7 5 ≠ 0 ∨ nfld x 12 8 = 0 ∨ 16 < nfld x 12 8
    ∨ nfld x 63 13 ≠ 0 ∨ fieldAt d 24 8 ≠ 0)

/-- The first slot of a key (R350). -/
def locHash (key : W32) (seed : W64) (log2n : Nat) : Nat := ((key.setWidth 64 ^^^ seed) * 0x9E3779B97F4A7C15#64).toNat >>> (64 - log2n)

/-- The status word of a failed probe. -/
def locFail (cause : Nat) : W64 × W64 := (0, .ofNat 64 (3 + 256 * cause))

/-- Put a location in the core's cache of 1,024 entries; which entry a full cache gives up is open (R351). -/
def Mach.cacheLoc (m : Mach) (core desc : Nat) (key : W32) (loc : W64) : Mach :=
  let old := (m.core core).loc
  let (gone, m) := if old.length < 1024 then (none, m) else m.pick none (old.map some)
  m.modCore core fun k => { k with loc := (desc, key.toNat, loc) :: k.loc.filter fun x => decide (some x ≠ gone) }

/-- The agent of an issuer, by its key. -/
def Mach.agentOf (m : Mach) (key : Nat) : Agent :=
  let tk := (m.bundle key).team
  let g := m.gridOf (m.team tk)
  ⟨g.asid, dieOfCore (coreOfKey key), coreOfKey key, g.world, (m.team tk).scr, (m.team tk).alloc, g.det, coreOfKey key % 96⟩

/-- The outcome of LOCQ's probes: finished with its two results, or waiting for the entry of another home. -/
inductive Located where
  | found (r : W64 × W64)
  | waits (i : Nat)
  deriving DecidableEq, Repr

/-- What an entry read means: the end of the search, or nothing. -/
def locEntry (lo hi : W64) (key : W32) : Option (W64 × W64) :=
  if ¬ bitAt lo 32 then some (0, 2) else if lo.setWidth 32 = key then some (hi, 1) else none

/-- Probe entries from i on, n of them: an entry of this die is read, another is asked for with an RGET (R350). -/
def Mach.locate (m : Mach) (key seq desc : Nat) (k : W32) (tbase : W64) (log2n h : Nat) : Nat → Nat → Located × Mach
  | 0, _ => (.found (0, 2), m)
  | n + 1, i =>
    let va := tbase + BitVec.ofNat 64 (16 * ((h + i) % 2 ^ log2n))
    let ag := m.agentOf key
    match m.check ag ⟨va, 16, 16, true, false, false, false, .letter, .denied 0x24⟩ with
    | (.error e, m) => (.found (locFail e), m)
    | (.ok ps, m) =>
      let p := onePiece ps
      if p.pkg.isNone ∧ homeDie p.addr = ag.die then
        if m.damaged .dev p.addr 16 then (.found (locFail 0x40), m.logError 1 (ag.core % 96) ag.die p.addr)
        else
          match locEntry (m.read64 .dev p.addr) (m.read64 .dev (p.addr + 8)) k with
          | some r => (.found r, if r.2 = 1 then m.cacheLoc ag.core desc k r.1 else m)
          | none => m.locate key seq desc k tbase log2n h n (i + 1)
      else
        let l := { blankLetter with op := 0x09, sz := 4, world := ag.secure, step := (m.bundle key).regs.stepTag }
        (.waits i, m.sendLetter ag.die (ag.core % 96) (aimLetter l m.pkg p) (.locq key seq) va none ag.asid [(va.toNat, 16)])

/-- Names a descriptor in the location cache. -/
def descKey (p : Piece) : Nat := if p.space = .scratch then 2 ^ 62 + p.addr else p.addr

/-- LOCQ (R350): after every earlier acquire of the control core. -/
def execLocq (o : Opn) (s : State) : Host.Outcome State Fault Refusal :=
  issue (tapeRule 0xCD 0 2) o s fun c m =>
    let d := o.d.toNat
    let out := fun (m : Mach) (r : W64 × W64) => Res.done (c.modRegs m fun x => (x.setS d r.1).setS (d + 1) r.2)
    match m.check c.agent ⟨c.sea, 32, 32, true, false, false, false, .local_, .allowed⟩ with
    | (.error e, m) => c.resolve m (c.everyLane c.sea e) false
    | (.ok ps, m) =>
      if m.threadBusy c.key c.grp .dev || m.threadBusy c.key c.grp .scratch then .hold
      else
        let (b, m) := c.takeOwn m 0 ps
        let k : W32 := (c.s d).setWidth 32
        let desc := descKey (onePiece ps)
        let x := fieldAt b 8 8
        if locBad b then let (n, m) := m.draw; out m (Config.word n, 4)
        else
          match (m.core c.core).loc.find? fun y => decide (y.1 = desc ∧ y.2.1 = k.toNat) with
          | some y => out m (y.2.2, 0)
          | none =>
            let (seq, m) := m.fresh
            let tbase : W64 := .ofNat 64 (fieldAt b 0 8)
            let h := locHash k (.ofNat 64 (fieldAt b 16 8)) (nfld x 4 0)
            match m.locate c.key seq desc k tbase (nfld x 4 0) h (nfld x 12 8) 0 with
            | (.found r, m) => out m r
            | (.waits i, m) =>
              .goto (m.modBundle c.key fun b => b.modLanes c.grp fun _ y =>
                { y with st := .wait (.locq d desc k tbase (nfld x 4 0) (nfld x 12 8) h i) seq c.size, pc := c.pc, last := m.clk }) []

/-- A waiting LOCQ ends with its results. -/
def Mach.locDone (m : Mach) (key seq d : Nat) (r : W64 × W64) : Mach :=
  m.modBundle key fun b => (b.wake seq false).modRegs fun x => (x.setS d r.1).setS (d + 1) r.2

/-- The reply to a waiting LOCQ, or the cause with which its letter failed (R350). -/
def Mach.locAnswer (m : Mach) (key seq : Nat) (got : Except Nat (W64 × W64)) : Mach :=
  match ((m.bundle key).lane 0).st with
  | .wait (.locq d desc k tbase log2n probes h i) n _ =>
    if n ≠ seq then m
    else
      match got with
      | .error cause => m.locDone key seq d (locFail cause)
      | .ok (lo, hi) =>
        match locEntry lo hi k with
        | some r => (if r.2 = 1 then m.cacheLoc (coreOfKey key) desc k r.1 else m).locDone key seq d r
        | none =>
          match m.locate key seq desc k tbase log2n h (probes - (i + 1)) (i + 1) with
          | (.found r, m) => m.locDone key seq d r
          | (.waits j, m) => m.modBundle key fun b => b.modLanes 1 fun _ x =>
            match x.st with
            | .wait _ n sz => { x with st := .wait (.locq d desc k tbase log2n probes h j) n sz }
            | _ => x
  | _ => m

/-- What LOCQ.inv allows and reads. -/
def locqInvRule : Rule :=
  { opc := 0xCD, form := fun _ => { fns := [1], modBits := 8, litB := false }, extra := fun o => decide (o.imm = 0) }

/-- LOCQ.inv (R351). -/
def execLocqInv (o : Opn) (s : State) : Host.Outcome State Fault Refusal :=
  issue locqInvRule o s fun c m =>
    if m.ops.any fun x => decide (x.key = c.key) && x.acq then .hold
    else .done (m.modCore c.core fun k => { k with loc := [] })

end Sys2Proof.Machine
end

