-- ==== Sys2Proof/Machine/Gather.lean ====
section
/-! DEFINITION. Gather, scatter and sparse formats (R251 to R266): HSET, GLD, GINV, GSC and NZSCAN. -/

namespace Sys2Proof.Machine

/-! ## Handle descriptors (R251 to R253) -/

def hBase (d : List Byte) : Nat := fieldAt d 0 8
def hLimit (d : List Byte) : Nat := fieldAt d 8 8
def hOfftab (d : List Byte) : Nat := fieldAt d 16 8
def hRows (d : List Byte) : Nat := fieldAt d 24 4
def hCols (d : List Byte) : Nat := fieldAt d 28 4
def hStride (d : List Byte) : Nat := fieldAt d 32 8
def hPstate (d : List Byte) : Nat := fieldAt d 40 8
def hFmt (d : List Byte) : Nat := nfld (fieldAt d 48 8) 1 0
def hEsize (d : List Byte) : Nat := 2 ^ nfld (fieldAt d 48 8) 3 2
def hWr (d : List Byte) : Bool := (fieldAt d 48 8).testBit 4
/-- Chunks of a row (R254). -/
def hCpr (d : List Byte) : Nat := (hCols d + 127) / 128

/-- A malformed descriptor (R252). -/
def handleBad (d : List Byte) : Bool :=
  decide (nfld (fieldAt d 48 8) 63 5 ≠ 0 ∨ fieldAt d 56 8 ≠ 0 ∨ hFmt d = 3 ∨ hBase d % 16 ≠ 0 ∨ hLimit d % 16 ≠ 0 ∨ hLimit d = 0
    ∨ hRows d = 0 ∨ 2 ^ 31 ≤ hRows d ∨ hCols d = 0 ∨ 2 ^ 31 ≤ hCols d
    ∨ (hFmt d = 0 ∧ hOfftab d ≠ 0) ∨ (hFmt d ≠ 0 ∧ (hOfftab d = 0 ∨ hOfftab d % 4 ≠ 0))
    ∨ (hFmt d ≠ 0 ∧ hStride d ≠ 0) ∨ hStride d % hEsize d ≠ 0
    ∨ (hPstate d ≠ 0 ∧ (hFmt d ≠ 1 ∨ hWr d = false ∨ hPstate d % 16 ≠ 0)) ∨ (hWr d = true ∧ hFmt d = 2))

def Team.handle? (t : Team) (n : Nat) : Option (List Byte) :=
  let d := Sparse.get [] t.handles n
  if d = [] then Option.none else some d

/-- Bind a handle. -/
def Mach.bindHandle (m : Mach) (tk n : Nat) (d : List Byte) : Mach := m.modTeam tk fun t => { t with handles := Sparse.put [] t.handles n d }

/-- What HSET allows and reads. -/
def hsetRule : Rule :=
  { opc := 0x9B, form := fun _ => { useD := true, useA := true, litB := false }
    opds := fun o => [.h o.d.toNat, .s o.a.toNat 1 1] }

/-- HSET (R253). -/
def execHset (o : Opn) (s : State) : Host.Outcome State Fault Refusal :=
  issue hsetRule o s fun c m =>
    let va := c.s o.a.toNat
    match m.check c.agent ⟨va, 64, 64, true, false, false, false, .local_, .allowed⟩ with
    | (.error e, m) => c.resolve m (c.everyLane va e) false
    | (.ok ps, m) =>
      if ps.any fun p => m.mustWait c.key c.grp p.space p.addr p.len then .hold
      else
        let (d, m) := c.takeOwn m (lowestLane c.grp) ps
        if handleBad d then .trap m (c.trap clsOperand 0x27) else .done (m.bindHandle c.tk o.d.toNat d)

/-! ## The fetch cache (R260, R261) -/

/-- What GINV allows and reads. -/
def ginvRule : Rule :=
  { opc := 0x9C, form := fun _ => { litB := false } }

/-- GINV (R261): it waits for the acquires before it. -/
def execGinv (o : Opn) (s : State) : Host.Outcome State Fault Refusal :=
  issue ginvRule o s fun c m =>
    if m.ops.any fun x => decide (x.key = c.key) && x.acq && x.parts.any fun p => !p.done && c.grp.getLsbD p.lane then .hold
    else .done (m.modCore c.core fun k => { k with fcache := [] })

/-- What one lane's decode has read: its lines, and whether one had an uncorrectable error. -/
structure Decode where
  lines : List (Nat × List Byte)
  bad : Bool
  m : Mach

/-- A line as GLD receives it: as cached, or as it stands (R260). The cache holds 1,024 lines; which one it gives up is open. -/
def Mach.gatherLine (m : Mach) (core line : Nat) : List Byte × Bool × Mach :=
  let cur := m.readBytes .dev (line * 128) 128
  let held := Sparse.get [] (m.core core).fcache line
  let (got, m) := m.pick cur (if held = [] ∨ held = cur then [cur] else [cur, held])
  if got = held then (got, false, m)
  else
    let keys := (m.core core).fcache.map (·.1)
    let (gone, m) := if keys.length < 1024 then (none, m) else m.pick none (keys.map some)
    (got, m.damaged .dev (line * 128) 128, m.modCore core fun k =>
      { k with fcache := Sparse.put [] (match gone with | some g => Sparse.put [] k.fcache g [] | none => k.fcache) line got })

/-- A read of a lane's decode: n bytes at an offset of the data area (area true) or at an address (R258). -/
def Ctx.gread (c : Ctx) (d : List Byte) (area : Bool) (off n : Nat) (g : Decode) : Except (Nat × W64) (Nat × Nat) × Decode :=
  let va : W64 := .ofNat 64 (if area then hBase d + off else off)
  if area && decide (hLimit d < off + n) then (.error (0x28, va), g)
  else
    match g.m.check c.agent ⟨va, n, n, true, false, false, false, .local_, .denied 0x2A⟩ with
    | (.error e, m) => (.error (e, va), { g with m := m })
    | (.ok ps, m) =>
      let pa := (onePiece ps).addr
      let val := fun (bs : List Byte) => leNat ((bs.drop (pa % 128)).take n)
      match g.lines.find? fun x => decide (x.1 = pa / 128) with
      | some x => (.ok (val x.2, pa), { g with m := m })
      | none =>
        let (bs, bad, m) := m.gatherLine c.core (pa / 128)
        (.ok (val bs, pa), { lines := (pa / 128, bs) :: g.lines, bad := g.bad || bad, m := m })

/-! ## Decoding (R254 to R257) -/

/-- What a lane's decode finds: value, its address and physical address if it was read, its column, and whether the decode read the
value's line for nothing else. -/
structure Found where
  val : Nat
  va : W64
  pa : Option Nat
  col : Nat
  alone : Bool
  deriving DecidableEq, Repr

def noElem : Found := ⟨0, 0, none, 0xFFFFFFFF, false⟩

/-- The value at an offset of the data area. -/
def Ctx.gvalue (c : Ctx) (d : List Byte) (off col : Nat) (g : Decode) : Except (Nat × W64) Found × Decode :=
  match c.gread d true off (hEsize d) g with
  | (.error e, g') => (.error e, g')
  | (.ok (v, pa), g') => (.ok ⟨v, .ofNat 64 (hBase d + off), some pa, col, !(g.lines.any fun x => decide (x.1 = pa / 128))⟩, g')

/-- The bitmap of chunk q and where the chunk lies; none for an absent chunk (R254). -/
def Ctx.gchunk (c : Ctx) (d : List Byte) (q : Nat) (g : Decode) : Except (Nat × W64) (Option (Nat × Nat)) × Decode :=
  match c.gread d false (hOfftab d + 4 * q) 4 g with
  | (.error e, g) => (.error e, g)
  | (.ok (o, _), g) =>
    if o = 0xFFFFFFFF then (.ok none, g)
    else
      match c.gread d true (16 * o) 16 g with
      | (.error e, g) => (.error e, g)
      | (.ok (bm, _), g) =>
        let cols := hCols d - 128 * (q % hCpr d)
        if bm / 2 ^ cols ≠ 0 then (.error (0x28, .ofNat 64 (hBase d + 16 * o)), g) else (.ok (some (bm, 16 * o)), g)

/-- Set bits of a bitmap below j. -/
def bitsBelow (bm j : Nat) : Nat := ((List.range j).filter fun i => bm.testBit i).length

/-- Element (r, c) of a BPC128 handle. -/
def Ctx.gbpc (c : Ctx) (d : List Byte) (r col : Nat) (g : Decode) : Except (Nat × W64) Found × Decode :=
  match c.gchunk d (r * hCpr d + col / 128) g with
  | (.error e, g) => (.error e, g)
  | (.ok none, g) => (.ok noElem, g)
  | (.ok (some (bm, at_)), g) =>
    if ¬ bm.testBit (col % 128) then (.ok noElem, g)
    else c.gvalue d (at_ + 16 + bitsBelow bm (col % 128) * hEsize d) col g

/-- The position of set bit number k of a bitmap, counted from 0. -/
def nthBit (bm k : Nat) : Nat := ((List.range 128).filter fun i => bm.testBit i).getD k 0

/-- Stored number k of row r, from its chunk `ci` on; n chunks are left. -/
def Ctx.gbpcNth (c : Ctx) (d : List Byte) (r : Nat) : Nat → Nat → Nat → Decode → Except (Nat × W64) Found × Decode
  | 0, _, _, g => (.ok noElem, g)
  | n + 1, ci, k, g =>
    match c.gchunk d (r * hCpr d + ci) g with
    | (.error e, g) => (.error e, g)
    | (.ok none, g) => c.gbpcNth d r n (ci + 1) k g
    | (.ok (some (bm, at_)), g) =>
      if k < bitsBelow bm 128 then c.gvalue d (at_ + 16 + k * hEsize d) (128 * ci + nthBit bm k) g
      else c.gbpcNth d r n (ci + 1) (k - bitsBelow bm 128) g

/-- Code number i of a DRL stream whose first byte is at an offset of the data area (R47, R255). -/
def Ctx.gcode (c : Ctx) (d : List Byte) (at_ i : Nat) (g : Decode) : Except (Nat × W64) Nat × Decode :=
  match c.gread d true (at_ + i / 2) 1 g with
  | (.error e, g) => (.error e, g)
  | (.ok (x, _), g) => (.ok (x / 16 ^ (i % 2) % 16), g)

/-- A number of n codes from code i on, low nibble first. -/
def Ctx.gcodes (c : Ctx) (d : List Byte) (at_ : Nat) : Nat → Nat → Decode → Except (Nat × W64) Nat × Decode
  | 0, _, g => (.ok 0, g)
  | n + 1, i, g =>
    match c.gcode d at_ i g with
    | (.error e, g) => (.error e, g)
    | (.ok x, g) =>
      match c.gcodes d at_ n (i + 1) g with
      | (.error e, g) => (.error e, g)
      | (.ok y, g) => (.ok (x + 16 * y), g)

/-- A gap: its value, and the code after it. -/
def Ctx.ggap (c : Ctx) (d : List Byte) (at_ i : Nat) (g : Decode) : Except (Nat × W64) (Nat × Nat) × Decode :=
  match c.gcode d at_ i g with
  | (.error e, g) => (.error e, g)
  | (.ok x, g) =>
    if x ≠ 15 then (.ok (x, i + 1), g)
    else
      match c.gcodes d at_ 4 (i + 1) g with
      | (.error e, g) => (.error e, g)
      | (.ok h, g) =>
        if h ≠ 0xFFFF then (.ok (h, i + 5), g)
        else
          match c.gcodes d at_ 8 (i + 5) g with
          | (.error e, g) => (.error e, g)
          | (.ok h, g) => (.ok (h, i + 13), g)

/-- Walk the positions of a record from stored number k on, `next` the least position that k may have; stop where `stop k p` holds.
The stored number and position that stopped it, or none after the last. -/
def Ctx.gwalk (c : Ctx) (d : List Byte) (at_ : Nat) (stop : Nat → Nat → Bool) :
    Nat → Nat → Nat → Nat → Decode → Except (Nat × W64) (Option (Nat × Nat)) × Decode
  | 0, _, _, _, g => (.ok none, g)
  | n + 1, k, next, i, g =>
    match c.ggap d at_ i g with
    | (.error e, g) => (.error e, g)
    | (.ok (gap, j), g) =>
      let p := next + gap
      if hCols d ≤ p then (.error (0x28, .ofNat 64 (hBase d + at_ + i / 2)), g)
      else if stop k p then (.ok (some (k, p)), g)
      else c.gwalk d at_ stop n (k + 1) (p + 1) j g

/-- A row's record (R255): NNZ, VOFF and the offset of the record, or none for an empty row. -/
def Ctx.grecord (c : Ctx) (d : List Byte) (r : Nat) (g : Decode) : Except (Nat × W64) (Option (Nat × Nat × Nat)) × Decode :=
  match c.gread d false (hOfftab d + 4 * r) 4 g with
  | (.error e, g) => (.error e, g)
  | (.ok (o, _), g) =>
    if o = 0xFFFFFFFF then (.ok none, g)
    else
      match c.gread d true (16 * o) 16 g with
      | (.error e, g) => (.error e, g)
      | (.ok (x, _), g) =>
        let nnz := nfld x 31 0
        if nfld x 63 32 ≠ 0 ∨ nfld x 127 96 ≠ 0 then (.error (0x28, .ofNat 64 (hBase d + 16 * o)), g)
        else (.ok (some (nnz, nfld x 95 64, 16 * o)), g)

/-- A DRL row: the element at a column, or with `nth` the stored number `col`, for which the walk goes on to the last of the positions. -/
def Ctx.gdrl (c : Ctx) (d : List Byte) (nth : Bool) (r col : Nat) (g : Decode) : Except (Nat × W64) Found × Decode :=
  match c.grecord d r g with
  | (.error e, g) => (.error e, g)
  | (.ok none, g) => (.ok noElem, g)
  | (.ok (some (nnz, voff, at_)), g) =>
    match c.gwalk d (at_ + 16) (fun k p => if nth then decide (k = col) else decide (col ≤ p)) nnz 0 0 0 g with
    | (.error e, g) => (.error e, g)
    | (.ok none, g) => (.ok noElem, g)
    | (.ok (some (k, p)), g) => if nth ∨ p = col then c.gvalue d (16 * voff + k * hEsize d) p g else (.ok noElem, g)

/-- Element (r, c), or stored number c of row r (R257). -/
def Ctx.gelem (c : Ctx) (d : List Byte) (nth : Bool) (r col : Nat) (g : Decode) : Except (Nat × W64) Found × Decode :=
  if hRows d ≤ r ∨ (nth = false ∧ hCols d ≤ col) then (.ok noElem, g)
  else
    match hFmt d with
    | 0 => c.gvalue d (r * hStride d + col * hEsize d) col g
    | 1 => if nth then c.gbpcNth d r (hCpr d) 0 col g else c.gbpc d r col g
    | _ => c.gdrl d nth r col g

/-! ## GLD (R256 to R259) -/

def gldRule : Rule where
  opc := 0x98
  form _ := { fns := [0, 1, 2], useD := true, useA := true, useB := true, mask := 2, la := true }
  opds o := [.v o.d.toNat 1 (if o.fn = 2 then 2 else 1), .h o.a.toNat, if o.fn = 1 then .v o.b.toNat 2 2 else .s o.b.toNat 1 1]

/-- Row and column, or stored number, of a lane. -/
def Ctx.coord (c : Ctx) (l : Nat) : Nat × Nat :=
  let o := c.o
  if o.fn = 1 then ((c.v (o.b.toNat + 1) l).toNat, (c.v o.b.toNat l).toNat)
  else (fld (c.s o.b.toNat) 31 0, fld (c.s o.b.toNat) 63 32 + l)

/-- Registers that a GLD fills in each lane. -/
def gldRegs (nz : Bool) (es : Nat) : Nat := (if es = 8 then 2 else 1) + boolNat nz

/-- Decode every lane in order: the parts that return its element, and the conditions met. A value on a line that the lane's decode
read for something else comes from the same instant, so that it is never read again (R260). -/
def Ctx.gldLanes (c : Ctx) (d : List Byte) (nth : Bool) : List Nat → Mach → List Part × List Cond × Mach
  | [], m => ([], [], m)
  | l :: r, m =>
    match c.gelem d nth (c.coord l).1 (c.coord l).2 ⟨[], false, m⟩ with
    | (.error (e, va), g) => let (ps, cs, m) := c.gldLanes d nth r g.m; (ps, condOf l va e :: cs, m)
    | (.ok f, g) =>
      let (ps, cs, m) := c.gldLanes d nth r g.m
      let p : Piece := ⟨.dev, f.pa.getD 0, if f.alone then hEsize d else 0, none, 0⟩
      (part l p f.va (.elem (.ofNat 64 f.val) (if nth then some (.ofNat 32 f.col) else none) g.bad) :: ps, cs, m)

/-- GLD (R256 to R259). -/
def execGld (o : Opn) (s : State) : Host.Outcome State Fault Refusal :=
  issue gldRule o s fun c m =>
    let nz := decide (o.fn = 2)
    let h := c.tm.handle? o.a.toNat
    let es := (h.map hEsize).getD 4
    let n := gldRegs nz es
    if ¬ (Opd.v o.d.toNat n (if nz ∨ es = 8 then 2 else 1)).ok c then .trap m (c.trap clsOperand 0x63)
    else
      match h.filter fun d => !(nz && decide (hFmt d = 0)) with
      | none => .trap m (c.trap clsOperand 0x29)
      | some d =>
        match c.gldLanes d nz (laneList c.act) m with
        | (_, x :: xs, m) => c.resolve m (x :: xs) false
        | (parts, [], m) =>
          if m.trackerFull c.core parts || c.counterFull 2 then .hold
          else
            let m := c.zeroMasked m n
            let (id, m) := m.count c.key 2
            if parts = [] then .done (m.complete c.key id)
            else .done { m with ops := m.ops ++ [{
              id := id, key := c.key, acq := false, rel := false, serial := false, dest := .gather o.d.toNat es nz, size := es
              win := c.windows, parts := parts, counted := true, asid := c.g.asid }] }

/-! ## GSC (R262 to R265) -/

/-- Types that an operation of GSC FN 1 takes. -/
def gscTys (op : Nat) : List Nat :=
  match op with
  | 0 => [0, 1, 2, 3, 4, 7]
  | 1 | 2 => [0, 1, 2, 3, 4]
  | 3 => [1, 3]
  | _ => []

def gscRule : Rule where
  opc := 0x99
  form o := { fns := [0, 1, 2], modBits := if o.fn = 1 then 7 else 0, useD := true, useA := true, useB := true, mask := 1
              tys := if o.fn = 1 then gscTys (fld o.mods 2 0) else [0] }
  opds o := [.v o.d.toNat 1 1, .h o.a.toNat, if o.fn = 2 then .s o.b.toNat 1 1 else .v o.b.toNat 2 2]

/-- The handle meets what the function needs (R262). -/
def gscFits (o : Opn) (d : List Byte) : Bool :=
  hWr d && (if o.fn = 2 then decide (hFmt d = 1 ∧ hPstate d ≠ 0) else decide (hFmt d = 0))
    && (decide (o.fn ≠ 1) || decide (hEsize d = if wideTy o.ty.toNat then 8 else 4))

/-- The element address of a lane, checked for a write; none where its index is out of bounds (R263). -/
def Ctx.gscCheck (c : Ctx) (d : List Byte) : List Nat → Mach → List (Nat × Piece × W64) × List Cond × Mach
  | [], m => ([], [], m)
  | l :: r, m =>
    let row := (c.v (c.o.b.toNat + 1) l).toNat
    let col := (c.v c.o.b.toNat l).toNat
    let off := row * hStride d + col * hEsize d
    let va : W64 := .ofNat 64 (hBase d + off)
    if hRows d ≤ row ∨ hCols d ≤ col then c.gscCheck d r m
    else if hLimit d < off + hEsize d then let (ps, cs, m) := c.gscCheck d r m; (ps, condOf l va 0x28 :: cs, m)
    else
      match m.check c.agent ⟨va, hEsize d, hEsize d, false, true, false, false, .local_, .denied 0x2A⟩ with
      | (.error e, m) => let (ps, cs, m) := c.gscCheck d r m; (ps, condOf l va e :: cs, m)
      | (.ok p, m) => let (ps, cs, m) := c.gscCheck d r m; ((l, onePiece p, va) :: ps, cs, m)

/-- A lane's value. -/
def Ctx.gscVal (c : Ctx) (es l : Nat) : Nat := (if es = 8 then (c.v2 c.o.d.toNat l).toNat else (c.v c.o.d.toNat l).toNat) % 2 ^ (8 * es)

/-- FN 0: writes, of which a higher lane's covers a lower one's. -/
def Ctx.gscWrites (c : Ctx) (es : Nat) (ps : List (Nat × Piece × W64)) : List Part :=
  (ps.zip (topCells (ps.map fun x => (x.1, .dev, cellsAt x.2.1.addr (leBytes es (c.gscVal es x.1)))))).map fun y =>
    part y.1.1 y.1.2.1 y.1.2.2 (.write y.2.2.2)

/-- The ATOM function of a combining operation. -/
def gscFn (op ty : Nat) : Nat :=
  if op = 3 then 4
  else if ty = 4 ∨ ty = 7 then (if op = 0 then 8 else if op = 1 then 9 else 10) else op

/-- FN 1: the lanes that name one element are combined in increasing order and applied once, by the lowest of them; the others' parts,
which do nothing, come after it. -/
def Ctx.gscCombine (c : Ctx) (es : Nat) : List Nat → List (Nat × Piece × W64) → List Part
  | _, [] => []
  | seen, (l, p, va) :: r =>
    if seen.contains p.addr then part l p va (.write []) :: c.gscCombine es seen r
    else
      let fn := gscFn (fld c.o.mods 2 0) c.o.ty.toNat
      let x := r.foldl (fun x y => if y.2.1.addr = p.addr then atomNew fn c.o.ty.toNat x (c.gscVal es y.1) 0 else x) (c.gscVal es l)
      part l p va (.rmw fn c.o.ty.toNat (.ofNat 64 x) 0) :: c.gscCombine es (p.addr :: seen) r

/-- The stored elements of a chunk (R264): positions and values. -/
def Ctx.packElems (c : Ctx) (d : List Byte) (q : Nat) : List (Nat × W64) :=
  let es := hEsize d
  (List.range 128).filterMap fun k =>
    let l := k % Config.bwidth
    let r := c.o.d.toNat + k / Config.bwidth * (if es = 8 then 2 else 1)
    let v := (if es = 8 then (c.v2 r l).toNat else (c.v r l).toNat) % 2 ^ (8 * es)
    if c.act.getLsbD l ∧ v ≠ 0 ∧ 128 * (q % hCpr d) + k < hCols d then some (k, .ofNat 64 v) else none

/-- GSC.bpc: the checks made before anything is written, and the operation left outstanding (R264). -/
def Ctx.packChunk (c : Ctx) (m : Mach) (d : List Byte) : Res :=
  let q := fld (c.s c.o.b.toNat) 31 0
  let pva : W64 := .ofNat 64 (hPstate d)
  let ova : W64 := .ofNat 64 (hOfftab d + 4 * q)
  if hRows d * hCpr d ≤ q then .trap m (c.trap clsOperand 0x29)
  else
    match m.check c.agent ⟨pva, 16, 16, false, true, false, false, .local_, .denied 0x2A⟩ with
    | (.error e, m) => c.resolve m (c.everyLane pva e) true
    | (.ok ps, m) =>
      match m.check c.agent ⟨ova, 4, 4, false, true, false, false, .local_, .denied 0x2A⟩ with
      | (.error e, m) => c.resolve m (c.everyLane ova e) true
      | (.ok qs, m) =>
        let parts := [part (lowestLane c.grp) (onePiece ps) pva (.pack d q (onePiece qs).addr (c.packElems d q) 0 0 none)]
        if m.trackerFull c.core parts || c.counterFull 2 then .hold
        else
          let (id, m) := m.count c.key 2
          .done { m with ops := m.ops ++ [{
            id := id, key := c.key, acq := false, rel := false, serial := false, dest := .none, size := 16, win := [], parts := parts
            counted := true, asid := c.g.asid }] }

/-- GSC (R262 to R265). -/
def execGsc (o : Opn) (s : State) : Host.Outcome State Fault Refusal :=
  issue gscRule o s fun c m =>
    let h := c.tm.handle? o.a.toNat
    let es := (h.map hEsize).getD 4
    let n := (if o.fn = 2 then 4 else 1) * (if es = 8 then 2 else 1)
    if ¬ (Opd.v o.d.toNat n (if es = 8 then 2 else 1)).ok c then .trap m (c.trap clsOperand 0x63)
    else
      match h.filter (gscFits o) with
      | none => .trap m (c.trap clsOperand 0x29)
      | some d =>
        if o.fn = 2 then c.packChunk m d
        else
          match c.gscCheck d (laneList c.act) m with
          | (_, x :: xs, m) => c.resolve m (x :: xs) true
          | (ps, [], m) =>
            let parts := if o.fn = 0 then c.gscWrites es ps else c.gscCombine es [] ps
            if m.trackerFull c.core parts || c.counterFull 2 || ps.any fun x => m.mustWait c.key (laneBit x.1) .dev x.2.1.addr es then .hold
            else
              let (id, m) := m.count c.key 2
              if parts = [] then .done (m.complete c.key id)
              else .done { m with ops := m.ops ++ [{
                id := id, key := c.key, acq := false, rel := false, serial := decide (o.fn = 1), dest := .none, size := es, win := []
                parts := parts, counted := true, asid := c.g.asid }] }

/-- One byte of a chunk after another: the cause of the first that may not be written (R264). -/
def Mach.packCheck (m : Mach) (ag : Agent) (va : Nat) : Nat → Except (Nat × W64) (List Nat) × Mach
  | 0 => (.ok [], m)
  | n + 1 =>
    match m.packCheck ag va n with
    | (.error e, m) => (.error e, m)
    | (.ok as, m) =>
      match m.check ag ⟨.ofNat 64 (va + n), 1, 1, false, true, false, false, .local_, .denied 0x2A⟩ with
      | (.error e, m) => (.error (e, .ofNat 64 (va + n)), m)
      | (.ok ps, m) => (.ok (as ++ [(onePiece ps).addr]), m)

/-- The bytes of a chunk: bitmap, values, padding (R254). -/
def packBytes (es : Nat) (elems : List (Nat × W64)) : List Byte :=
  let vals := elems.flatMap fun x => leBytes es x.2.toNat
  leBytes 16 (elems.foldl (fun b x => b + 2 ^ x.1) 0) ++ vals ++ List.replicate ((16 - vals.length % 16) % 16) 0

/-- The claim of a chunk's units, one atomic step on the pack state at pa (R264): the first unit, if there is room. -/
def Mach.claimUnits (m : Mach) (d : List Byte) (pa q units : Nat) : Option Nat × Mach :=
  let a := m.readNat .dev pa 8
  let b := m.readNat .dev (pa + 8) 8
  let cur := a % 2 ^ 32
  if ¬ b.testBit 63 ∧ (cur + units) * 16 ≤ hLimit d then (some cur, m.writeNat .dev pa 4 ((cur + units) % 2 ^ 32))
  else
    let m := if b.testBit 63 then m else m.writeNat .dev (pa + 8) 8 (2 ^ 63 + nfld b 62 32 * 2 ^ 32 + q)
    (none, m.writeNat .dev (pa + 4) 4 (min (a / 2 ^ 32 + 1) (2 ^ 32 - 1)))

/-- The next step of GSC.bpc (R264): the claim, then the chunk, then the offset entry. The part afterwards, and whether it is done. -/
def Mach.packStep (m : Mach) (key id : Nat) (p : Part) : Part × Mach :=
  match p.kind with
  | .pack d q offPa elems stage unit fail =>
    let absent := fun (m : Mach) => ({ p with done := true }, m.writeNat .dev offPa 4 0xFFFFFFFF)
    let es := hEsize d
    let units := packUnits es elems.length
    match stage with
    | 0 =>
      if elems = [] then absent m
      else
        let m := m.expose (coreOfKey key % 96) (dieOfCore (coreOfKey key)) p.addr 16
        match m.claimUnits d p.addr q units with
        | (none, m) => absent m
        | (some u, m) => ({ p with kind := .pack d q offPa elems 1 u none }, m)
    | 1 =>
      match m.packCheck (m.agentOf key) (hBase d + 16 * unit) (16 * units) with
      | (.error e, m) => ({ p with kind := .pack d q offPa elems 2 unit (some e) }, m)
      | (.ok as, m) =>
        ({ p with kind := .pack d q offPa elems 2 unit none }, m.writeCells .dev (as.zip (packBytes es elems)))
    | _ =>
      match fail with
      | some e => let (p, m) := absent m; (p, m.mark key id clsAsync clsAsync 2 e.1 e.2)
      | none => ({ p with done := true }, m.writeNat .dev offPa 4 unit)
  | _ => (p, m)

/-! ## NZSCAN (R266) -/

/-- A value is non-zero by its type. -/
def nonZero (ty : Nat) (x : W32) : Bool :=
  if ty = 4 then decide (fld x 30 0 ≠ 0) else if ty = 5 ∨ ty = 6 then decide (fld x 14 0 ≠ 0) else decide (x ≠ 0)

/-- What NZSCAN allows and reads. -/
def nzscanRule : Rule :=
  { opc := 0x9A
    form := fun _ => { useD := true, useA := true, useB := true, mask := 1, tys := [0, 1, 4, 5, 6] }
    opds := fun o => [.v o.d.toNat 1 1, .v o.a.toNat 1 1, .s o.b.toNat 1 1] }

/-- NZSCAN (R266). -/
def execNzscan (o : Opn) (s : State) : Host.Outcome State Fault Refusal :=
  issue nzscanRule o s fun c m =>
    let x := c.s o.b.toNat
    let e := fld x 31 0
    let idx := ((laneList c.act).filter fun l => nonZero (typeOf o 4) (c.v o.a.toNat l)).map fun l => e + l
    let ws := (laneList c.act).mapIdx fun k l => (o.d.toNat * 32 + l, BitVec.ofNat 32 (idx.getD k 0xFFFFFFFF))
    .done (c.setS (c.modRegs m fun r => r.writeAll ws) o.b.toNat
      (.ofNat 64 ((fld x 63 32 + idx.length) % 2 ^ 32 * 2 ^ 32 + (e + Config.bwidth) % 2 ^ 32)))

end Sys2Proof.Machine
end

