-- ==== Sys2Proof/Machine/Matrix.lean ====
section
/-! DEFINITION. The matrix engine (R267 to R290): MXP, MXD and their groups, LDT, UNPK, ACCMV, MXSAVE, MXLOAD, MXCLR and MXSTAT. -/

namespace Sys2Proof.Machine

/-! ## Layouts and modes (R269 to R271) -/

/-- G and A registers per group of a pairing of element types (R271). -/
def mxMode (ea eb : Nat) : Option (Nat × Nat) :=
  if (ea = 2 ∨ ea = 3) ∧ (eb = 2 ∨ eb = 3) then some (16, 16)
  else if (ea = 4 ∨ ea = 5) ∧ (eb = 4 ∨ eb = 5) then some (32, 16)
  else if ea = 6 ∧ eb = 6 then some (64, 16)
  else if ea = 9 ∧ eb = 7 then some (128, 16)
  else if ea = 7 ∧ eb = 9 then some (128, 64)
  else none

/-- Bytes of one group of B (R270). -/
def mxGB (g eb : Nat) : Nat := 64 * g * etypeBits eb / 8

/-- Element (row, k) of element size e of a run in A layout (R269). -/
def aCode (e : Nat) (run : List W32) (row k : Nat) : Nat :=
  let w := run.getD ((4 * (k * e / 64) + row / 16) * 32 + row % 16 + 16 * (k * e % 64 / 32)) 0
  fld w (e * (k % (32 / e)) + e - 1) (e * (k % (32 / e)))

/-- Registers of a scale run: the layout with e = 8 (R269). -/
def scaleRegs (kd : Nat) : Nat := 4 * ((kd / 32 + 7) / 8)

/-- A group's parameters. -/
def MxArgs.g (a : MxArgs) : Nat := ((mxMode (slotEtype a.fa) (slotEtype a.fb)).map (·.1)).getD 16
def MxArgs.ternary (a : MxArgs) : Bool := decide (slotEtype a.fa = 9 ∨ slotEtype a.fb = 9)

def MxArgs.a (x : MxArgs) (row k : Nat) : Nat := aCode (etypeBits (slotEtype x.fa)) x.arun row k
def MxArgs.aScale (x : MxArgs) (row k : Nat) : Nat := aCode 8 x.srun row (k / 32)

/-- Element (k, n) of an image at a team offset (R270); `base` is the key of the team's scratchpad. -/
def Mach.mxB (m : Mach) (base : Nat) (x : MxArgs) (off k n : Nat) : Nat :=
  let e := etypeBits (slotEtype x.fb)
  let g := x.g
  let at_ := off + swizzle x.bswz (k / g * mxGB g (slotEtype x.fb) + n * g * e / 8 + k % g * e / 8)
  if 8 ≤ e then m.readNat .scratch (base + at_) (e / 8)
  else (m.readByte .scratch (base + at_)).toNat / 2 ^ (k % g * e % 8) % 2 ^ e

def Mach.mxBScale (m : Mach) (base : Nat) (x : MxArgs) (k n : Nat) : Nat :=
  (m.readByte .scratch (base + x.bsoff + 64 * (k / 32) + n)).toNat

/-- The value of an element: its code times its scale (R271). -/
def mxVal (slot : BitVec 128) (code scale : Nat) : Val :=
  ((etypeVal (slotEtype slot) code).mul (if slotSmode slot = 1 then e8m0 scale else slotScaleVal slot)).1

def MxArgs.aVal (x : MxArgs) (row k : Nat) : Val := mxVal x.fa (x.a row k) (x.aScale row k)
def Mach.bVal (m : Mach) (base : Nat) (x : MxArgs) (off k n : Nat) : Val :=
  mxVal x.fb (m.mxB base x off k n) (m.mxBScale base x k n)

/-! ## Groups (R272, R278) -/

/-- SignSelect of a T2 code. -/
def signSelect (t2 : Nat) (v : Int) : Int := if t2 = 1 then v else if t2 = 3 then -v else 0

/-- The four terms of a ternary group. -/
def Mach.ternaryTerms (m : Mach) (base : Nat) (x : MxArgs) (g row n : Nat) : List Val :=
  let ta := decide (slotEtype x.fa = 9)
  (List.range 4).map fun j =>
    let k0 := 128 * g + 32 * j
    let s := (List.range 32).foldl (fun (s : Int) i =>
      let a := x.a row (k0 + i)
      let b := m.mxB base x x.boff (k0 + i) n
      s + if ta then signSelect a (sval 8 b) else signSelect b (sval 8 a)) 0
    let scale := e8m0 (if ta then x.aScale row k0 else m.mxBScale base x k0 n)
    (((valOfInt false s 0).mul scale).1.mul (slotScaleVal (if ta then x.fb else x.fa))).1

/-- The products of a group for an element of its tile. Of an MXD, groups from NG on are those of dW. -/
def Mach.mxTerms (m : Mach) (base : Nat) (x : MxArgs) (mxd : Bool) (g r c : Nat) : List Val :=
  let w := x.g
  if mxd then
    if g < x.ng then (List.range w).map fun i => ((x.aVal r (g * w + i)).mul (m.bVal base x x.boff c (g * w + i))).1
    else (List.range w).map fun i =>
      let k := (g - x.ng) * w + i
      ((m.bVal base x x.xoff k r).mul (x.aVal k c)).1
  else if x.ternary then m.ternaryTerms base x g r c
  else (List.range w).map fun i => ((x.aVal r (g * w + i)).mul (m.bVal base x x.boff (g * w + i) c)).1

def Val.isInf (neg : Bool) : Val → Bool
  | .inf s => s == neg
  | _ => false

/-- A term as a multiple of 2^q, truncated toward zero. -/
def Val.truncTo (q : Int) : Val → Int
  | .fin neg m e => (if neg then -1 else 1) * ((if q ≤ e then m <<< (e - q).toNat else m >>> (q - e).toNat : Nat) : Int)
  | _ => 0

/-- Matrix status bits (R289). -/
def mxInf : Nat := 2
def mxNan : Nat := 4
def mxRsv : Nat := 8
def mxMm2 : Nat := 16
def mxPre : Nat := 32

/-- GroupSum (R272): the ACC40 result, and the status bits that it sets. -/
def groupSum (ts : List Val) : Nat × Nat :=
  let f := fmtAcc40
  let pos := ts.any (Val.isInf false)
  let neg := ts.any (Val.isInf true)
  if ts.any Val.isNan || (pos && neg) then (f.nanBits, mxNan)
  else if pos || neg then (f.sign neg + f.infBits, mxInf)
  else
    match (ts.filter Val.finiteNonzero).map Val.top with
    | [] => (f.sign (ts.all Val.negative), 0)
    | t :: r =>
      let q := r.foldl max t - 47
      let s := ts.foldl (fun (n : Int) v => n + v.truncTo q) 0
      if s = 0 then (0, 0)
      else
        let (b, fl) := f.deliver 0 false (valOfInt false s q)
        (b, if fl &&& flOF ≠ 0 then mxInf else 0)

/-- Element i (row-major) of a physical tile (R59). -/
def Core.accAt (k : Core) (tile i : Nat) : BitVec 40 := Sparse.get 0 k.acc (tile * 4096 + i)
def Core.setAcc (k : Core) (tile i : Nat) (x : BitVec 40) : Core := { k with acc := Sparse.put 0 k.acc (tile * 4096 + i) x }

/-- A reserved T2 code is among those that a group reads (R57). -/
def Mach.mxReserved (m : Mach) (base : Nat) (x : MxArgs) (g : Nat) : Bool :=
  x.ternary && (List.range 128).any fun i => (List.range 64).any fun j =>
    if slotEtype x.fa = 9 then decide (x.a j (128 * g + i) = 2) else decide (m.mxB base x x.boff (128 * g + i) j = 2)

/-- The tile that a group adds to, its group number there, and the first group's zero carry. -/
def MxArgs.target (x : MxArgs) (mxd : Bool) (g : Nat) : Nat × Bool :=
  if mxd && decide (x.ng ≤ g) then (x.dt, x.zc && decide (g = x.ng)) else (x.ct, x.zc && decide (g = 0))

/-- The results of a group for the 4,096 elements of its tile. -/
def Mach.mxGroup (m : Mach) (core base tile : Nat) (x : MxArgs) (mxd zero : Bool) (g : Nat) : List (Nat × Nat) :=
  (List.range 4096).map fun i =>
    groupSum ((if zero then Val.fin false 0 0 else fmtAcc40.decode ((m.core core).accAt tile i).toNat)
      :: m.mxTerms base x mxd g (i / 64) (i % 64))

/-- Results that the second computation of a group got wrong: free values (R280). -/
def Mach.mxWrong (m : Mach) : List (Nat × Nat) × Mach :=
  ((List.range 4096).map fun i =>
    let b := (Config.word (m.free + i)).toNat % 2 ^ 40
    (b, match fmtAcc40.decode b with | .nan _ => mxNan | .inf _ => mxInf | _ => 0),
   { m with free := m.free + 4096 })

/-! ## The engine (R267, R268, R280, R281) -/

/-- The oldest queued instruction of the highest class present. -/
def Mach.mxNext (m : Mach) (core : Nat) : Option MxJob :=
  let cls := fun (x : MxJob) => (m.gridOf (m.team x.team)).cls
  (m.core core).mx.foldl (fun b x =>
    match b with
    | none => some x
    | some y => if cls y < cls x then some x else b) none

/-- Instructions begun that another goes before are pre-empted (R289). -/
def Mach.mxOvertake (m : Mach) (core : Nat) (x : MxJob) : Mach :=
  ((m.core core).mx.filter fun y => decide (y.id ≠ x.id ∧ 0 < y.g)).foldl (fun m y =>
    m.modTeam y.team fun t => { t with mstat := t.mstat ||| BitVec.ofNat 64 mxPre }) m

/-- A queued instruction is done: its entry is free and its operation complete. -/
def Mach.mxDone (m : Mach) (core : Nat) (x : MxJob) : Mach :=
  let m := m.modCore core fun k => { k with mx := k.mx.filter fun y => decide (y.id ≠ x.id) }
  match x.out with
  | some id => m.complete x.key id
  | none => m

/-- The issuing threads' accesses before a queued instruction are not all performed (R282). -/
def Mach.mxWaits (m : Mach) (x : MxJob) : Bool := (laneList x.lanes).any fun l => m.issuerBusy x.key l x.id

/-- Write a group's results and set the team's status. -/
def Mach.mxWrite (m : Mach) (core tk tile : Nat) (res : List (Nat × Nat)) (fl : Nat) : Mach :=
  let m := m.modCore core fun k => (res.mapIdx fun i x => (i, x.1)).foldl (fun k p => k.setAcc tile p.1 (.ofNat 40 p.2)) k
  let bits := res.foldl (fun b x => b ||| x.2) fl
  m.modTeam tk fun t => { t with mstat := t.mstat ||| BitVec.ofNat 64 bits }

/-- One group of an MXP or MXD, with a soft error in its first and in its second computation or not (R272, R278, R280). -/
def Mach.mxRun (m : Mach) (core : Nat) (x : MxJob) (a : MxArgs) (mxd soft again : Bool) : Mach :=
  let t := m.team x.team
  let base := t.phys core 0
  let tile := t.tiles.getD (a.target mxd x.g).1 0
  let on := decide (2 ≤ a.chk)
  let m := if on && soft then m.modTeam x.team fun t => { t with reruns := satInc t.reruns } else m
  let wrong := on && soft && again
  let m := if wrong then m.modTeam x.team fun t =>
    { t with mism2 := satInc t.mism2, mstat := t.mstat ||| BitVec.ofNat 64 mxMm2 } else m
  let fl := if m.mxReserved base a x.g then mxRsv else 0
  if wrong && decide (a.chk = 3) then
    let m := m.modTeam x.team fun t => { t with mstat := t.mstat ||| BitVec.ofNat 64 fl }
    (match x.out with | some id => m.mark x.key id clsMxchk clsMxchk 3 0x6C 0 | none => m).mxDone core x
  else
    let good := m.mxGroup core base tile a mxd (a.target mxd x.g).2 x.g
    let (res, m) := if wrong then m.mxWrong else (good, m)
    let m := m.mxWrite core x.team tile res fl
    if x.g + 1 = (if mxd then 2 * a.ng else a.ng) then m.mxDone core x
    else m.modCore core fun k => { k with mx := k.mx.map fun y => if y.id = x.id then { y with g := y.g + 1 } else y }

/-- The group of the selected instruction, if it is an MXP or MXD: leave first (R281). -/
def Mach.mxStep (m : Mach) (core : Nat) (x : MxJob) (a : MxArgs) (mxd soft again : Bool) : Mach :=
  if m.mxWaits x then m
  else
    let m := m.mxOvertake core x
    if decide (x.g = 0) && !m.leaveHeld x.team then m.askLeave x.team
    else (m.useLeave x.team).mxRun core x a mxd soft again

/-- MATRIX_GROUP (R272, R278, R280, R281). -/
def execMatrixGroup (core : Nat) (soft again : Bool) (s : State) : Host.Outcome State Fault Refusal :=
  match s.mach.mxNext core with
  | some x =>
    match x.kind with
    | .mxp a => .next { s with mach := s.mach.mxStep core x a false soft again }
    | .mxd a => .next { s with mach := s.mach.mxStep core x a true soft again }
    | _ => .next s
  | none => .next s

/-! ## Issue (R267, R290) -/

/-- A handler may not issue this matrix instruction before it has saved every tile of the team (R382). -/
def Ctx.mxEarly (c : Ctx) : Bool := c.hand && !((List.range c.tm.tiles.length).all fun t => c.b.savedTiles.contains t)

/-- The engine queue is full. -/
def Ctx.mxFull (c : Ctx) (m : Mach) : Bool := decide (32 ≤ (m.core c.core).mx.length)

/-- Put an instruction in the engine queue; `counted` ones are operations of the matrix counter. -/
def Ctx.mxPush (c : Ctx) (m : Mach) (counted : Bool) (lanes : Lanes) (k : MxKind) : Mach :=
  let (id, m) := if counted then m.count c.key 3 else m.fresh
  m.modCore c.core fun q => { q with mx := q.mx ++ [⟨id, c.key, c.tk, lanes, if counted then some id else none, k, 0⟩] }

/-- The checks that every matrix instruction but MXSAVE begins with, and the hold on a full queue or counter. -/
def Ctx.mxIssue (c : Ctx) (m : Mach) (counted : Bool) (go : Mach → Res) : Res :=
  if c.mxEarly then .trap m (c.trap clsRole 0x70)
  else if c.mxFull m || (counted && c.counterFull 3) then .hold
  else go m

/-! ## MXP and MXD (R273 to R279) -/

/-- The parameter block. -/
structure MxBlk where
  areg : Nat
  asreg : Nat
  ng : Nat
  fa : Nat
  fb : Nat
  ct : Nat
  dt : Nat
  zc : Bool
  chk : Nat
  bswz : Nat
  boff : Nat
  bsoff : Nat
  xoff : Nat
  /-- A reserved field holds something. -/
  bad : Bool
  deriving DecidableEq, Repr

def mxParse (d : List Byte) : MxBlk :=
  let x := fieldAt d 0 8
  { areg := nfld x 10 0, asreg := nfld x 26 16, ng := nfld x 35 32 + 1, fa := nfld x 38 36, fb := nfld x 42 40, ct := nfld x 47 44
    dt := nfld x 51 48, zc := x.testBit 52, chk := nfld x 54 53, bswz := nfld x 56 55, boff := fieldAt d 8 4, bsoff := fieldAt d 12 4
    xoff := fieldAt d 16 4
    bad := decide (nfld x 63 57 ≠ 0 ∨ nfld x 43 43 ≠ 0 ∨ nfld x 39 39 ≠ 0 ∨ nfld x 31 27 ≠ 0 ∨ nfld x 15 11 ≠ 0
      ∨ fieldAt d 20 4 ≠ 0 ∨ fieldAt d 24 40 ≠ 0) }

/-- The default block of the base form of MXP (R275). -/
def Ctx.mxDefault (c : Ctx) : MxBlk :=
  let o := c.o
  let fa := c.g.slot 0
  let fb := c.g.slot 1
  let g := ((mxMode (slotEtype fa) (slotEtype fb)).map (·.1)).getD 16
  let boff := (c.s o.b.toNat).toNat
  { areg := o.a.toNat, asreg := if slotSmode fa = 1 then o.a.toNat + 4 * g * etypeBits (slotEtype fa) / 64 else 0, ng := 1, fa := 0, fb := 1
    ct := o.d.toNat, dt := 0, zc := false, chk := 0, bswz := 0, boff := boff
    bsoff := if slotSmode fb = 1 then boff + mxGB g (slotEtype fb) else 0, xoff := 0, bad := false }

/-- A malformed block (R274, R278). -/
def Ctx.mxMalformed (c : Ctx) (mxd : Bool) (k : MxBlk) : Bool :=
  let fa := c.g.slot k.fa
  let fb := c.g.slot k.fb
  k.bad || decide (k.boff % 128 ≠ 0 ∨ k.bsoff % 64 ≠ 0 ∨ k.xoff % 128 ≠ 0 ∨ (k.asreg ≠ 0 ∧ slotSmode fa ≠ 1) ∨ (k.bsoff ≠ 0 ∧ slotSmode fb ≠ 1))
    || if mxd then
        match mxMode (slotEtype fa) (slotEtype fb) with
        | some (g, _) => decide (32 < g ∨ (slotSmode fa ≠ 0 ∧ slotSmode fa ≠ 2) ∨ (slotSmode fb ≠ 0 ∧ slotSmode fb ≠ 2) ∨ k.ng * g ≠ 64 ∨ k.ct = k.dt)
        | none => true
      else decide (k.dt ≠ 0 ∨ k.xoff ≠ 0)

/-- Tiles, the A run and the scale run are within the allocation (R277). -/
def Ctx.mxRegsOk (c : Ctx) (mxd : Bool) (k : MxBlk) (g regs : Nat) : Bool :=
  (Opd.t k.ct).ok c && (!mxd || (Opd.t k.dt).ok c) && (Opd.v k.areg (k.ng * regs) 1).ok c
    && (decide (slotSmode (c.g.slot k.fa) ≠ 1) || (Opd.v k.asreg (scaleRegs (k.ng * g)) 1).ok c)

/-- The images lie within the allocation. -/
def Ctx.mxImagesOk (c : Ctx) (mxd : Bool) (k : MxBlk) (g : Nat) : Bool :=
  let n := k.ng * mxGB g (slotEtype (c.g.slot k.fb))
  decide (k.boff + n ≤ c.tm.alloc) && (decide (slotSmode (c.g.slot k.fb) ≠ 1) || decide (k.bsoff + 2 * (k.ng * g) ≤ c.tm.alloc))
    && (!mxd || decide (k.xoff + n ≤ c.tm.alloc))

/-- The first check of R277 that a block fails; else its G and A registers per group. -/
def Ctx.mxCheck (c : Ctx) (mxd : Bool) (k : MxBlk) : Except (Nat × Nat) (Nat × Nat) :=
  if c.mxMalformed mxd k then .error (clsOperand, 0x2B)
  else if ¬ (slotOk (c.g.slot k.fa) && slotOk (c.g.slot k.fb)) then .error (clsOperand, 0x64)
  else
    match mxMode (slotEtype (c.g.slot k.fa)) (slotEtype (c.g.slot k.fb)) with
    | none => .error (clsOperand, 0x64)
    | some (g, regs) =>
      if ¬ c.mxRegsOk mxd k g regs then .error (clsOperand, 0x63)
      else if ¬ c.mxImagesOk mxd k g then .error (clsXlate, 0x02)
      else .ok (g, regs)

/-- A run of registers in every lane; an empty lane gives zero (R269). -/
def Ctx.readRun (c : Ctx) (r n : Nat) : List W32 :=
  (List.range (n * 32)).map fun i => if (c.b.lane (i % 32)).st = .empty then 0 else c.v (r + i / 32) (i % 32)

/-- The A operand of a block: the latched one where it is the same (R279), else its registers. -/
def Ctx.mxLatch (c : Ctx) (k : MxBlk) (g regs : Nat) : Latch :=
  let fresh : Latch := ⟨k.areg, k.asreg, k.ng, k.fa, c.readRun k.areg (k.ng * regs),
    if slotSmode (c.g.slot k.fa) = 1 then c.readRun k.asreg (scaleRegs (k.ng * g)) else []⟩
  match c.b.latch with
  | some x => if x.areg = k.areg ∧ x.asreg = k.asreg ∧ x.ng = k.ng ∧ x.fa = k.fa then x else fresh
  | none => fresh

/-- Latches held in a quadrant. -/
def Mach.latches (m : Mach) (q : Nat) : Nat :=
  (m.bundles.filter fun p => decide (quadOfKey p.1 = q) && (p.2.bind (·.latch)).isSome).length

/-- The checksum mode in force (R273). -/
def Ctx.mxChk (c : Ctx) (k : MxBlk) : Nat := if k.chk = 0 then c.g.chk else if k.chk = 1 then 0 else k.chk

/-- Check a block, take its A operand and queue the instruction (R277, R279). -/
def Ctx.mxEnter (c : Ctx) (m : Mach) (mxd : Bool) (l : Nat) (k : MxBlk) : Res :=
  match c.mxCheck mxd k with
  | .error (cls, cause) => .trap m (if cls = clsOperand then c.trap cls cause else c.leads l cls cause 0)
  | .ok (g, regs) =>
    let reuse := bitAt c.o.mods 7
    if c.mxFull m || c.counterFull 3 || (reuse && c.b.latch.isNone && decide (2 ≤ m.latches (quadOfKey c.key))) then .hold
    else
      let x := c.mxLatch k g regs
      let a : MxArgs := ⟨c.g.slot k.fa, c.g.slot k.fb, k.ng, k.ct, k.dt, k.zc, c.mxChk k, k.bswz, k.boff, k.bsoff, k.xoff, x.arun, x.srun⟩
      let m := c.mxPush m true (laneBit l) (if mxd then .mxd a else .mxp a)
      .done (m.modBundle c.key fun b => { b with latch := if reuse then some x else none })

/-- The block form: the block's place is checked, then the block is read as a scratchpad load of the leader (R277). -/
def Ctx.mxFromBlock (c : Ctx) (m : Mach) (mxd : Bool) (l : Nat) : Res :=
  let off := (c.s c.o.a.toNat).toNat
  if off % 64 ≠ 0 then .trap m (c.leads l clsAlign 0x10 0)
  else if c.tm.alloc < off + 64 then .trap m (c.leads l clsXlate 0x02 0)
  else if m.mustWait c.key (laneBit l) .scratch (c.tm.phys c.core off) 64 then .hold
  else c.mxEnter m mxd l (mxParse (c.scratchRead m l off 64))

/-- What MXP allows and reads. A register field beyond its kind raises OPERAND whether or not there is a leader (R27); the A run and the
scale run of the base form are asked of a leader (R277; log 39). -/
def mxpRule : Rule :=
  { opc := 0xA0
    form := fun o => let base := decide (o.len = 0)
    { modBits := 0x1F80, useD := base, useA := true, useB := base, litB := false }
    opds := fun o => if o.len = 0 then [.t o.d.toNat, .v o.a.toNat 1 1, .s o.b.toNat 1 1] else [.s o.a.toNat 1 1]
    held := fun c => decide (c.o.len ≠ 0) || c.leader.isNone ||
      match mxMode (slotEtype (c.g.slot 0)) (slotEtype (c.g.slot 1)) with
      | some (g, regs) => c.mxRegsOk false c.mxDefault g regs
      | none => true }

/-- MXP (R276, R277). -/
def execMxp (o : Opn) (s : State) : Host.Outcome State Fault Refusal :=
  issue mxpRule o s fun c m =>
    if c.mxEarly then .trap m (c.trap clsRole 0x70)
    else
      match c.leader with
      | none => .done m
      | some l => if o.len = 0 then c.mxEnter m false l c.mxDefault else c.mxFromBlock m false l

/-- What MXD allows and reads. -/
def mxdRule : Rule :=
  { opc := 0xA1, form := fun _ => { modBits := 0x1F80, useA := true, litB := false }, opds := fun o => [.s o.a.toNat 1 1] }

/-- MXD (R276 to R278). -/
def execMxd (o : Opn) (s : State) : Host.Outcome State Fault Refusal :=
  issue mxdRule o s fun c m =>
    if c.mxEarly then .trap m (c.trap clsRole 0x70)
    else
      match c.leader with
      | none => .done m
      | some l => c.mxFromBlock m true l

/-! ## LDT and UNPK (R283, R284) -/

/-- Team offsets and sizes that a lane of LDT reads, in the order of its word's fields. -/
def Ctx.ldtReads (c : Ctx) (l : Nat) : List (Nat × Nat) :=
  let a := c.s c.o.a.toNat
  let b := c.s c.o.b.toNat
  let r := l % 16
  let h := l / 16
  if c.o.fn = 0 then [((a + BitVec.ofNat 64 r * b + BitVec.ofNat 64 (4 * h)).toNat, 4)]
  else
    let w := if fld c.o.mods 1 0 = 0 then 1 else 2
    (List.range (4 / w)).map fun q => ((a + BitVec.ofNat 64 (h * (4 / w) + q) * b + BitVec.ofNat 64 (r * w)).toNat, w)

/-- What LDT allows and reads. -/
def ldtRule : Rule :=
  { opc := 0xA2
    form := fun o => { fns := [0, 1], modBits := if o.fn = 1 then 1 else 0, useD := true, useA := true, useB := true, mask := 2, la := true }
    opds := fun o => [.v o.d.toNat 1 1, .s o.a.toNat 1 1, .s o.b.toNat 1 1] }

/-- The accesses of a lane of LDT, in the order of its word's fields. -/
def Ctx.ldtParts (c : Ctx) (l : Nat) : List Part :=
  (c.ldtReads l).map fun x =>
    let p : Piece := ⟨.scratch, c.tm.phys c.core x.1, x.2, none, 0⟩
    part l p (BitVec.ofNat 64 (winBase + x.1)) (.read (c.ownBytes l p))

/-- LDT (R283): each lane's reads are plain scratchpad loads, left outstanding. -/
def execLdt (o : Opn) (s : State) : Host.Outcome State Fault Refusal :=
  issue ldtRule o s fun c m =>
    let al := if o.fn = 0 then 8 else 16
    let out := (laneList c.act).filter fun l => (c.ldtReads l).any fun x => decide (c.tm.alloc < x.1 + x.2)
    if ((c.s o.a.toNat).toNat % al ≠ 0 ∨ (c.s o.b.toNat).toNat % al ≠ 0) ∧ c.act ≠ 0 then .trap m (c.trap clsAlign 0x10)
    else if out ≠ [] then .trap m (c.trapWith clsXlate 0x02 (out.map fun l => ⟨l, clsXlate, 0x02, 0, 0⟩))
    else
      let parts := (laneList c.act).flatMap c.ldtParts
      if m.trackerFull c.core parts then .hold
      else
        let m := c.zeroMasked m 1
        let (id, m) := m.fresh
        if parts = [] then .done m
        else .done { m with ops := m.ops ++ [{
          id := id, key := c.key, acq := false, rel := false, serial := false, dest := .ldt o.d.toNat, size := 4, win := c.windows
          parts := parts, counted := false, asid := c.g.asid }] }

/-- The word of lane l of destination register i of UNPK, for n source registers (R284). -/
def Ctx.unpkWord (c : Ctx) (n i l : Nat) : Nat :=
  let e := 8 / n
  let row := 16 * i + l % 16
  (List.range (32 / e)).foldl (fun w f =>
    let k := l / 16 * (32 / e) + f
    let src := c.v (c.o.a.toNat + k / 8) (row / n + 16 * (k % 8 / 4))
    w + fld src (8 * (k % 4) + e * (row % n) + e - 1) (8 * (k % 4) + e * (row % n)) * 2 ^ (e * f)) 0

/-- What UNPK allows and reads. -/
def unpkRule : Rule :=
  { opc := 0xA3
    form := fun _ => { fns := [0, 1], useD := true, useA := true, mask := 2 }
    opds := fun o => let n := if o.fn = 0 then 2 else 4; [.v o.d.toNat n 1, .v o.a.toNat n 1] }

/-- UNPK (R284). -/
def execUnpk (o : Opn) (s : State) : Host.Outcome State Fault Refusal :=
  issue unpkRule o s fun c m =>
    let n := if o.fn = 0 then 2 else 4
    .done (c.modRegs m fun r => r.writeAll ((laneList c.written).flatMap fun l => (List.range n).map fun i =>
      ((o.d.toNat + i) * 32 + l, if c.act.getLsbD l then BitVec.ofNat 32 (c.unpkWord n i l) else 0)))

/-! ## ACCMV (R285) -/

/-- Fields of s[B], and whether they are as R285 requires. -/
def accSel (x : W64) : Nat × Nat × Nat := (fld x 5 0, fld x 13 8, fld x 22 16)
def accSelOk (x : W64) : Bool :=
  let (r, c, n) := accSel x
  decide ((r = 0 ∨ r = 32) ∧ 1 ≤ n ∧ n ≤ 64 ∧ c + n ≤ 64 ∧ fld x 63 23 = 0 ∧ fld x 15 14 = 0 ∧ fld x 7 6 = 0)

/-- The registers that an ACCMV reads or writes are within the allocation, and s[B] is as it must be. -/
def Ctx.accmvRun (c : Ctx) : Bool :=
  let fn := c.o.fn.toNat
  let w := if 2 ≤ fn then 2 else 1
  accSelOk (c.s c.o.b.toNat)
    && (Opd.v (if fn % 2 = 1 then c.o.a.toNat else c.o.d.toNat) ((accSel (c.s c.o.b.toNat)).2.2 * w) w).ok c

def accmvRule : Rule where
  opc := 0xA4
  form o := { fns := [0, 1, 2, 3], useD := true, useA := true, useB := true, mask := if o.fn = 0 ∨ o.fn = 2 then 2 else 1, la := decide (o.fn = 0 ∨ o.fn = 2)
              rounds := decide (o.fn = 0), tys := if o.fn = 0 then [4, 5, 6] else if o.fn = 1 then [4] else [0] }
  opds o := [if o.fn = 1 ∨ o.fn = 3 then .t o.d.toNat else .t o.a.toNat, .s o.b.toNat 1 1]
  held := Ctx.accmvRun
  arith := true

/-- What an ACCMV read puts in the registers of a lane for one element: words, and exceptions. An ACC40 NaN is quiet, whatever its top
fraction bit (DESIGN CHOICE, log 132). -/
def accMove (fn ty rm : Nat) (x : BitVec 40) : List W32 × Nat :=
  if fn = 2 then ([x.setWidth 32, (x >>> 32).setWidth 32], 0)
  else
    let (b, fl) := (fmtOf ty).deliver (rm % 8) (decide (8 ≤ rm)) (fmtAcc40.decode x.toNat)
    ([.ofNat 32 b], fl)

/-- The register writes and exceptions of an ACCMV read, lane by lane. -/
def Core.accReads (k : Core) (tile fn ty rm d row col n : Nat) (ls : Lanes) : List (Nat × List (Nat × W32) × Nat) :=
  (laneList ls).map fun l =>
    let xs := (List.range n).map fun i => accMove fn ty rm (k.accAt tile (64 * (row + l) + col + i))
    (l, (xs.flatMap (·.1)).mapIdx (fun i w => ((d + i) * 32 + l, w)), xs.foldl (fun f x => f ||| x.2) 0)

/-- The elements that an ACCMV write sets, from the registers read at issue. -/
def Ctx.accElems (c : Ctx) : List (Nat × BitVec 40) :=
  let (row, col, n) := accSel (c.s c.o.b.toNat)
  let a := c.o.a.toNat
  (laneList c.act).flatMap fun l => (List.range n).map fun i =>
    (64 * (row + l) + col + i,
      if c.o.fn = 3 then (c.v2 (a + 2 * i) l).setWidth 40
      else BitVec.ofNat 40 (fmtAcc40.deliver 0 false (fmtF32.decode (c.v (a + i) l).toNat)).1)

/-- The exceptions of ACCMV.wr: a signalling NaN among the f32 elements of a lane is invalid (R50). -/
def Ctx.accWrFlags (c : Ctx) : List (Nat × Nat) :=
  if c.o.fn = 1 then
    (laneList c.act).map fun l =>
      (l, ivOf ((List.range (accSel (c.s c.o.b.toNat)).2.2).map fun i => fmtF32.decode (c.v (c.o.a.toNat + i) l).toNat))
  else []

/-- ACCMV (R285): one entry of the queue (R267). While FPCTL enables an exception the rounding form suspends the bundle until it is done
(R36; log 62). -/
def execAccmv (o : Opn) (s : State) : Host.Outcome State Fault Refusal :=
  issue accmvRule o s fun c m =>
    let fn := o.fn.toNat
    let (row, col, n) := accSel (c.s o.b.toNat)
    let tile := c.tm.tiles.getD (if fn % 2 = 1 then o.d.toNat else o.a.toNat) 0
    let rm := modeOf c.b.regs.fpctl o.rm.toNat + 8 * boolNat (bitAt c.b.regs.fpctl 3)
    if c.mxEarly then .trap m (c.trap clsRole 0x70)
    else if c.mxFull m then .hold
    else if fn % 2 = 1 then
      c.withFlags m c.accWrFlags fun m => .done (c.mxPush m false c.grp (.accWrite tile c.accElems))
    else if fn = 0 ∧ c.b.regs.trapsOn = true then
      let zero := if o.zm then c.grp &&& ~~~c.act else 0
      .goto (c.mxPush m false c.grp (.accTrap (typeOf o 4) rm o.d.toNat tile row col n c.act zero c.pc (c.size / 4)))
        ((laneList c.grp).map fun l => (l, c.pc))
    else
      let m := c.zeroMasked m (n * if fn = 2 then 2 else 1)
      let k := MxKind.accRead fn (typeOf o 4) rm o.d.toNat tile row col n c.act c.windows
      .done (c.mxPush m false c.grp k)

/-! ## MXSAVE and MXLOAD (R286) -/

def tileBytes : Nat := 20480

/-- MXSAVE and MXLOAD: the image is checked, then the instruction is queued. -/
def tileRule (opc : Nat) : Rule where
  opc := opc
  form _ := { modBits := 8, useD := true, useA := true, litB := false }
  extra o := memAk o
  opds o := [.t o.d.toNat, .s o.a.toNat 1 1]

/-- The image is checked; `kind` makes the queued instruction of a tile, the image's pieces, and the space and address they are of. -/
def Ctx.tileImage (c : Ctx) (m : Mach) (save : Bool) (kind : Nat → List (Space × Nat × Nat) → Nat → Nat → MxKind) : Res :=
  match m.check c.agent ⟨c.sea, tileBytes, 64, !save, save, false, false, .local_, .allowed⟩ with
  | (.error e, m) => c.resolve m (c.everyLane c.sea e) save
  | (.ok ps, m) =>
    if c.mxFull m || c.counterFull 3 then .hold
    else
      let m := c.mxPush m true c.grp (kind (c.tm.tiles.getD c.o.d.toNat 0) (ps.map fun p => (p.space, p.addr, p.len)) c.g.asid c.sea.toNat)
      .done (if save && c.hand then m.modBundle c.key fun b => { b with savedTiles := c.o.d.toNat :: b.savedTiles } else m)

/-- MXSAVE (R286); a handler's is always allowed (R382). -/
def execMxsave (o : Opn) (s : State) : Host.Outcome State Fault Refusal :=
  issue (tileRule 0xA5) o s fun c m => c.tileImage m true .save

/-- MXLOAD (R286). -/
def execMxload (o : Opn) (s : State) : Host.Outcome State Fault Refusal :=
  issue (tileRule 0xA6) o s fun c m =>
    if c.mxEarly then .trap m (c.trap clsRole 0x70)
    else c.tileImage m false .load

/-! ## MXCLR and MXSTAT (R287, R288) -/

/-- What MXCLR allows and reads. -/
def mxclrRule : Rule :=
  { opc := 0xA7, form := fun _ => { useA := true, litB := false }, opds := fun o => [.s o.a.toNat 1 1] }

/-- MXCLR (R287). -/
def execMxclr (o : Opn) (s : State) : Host.Outcome State Fault Refusal :=
  issue mxclrRule o s fun c m =>
    let x := c.s o.a.toNat
    if 2 ^ c.tm.tiles.length ≤ x.toNat then .trap m (c.trap clsOperand 0x63)
    else c.mxIssue m true fun m =>
      let ts := ((List.range c.tm.tiles.length).filter fun t => bitAt x t).map fun t => c.tm.tiles.getD t 0
      .done (c.mxPush m true c.grp (.clear ts))

/-- What MXCLR.latch allows and reads. -/
def mxclrLatchRule : Rule :=
  { opc := 0xA7, form := fun _ => { fns := [1], litB := false } }

/-- MXCLR.latch (R287). -/
def execMxclrLatch (o : Opn) (s : State) : Host.Outcome State Fault Refusal :=
  issue mxclrLatchRule o s fun c m =>
    if c.mxEarly then .trap m (c.trap clsRole 0x70) else .done (m.modBundle c.key fun b => { b with latch := none })

/-- What MXSTAT allows and reads. -/
def mxstatRule : Rule :=
  { opc := 0xA8
    form := fun o => { fns := [0, 1, 2], useD := true, useA := decide (o.fn = 2), litB := false }
    opds := fun o => [.s o.d.toNat 1 1] ++ if o.fn = 2 then [.s o.a.toNat 1 1] else [] }

/-- MXSTAT (R288); in a handler D and A name w registers. -/
def execMxstat (o : Opn) (s : State) : Host.Outcome State Fault Refusal :=
  issue mxstatRule o s fun c m =>
    c.mxIssue m false fun m =>
      let k := MxKind.stat o.fn.toNat (o.d.toNat + if c.hand then 256 else 0) (if o.fn = 2 then c.s o.a.toNat else 0)
      .done (c.mxPush m false c.grp k)

/-! ## The other queued instructions -/

/-- A tile's image (R286): element (m, n) is the 5 bytes at 5 * (64 m + n). -/
def Core.tileImage (k : Core) (tile : Nat) : List Byte := (List.range 4096).flatMap fun i => leBytes 5 (k.accAt tile i).toNat

/-- Fill a tile from an image. -/
def Core.fillTile (tile : Nat) : Nat → List Byte → Core → Core
  | i, a :: b :: c :: d :: e :: r, k => Core.fillTile tile (i + 1) r (k.setAcc tile i (.ofNat 40 (leNat [a, b, c, d, e])))
  | _, _, k => k

/-- Write bytes over pieces. -/
def Mach.writePieces : List (Space × Nat × Nat) → List Byte → Mach → Mach
  | [], _, m => m
  | (sp, a, n) :: r, bs, m => writePieces r (bs.drop n) (m.writeBytes sp a (bs.take n))

/-- Read bytes over pieces, as a unit reads them (R400). -/
def Mach.readSegs (m : Mach) (unit die : Nat) : List (Space × Nat × Nat) → List Byte × Mach
  | [] => ([], m)
  | (sp, a, n) :: r =>
    let (b, m) := m.readLogged unit die sp a n
    let (bs, m) := m.readSegs unit die r
    (b ++ bs, m)

/-- Deliver an ACCMV read: registers of lanes that have not exited, and FPSTAT. -/
def Mach.accDeliver (m : Mach) (x : MxJob) (res : List (Nat × List (Nat × W32) × Nat)) : Mach :=
  m.modBundle x.key fun b =>
    let live := res.filter fun r => decide ((b.lane r.1).st ≠ .exited)
    b.modRegs fun r => (r.writeAll (live.flatMap fun y => y.2.1)).raiseFlags (res.foldl (fun f y => f ||| y.2.2) 0)

/-- A suspended ACCMV has its values: they are written and its group goes on, or an enabled exception traps at it, which in a handler is a
nested trap (R36, R65, R380). -/
def Mach.accResume (m : Mach) (x : MxJob) (res : List (Nat × List (Nat × W32) × Nat)) (zeros : List (Nat × W32)) (pc : W64) (isz : Nat)
    (act : Lanes) : Mach :=
  let next := pc + BitVec.ofNat 64 (4 * isz)
  let fl := res.map fun r => (r.1, r.2.2)
  let b := m.bundle x.key
  let m := m.modBundle x.key fun b => b.modRegs fun r => r.raiseFlags (orFlags fl)
  let onward := fun (ls : Lanes) (b : Bundle) =>
    b.modLanes ls fun _ y => if y.pc = pc ∧ y.st = .runnable then { y with pc := next } else y
  if fl.any fun p => decide (enabledOf b.regs.fpctl p.2 ≠ 0) then
    let t : Trap := ⟨clsArith, 0x6B, pc, false, false, isz, act, arithConds b.regs.fpctl fl, 0, 0⟩
    if b.hand.isSome then
      (m.stopFor x.key 2 t (fld b.trap.tstat 3 0)
        ((((laneList (b.trap.tcond.setWidth 32)).head?).map fun l => (Sparse.get ⟨0, 0⟩ b.trap.side l).addr).getD 0)).killTeam b.team
    else (m.modBundle x.key fun b => { onward (x.lanes &&& ~~~act) b with stepped := b.stepped &&& ~~~x.lanes }).takeTrap x.key t
  else
    m.modBundle x.key fun b =>
      let b := b.modRegs fun r => r.writeAll (zeros ++ res.flatMap fun r => r.2.1)
      if b.hand.isSome then { b with hand := some next } else onward x.lanes b

/-- The team's status word or counters as MXSTAT reads them (R289). -/
def Mach.mxStatus (m : Mach) (core : Nat) (x : MxJob) (fn : Nat) : W64 :=
  let t := m.team x.team
  if fn = 1 then .ofNat 64 (t.reruns.toNat * 2 ^ 32 + t.mism2.toNat)
  else t.mstat ||| BitVec.ofNat 64 (boolNat ((m.core core).mx.any fun y => decide (y.team = x.team ∧ y.id ≠ x.id)))

/-- What a queued instruction other than MXP and MXD does. -/
def Mach.mxPerform (m : Mach) (core : Nat) (x : MxJob) : Mach :=
  match x.kind with
  | .mxp _ | .mxd _ => m
  | .accRead fn ty rm d tile row col n ls _ => m.accDeliver x ((m.core core).accReads tile fn ty rm d row col n ls)
  | .accTrap ty rm d tile row col n ls zero pc isz =>
    m.accResume x ((m.core core).accReads tile 0 ty rm d row col n ls)
      ((laneList zero).flatMap fun l => (List.range n).map fun i => ((d + i) * 32 + l, 0)) pc isz ls
  | .accWrite tile es => m.modCore core fun k => es.foldl (fun k e => k.setAcc tile e.1 e.2) k
  | .save tile segs _ _ => m.writePieces segs ((m.core core).tileImage tile)
  | .load tile segs _ _ =>
    let (bs, m) := m.readSegs (core % 96) (dieOfCore core) segs
    m.modCore core (Core.fillTile tile 0 bs)
  | .clear ts => m.modCore core fun k => ts.foldl (fun k t => { k with acc := k.acc.filter fun p => decide (p.1 / 4096 ≠ t) }) k
  | .stat fn d clr =>
    let w := m.mxStatus core x fn
    let m := m.modBundle x.key fun b => b.modRegs fun r => r.sset (decide (256 ≤ d)) (d % 256) w
    if fn = 2 then m.modTeam x.team fun t => { t with mstat := t.mstat &&& ~~~clr } else m

/-- QUEUED_MATRIX_INSTRUCTION (R267, R268, R285 to R288). -/
def execQueuedMatrixInstruction (core : Nat) (s : State) : Host.Outcome State Fault Refusal :=
  match s.mach.mxNext core with
  | some x =>
    match x.kind with
    | .mxp _ | .mxd _ => .next s
    | _ => if s.mach.mxWaits x then .next s else .next { s with mach := ((s.mach.mxOvertake core x).mxDone core x).mxPerform core x }
  | none => .next s

end Sys2Proof.Machine
end

