-- ==== Sys2Proof/Machine/Neighbour.lean ====
section
/-! DEFINITION. The neighbour-list engine (R291 to R305): NBIN, NPAIR, NSTAT, and the engine's steps. -/

namespace Sys2Proof.Machine

/-! ## The job block (R292, R293) -/

def nbPos (d : List Byte) : Nat := fieldAt d 0 8
def nbGrid (d : List Byte) : Nat := fieldAt d 8 8
def nbFlags (d : List Byte) : Nat := fieldAt d 16 8
def nbNp (d : List Byte) : Nat := nfld (nbFlags d) 24 0
def nbCapc (d : List Byte) : Nat := nfld (nbFlags d) 26 25
def nbStm (d : List Byte) : Bool := (nbFlags d).testBit 27
def nbHalf (d : List Byte) : Bool := (nbFlags d).testBit 28
def nbMb (d : List Byte) : Bool := (nbFlags d).testBit 29
def nbMbid (d : List Byte) : Nat := nfld (nbFlags d) 32 30
def nbEvp (d : List Byte) : Bool := (nbFlags d).testBit 33
def nbArr (d : List Byte) : Bool := (nbFlags d).testBit 34
/-- Box length of an axis, RC, SKIN: their FP32 encodings. -/
def nbLen (d : List Byte) (a : Nat) : Nat := fieldAt d (24 + 4 * a) 4
def nbRc (d : List Byte) : Nat := fieldAt d 36 4
def nbSkin (d : List Byte) : Nat := fieldAt d 40 4
/-- Cells of an axis. -/
def nbN (d : List Byte) (a : Nat) : Nat := nfld (fieldAt d 40 8) (41 + 10 * a) (32 + 10 * a)
def nbOut (d : List Byte) : Nat := fieldAt d 48 8
def nbLcap (d : List Byte) : Nat := fieldAt d 56 4
def nbStgrec (d : List Byte) : Nat := fieldAt d 60 2
def nbArrAddr (d : List Byte) : W64 := .ofNat 64 (fieldAt d 64 8)
def nbCursor (d : List Byte) : Nat := fieldAt d 72 8
/-- Cell capacity of a code. -/
def capOf (capc : Nat) : Nat := if capc = 1 then 32 else if capc = 2 then 128 else 64
def nbCells (d : List Byte) : Nat := nbN d 0 * nbN d 1 * nbN d 2

/-- An FP32 field is finite and above zero, or with `z` not below it. -/
def f32Positive (z : Bool) (x : Nat) : Bool :=
  match fmtF32.decode x with
  | .fin neg m _ => if m = 0 then z else !neg
  | _ => false

/-- A malformed job block (R293); `t` gives the declared mailbags and the allocation. -/
def nbBad (t : Team) (bin : Bool) (d : List Byte) : Bool :=
  decide (nfld (nbFlags d) 63 35 ≠ 0 ∨ nfld (fieldAt d 40 8) 63 62 ≠ 0 ∨ fieldAt d 62 2 ≠ 0 ∨ nbGrid d % 64 ≠ 0
    ∨ (nbArr d = false ∧ nbArrAddr d ≠ 0))
  || if bin then
      decide (nbStm d = true ∨ nbHalf d = true ∨ nbMb d = true ∨ nbMbid d ≠ 0 ∨ nbOut d ≠ 0 ∨ nbLcap d ≠ 0 ∨ nbStgrec d ≠ 0
        ∨ nbPos d % 16 ≠ 0 ∨ nbNp d = 0 ∨ 2 ^ 24 < nbNp d ∨ nbCapc d = 3)
      || (List.range 3).any (fun a => decide (nbN d a < 3 ∨ 512 < nbN d a) || !f32Positive false (nbLen d a))
      || !f32Positive false (nbRc d) || !f32Positive true (nbSkin d)
    else
      (nbStm d && !nbHalf d)
      || if nbMb d then
          decide (nbOut d % 32 ≠ 0 ∨ 2 ^ 32 ≤ nbOut d ∨ nbLcap d ≠ 0 ∨ nbStgrec d = 0 ∨ 2048 < nbStgrec d ∨ (t.mail (nbMbid d)).stages = 0
            ∨ t.alloc < nbOut d + 32 * nbStgrec d * (t.mail (nbMbid d)).stages)
        else decide (nbMbid d ≠ 0 ∨ nbOut d % 32 ≠ 0 ∨ nbLcap d = 0 ∨ nbStgrec d ≠ 0)

def nbrRule (opc : Nat) (fns : List Nat) : Rule where
  opc := opc
  form _ := { fns := fns, useA := true, litB := false }
  opds o := [.s o.a.toNat 1 1]

/-- A job as issued. -/
def newJob (id tk key : Nat) (lanes : Lanes) (bin res : Bool) (blk : Nat) (d : List Byte) : NbrJob :=
  ⟨id, tk, key, lanes, bin, res, blk, d, 0, [], none, none, [], 0, 0, 0, 0, 0, 0, 0, none, none⟩

/-- NBIN, NPAIR and NPAIR.res: the checks, STATUS 1, and the queue entry (R291, R293). The block's reads and the store of STATUS follow the
threads' own older accesses (R173, R425); the store is no ST or STL, which alone R179 buffers (DEDUCED, log 71). -/
def nbrOp (r : Rule) (bin res : Bool) (o : Opn) (s : State) : Host.Outcome State Fault Refusal :=
  issue r o s fun c m =>
    let off := (c.s o.a.toNat).toNat
    let d := c.scratchRead m (lowestLane c.grp) off 80
    if off % 128 ≠ 0 then .trap m (c.trap clsAlign 0x10)
    else if c.tm.alloc < off + 128 then .trap m (c.trap clsOperand 0x2C)
    else if m.mustWait c.key c.grp .scratch (c.tm.phys c.core off) 88 then .hold
    else if nbBad c.tm bin d then .trap m (c.trap clsOperand 0x2C)
    else if 64 ≤ (m.die c.die).jobs.length then .hold
    else
      let (id, m) := m.fresh
      let m := m.writeNat .scratch (c.tm.phys c.core (off + 80)) 8 1
      .done (m.modDie c.die fun k => { k with jobs := k.jobs ++ [newJob id c.tk c.key c.grp bin res off d] })

def execNbin (o : Opn) (s : State) : Host.Outcome State Fault Refusal := nbrOp (nbrRule 0xB0 [0]) true false o s
def execNpair (o : Opn) (s : State) : Host.Outcome State Fault Refusal := nbrOp (nbrRule 0xB1 [0]) false false o s
def execNpairRes (o : Opn) (s : State) : Host.Outcome State Fault Refusal := nbrOp (nbrRule 0xB1 [1]) false true o s

/-- What NSTAT allows and reads. -/
def nstatRule : Rule :=
  { opc := 0xB2, form := fun _ => { useD := true, useA := true, litB := false }
    opds := fun o => [.s o.d.toNat 1 1, .s o.a.toNat 1 1] }

/-- NSTAT (R304). -/
def execNstat (o : Opn) (s : State) : Host.Outcome State Fault Refusal :=
  issue nstatRule o s fun c m =>
    let off := (c.s o.a.toNat).toNat
    if off % 128 ≠ 0 then .trap m (c.trap clsAlign 0x10)
    else if c.tm.alloc < off + 128 then .trap m (c.trap clsOperand 0x2C)
    else if m.mustWait c.key c.grp .scratch (c.tm.phys c.core (off + 80)) 8 then .hold
    else .done (c.setS m o.d.toNat (.ofNat 64 (leNat (c.scratchRead m (lowestLane c.grp) (off + 80) 8))))

/-- What NSTAT.eng allows and reads. -/
def nstatEngRule : Rule :=
  { opc := 0xB2, form := fun _ => { fns := [1], useD := true, litB := false }, opds := fun o => [.s o.d.toNat 1 1] }

/-- NSTAT.eng (R304). -/
def execNstatEng (o : Opn) (s : State) : Host.Outcome State Fault Refusal :=
  issue nstatEngRule o s fun c m =>
    let js := (m.die c.die).jobs
    .done (c.setS m o.d.toNat (.ofNat 64 (js.length + 128 * (js.filter fun j => decide (j.st ≠ 0)).length
      + 1024 * boolNat (m.leaveHeld c.tk))))

/-! ## The engine's accesses (R295) -/

/-- Why a job goes no further: STATE, cause and address; STATE 0 is a page that is not present. -/
structure NStop where
  state : Nat
  cause : Nat
  va : W64
  w : Bool
  deriving DecidableEq, Repr

/-- The unit of the neighbour engine (R18). -/
def nbrUnit : Nat := 104

/-- Who accesses: the job's agent, and whether its next read meets an error. -/
structure NCtx where
  ag : Agent
  err : Bool

/-- The pieces of an access, or why it stops the job. -/
def NCtx.reach (x : NCtx) (m : Mach) (va : W64) (n : Nat) (w : Bool) : Except NStop (List Piece) × Mach :=
  match m.check x.ag ⟨va, n, 1, !w, w, false, false, .local_, .denied 0x24⟩ with
  | (.error 0x03, m) => (.error ⟨0, 0x03, va, w⟩, m)
  | (.error e, m) => (.error ⟨8, e, va, w⟩, m)
  | (.ok ps, m) => (.ok ps, m)

def NCtx.read (x : NCtx) (m : Mach) (va : W64) (n : Nat) : Except NStop (List Byte) × Mach :=
  match x.reach m va n false with
  | (.error e, m) => (.error e, m)
  | (.ok ps, m) =>
    if x.err || ps.any fun p => m.damaged p.space p.addr p.len then
      (.error ⟨9, 0x40, va, false⟩, m.logError 1 nbrUnit x.ag.die (onePiece ps).addr)
    else (.ok (m.readPieces nbrUnit x.ag.die ps).1, m)

/-- A write; where its first byte lies. -/
def NCtx.write (x : NCtx) (m : Mach) (va : W64) (bs : List Byte) : Except NStop Nat × Mach :=
  match x.reach m va bs.length true with
  | (.error e, m) => (.error e, m)
  | (.ok ps, m) => (.ok (onePiece ps).addr, m.writePieces (ps.map fun p => (p.space, p.addr, p.len)) bs)

/-! ## A job as a sequence of accesses (R295, R305) -/

/-- What a job asks for next: a read; the bits of a byte that stay (VALID cleared first, R296); a write, answered by where it fell;
leave (R297); a record for a stage (R302). -/
inductive NReq where
  | read (va : W64) (n : Nat)
  | keep (va : W64) (bits : Byte)
  | write (va : W64) (bs : List Byte)
  | leave
  | stage (rec : List Byte)

/-- What a job's work ended with; a value not given is one that the spec does not state. `last` is the FLAGS byte of the last record of a
list: where it lies, and its value with LAST. -/
structure NOut where
  state : Nat := 0
  cause : Nat := 0
  count1 : Option Nat := none
  aux : Nat := 0
  count2 : Option Nat := none
  faultVa : Option W64 := none
  cursor : Option Nat := none
  last : Option (Nat × Byte) := none

/-- A job's work: the next thing it asks for, what it reports if it stops there, and how it goes on with the answer; or its end. -/
inductive NProg where
  | ask (q : NReq) (o : NOut) (k : List Byte → NProg)
  | ends (o : NOut)

/-- The work after the answers given, oldest first. -/
def NProg.after : List (List Byte) → NProg → NProg
  | b :: r, .ask _ _ k => NProg.after r (k b)
  | _, p => p

/-- Read 4-byte fields in order. -/
def NProg.gets (o : NOut) : List W64 → List (List Byte) → (List (List Byte) → NProg) → NProg
  | [], got, k => k got.reverse
  | va :: r, got, k => .ask (.read va 4) o fun b => NProg.gets o r (b :: got) k

/-- Write 4-byte fields in order. -/
def NProg.puts (o : NOut) : List (W64 × List Byte) → NProg → NProg
  | [], k => k
  | (va, bs) :: r, k => .ask (.write va bs) o fun _ => NProg.puts o r k

/-- The addresses of n 4-byte fields, and the fields of a block of bytes. -/
def wordsAt (va : W64) (n : Nat) : List W64 := (List.range n).map fun i => va + .ofNat 64 (4 * i)
def wordsOf (va : W64) (bs : List Byte) : List (W64 × List Byte) :=
  (List.range (bs.length / 4)).map fun i => (va + .ofNat 64 (4 * i), (bs.drop (4 * i)).take 4)

/-! ## FP64 (R296, R298) -/

/-- Round once to FP64. -/
def toF64 (v : Val) : Val := fmtF64.decode (fmtF64.deliver 0 false v).1
def addF64 (a b : Val) : Val := toF64 (a.add 0 b).1
def subF64 (a b : Val) : Val := addF64 a b.neg
def mulF64 (a b : Val) : Val := toF64 (a.mul b).1

/-- A quotient of finite values, the divisor not zero: 64 bits and a sticky bit, rounded once. -/
def divF64 (a b : Val) : Val :=
  match a, b with
  | .fin s m e, .fin t n k =>
    let w := 64 + Nat.log2 n
    let q := (m <<< w) / n
    toF64 (.fin (s ^^ t) (2 * q + boolNat (decide ((m <<< w) % n ≠ 0))) (e - k - w - 1))
  | _, _ => .nan false

def ltVal (a b : Val) : Bool := (a.cmp b).1
def f32Val (x : Nat) : Val := fmtF32.decode x
def natVal (n : Nat) : Val := .fin false n 0

/-- Floor of a finite value not below zero. -/
def floorVal : Val → Nat
  | .fin _ m e => if 0 ≤ e then m <<< e.toNat else m >>> (-e).toNat
  | _ => 0

def isFinite : Val → Bool
  | .fin _ _ _ => true
  | _ => false

/-! ## NBIN (R294, R296) -/

/-- Where the parts of a grid area lie. -/
def countsAt (grid : Nat) (c : Nat) : W64 := .ofNat 64 (grid + 64 + 4 * c)
def slotsAt (grid cells cap c t : Nat) : W64 := .ofNat 64 (grid + 64 + 64 * ((cells + 15) / 16) + 4 * (cap * c + t))
def refAt (grid cells cap p : Nat) : W64 := .ofNat 64 (grid + 64 + 64 * ((cells + 15) / 16) + 4 * cap * cells + 16 * p)

/-- Coordinate a of a position's bytes. -/
def coordOf (bs : List Byte) (a : Nat) : Val := f32Val (fieldAt bs (4 * a) 4)

/-- The axes whose box is too small (R296). -/
def boxSmall (d : List Byte) : Nat :=
  (List.range 3).foldl (fun n a =>
    if ltVal (f32Val (nbLen d a)) (mulF64 (natVal (nbN d a)) (addF64 (f32Val (nbRc d)) (f32Val (nbSkin d)))) then n + 2 ^ a else n) 0

/-- The cell of a position, if it lies in the box. -/
def cellOf (d : List Byte) (bs : List Byte) : Option Nat :=
  let ok := (List.range 3).all fun a =>
    isFinite (coordOf bs a) && !ltVal (coordOf bs a) (natVal 0) && ltVal (coordOf bs a) (f32Val (nbLen d a))
  let ix := fun a => min (floorVal (divF64 (mulF64 (coordOf bs a) (natVal (nbN d a))) (f32Val (nbLen d a)))) (nbN d a - 1)
  if ok then some (ix 0 + nbN d 0 * (ix 1 + nbN d 1 * ix 2)) else none

/-- Read and bin the particles from p on: their cells and bytes, newest first. -/
def NProg.bin (d : List Byte) : Nat → Nat → List (Nat × List Byte) → (List (Nat × List Byte) → NProg) → NProg
  | 0, _, acc, k => k acc.reverse
  | n + 1, p, acc, k =>
    .gets {} (wordsAt (.ofNat 64 (nbPos d + 16 * p)) 4) [] fun ws =>
      match cellOf d ws.flatten with
      | none => .ends { state := 10, count2 := some p }
      | some c => NProg.bin d n (p + 1) ((c, ws.flatten) :: acc) k

/-- The members of a cell in increasing index. -/
def members (xs : List (Nat × List Byte)) (c : Nat) : List Nat :=
  (xs.mapIdx fun i y => (y.1, i)).filterMap fun y => if y.1 = c then some y.2 else none

/-- The header of a finished grid. -/
def gridHeader (d : List Byte) (ovf : Bool) : List Byte :=
  leBytes 8 (1 + 2 * boolNat ovf + 4 * nbCapc d) ++ leBytes 8 (nbPos d) ++ leBytes 8 (nbNp d) ++ (d.drop 24).take 24
    ++ List.replicate 16 0

/-- What NBIN writes for the particles binned: counts, slots, reference positions, and the header, its word with VALID last. -/
def gridWrites (d : List Byte) (xs : List (Nat × List Byte)) (ovf : Bool) : List (W64 × List Byte) :=
  let g := nbGrid d
  let cells := nbCells d
  let cap := capOf (nbCapc d)
  let all := List.range cells
  let h := wordsOf (.ofNat 64 g) (gridHeader d ovf)
  all.map (fun c => (countsAt g c, leBytes 4 (members xs c).length))
    ++ all.flatMap (fun c => ((members xs c).take cap).mapIdx fun t q => (slotsAt g cells cap c t, leBytes 4 q))
    ++ (xs.mapIdx fun q y => wordsOf (refAt g cells cap q) y.2).flatten ++ h.drop 1 ++ h.take 1

/-- NBIN's work (R296). -/
def binProg (d : List Byte) : NProg :=
  .ask (.keep (.ofNat 64 (nbGrid d)) 0xFE) {} fun _ =>
    if boxSmall d ≠ 0 then .ends { state := 4, aux := boxSmall d }
    else
      .bin d (nbNp d) 0 [] fun xs =>
        let count := fun c => (members xs c).length
        let closed := ((List.range (nbCells d)).filter fun c => decide (capOf (nbCapc d) < count c)).length
        let most := (List.range (nbCells d)).foldl (fun n c => max n (count c)) 0
        .puts {} (gridWrites d xs (decide (0 < closed)))
          (.ends { state := if closed = 0 then 3 else 5, count1 := some closed, count2 := some most })

/-! ## NPAIR (R297 to R301) -/

/-- A pair job in progress: records written, and the last one of the list. -/
structure NWalk where
  n : Nat
  last : Option (Nat × Byte)

/-- What the job reports if it ends at a cursor: every record before it is written. -/
def NWalk.out (w : NWalk) (cur : Nat) : NOut := { count1 := some w.n, cursor := some cur, last := w.last }

/-- A grid as its header gives it, in the layout of a job block. -/
structure NGrid where
  hdr : List Byte
  grid : Nat
  cells : Nat
  cap : Nat

def gridOfHeader (grid : Nat) (h : List Byte) : NGrid :=
  ⟨h, grid, nbCells h, capOf (nfld (fieldAt h 0 8) 3 2)⟩

def NGrid.pos (g : NGrid) (p : Nat) : W64 := .ofNat 64 (fieldAt g.hdr 8 8 + 16 * p)

/-- Cell coordinate of an axis. -/
def NGrid.axis (g : NGrid) (h a : Nat) : Nat :=
  if a = 0 then h % nbN g.hdr 0 else if a = 1 then h / nbN g.hdr 0 % nbN g.hdr 1 else h / (nbN g.hdr 0 * nbN g.hdr 1)

/-- The neighbour on one axis for stencil index k: its coordinate and the shift (R297). -/
def NGrid.hop (g : NGrid) (h k a : Nat) : Nat × Int :=
  let n := nbN g.hdr a
  let c := g.axis h a
  match k / 3 ^ a % 3 with
  | 0 => if c = 0 then (n - 1, -1) else (c - 1, 0)
  | 1 => (c, 0)
  | _ => if c + 1 = n then (0, 1) else (c + 1, 0)

def NGrid.neighbour (g : NGrid) (h k : Nat) : Nat :=
  (g.hop h k 0).1 + nbN g.hdr 0 * ((g.hop h k 1).1 + nbN g.hdr 1 * (g.hop h k 2).1)

/-- The particles of a cell in bin order. -/
def NProg.cell (o : NOut) (g : NGrid) (c : Nat) (k : List Nat → NProg) : NProg :=
  .ask (.read (countsAt g.grid c) 4) o fun b =>
    .gets o ((List.range (min (leNat b) g.cap)).map fun t => slotsAt g.grid g.cells g.cap c t) [] fun ws => k (ws.map leNat)

/-- A particle has moved (R300). -/
def hasMoved (skin : Nat) (cur ref : List Byte) : Bool :=
  let d := fun a => subF64 (coordOf cur a) (coordOf ref a)
  let sq := fun a => mulF64 (d a) (d a)
  let h := mulF64 (.fin false 1 (-1)) (f32Val skin)
  !((List.range 3).all fun a => isFinite (coordOf cur a)) || ltVal (mulF64 h h) (addF64 (addF64 (sq 0) (sq 1)) (sq 2))

/-- The lowest particle of a list that has moved. -/
def NProg.moved (o : NOut) (g : NGrid) : List Nat → Option Nat → (Option Nat → NProg) → NProg
  | [], low, k => k low
  | p :: r, low, k =>
    .gets o (wordsAt (g.pos p) 3) [] fun cur => .gets o (wordsAt (refAt g.grid g.cells g.cap p) 3) [] fun ref =>
      NProg.moved o g r
        (if hasMoved (nbSkin g.hdr) cur.flatten ref.flatten then some (match low with | some q => min p q | none => p) else low) k

/-- The lowest particle that has moved among the cells that a home cell's stencil reads. -/
def NProg.stale (o : NOut) (g : NGrid) (h : Nat) : List Nat → Option Nat → (Option Nat → NProg) → NProg
  | [], low, k => k low
  | s :: r, low, k => .cell o g (g.neighbour h s) fun ps => .moved o g ps low fun low => NProg.stale o g h r low k

/-- The cursor of a candidate (R301). -/
def cursorOf (h k pidx : Nat) : Nat := h + 2 ^ 28 * k + 2 ^ 33 * pidx

/-- A record (R298). -/
def pairRecord (i j : Nat) (d : List Val) (r2 : Val) (img : List Int) : List Byte :=
  let f32 := fun v => (fmtF32.deliver 0 false v).1
  let code := fun (s : Int) => if s = 0 then 0 else if 0 < s then 1 else 3
  leBytes 4 i ++ leBytes 4 j ++ d.flatMap (fun v => leBytes 4 (f32 v)) ++ leBytes 4 (f32 r2)
    ++ [BitVec.ofNat 8 (code (img.getD 0 0) + 4 * code (img.getD 1 0) + 16 * code (img.getD 2 0)),
      BitVec.ofNat 8 (boolNat (!r2.finiteNonzero))] ++ List.replicate 6 0

/-- Displacement and square of a candidate (R298). -/
def pairOf (g : NGrid) (xp xq : List Byte) (sh : List Int) : List Val × Val :=
  let d := (List.range 3).map fun a =>
    subF64 (addF64 (coordOf xq a) ((valOfInt false (sh.getD a 0) 0).mul (f32Val (nbLen g.hdr a))).1) (coordOf xp a)
  let sq := fun a => mulF64 (d.getD a (natVal 0)) (d.getD a (natVal 0))
  (d, addF64 (addF64 (sq 0) (sq 1)) (sq 2))

/-- The record that a pair within the radius gives, if its list keeps it (R299). -/
def recordOf (half stm : Bool) (p q : Nat) (d : List Val) (r2 : Val) (sh : List Int) : Option (List Byte) :=
  if half && !stm && decide (q ≤ p) then none
  else if half && stm && decide (q < p) then some (pairRecord q p (d.map Val.neg) r2 (sh.map fun s => -s))
  else some (pairRecord p q d r2 sh)

/-- Emit a record: to its stage, or to the list (R301, R302). -/
def NProg.emit (job : List Byte) (w : NWalk) (cur : Nat) (rec : List Byte) (k : NWalk → NProg) : NProg :=
  if nbMb job then .ask (.stage rec) (w.out cur) fun _ => k { w with n := w.n + 1 }
  else if w.n = nbLcap job then .ends { w.out cur with state := 7 }
  else
    let va := BitVec.ofNat 64 (nbOut job + 32 * w.n)
    .ask (.write va (rec.take 4)) (w.out cur) fun b => .puts (w.out cur) ((wordsOf va rec).drop 1)
      (k ⟨w.n + 1, some (leNat b + 25, rec.getD 25 0 ||| 4)⟩)

/-- One candidate: home particle p, neighbour q (R298, R299). -/
def NProg.candidate (g : NGrid) (job : List Byte) (cur p q : Nat) (sh : List Int) (w : NWalk) (k : NWalk → NProg) : NProg :=
  .gets (w.out cur) (wordsAt (g.pos p) 3) [] fun xp => .gets (w.out cur) (wordsAt (g.pos q) 3) [] fun xq =>
    let (d, r2) := pairOf g xp.flatten xq.flatten sh
    let rc := f32Val (nbRc g.hdr)
    if ltVal (rc.mul rc).1 r2 || r2.isNan then k w
    else
      match recordOf (nbHalf job) (nbStm job) p q d r2 sh with
      | none => k w
      | some rec => .emit job w cur rec k

/-- Candidates in order: cursor, home particle, neighbour. -/
def NProg.candidates (g : NGrid) (job : List Byte) (sh : List Int) : List (Nat × Nat × Nat) → NWalk → (NWalk → NProg) → NProg
  | [], w, k => k w
  | (cur, p, q) :: r, w, k => .candidate g job cur p q sh w fun w => NProg.candidates g job sh r w k

/-- The candidates of a home cell's particles and a neighbour cell's, from pair index `from_` on. Within the home cell a particle is no
candidate with itself; a half list over the 14-cell stencil visits each of its pairs once, at the earlier particle, as the last sentence
of R299 asks (DEDUCED, log 67). -/
def candidatesOf (g : NGrid) (stm : Bool) (h k from_ : Nat) (home qs : List Nat) : List (Nat × Nat × Nat) :=
  (home.mapIdx fun a p => (a, p)).flatMap fun y => (qs.mapIdx fun b q => (b, q)).filterMap fun z =>
    if (k = 13 ∧ (y.1 = z.1 ∨ (stm = true ∧ z.1 < y.1))) ∨ y.1 * g.cap + z.1 < from_ then none
    else some (cursorOf h k (y.1 * g.cap + z.1), y.2, z.2)

/-- The stencil indexes given of one home cell, from pair index `from_` of the index k0 on. -/
def NProg.stencils (g : NGrid) (job : List Byte) (h k0 p0 : Nat) (home : List Nat) : List Nat → NWalk → (NWalk → NProg) → NProg
  | [], w, k => k w
  | s :: r, w, k =>
    let from_ := if s = k0 then p0 else 0
    .cell (w.out (cursorOf h s from_)) g (g.neighbour h s) fun qs =>
      .candidates g job ((List.range 3).map fun a => (g.hop h s a).2) (candidatesOf g (nbStm job) h s from_ home qs) w fun w =>
        NProg.stencils g job h k0 p0 home r w k

/-- Stencil indexes of a job. -/
def stencilOf (job : List Byte) : List Nat := (List.range 27).filter fun k => decide (13 ≤ k) || !nbStm job

/-- Home cells, each from a stencil index and pair index on: the stale check first (R300). -/
def NProg.homes (g : NGrid) (job : List Byte) : List (Nat × Nat × Nat) → NWalk → NProg
  | [], w => .ends { w.out g.cells with state := 3, count2 := some 0 }
  | (h, k0, p0) :: r, w =>
    let first := (stencilOf job).headD 0
    let o := w.out (cursorOf h (max k0 first) p0)
    .stale o g h (stencilOf job) none fun
      | some p => .ends { w.out (cursorOf h first 0) with state := 6, count2 := some p }
      | none => .cell o g h fun home =>
        .stencils g job h k0 p0 home ((stencilOf job).filter fun k => decide (k0 ≤ k)) w fun w => NProg.homes g job r w

/-- The walk from a cursor, whose position is checked first (R301); an index that the stencil of the job leaves out is no position beyond the
grid (DEDUCED, log 141). -/
def walkFrom (g : NGrid) (job : List Byte) (cur : Nat) : NProg :=
  let h := nfld cur 27 0
  let k := nfld cur 32 28
  let p := nfld cur 46 33
  if nfld cur 63 47 ≠ 0 ∨ g.cells < h ∨ 26 < k ∨ g.cap * g.cap ≤ p ∨ (h = g.cells ∧ (k ≠ 0 ∨ p ≠ 0)) then
    .ends { state := 11, count1 := some 0 }
  else .homes g job ((List.range (g.cells - h)).map fun i => (h + i, if i = 0 then k else 0, if i = 0 then p else 0)) ⟨0, none⟩

/-- NPAIR's work (R297): the header, leave, the walk. -/
def pairProg (job : List Byte) (res : Bool) : NProg :=
  let cur := if res then nbCursor job else 0
  let o : NOut := { count1 := some 0, cursor := some cur }
  .gets o (wordsAt (.ofNat 64 (nbGrid job)) 16) [] fun ws =>
    if nfld (fieldAt ws.flatten 0 8) 1 0 ≠ 1 then .ends { state := 11, count1 := some 0 }
    else .ask .leave o fun _ => walkFrom (gridOfHeader (nbGrid job) ws.flatten) job cur

/-! ## The engine's steps -/

def Mach.job? (m : Mach) (die id : Nat) : Option NbrJob := (m.die die).jobs.find? fun j => decide (j.id = id)

def Mach.modJob (m : Mach) (die id : Nat) (f : NbrJob → NbrJob) : Mach :=
  m.modDie die fun d => { d with jobs := d.jobs.map fun j => if j.id = id then f j else j }

/-- The die whose engine holds a job. -/
def Mach.jobDie (m : Mach) (id : Nat) : Option Nat := [0, 1, 2, 3].find? fun d => (m.job? d id).isSome

/-- Write a field of the job block; nothing reaches the scratchpad of a killed team (R381). Of a team saved whole, the block lies in
the frame's scratchpad image (R393). -/
def Mach.jobWrite (m : Mach) (j : NbrJob) (off n v : Nat) : Mach :=
  match m.team? j.team with
  | some t => if t.killed then m else m.writeNat .scratch (t.phys (coreOfTeam j.team) (j.blk + off)) n v
  | none =>
    match m.frames.find? fun f => f.whole && decide (f.key = j.team) with
    | some f => m.writeNat .dev (f.addr + 0x4000 + 0x5000 * nfld (m.readNat .dev f.addr 8) 46 42 + j.blk + off) n v
    | none => m

/-- A value given, or a free one. -/
def Mach.orFree (m : Mach) (w : Nat) (x : Option Nat) : Nat × Mach :=
  match x with
  | some v => (v % 2 ^ w, m)
  | none => let (k, m) := m.draw; ((Config.word k).toNat % 2 ^ w, m)

/-- LAST on the last of the records that wait for a stage. -/
def markLast (recs : List (List Byte)) : List (List Byte) :=
  match recs.reverse with
  | [] => []
  | r :: rs => ((r.take 25 ++ [r.getD 25 0 ||| 4] ++ r.drop 26) :: rs).reverse

/-- The job's work is done: LAST on its last record (R301), and its outcome is kept until the completion step. -/
def Mach.jobEnds (m : Mach) (die : Nat) (id : Nat) (o : NOut) : Mach :=
  let m := match o.last with
    | some (pa, b) => m.writeByte .dev pa b
    | none => m
  let (c1, m) := m.orFree 32 o.count1
  let (c2, m) := m.orFree 32 o.count2
  let (fv, m) := m.orFree 64 (o.faultVa.map BitVec.toNat)
  let (cu, m) := m.orFree 64 o.cursor
  m.modJob die id fun j => { j with
    st := 2, state := o.state, cause := o.cause, count1 := .ofNat 32 c1, aux := .ofNat 32 o.aux, count2 := .ofNat 32 c2
    faultVa := .ofNat 64 fv, cursor := .ofNat 64 cu, recs := markLast j.recs }

/-- What a job asked for is answered, or it waits for a page, or stops (R295). -/
def Mach.jobHas (m : Mach) (die : Nat) (j : NbrJob) (asid : Nat) (o : NOut) (r : Except NStop (List Byte)) : Mach :=
  match r with
  | .ok b => m.modJob die j.id fun j => { j with got := j.got ++ [b] }
  | .error e =>
    if e.state = 0 then
      let (fid, m) := m.engineFault e.va die nbrUnit e.w asid
      m.modJob die j.id fun j => { j with fid := some fid, failVa := some e.va }
    else m.jobEnds die j.id { o with state := e.state, cause := e.cause, faultVa := some e.va }

/-- The work of a job. -/
def NbrJob.prog (j : NbrJob) : NProg := if j.bin then binProg j.job else pairProg j.job j.res

/-- One access of an active job, or its end. A resumption that failed stops it at the access (R295). A record waits while the stage before
it is full (R302), and so does the walk while leave is not granted (R297). -/
def Mach.jobRun (m : Mach) (die : Nat) (j : NbrJob) (err : Bool) : Mach :=
  let g := m.gridOfTeam j.team
  let x : NCtx := ⟨m.engineAgent j.team g.asid g.world nbrUnit, err⟩
  match j.prog.after j.got with
  | .ends o => m.jobEnds die j.id o
  | .ask q o _ =>
    match j.failVa, q with
    | some va, _ => m.jobEnds die j.id { o with state := 8, cause := 0x03, faultVa := some va }
    | none, .read va n => let (r, m) := x.read m va n; m.jobHas die j g.asid o r
    | none, .keep va bits =>
      match x.reach m va 1 true with
      | (.error e, m) => m.jobHas die j g.asid o (.error e)
      | (.ok ps, m) =>
        let p := onePiece ps
        (m.writeByte p.space p.addr (m.readByte p.space p.addr &&& bits)).jobHas die j g.asid o (.ok [])
    | none, .write va bs =>
      match x.write m va bs with
      | (.error e, m) => m.jobHas die j g.asid o (.error e)
      | (.ok pa, m) => m.jobHas die j g.asid o (.ok (leBytes 8 pa))
    | none, .leave => if m.leaveHeld j.team then (m.useLeave j.team).jobHas die j g.asid o (.ok []) else m.askLeave j.team
    | none, .stage rec =>
      if nbStgrec j.job < j.recs.length then m
      else (m.modJob die j.id fun j => { j with recs := j.recs ++ [rec] }).jobHas die j g.asid o (.ok [])

/-- A job may start: four places, and every earlier job on its grid has completed (R291). -/
def mayStart (js : List NbrJob) (j : NbrJob) : Bool :=
  decide (j.st = 0) && !((js.takeWhile fun y => decide (y.id ≠ j.id)).any fun y => decide (nbGrid y.job = nbGrid j.job))

/-- NEIGHBOUR_JOB_START (R291, R296 to R301): the oldest job that may start becomes active; an active job goes on with its work. -/
def execNeighbourJobStart (job : Nat) (err : Bool) (s : State) : Host.Outcome State Fault Refusal :=
  let m := s.mach
  match m.jobDie job with
  | none => .next s
  | some die =>
    let js := (m.die die).jobs
    match m.job? die job with
    | none => .next s
    | some j =>
      if j.st = 0 then
        if 4 ≤ (js.filter fun y => decide (y.st ≠ 0)).length ∨ (js.find? (mayStart js)).map NbrJob.id ≠ some job then .next s
        else .next { s with mach := (m.jobWrite j 80 8 2).modJob die job fun j => { j with st := 1 } }
      else if j.st = 1 && j.fid.isNone && !((laneList j.lanes).any fun l => m.issuerBusy j.key l j.id) then
        .next { s with mach := m.jobRun die j err }
      else .next s

/-- A filler record (R302). -/
def fillerRecord : List Byte := List.replicate 8 0xFF ++ List.replicate 17 0 ++ [2] ++ List.replicate 6 0

/-- The records of the next stage are there: more than a stage holds, so that none of them is the last, or all that a finished job has. -/
def NbrJob.staged (j : NbrJob) : Bool := decide (j.recs ≠ [] ∧ (j.st = 2 ∨ nbStgrec j.job < j.recs.length))

/-- NPAIR_STAGE_FILL (R302, R329): claim a free stage, write its records, fill it. Groups that wait for a free stage of the mailbag since
before claim first (R328). A killed team's records are dropped (R381). -/
def execNpairStageFill (job : Nat) (s : State) : Host.Outcome State Fault Refusal :=
  let m := s.mach
  match m.jobDie job with
  | none => .next s
  | some die =>
    match (m.job? die job).filter NbrJob.staged with
    | none => .next s
    | some j =>
      let t := m.team j.team
      let mb := nbMbid j.job
      let b := t.mail mb
      if t.killed then .next { s with mach := m.modJob die job fun j => { j with recs := [] } }
      else if ¬ b.canClaim ∨ m.mailWaiters j.team mb true ≠ [] then .next s
      else
        let n := nbStgrec j.job
        let bytes := ((j.recs.take n) ++ List.replicate (n - j.recs.length) fillerRecord).flatten
        let at_ := t.phys (coreOfTeam j.team) (nbOut j.job + 32 * n * (b.claim.toNat % b.stages))
        let m := (m.modMail j.team mb fun b => b.serve true).writeBytes .scratch at_ bytes
        .next { s with mach := (m.engineFill j.team mb).modJob die job fun j => { j with recs := j.recs.drop n } }

/-- STATUS of a finished job (R303). -/
def NbrJob.status (j : NbrJob) : Nat :=
  j.state + 256 * j.cause + 65536 * j.arrFail.getD 0 + 2 ^ 24 * boolNat j.arrFail.isSome

/-- Results, STATUS, arrival and event; the job's entry ends. -/
def Mach.jobCompletes (m : Mach) (die : Nat) (j : NbrJob) (arr : Option Nat) : Mach :=
  let m := (((m.jobWrite j 88 4 j.count1.toNat).jobWrite j 92 4 j.aux.toNat).jobWrite j 96 4 j.count2.toNat).jobWrite j 104 8 j.faultVa.toNat
  let m := (m.jobWrite j 72 8 j.cursor.toNat).jobWrite j 80 8 j.status
  let m := match arr with | some pa => m.arrive pa 1 | none => m
  let m := if nbEvp j.job then
      m.postTray (coreOfTeam j.team) ⟨.ofNat 64 j.status, .ofNat 64 (j.count1.toNat + 2 ^ 32 * j.aux.toNat), srcWord nbrUnit 2⟩
    else m
  m.modDie die fun d => { d with jobs := d.jobs.filter fun y => decide (y.id ≠ j.id) }

/-- NEIGHBOUR_JOB_COMPLETE (R303). -/
def execNeighbourJobComplete (job : Nat) (s : State) : Host.Outcome State Fault Refusal :=
  let m := s.mach
  match m.jobDie job with
  | none => .next s
  | some die =>
    match (m.job? die job).filter fun j => decide (j.st = 2 ∧ j.recs = []) && j.arrFid.isNone with
    | none => .next s
    | some j =>
      if nbArr j.job = false ∨ j.arrFail.isSome = true then .next { s with mach := m.jobCompletes die j none }
      else
        let g := m.gridOfTeam j.team
        match m.check (m.engineAgent j.team g.asid g.world nbrUnit) ⟨nbArrAddr j.job, 8, 8, false, true, false, false, .local_, .denied 0x24⟩ with
        | (.ok ps, m) => .next { s with mach := m.jobCompletes die j (some (onePiece ps).addr) }
        | (.error 0x03, m) =>
          let (fid, m) := m.engineFault (nbArrAddr j.job) die nbrUnit true g.asid
          .next { s with mach := m.modJob die job fun j => { j with arrFid := some fid } }
        | (.error e, m) => .next { s with mach := m.modJob die job fun j => { j with arrFail := some e } }

end Sys2Proof.Machine
end

