-- ==== Sys2Proof/Machine/Collective.lean ====
section
/-! DEFINITION. Collectives (R353 to R370): CLSTAT, CLABORT, CLSTEP, the ring of each chunk, aborts and HOLD. -/

namespace Sys2Proof.Machine

/-! ## Groups (R353, R354) -/

def Group.valid (g : Group) : Bool := bitAt g.gctl 63
def Group.secure (g : Group) : Bool := bitAt g.gctl 62
def Group.hold (g : Group) : Bool := bitAt g.gctl 61
def Group.ports (g : Group) : List Nat := (List.range 16).filter fun p => bitAt g.gctl (32 + p)
def Group.rank (g : Group) : Nat := fld g.gctl 29 16
def Group.nmem (g : Group) : Nat := fld g.gctl 14 0
def Group.next (g : Group) : Nat := fld g.gring 13 0
def Group.prev (g : Group) : Nat := fld g.gring 29 16
/-- The segment timeout in cycles. -/
def Group.timeout (g : Group) : Nat := (if fld g.gtree 51 32 = 0 then 200 else fld g.gtree 51 32) * Config.usCycles
/-- Tree neighbours: the parent and the valid children. -/
def Group.tree (g : Group) : List Nat :=
  (if bitAt g.gring 47 then [] else [fld g.gring 45 32]) ++ (if bitAt g.gtree 15 then [fld g.gtree 13 0] else [])
    ++ (if bitAt g.gtree 31 then [fld g.gtree 29 16] else [])

def Mach.modGroup (m : Mach) (k : Nat) (f : Group → Group) : Mach := m.setGroup k (f (m.group k))

/-- A package that an entry of the fence table names (R370). -/
def Mach.fenced (m : Mach) (pkg : Nat) : Bool := m.fence.any fun p => bitAt p.2 63 && decide (fld p.2 13 0 = pkg)

/-- The group of an index as an issuer sees it: none where CLSTAT answers 5. -/
def Mach.groupFor (m : Mach) (k : Nat) (secure : Bool) : Option Group :=
  let g := m.group k
  if 1023 < k ∨ g.valid = false ∨ (secure = false ∧ g.secure = true) then none else some g

/-- SEQ lies within CUR - 16 to CUR + 3. -/
def Group.near (g : Group) (seq : W32) : Bool := decide ((seq - g.cur + 16).toNat < 20)

/-! ## Instances -/

def Mach.inst? (m : Mach) (group : Nat) (seq : W32) : Option Inst := m.insts.find? fun x => decide (x.group = group ∧ x.seq = seq)

def Mach.modInst (m : Mach) (group : Nat) (seq : W32) (f : Inst → Inst) : Mach :=
  { m with insts := m.insts.map fun x => if x.group = group ∧ x.seq = seq then f x else x }

def newInst (group : Nat) (seq : W32) : Inst := ⟨group, seq, 1, 0, 0, 0, none, 0, 0, 0, [], [], 0, [], none, []⟩

/-- An instance that has ended, 17 or more behind CUR, is forgotten once no tree neighbour's answer is awaited (R363): CLSTAT no longer
reports it (R367), and its number may come again (DEDUCED, log 142). -/
def Mach.forgetInsts (m : Mach) (group : Nat) : Mach :=
  let cur := (m.group group).cur
  { m with insts := m.insts.filter fun x => !decide (x.group = group ∧ 3 ≤ x.st ∧ x.awaiting = [] ∧ 16 < (cur - x.seq).toNat ∧ (cur - x.seq).toNat < 2 ^ 31) }

/-- The driver has written CUR: no instance from CUR on has ended, whatever earlier use of its number did (R353, R362). -/
def Mach.restartInsts (m : Mach) (group : Nat) : Mach :=
  let cur := (m.group group).cur
  { m with insts := m.insts.filter fun x => !decide (x.group = group ∧ 3 ≤ x.st ∧ (x.seq - cur).toNat < 2 ^ 31) }

/-- The instance, made if there is none. -/
def Mach.withInst (m : Mach) (group : Nat) (seq : W32) : Mach :=
  if (m.inst? group seq).isSome then m else { m with insts := m.insts ++ [newInst group seq] }

/-! ## Aborts (R363, R364) -/

/-- The group and sequence number of a grid's binding. -/
def Grid.binding (g : Grid) : Nat × W32 := (fld (g.coll.getD 0 0) 31 0, .ofNat 32 (fld (g.coll.getD 0 0) 63 32))

/-- Held fires of a sequence are dropped. -/
def Mach.dropFires (m : Mach) (group : Nat) (seq : W32) : Mach :=
  { m with grids := m.grids.map fun p => (p.1, p.2.map fun g =>
    if g.coll ≠ [] ∧ g.binding = (group, seq) then { g with due := [] } else g) }

/-- The one step of R364 on a member. -/
def Mach.markAborted (m : Mach) (group : Nat) (seq : W32) (cause : Nat) : Mach :=
  let m := (m.withInst group seq).dropFires group seq
  let m := m.modInst group seq fun x => { x with st := 4, cause := cause, chunks := [], early := [], unacked := 0 }
  m.modGroup group fun g => { g with
    last := seq, av := true, aborts := satInc g.aborts, cur := if (seq - g.cur).toNat < 4 then seq + 1 else g.cur }

/-- Every awaited tree neighbour has answered: the answer goes back and the operations complete (R363, R368). -/
def Mach.settleAbort (m : Mach) (group : Nat) (seq : W32) : Mach :=
  match m.inst? group seq with
  | none => m
  | some x =>
    if x.awaiting ≠ [] then m
    else
      let m := m.modInst group seq fun x => { x with answer := none, ops := [] }
      let m := match x.answer with
        | some peer => { m with out := m.out ++ [Sending.answer peer group seq] }
        | none => m
      x.ops.foldl (fun m y => m.complete y.1 y.2) m

/-- ABORT is detected here, or comes from a tree neighbour, for the first time: it is handled and forwarded. -/
def Mach.abort (m : Mach) (group : Nat) (seq : W32) (cause : Nat) (src : Option Nat) : Mach :=
  if (m.inst? group seq).any fun x => decide (x.st = 4) then m
  else
    let peer := (m.group group).tree.filter fun p => decide (some p ≠ src)
    let m := m.markAborted group seq cause
    let m : Mach := { m with out := m.out ++ peer.map fun p => Sending.abort p group seq cause }
    ((m.modInst group seq fun x => { x with awaiting := peer, answer := src }).settleAbort group seq).forgetInsts group

/-- ABORT_RECEIVE (R363, R364, R370): a member that has handled one answers at once. -/
def execAbortReceive (group seq cause src : Nat) (s : State) : Host.Outcome State Fault Refusal :=
  let m := s.mach
  let sq : W32 := .ofNat 32 seq
  if m.fenced src ∨ (m.group group).valid = false then .next s
  else if (m.inst? group sq).any fun x => decide (x.st = 4) then
    .next { s with mach := { m with out := m.out ++ [Sending.answer src group sq] } }
  else .next { s with mach := m.abort group sq cause (some src) }

/-- ABORT_ANSWER (R363, R368). -/
def execAbortAnswer (group seq src : Nat) (s : State) : Host.Outcome State Fault Refusal :=
  let m := s.mach
  let sq : W32 := .ofNat 32 seq
  if (m.inst? group sq).any fun x => x.awaiting.contains src then
    .next { s with mach := (m.modInst group sq fun x => { x with awaiting := x.awaiting.filter fun p => decide (p ≠ src) }).settleAbort group sq }
  else .next s

/-- Running instances of a kind are aborted. -/
def Mach.abortRunning (m : Mach) (cause : Nat) (p : Inst → Bool) : Mach :=
  (m.insts.filter fun x => decide (x.st = 2) && p x).foldl (fun m x => m.abort x.group x.seq cause none) m

/-- The port carries a chunk of the instance (R357). -/
def Mach.carriedBy (m : Mach) (x : Inst) (port : Nat) : Bool :=
  let ps := (m.group x.group).ports
  (x.chunks.any fun c => decide (c.port = port)) || (List.range (min x.nchunk ps.length)).any fun c => decide (ps.getD c 0 = port)

/-- LINK_LOSS (R363): every running instance that the port carries, its chunks written or not. -/
def execLinkLoss (port : Nat) (s : State) : Host.Outcome State Fault Refusal :=
  .next { s with mach := s.mach.abortRunning 0x51 fun x => s.mach.carriedBy x port }

/-- SEGMENT_TIMEOUT (R363): a segment of a chunk that has fired here is awaited for too long. -/
def execSegmentTimeout (group seq chunk : Nat) (s : State) : Host.Outcome State Fault Refusal :=
  let m := s.mach
  let sq : W32 := .ofNat 32 seq
  let g := m.group group
  let late := fun (c : Chunk) => decide (c.idx = chunk ∧ c.rx < 2 * (g.nmem - 1) ∧ c.since + g.timeout < m.clk)
  if (m.inst? group sq).any fun x => decide (x.st = 2) && x.chunks.any late then .next { s with mach := m.abort group sq 0x50 none }
  else .next s

/-- GROUP_HOLD (R354): HOLD is set and every instance in progress is aborted. -/
def execGroupHold (group : Nat) (s : State) : Host.Outcome State Fault Refusal :=
  if s.boot.state ≠ 3 ∨ 1024 ≤ group then .next s
  else
    let m := s.mach.modGroup group fun g => { g with gctl := g.gctl ||| (1#64 <<< 61) }
    .next { s with mach := m.abortRunning 0x55 fun x => decide (x.group = group) }

/-- GROUP_HOLD_CLEAR (R354). -/
def execGroupHoldClear (group : Nat) (s : State) : Host.Outcome State Fault Refusal :=
  if s.boot.state ≠ 3 ∨ 1024 ≤ group then .next s
  else .next { s with mach := s.mach.modGroup group fun g => { g with gctl := g.gctl &&& ~~~(1#64 <<< 61) } }

/-! ## Elements (R359, R360, R62) -/

def bindOp (b : Nat) : Nat := nfld b 33 32
/-- The format of SFMT, or of OFMT 00, 01 and 11. -/
def sfmt (b : Nat) : Fmt := if nfld b 35 34 = 1 then fmtBf16 else if nfld b 35 34 = 2 then fmtF64 else fmtF32
def ofmt (b : Nat) : Fmt := if nfld b 37 36 = 1 then fmtBf16 else if nfld b 37 36 = 3 then fmtF64 else fmtF32
def srcSize (b : Nat) : Nat := (sfmt b).width / 8
def dstSize (b : Nat) : Nat := if nfld b 37 36 = 2 then 8 else (ofmt b).width / 8
def bindE (b : Nat) : Int := sval 9 (nfld b 46 38)

/-- A source element as it travels, and its marks; `k` names the free value that a non-finite element of a sum leaves (R62). -/
def placeElem (b x k : Nat) : W64 × BitVec 4 :=
  if bindOp b ≠ 0 then (.ofNat 64 x, 0)
  else
    match placeOn 64 ((sfmt b).decode x) 0 (bindE b) with
    | .num n => (.ofInt 64 n, 0)
    | .out neg => (.ofInt 64 (if neg then intLo true 64 else intHi true 64), 1)
    | .nonfinite (.inf neg) => (Config.word k, if neg then 8 else 4)
    | .nonfinite _ => (Config.word k, 2)

/-- IEEE 754 total order of an encoding of w bits as an integer. -/
def orderKey (w x : Nat) : Int := if x.testBit (w - 1) then sval w (x ^^^ (2 ^ (w - 1) - 1)) else sval w x

/-- Combine one element: the value, and whether the sum left the range (R359, R62). -/
def combineElem (b : Nat) (x y : W64) : W64 × Bool :=
  let w := (sfmt b).width
  match bindOp b with
  | 0 =>
    let s := x.toInt + y.toInt
    if s < intLo true 64 then (.ofInt 64 (intLo true 64), true)
    else if intHi true 64 < s then (.ofInt 64 (intHi true 64), true) else (.ofInt 64 s, false)
  | 1 => (if orderKey w y.toNat < orderKey w x.toNat then y else x, false)
  | _ => (if orderKey w x.toNat < orderKey w y.toNat then y else x, false)

/-- What the last step writes for an element of a segment (R360). -/
def outElem (b : Nat) (marked : Bool) (x : W64) : Nat :=
  if nfld b 37 36 = 2 ∨ bindOp b ≠ 0 then x.toNat
  else if marked then (ofmt b).nanBits
  else ((ofmt b).deliver 0 false (valOfInt false x.toInt (bindE b))).1

/-! ## The ring (R358, R361, R362) -/

/-- First element of segment j of n elements. -/
def segStart (n nmem j : Nat) : Nat := j * n / nmem

def Chunk.segVals (c : Chunk) (n nmem j : Nat) : List W64 := (c.own.drop (segStart n nmem j)).take (segStart n nmem (j + 1) - segStart n nmem j)

/-- Send segment j of a chunk to the next member. -/
def Mach.sendSegment (m : Mach) (x : Inst) (c : Chunk) (j : Nat) (complete : Bool) : Mach :=
  let g := m.group x.group
  let seg : Segment := ⟨x.group, x.seq, c.idx, j, g.nmem, x.nchunk, complete, c.marks.getD j 0, c.segVals x.n g.nmem j⟩
  { m with out := m.out ++ [Sending.segment g.next seg] }.modInst x.group x.seq fun x => { x with unacked := x.unacked + 1 }

/-- Write a complete segment to the destination (R360, R361). -/
def Mach.writeSegment (m : Mach) (x : Inst) (c : Chunk) (j : Nat) : Mach :=
  let nmem := (m.group x.group).nmem
  let k0 := segStart x.n nmem j
  let sz := dstSize x.bind
  let marked := decide (c.marks.getD j 0 ≠ 0)
  ((c.segVals x.n nmem j).mapIdx fun i v => (k0 + i, v)).foldl (fun m y =>
    m.writeNat .dev (pieceAddr c.dst (y.1 * sz)) sz (outElem x.bind marked y.2)) m

def Mach.modChunk (m : Mach) (group : Nat) (seq : W32) (idx : Nat) (f : Chunk → Chunk) : Mach :=
  m.modInst group seq fun x => { x with chunks := x.chunks.map fun c => if c.idx = idx then f c else c }

/-- The instance is finished once every chunk is written and all traffic acknowledged: CUR rises (R362). -/
def Mach.finishInst (m : Mach) (group : Nat) (seq : W32) : Mach :=
  match m.inst? group seq with
  | none => m
  | some x =>
    if x.st = 2 ∧ x.written = x.nchunk ∧ x.unacked = 0 then
      ((m.modInst group seq fun x => { x with st := 3 }).modGroup group fun g => { g with cur := g.cur + 1 }).forgetInsts group
    else m

/-- The chunk is written: its arrival, its marks, its end. -/
def Mach.chunkWritten (m : Mach) (x : Inst) (c : Chunk) : Mach :=
  let m := match c.arr with | some pa => m.arrive pa 1 | none => m
  (m.modInst x.group x.seq fun y => { y with
    written := y.written + 1, marks := y.marks ||| c.marks.foldl (· ||| ·) 0
    chunks := y.chunks.filter fun d => decide (d.idx ≠ c.idx) }).finishInst x.group x.seq

/-- Combine a received segment with the chunk's own (R359). -/
def Chunk.combine (c : Chunk) (b n nmem : Nat) (s : Segment) : Chunk :=
  let k0 := segStart n nmem s.seg
  let both := (s.vals.zip (c.segVals n nmem s.seg)).map fun y => combineElem b y.1 y.2
  let marks := s.marks ||| c.marks.getD s.seg 0 ||| (if both.any Prod.snd then 1 else 0)
  { c with own := c.own.take k0 ++ both.map Prod.fst ++ c.own.drop (k0 + both.length), marks := c.marks.set s.seg marks }

/-- Take a complete segment as it is. -/
def Chunk.accept (c : Chunk) (n nmem : Nat) (s : Segment) : Chunk :=
  let k0 := segStart n nmem s.seg
  { c with own := c.own.take k0 ++ s.vals ++ c.own.drop (k0 + s.vals.length), marks := c.marks.set s.seg s.marks }

/-- The segment that a chunk awaits, and whether it is complete. -/
def Chunk.expects (c : Chunk) (rank nmem : Nat) : Nat × Bool :=
  if c.rx < nmem - 1 then ((rank + 2 * nmem - c.rx - 1) % nmem, false)
  else ((rank + 2 * nmem - (c.rx - (nmem - 1))) % nmem, true)

/-- A segment reaches its fired chunk: combined or taken, written if complete, forwarded (R358). -/
def Mach.segmentStep (m : Mach) (x : Inst) (c : Chunk) (s : Segment) : Mach :=
  let g := m.group x.group
  let nmem := g.nmem
  let ok := decide (s.nmem = nmem ∧ s.nchunk = x.nchunk ∧ (s.seg, s.complete) = c.expects g.rank nmem
    ∧ s.vals.length = (c.segVals x.n nmem s.seg).length)
  let m : Mach := { m with out := m.out ++ [Sending.ringAck g.prev x.group x.seq] }
  if ¬ ok then m.abort x.group x.seq 0x52 none
  else
    let c' := if s.complete then c.accept x.n nmem s else c.combine x.bind x.n nmem s
    let c' := { c' with rx := c.rx + 1, since := m.clk }
    let m := m.modChunk x.group x.seq c.idx fun _ => c'
    let whole := s.complete || decide (c.rx + 1 = nmem - 1)
    let m := if whole then m.writeSegment x c' s.seg else m
    if c'.rx = 2 * (nmem - 1) then m.chunkWritten x c' else m.sendSegment x c' s.seg whole

/-- A chunk that has fired takes the segments that came early, in order; a segment can be forwarded at once, so each is one step. -/
def Mach.drainEarly (group : Nat) (seq : W32) (idx : Nat) : Nat → Mach → Mach
  | 0, m => m
  | n + 1, m =>
    match m.inst? group seq with
    | none => m
    | some x =>
      match x.early.find? (fun s => decide (s.chunk = idx)), x.chunks.find? fun c => decide (c.idx = idx) with
      | some s, some c =>
        let m := m.modInst group seq fun x => { x with early := (x.early.takeWhile fun y => decide (y ≠ s)) ++ (x.early.dropWhile fun y => decide (y ≠ s)).drop 1 }
        drainEarly group seq idx n (m.segmentStep x c s)
      | _, _ => m

/-- SEGMENT_RECEIVE (R358 to R362, R354, R370): segments of a running instance are taken wherever CUR stands. -/
def execSegmentReceive (seg : Segment) (s : State) : Host.Outcome State Fault Refusal :=
  let m := s.mach
  let g := m.group seg.group
  let st := ((m.inst? seg.group seg.seq).map Inst.st).getD 0
  if g.valid = false ∨ g.hold = true ∨ m.fenced g.prev = true ∨ (4 ≤ (seg.seq - g.cur).toNat ∧ st ≠ 2) ∨ 3 ≤ st then .next s
  else
    let m := m.withInst seg.group seg.seq
    match m.inst? seg.group seg.seq with
    | none => .next s
    | some x =>
      match x.chunks.find? fun c => decide (c.idx = seg.chunk) with
      | some c => .next { s with mach := m.segmentStep x c seg }
      | none =>
        if x.st = 2 ∧ x.nchunk ≤ seg.chunk then .next { s with mach := m.abort seg.group seg.seq 0x52 none }
        else .next { s with mach := m.modInst seg.group seg.seq fun x => { x with early := x.early ++ [seg] } }

/-- RING_TRAFFIC_ACKNOWLEDGEMENT (R362). -/
def execRingTrafficAcknowledgement (group seq : Nat) (s : State) : Host.Outcome State Fault Refusal :=
  let sq : W32 := .ofNat 32 seq
  .next { s with mach := (s.mach.modInst group sq fun x => { x with unacked := x.unacked - 1 }).finishInst group sq }

/-! ## Firing (R356, R357) -/

/-- The chunks of a grid: teams per chunk, chunks, elements of a chunk. -/
def Grid.chunkShape (g : Grid) : Nat × Nat × Nat :=
  let b := g.coll.getD 3 0
  let tpc := fld b 15 0
  (tpc, (g.gx * g.gy * g.gz + tpc - 1) / tpc, 64 * fld b 31 16)

/-- A span that a sequencer reads or writes: pieces in this package's device memory, or a cause (R363). A sequencer's accesses are of its
group's world (R406). -/
def Mach.ringSpan (m : Mach) (g : Grid) (unit va len : Nat) (w : Bool) : Except Nat (List (Nat × Nat)) × Mach :=
  match m.check ⟨g.asid, 0, 0, (m.group g.binding.1).secure, 0, 0, false, unit⟩ ⟨.ofNat 64 va, len, 1, !w, w, false, false, .letter, .denied 0x22⟩ with
  | (.error e, m) => (.error e, m)
  | (.ok ps, m) => if ps.any fun p => p.pkg.isSome then (.error 0x30, m) else (.ok (ps.map fun p => (p.addr, p.len)), m)

/-- The ring sequencer of a grid's chunk, by its unit number (R18, R358). -/
def Mach.ringUnit (m : Mach) (g : Grid) (c : Nat) : Nat :=
  let ports := (m.group g.binding.1).ports
  112 + ports.getD (c % ports.length) 0

/-- The virtual spans that a chunk's sequencer translates: source, destination, arrival word. -/
def Grid.chunkVas (g : Grid) (c : Nat) : List (Nat × Nat) :=
  let b := (g.coll.getD 3 0).toNat
  let n := g.chunkShape.2.2
  let src := (g.coll.getD 1 0).toNat
  let dst := (g.coll.getD 2 0).toNat
  [(src + c * n * srcSize b, src + (c + 1) * n * srcSize b), (dst + c * n * dstSize b, dst + (c + 1) * n * dstSize b)]
    ++ if b.testBit 47 then [(dst - 8, dst)] else []

/-- Source, destination and arrival word of a chunk; the destination and its word lie on one die, that of the instance's other chunks
(R356). -/
def Mach.chunkSpans (m : Mach) (g : Grid) (c : Nat) :
    Except Nat (List (Nat × Nat) × List (Nat × Nat) × Option Nat) × Mach :=
  let b := (g.coll.getD 3 0).toNat
  let n := g.chunkShape.2.2
  let unit := m.ringUnit g c
  match m.ringSpan g unit ((g.coll.getD 1 0).toNat + c * n * srcSize b) (n * srcSize b) false with
  | (.error e, m) => (.error e, m)
  | (.ok src, m) =>
    match m.ringSpan g unit ((g.coll.getD 2 0).toNat + c * n * dstSize b) (n * dstSize b) true with
    | (.error e, m) => (.error e, m)
    | (.ok dst, m) =>
      let (r, m) : Except Nat (List (Nat × Nat)) × Mach :=
        if b.testBit 47 then m.ringSpan g unit ((g.coll.getD 2 0).toNat + (2 ^ 64 - 8)) 8 true else (.ok [], m)
      match r with
      | .error e => (.error e, m)
      | .ok arr =>
        let dies := (dst ++ arr).map fun p => homeDie p.1
        let home := ((m.inst? g.binding.1 g.binding.2).bind Inst.home).orElse fun _ => dies.head?
        if dies.any fun d => decide (some d ≠ home) then (.error 0x30, m)
        else (.ok (src, dst, arr.head?.map (·.1)), m)

/-- The fire has leave: the source is read, and segment RANK goes to the next member (R358). -/
def Mach.fire (m : Mach) (gk : Nat) (g : Grid) (c : Nat) (src dst : List (Nat × Nat)) (arr : Option Nat) : Mach :=
  let (group, seq) := g.binding
  let gr := m.group group
  let b := (g.coll.getD 3 0).toNat
  let (_, nchunk, n) := g.chunkShape
  let port := gr.ports.getD (c % gr.ports.length) 0
  let m := (m.modGrid gk fun g => { g with due := g.due.filter fun d => decide (d.chunk ≠ c) }).withInst group seq
  let m := m.modInst group seq fun x => { x with
    st := 2, nchunk := nchunk, n := n, bind := b, home := x.home.orElse fun _ => dst.head?.map fun p => homeDie p.1 }
  if gr.nmem < 2 ∨ ((m.inst? group seq).any fun x => x.early.any fun s => decide (nchunk ≤ s.chunk)) = true then m.abort group seq 0x52 none
  else
    match m.bad.find? fun l => src.any fun p => decide (l * 64 < p.1 + p.2 ∧ p.1 < l * 64 + 64) with
    | some l => (m.logError 1 (m.ringUnit g c) 0 (l * 64)).abort group seq 0x40 none
    | none =>
      let sz := srcSize b
      let placed := (List.range n).map fun k => placeElem b (m.readNat .dev (pieceAddr src (k * sz)) sz) (m.free + k)
      let m : Mach := { m with free := m.free + n }
      let marks := (List.range gr.nmem).map fun j =>
        ((placed.drop (segStart n gr.nmem j)).take (segStart n gr.nmem (j + 1) - segStart n gr.nmem j)).foldl (fun k y => k ||| y.2) 0
      let ch : Chunk := ⟨c, port, placed.map Prod.fst, marks, dst, arr, 0, m.clk, g.asid, g.chunkVas c⟩
      let m := m.modInst group seq fun x => { x with chunks := x.chunks ++ [ch] }
      match m.inst? group seq with
      | none => m
      | some x => Mach.drainEarly group seq c (2 * gr.nmem) (m.sendSegment x ch gr.rank false)

/-- CHUNK_FIRE (R357, R362): discarded, held, or, once it has leave, read and sent. -/
def execChunkFire (grid chunk : Nat) (s : State) : Host.Outcome State Fault Refusal :=
  let m := s.mach
  match m.grid? grid with
  | none => .next s
  | some g =>
    match g.due.find? fun d => decide (d.chunk = chunk) with
    | none => .next s
    | some d =>
      let (group, seq) := g.binding
      let gr := m.group group
      let ahead := (seq - gr.cur).toNat
      let gone := (m.inst? group seq).any fun x => decide (x.st = 4)
      if 4 ≤ ahead ∨ gone = true then
        let m := m.modGrid grid fun g => { g with due := g.due.filter fun d => decide (d.chunk ≠ chunk) }
        .next { s with mach := m.modGroup group fun g => { g with stale := satInc g.stale } }
      else if gr.hold ∨ ahead ≠ 0 then .next s
      else
        match m.chunkSpans g chunk with
        | (.error e, m) => .next { s with mach := m.abort group seq e none }
        | (.ok (src, dst, arr), m) =>
          if d.leave.st = 2 then .next { s with mach := m.fire grid g chunk src dst arr }
          else if d.leave.st = 1 then .next s
          else
            let die := homeDie ((src.headD (0, 0)).1)
            .next { s with mach := m.modGrid grid fun g => { g with due := g.due.map fun d =>
              if d.chunk = chunk then { d with leave := ⟨1, m.clk, false⟩, die := die } else d } }

/-- A team of a collective grid retires (R357): the chunk's count, its fire, or the abort of a killed team's instance. -/
def Mach.chunkRetire (m : Mach) (gk idx : Nat) (killed held : Bool) : Mach :=
  match m.grid? gk with
  | none => m
  | some g =>
    if g.coll = [] then m
    else
      let (group, seq) := g.binding
      let (tpc, nchunk, _) := g.chunkShape
      let c := idx / tpc
      let size := if c + 1 = nchunk then g.gx * g.gy * g.gz - c * tpc else tpc
      if killed then m.abort group seq 0x54 none
      else
        let n := Sparse.get 0 g.chunks c + 1
        m.modGrid gk fun g => { g with
          chunks := Sparse.put 0 g.chunks c n
          due := if n = size then g.due ++ [⟨c, ⟨if held then 2 else 0, m.clk, false⟩, 0⟩] else g.due }

/-! ## CLSTAT, CLABORT, CLSTEP (R366 to R369) -/

def clRule (opc fn : Nat) (useD useA : Bool) : Rule where
  opc := opc
  form _ := { fns := [fn], useD := useD, useA := useA, litB := false }
  opds o := (if useD then [.s o.d.toNat 1 1] else []) ++ if useA then [.s o.a.toNat 1 1] else []

/-- The status word of an instance (R367). Of a finished sequence that this package never ran, marks and chunks are open. -/
def Mach.clStatus (m : Mach) (g : Group) (group : Nat) (seq : W32) : W64 × Mach :=
  if ¬ g.near seq then (0, m)
  else
    match m.inst? group seq with
    | some x => (.ofNat 64 (x.st * 2 ^ 61 + x.cause * 2 ^ 48 + x.marks.toNat * 2 ^ 44 + x.written), m)
    | none =>
      if (seq - g.cur).toNat < 4 then (.ofNat 64 (2 ^ 61), m)
      else
        let (k, m) := m.draw
        (.ofNat 64 (3 * 2 ^ 61 + fld (Config.word k) 3 0 * 2 ^ 44 + fld (Config.word k) 63 32), m)

/-- CLSTAT (R367). -/
def execClstat (o : Opn) (s : State) : Host.Outcome State Fault Refusal :=
  issue (clRule 0xD0 0 true true) o s fun c m =>
    let x := c.s o.a.toNat
    match m.groupFor (fld x 31 0) c.g.world with
    | none => .done (c.setS m o.d.toNat (.ofNat 64 (5 * 2 ^ 61)))
    | some g =>
      let (w, m) := m.clStatus g (fld x 31 0) (.ofNat 32 (fld x 63 32))
      .done (c.setS m o.d.toNat w)

/-- CLABORT (R368). -/
def execClabort (o : Opn) (s : State) : Host.Outcome State Fault Refusal :=
  issue (clRule 0xD1 0 true true) o s fun c m =>
    let x := c.s o.a.toNat
    let group := fld x 31 0
    let seq : W32 := .ofNat 32 (fld x 63 32)
    match m.groupFor group c.g.world with
    | none => .done (c.setS m o.d.toNat (errWord 1))
    | some g =>
      if ¬ g.near seq then .done (c.setS m o.d.toNat (errWord 2))
      else if c.counterFull 5 then .hold
      else
        let (id, m) := m.count c.key 5
        let m := (m.abort group seq 0x53 none).modInst group seq fun x => { x with ops := x.ops ++ [(c.key, id)] }
        .done (c.setS (m.settleAbort group seq) o.d.toNat 0)

/-- CLSTEP (R369). -/
def execClstep (o : Opn) (s : State) : Host.Outcome State Fault Refusal :=
  issue (clRule 0xD2 0 false true) o s fun c m =>
    let x := c.s o.a.toNat
    if fld x 63 16 ≠ 0 then .trap m (c.trap clsOperand 0x63)
    else .done (c.modRegs m fun r => { r with stepTag := x.setWidth 16 })

/-- CLSTEP.rd (R369). -/
def execClstepRd (o : Opn) (s : State) : Host.Outcome State Fault Refusal :=
  issue (clRule 0xD2 1 true false) o s fun c m => .done (c.setS m o.d.toNat (c.b.regs.stepTag.setWidth 64))

end Sys2Proof.Machine
end

