-- ==== Sys2Proof/Machine/Control.lean ====
section
/-! DEFINITION. Control transfers (R83 to R87), rejoin masks (R88 to R90), MATCH, COMPACT (R92, R93) and REFORM (R94). -/

namespace Sys2Proof.Machine

/-- What NOP allows and reads. -/
def nopRule : Rule :=
  { opc := 0x00, form := fun _ => {} }

/-- NOP (R87). -/
def execNop (o : Opn) (s : State) : Host.Outcome State Fault Refusal :=
  issue nopRule o s fun _ m => .done m

/-- The lanes whose guard holds: p[PRED] XOR NEG (R83, R85, R383). -/
def Ctx.guard (c : Ctx) : Lanes := c.grp &&& maskLanes c.b.regs c.o

/-- The lanes that a branch takes, one decision for all with UNI (R83). -/
def Ctx.taken (c : Ctx) : Lanes :=
  if bitAt c.o.mods 0 then (if c.guard.getLsbD (lowestLane c.grp) then c.grp else 0) else c.guard

/-- Where each lane of the group goes: to its target where it transfers, else past the instruction. -/
def Ctx.pcs (c : Ctx) (take : Lanes) (tgt : Nat → W64) : List (Nat × W64) :=
  (laneList c.grp).map fun l => (l, if take.getLsbD l then tgt l else c.nextPc)

/-- The return address goes to LNK of the lanes that transfer, to w31 in a handler (R83, R379). -/
def Ctx.link (c : Ctx) (m : Mach) (take : Lanes) : Mach :=
  if c.hand then (if take = 0 then m else c.modRegs m fun r => r.setW 31 c.nextPc)
  else m.modBundle c.key fun b => b.modLanes take fun _ x => { x with lnk := c.nextPc }

def braRule (opc : Nat) : Rule where
  opc := opc
  form _ := { modBits := 1, pred := true, litB := false }
  extra o := decide (o.imm.toNat % 4 = 0)

/-- BRA (R83). -/
def execBra (o : Opn) (s : State) : Host.Outcome State Fault Refusal :=
  issue (braRule 0x01) o s fun c m => .goto m (c.pcs c.taken fun _ => c.pc + o.imm)

/-- CALL (R83). -/
def execCall (o : Opn) (s : State) : Host.Outcome State Fault Refusal :=
  issue (braRule 0x03) o s fun c m => .goto (c.link m c.taken) (c.pcs c.taken fun _ => c.pc + o.imm)

/-- Lanes whose target is not a multiple of 4 hold ALIGN (R84, R85). -/
def misaligned (ls : Lanes) (tgt : Nat → W64) : List Cond :=
  ((laneList ls).filter fun l => decide ((tgt l).toNat % 4 ≠ 0)).map fun l => ⟨l, clsAlign, 0x10, 0, 0⟩

/-- What BRX allows and reads. -/
def brxRule : Rule :=
  { opc := 0x02
    form := fun o => { fns := [0, 1, 2, 3, 4, 5], useA := true, useB := decide (o.fn = 1 ∨ o.fn = 2) }
    opds := fun o => (if o.fn = 3 ∨ o.fn = 5 then [.v o.a.toNat 2 2] else [.s o.a.toNat 1 1])
    ++ (if o.fn = 1 ∨ o.fn = 2 then [.s o.b.toNat 1 1] else []) }

/-- BRX (R84). -/
def execBrx (o : Opn) (s : State) : Host.Outcome State Fault Refusal :=
  issue brxRule o s fun c m =>
    let fn := o.fn.toNat
    let tgt := fun l => if fn = 3 ∨ fn = 5 then c.v2 o.a.toNat l else c.s o.a.toNat
    let take := if fn = 1 then (if c.s o.b.toNat ≠ 0 then c.grp else 0)
      else if fn = 2 then (if c.s o.b.toNat = 0 then c.grp else 0) else c.grp
    let bad := misaligned take tgt
    if bad ≠ [] then .trap m (c.trapWith clsAlign 0x10 bad)
    else .goto (if fn = 4 ∨ fn = 5 then c.link m take else m) (c.pcs take tgt)

def guardRule (opc : Nat) : Rule where
  opc := opc
  form _ := { pred := true, litB := false }
  extra o := decide (o.imm = 0)

/-- RET (R85); in a handler to w31 (R379). -/
def execRet (o : Opn) (s : State) : Host.Outcome State Fault Refusal :=
  issue (guardRule 0x04) o s fun c m =>
    let tgt := fun l => if c.hand then c.b.regs.getW 31 else (c.b.lane l).lnk
    let bad := misaligned c.guard tgt
    if bad ≠ [] then .trap m (c.trapWith clsAlign 0x10 bad) else .goto m (c.pcs c.guard tgt)

/-- The control core's threads end: IDLE once its counters are zero (R334). -/
def Mach.idleControl (m : Mach) (core : Nat) : Mach :=
  let key := core * 256 + 128
  if (m.core core).cst = 1 ∧ (m.bundle key).live = 0 ∧ (m.bundle key).outs = [] then
    m.modCore core fun c => { c with cst := 0 }
  else m

/-- EXIT (R85, R334). -/
def execExit (o : Opn) (s : State) : Host.Outcome State Fault Refusal :=
  issue (guardRule 0x05) o s fun c m =>
    let m := m.exitLanes c.key c.guard
    .goto (if c.ctl then m.idleControl c.core else m) (c.pcs 0 fun _ => 0)

/-- What JENROL allows and reads. -/
def jenrolRule : Rule :=
  { opc := 0x06, form := fun _ => { useD := true }, opds := fun o => [.j o.d.toNat] }

/-- JENROL (R88); without effect in legacy mode (R82). -/
def execJenrol (o : Opn) (s : State) : Host.Outcome State Fault Refusal :=
  issue jenrolRule o s fun c m =>
    if c.g.legacy then .done m
    else .done (c.modRegs m fun r => r.setJ o.d.toNat (r.getJ o.d.toNat ||| c.grp))

/-- What JWAIT allows and reads. -/
def jwaitRule : Rule :=
  { opc := 0x07, form := fun _ => { useD := true }, opds := fun o => [.j o.d.toNat] }

/-- JWAIT (R89); without effect in legacy mode (R82). -/
def execJwait (o : Opn) (s : State) : Host.Outcome State Fault Refusal :=
  issue jwaitRule o s fun c m =>
    if c.g.legacy then .done m
    else
      let k := o.d.toNat
      let park := c.grp &&& c.b.regs.getJ k
      .goto (m.modBundle c.key fun b => (b.modLanes c.grp fun l x =>
        if park.getLsbD l then { x with st := .join k c.size, pc := c.pc, last := m.clk }
        else { x with pc := c.nextPc, last := m.clk }).releaseJoin k) []

/-- A lane is parked on rejoin mask k. -/
def Bundle.parkedOn (b : Bundle) (k : Nat) : Bool :=
  (List.range 32).any fun l => match (b.lane l).st with | .join i _ => decide (i = k) | _ => false

/-- What JMOV allows and reads. -/
def jmovRule : Rule :=
  { opc := 0x08, form := fun _ => { fns := [0, 1, 2], useD := true, useA := true }
    opds := fun o => if o.fn = 1 then [.s o.d.toNat 1 1, .j o.a.toNat]
    else if o.fn = 2 then [.j o.d.toNat, .s o.a.toNat 1 1] else [.j o.d.toNat, .j o.a.toNat] }

/-- JMOV (R90). -/
def execJmov (o : Opn) (s : State) : Host.Outcome State Fault Refusal :=
  issue jmovRule o s fun c m =>
    let d := o.d.toNat
    if o.fn = 1 then .done (c.setS m d ((c.b.regs.getJ o.a.toNat).setWidth 64))
    else if c.b.parkedOn d then .trap m (c.trap clsRole 0x68)
    else if o.fn = 2 then .done (c.modRegs m fun r => r.setJ d ((c.s o.a.toNat).setWidth 32 &&& c.b.live))
    else .done (c.modRegs m fun r => r.setJ d (r.getJ o.a.toNat))

/-- A key of MATCH: a word, or a pair for TY 2 and 3. -/
def Ctx.key64 (c : Ctx) (ty r l : Nat) : W64 := if ty = 2 ∨ ty = 3 then c.v2 r l else (c.v r l).setWidth 64

/-- What MATCH allows and reads. -/
def matchKeysRule : Rule :=
  { opc := 0x0A, form := fun _ => { fns := [0, 1], useD := true, useA := true, mask := 2, tys := [0, 1, 2, 3] }
    opds := fun o => [.v o.d.toNat 1 1, vOpd (typeOf o 0) o.a.toNat] }

/-- MATCH (R92). -/
def execMatchKeys (o : Opn) (s : State) : Host.Outcome State Fault Refusal :=
  issue matchKeysRule o s fun c m =>
    let same := fun i => laneMask fun j => c.act.getLsbD j && decide (c.key64 (typeOf o 0) o.a.toNat j = c.key64 (typeOf o 0) o.a.toNat i)
    .done (c.modRegs m (c.putV o.d.toNat fun i =>
      if o.fn = 0 then same i else .ofNat 32 (popCount (same i &&& (laneBit i - 1)))))

/-- Insert a lane into a list sorted by key, after the lanes of equal key. -/
def insertByKey (key : Nat → Nat) (x : Nat) : List Nat → List Nat
  | [] => [x]
  | y :: r => if key x < key y then x :: y :: r else y :: insertByKey key x r

def sortByKey (key : Nat → Nat) (xs : List Nat) : List Nat := xs.foldl (fun a x => insertByKey key x a) []

/-- What COMPACT allows and reads. -/
def compactRule : Rule :=
  { opc := 0x0B, form := fun _ => { fns := [0, 1], useD := true, useA := true, useB := true, mask := 2, tys := [0, 2] }
    opds := fun o => [vOpd (typeOf o 0) o.d.toNat, vOpd (typeOf o 0) o.a.toNat,
    if o.fn = 1 then .v o.b.toNat 1 1 else .p o.b.toNat] }

/-- COMPACT (R93). All reads precede all writes. -/
def execCompact (o : Opn) (s : State) : Host.Outcome State Fault Refusal :=
  issue compactRule o s fun c m =>
    let dst := laneList c.act
    let src := if o.fn = 1 then sortByKey (fun l => (c.v o.b.toNat l).toNat) dst
      else dst.filter fun l => (c.b.regs.getP o.b.toNat).getLsbD l
    let wide := decide (typeOf o 0 = 2)
    .done (c.modRegs m fun r =>
      let r := (dst.zip src).foldl (fun r p =>
        if wide then r.setV2 o.d.toNat p.1 (c.v2 o.a.toNat p.2) else r.setV o.d.toNat p.1 (c.v o.a.toNat p.2)) r
      (laneList (c.written &&& ~~~c.act)).foldl (fun r l =>
        if wide then r.setV2 o.d.toNat l 0 else r.setV o.d.toNat l 0) r)

/-- What REFORM allows and reads. -/
def reformRule : Rule :=
  { opc := 0x09, form := fun _ => { useA := true, modBits := 0x7FF }
    site := fun c => !c.g.legacy
    opds := fun o => [.v o.a.toNat 2 2, .v 0 o.mods.toNat 1] }

/-- REFORM (R94): the lanes park with their next program counters. -/
def execReform (o : Opn) (s : State) : Host.Outcome State Fault Refusal :=
  issue reformRule o s fun c m =>
    let next := fun l => c.v2 o.a.toNat l
    let bad := misaligned c.grp next
    if (List.range 8).any (fun k => decide (c.b.regs.getJ k ≠ 0)) ∨ c.g.roletab ≠ 0 then .trap m (c.trap clsRole 0x67)
    else if bad ≠ [] then .trap m (c.trapWith clsAlign 0x10 bad)
    else
      .goto (m.modBundle c.key fun b => b.modLanes c.grp fun l x => { x with st := .reform o.mods.toNat (next l) })
        ((laneList c.grp).map fun l => (l, c.pc))

end Sys2Proof.Machine
end

