-- ==== Sys2Proof/Machine/Cross.lean ====
section
/-! DEFINITION. Cross-lane instructions (R131 to R142). -/

namespace Sys2Proof.Machine

/-- What a source lane gives: its register as it stands, zero for an empty lane (R132). -/
def Ctx.source (c : Ctx) (ty r l : Nat) : Nat := if (c.b.lane l).st = .empty then 0 else c.elem ty r l

/-- A lane count in the modifiers is legal (R133). -/
def countOk (o : Opn) : Bool := decide (fld o.mods 7 7 = 0 ∨ (1 ≤ fld o.mods 6 0 ∧ fld o.mods 6 0 ≤ 7))

/-- A lane count (R133). -/
def laneCount (o : Opn) : Nat := if bitAt o.mods 7 then Config.bwidth >>> fld o.mods 6 0 else fld o.mods 6 0

/-- Each lane that takes part receives the value of a source lane; all sources are read first. -/
def moveLanes (r : Rule) (base : Nat) (src : Ctx → Nat → Nat) (o : Opn) (s : State) : Host.Outcome State Fault Refusal :=
  issue r o s fun c m =>
    let ty := typeOf o base
    .done (c.putResults m 0 (c.allWrites ty ((laneList c.act).map fun l => (l, c.source ty o.a.toNat (src c l), 0))))

/-- The writes of an instruction that writes nothing, zeros included, when no lane takes part (R136, R140; DEDUCED, log 122). -/
def Ctx.unlessEmpty (c : Ctx) (ws : List (Nat × W32)) : List (Nat × W32) := if c.act = 0 then [] else ws

def moveOpds (o : Opn) : List Opd := [vOpd (typeOf o 0) o.d.toNat, vOpd (typeOf o 0) o.a.toNat]

def xshfRule : Rule where
  opc := 0x60
  form o := { fns := [0, 1, 2, 3], useD := true, useA := true, useB := decide (o.fn = 0)
              modBits := if o.fn = 0 then 0 else 0xFF, mask := 2, tys := [0, 2] }
  extra := countOk
  opds o := moveOpds o ++ if o.fn = 0 then [.v o.b.toNat 1 1] else []

/-- The source lane of XSHF (R134). -/
def xshfSrc (c : Ctx) (l : Nat) : Nat :=
  let n := laneCount c.o
  match c.o.fn.toNat with
  | 1 => if l < n then l else l - n
  | 2 => if Config.bwidth ≤ l + n then l else l + n
  | 3 => l ^^^ (n % Config.bwidth)
  | _ => (c.v c.o.b.toNat l).toNat % Config.bwidth

def execXshf (o : Opn) (s : State) := moveLanes xshfRule 0 xshfSrc o s

def xrotRule : Rule where
  opc := 0x61
  form o := { fns := [0, 1], useD := true, useA := true, useB := decide (o.fn = 0)
              modBits := if o.fn = 0 then 0 else 0xFF, mask := 2, tys := [0, 2] }
  extra := countOk
  opds o := moveOpds o ++ if o.fn = 0 then [.s o.b.toNat 1 1] else []

/-- XROT (R135). -/
def execXrot (o : Opn) (s : State) : Host.Outcome State Fault Refusal :=
  moveLanes xrotRule 0 (fun c l => (l + if o.fn = 0 then (c.s o.b.toNat).toNat else laneCount o) % Config.bwidth) o s

def xbcstRule : Rule where
  opc := 0x62
  form o := { fns := [0, 1, 2], useD := true, useA := true, useB := decide (o.fn = 0), mask := 2, tys := [0, 2] }
  opds o := moveOpds o ++ if o.fn = 0 then [.s o.b.toNat 1 1] else []

/-- XBCST (R136); without a lane to select, FN 1 and FN 2 write nothing, zeros included (DEDUCED, log 122). -/
def execXbcst (o : Opn) (s : State) : Host.Outcome State Fault Refusal :=
  if o.fn = 0 then moveLanes xbcstRule 0 (fun c _ => (c.s o.b.toNat).toNat % Config.bwidth) o s
  else issue xbcstRule o s fun c m =>
    let l := if o.fn = 1 then lowestLane c.act else highestLane c.act
    let x := c.source (typeOf o 0) o.a.toNat l
    .done (c.putResults m 0 (c.unlessEmpty (c.allWrites (typeOf o 0) ((laneList c.act).map fun l => (l, x, 0)))))

/-- What XBAL allows and reads. -/
def xbalRule : Rule :=
  { opc := 0x63
    form := fun o => { fns := [0, 1, 2, 3], useD := true, useA := true, mask := if o.fn = 3 then 2 else 0 }
    opds := fun o => [if o.fn = 3 then .v o.d.toNat 1 1 else .s o.d.toNat 1 1, .p o.a.toNat] }

/-- XBAL (R137). -/
def execXbal (o : Opn) (s : State) : Host.Outcome State Fault Refusal :=
  issue xbalRule o s fun c m =>
    let x := c.b.regs.getP o.a.toNat &&& c.act
    match o.fn.toNat with
    | 1 => .done (c.setS m o.d.toNat 0)
    | 2 => .done (c.setS m o.d.toNat (.ofNat 64 (popCount x)))
    | 3 => .done (c.modRegs m (c.putV o.d.toNat fun _ => x))
    | _ => .done (c.setS m o.d.toNat (x.setWidth 64))

/-- The selection of R138 over the bit planes below b: candidates, selected, still needed. -/
def topK (key : Nat → Nat) (low : Bool) : Nat → List Nat → List Nat → Nat → List Nat
  | 0, c, sel, need => sel ++ c.take need
  | b + 1, c, sel, need =>
    if need = 0 then sel
    else
      let hit := c.filter fun i => (key i).testBit b != low
      if need ≤ hit.length then topK key low b hit sel need
      else topK key low b (c.filter fun i => (key i).testBit b == low) (sel ++ hit) (need - hit.length)

/-- What XBCNT allows and reads. -/
def xbcntRule : Rule :=
  { opc := 0x64
    form := fun _ => { fns := [0, 1], useD := true, useA := true, useB := true, mask := 2, tys := [1, 3] }
    opds := fun o => [.p o.d.toNat, vOpd (typeOf o 1) o.a.toNat, .s o.b.toNat 1 1] }

/-- XBCNT (R138). -/
def execXbcnt (o : Opn) (s : State) : Host.Outcome State Fault Refusal :=
  issue xbcntRule o s fun c m =>
    let ty := typeOf o 1
    let ls := laneList c.act
    let sel := topK (fun l => c.elem ty o.a.toNat l) (decide (o.fn = 1)) (regBits ty) ls [] (min (c.s o.b.toNat).toNat ls.length)
    .done (c.putPred m fun l => sel.contains l)

/-! ## Reduction and scan (R139 to R141) -/

/-- One Combine of present values: the result and its exceptions. -/
def combineOp (e : VEnv) (a b : Nat) : Nat × Nat :=
  match e.fn with
  | 0 => elAdd e a b 0
  | 1 => elMin e a b 0
  | 2 => elMax e a b 0
  | 3 => elAnd e a b 0
  | 4 => elOr e a b 0
  | 5 => elXor e a b 0
  | 6 => elFadd e a b 0
  | 7 => elFmin e a b 0
  | _ => elFmax e a b 0

/-- Combine, a lane outside Active() contributing nothing. -/
def combine (e : VEnv) (a b : Option Nat) : Option Nat × Nat :=
  match a, b with
  | none, b => (b, 0)
  | a, none => (a, 0)
  | some x, some y => let r := combineOp e x y; (some r.1, r.2)

/-- The halving tree of XRED over a row of 2^n values: what is left, and the exceptions. -/
def reduceTree (e : VEnv) : Nat → List (Option Nat) → Nat → Option Nat × Nat
  | 0, xs, fl => (xs.getD 0 none, fl)
  | n + 1, xs, fl =>
    let d := 2 ^ n
    let ys := (List.range d).map fun i => combine e (xs.getD i none) (xs.getD (i + d) none)
    reduceTree e n (ys.map (·.1)) (ys.foldl (fun f y => f ||| y.2) fl)

/-- The doubling steps of XSCAN from distance 2^k on. -/
def scanSteps (e : VEnv) : Nat → Nat → List (Option Nat) → Nat → List (Option Nat) × Nat
  | 0, _, xs, fl => (xs, fl)
  | n + 1, k, xs, fl =>
    let d := 2 ^ k
    let ys := (List.range xs.length).map fun i =>
      if d ≤ i then combine e (xs.getD (i - d) none) (xs.getD i none) else (xs.getD i none, 0)
    scanSteps e n (k + 1) (ys.map (·.1)) (ys.foldl (fun f y => f ||| y.2) fl)

/-- The identity of an operation (R139). -/
def identityOf (fn ty : Nat) : Nat :=
  let w := intBits ty
  let f := fmtOf ty
  match fn with
  | 1 => if signedTy ty then 2 ^ (w - 1) - 1 else 2 ^ w - 1
  | 2 => if signedTy ty then 2 ^ (w - 1) else 0
  | 3 => 2 ^ w - 1
  | 6 => f.sign true
  | 7 => f.infBits
  | 8 => f.sign true + f.infBits
  | _ => 0

def redRule (opc mods : Nat) : Rule where
  opc := opc
  form o := { fns := [0, 1, 2, 3, 4, 5, 6, 7, 8], useD := true, useA := true, modBits := mods, mask := 2, rounds := decide (o.fn = 6)
              tys := if o.fn.toNat < 6 then tysW else tysF }
  opds o := moveOpds o
  arith := true

def redEnv (c : Ctx) : VEnv :=
  let fp := c.b.regs.fpctl
  ⟨typeOf c.o 0, 0, c.o.fn.toNat, 0, modeOf fp c.o.rm.toNat, bitAt fp 4, bitAt fp 3, fp.toNat⟩

/-- The values of the lanes of Active(), ABSENT elsewhere. -/
def Ctx.present (c : Ctx) : List (Option Nat) :=
  (List.range 32).map fun l => if c.act.getLsbD l then some (c.elem (typeOf c.o 0) c.o.a.toNat l) else none

/-- Every lane of Active() with the exceptions of all combines (R141). -/
def Ctx.allRaise (c : Ctx) (fl : Nat) : List (Nat × Nat) := (laneList c.act).map fun l => (l, fl)

/-- What XRED allows and reads. -/
def xredRule (o : Opn) : Rule :=
  { redRule 0x65 0 with arith := decide (6 ≤ o.fn.toNat) }

/-- XRED (R140, R141). -/
def execXred (o : Opn) (s : State) : Host.Outcome State Fault Refusal :=
  issue (xredRule o) o s fun c m =>
    let (x, fl) := reduceTree (redEnv c) 5 c.present 0
    c.withFlags m (c.allRaise fl) fun m =>
      .done (c.putResults m 0 (c.unlessEmpty (c.allWrites (typeOf o 0) ((laneList c.act).map fun l => (l, x.getD 0, 0)))))

/-- What XSCAN allows and reads. -/
def xscanRule (o : Opn) : Rule :=
  { redRule 0x66 1 with arith := decide (6 ≤ o.fn.toNat) }

/-- XSCAN (R140, R141). -/
def execXscan (o : Opn) (s : State) : Host.Outcome State Fault Refusal :=
  issue (xscanRule o) o s fun c m =>
    let (xs, fl) := scanSteps (redEnv c) 5 0 c.present 0
    let id := identityOf o.fn.toNat (typeOf o 0)
    let at_ := fun l => if bitAt o.mods 0 then (if l = 0 then id else (xs.getD (l - 1) none).getD id) else (xs.getD l none).getD 0
    c.withFlags m (c.allRaise fl) fun m =>
      .done (c.putResults m 0 (c.unlessEmpty (c.allWrites (typeOf o 0) ((laneList c.act).map fun l => (l, at_ l, 0)))))

/-! ## XMOV (R142) -/

def xmovRule : Rule where
  opc := 0x67
  form o := { fns := [0, 1, 2, 3, 4, 5], useD := true, useA := true, useB := decide (o.fn.toNat < 4) }
  site c := c.hand
  opds o :=
    (if o.fn.toNat < 4 then [.s o.b.toNat 1 1] else []) ++
    match o.fn.toNat with
    | 0 => [.s o.d.toNat 1 1, .v o.a.toNat 1 1]
    | 1 => [.v o.d.toNat 1 1, .s o.a.toNat 1 1]
    | 2 => [.s o.d.toNat 1 1, .v o.a.toNat 2 2]
    | 3 => [.v o.d.toNat 2 2, .s o.a.toNat 1 1]
    | 4 => [.s o.d.toNat 1 1, .p o.a.toNat]
    | _ => [.p o.d.toNat, .s o.a.toNat 1 1]

/-- Lanes that are not empty, and lanes whose thread lives. -/
def Bundle.filled (b : Bundle) : Lanes := laneMask fun l => decide ((b.lane l).st ≠ .empty)

/-- XMOV (R142): on the trapped bundle's lanes, a lane that is empty or exited ignoring writes. -/
def execXmov (o : Opn) (s : State) : Host.Outcome State Fault Refusal :=
  issue xmovRule o s fun c m =>
    let l := (c.s o.b.toNat).toNat % Config.bwidth
    let x := c.s o.a.toNat
    let live := c.b.live.getLsbD l
    match o.fn.toNat with
    | 0 => .done (c.setS m o.d.toNat (.ofNat 64 (c.source 0 o.a.toNat l)))
    | 1 => .done (if live then c.modRegs m fun r => r.setV o.d.toNat l (x.setWidth 32) else m)
    | 2 => .done (c.setS m o.d.toNat (.ofNat 64 (c.source 2 o.a.toNat l)))
    | 3 => .done (if live then c.modRegs m fun r => r.setV2 o.d.toNat l x else m)
    | 4 => .done (c.setS m o.d.toNat ((c.b.regs.getP o.a.toNat &&& c.b.filled).setWidth 64))
    | _ => .done (c.modRegs m fun r => r.putP o.d.toNat c.b.live (x.setWidth 32))

end Sys2Proof.Machine
end

