-- ==== Sys2Proof/Machine/Launch.lean ====
section
/-! DEFINITION. The launch record and its checks (R306, R307, R355), launch queues (R309 to R311), LAUNCH (R313, R314), and the
retirement of grids (R312). -/

namespace Sys2Proof.Machine

/-! ## The launch record (R306) -/

/-- Every byte of a span is zero. -/
def zeroSpanOf (d : List Byte) (off n : Nat) : Bool := ((d.drop off).take n).all fun b => decide (b = 0)

/-- Threads of a team, as the record gives them. -/
def recThreads (d : List Byte) : Nat :=
  let x := fieldAt d 16 8
  nfld x 10 0 * nfld x 26 16 * nfld x 42 32

def recBundles (d : List Byte) : Nat := (recThreads d + 31) / 32
def recRegs (d : List Byte) : Nat := nfld (fieldAt d 24 8) 10 0
def recAsid (d : List Byte) : Nat := nfld (fieldAt d 32 8) 7 0
def recWorld (d : List Byte) : Bool := (fieldAt d 24 8).testBit 44
def recMb (d : List Byte) (k : Nat) : Nat := fieldAt d (48 + k) 1

/-- A collective binding that breaks R355. -/
def collBad (d : List Byte) : Bool :=
  let x := fieldAt d 280 8
  let op := nfld x 33 32
  let sf := nfld x 35 34
  let of := nfld x 37 36
  decide (1024 ≤ fieldAt d 256 4 ∨ fieldAt d 264 8 % 64 ≠ 0 ∨ fieldAt d 272 8 % 64 ≠ 0 ∨ nfld x 15 0 = 0 ∨ nfld x 31 16 = 0
    ∨ op = 3 ∨ sf = 3 ∨ nfld x 63 48 ≠ 0 ∨ (op ≠ 0 ∧ (nfld x 46 38 ≠ 0 ∨ of ≠ if sf = 2 then 3 else sf)))

/-- A reserved field, a reserved code or a field outside its range, addresses apart (R306, R307 cause 0x01). -/
def recMalformed (d : List Byte) : Bool :=
  let sh := fieldAt d 16 8
  let x := fieldAt d 24 8
  let entry : W64 := .ofNat 64 (fieldAt d 0 8)
  !canonical entry || decide (entry.toNat % 4 ≠ 0)
  || (decide (fieldAt d 56 8 = 0) && decide (fieldAt d 8 4 = 0 ∨ 2 ^ 31 ≤ fieldAt d 8 4 ∨ fieldAt d 12 2 = 0 ∨ fieldAt d 14 2 = 0))
  || decide (nfld sh 15 11 ≠ 0 ∨ nfld sh 31 27 ≠ 0 ∨ nfld sh 63 43 ≠ 0 ∨ recThreads d = 0 ∨ 1024 < recThreads d)
  || decide (recRegs d < 16 ∨ 1536 < recRegs d ∨ recRegs d % 16 ≠ 0 ∨ nfld x 15 11 ≠ 0 ∨ 768 < nfld x 25 16 ∨ nfld x 31 26 ≠ 0
    ∨ 16 < nfld x 36 32 ∨ nfld x 39 37 ≠ 0 ∨ nfld x 46 45 = 1 ∨ nfld x 47 47 ≠ 0)
  || decide (nfld (fieldAt d 32 8) 63 12 ≠ 0) || (List.range 8).any (fun k => decide (32 ≤ recMb d k))
  || !zeroSpanOf d 80 16 || (zeroSpanOf d 96 8 && !zeroSpanOf d 104 8) || !zeroSpanOf d 112 16 || !zeroSpanOf d 320 184
  || !zeroSpanOf d 506 6 || (!zeroSpanOf d 256 32 && collBad d)

/-- Bundles of a team in a quadrant (R316). -/
def inQuadrant (nb q : Nat) : Nat := (nb + 3 - q) / 4

/-- Where a record came from: its priority, its world, the dies that DIEMASK 0 selects, its depth, its parent,
and where its RSTAT lies. -/
structure Origination where
  pri : Nat
  secure : Bool
  mask : Nat
  depth : Nat
  parent : Option Nat
  home : Option (Space × Nat)
  deriving DecidableEq, Repr

def recMask (d : List Byte) (og : Origination) : Nat :=
  let k := nfld (fieldAt d 32 8) 11 8
  if k = 0 then og.mask else k

/-- A core of the grid's world within the dies given (R307 cause 0x02). -/
def Mach.hasCore (m : Mach) (mask : Nat) (world : Bool) : Bool :=
  (List.range 384).any fun c => mask.testBit (dieOfCore c) && decide ((m.core c).world = world)

/-- No empty core could hold a team, or LEGACY with a role table (R307 cause 0x02). -/
def Mach.recUnplaceable (m : Mach) (d : List Byte) (og : Origination) : Bool :=
  (List.range 4).any (fun q => decide (32 < inQuadrant (recBundles d) q ∨ 128 < inQuadrant (recBundles d) q * (recRegs d / 16)))
  || !m.hasCore (recMask d og) (recWorld d) || ((fieldAt d 24 8).testBit 43 && decide (fieldAt d 40 8 ≠ 0))

/-- A role for a bundle that the team lacks, or stages of an undeclared mailbag (R307 cause 0x03). -/
def recMisdeclared (d : List Byte) : Bool :=
  decide (fieldAt d 40 8 >>> (2 * recBundles d) ≠ 0) || (List.range 8).any fun k => decide (0 < recMb d k ∧ recMb d k < 16)

/-- The descriptor of an address space belongs to the secure world (R157, R163). -/
def Mach.spaceSecure (m : Mach) (asid : Nat) : Bool :=
  bitAt (m.readByte .dev (fld m.desk.astbase 49 20 * 0x100000 + asid * 0x1000 + 8)) 0

/-- A world that the record may not name (R307 cause 0x04, R355). -/
def Mach.recForeign (m : Mach) (d : List Byte) (og : Origination) : Bool :=
  (recWorld d && !og.secure)
  || (!recWorld d && (m.spaceSecure (recAsid d) || (!zeroSpanOf d 256 32 && (m.group (fieldAt d 256 4)).secure)))

/-- The agent as which the launch desk reaches a grid's words. -/
def deskAgent (d : List Byte) : Agent := ⟨recAsid d, 0, 0, recWorld d, 0, 0, false, 0xFF⟩

/-- A word of 8 bytes that must be homed on a compute die of this package (R311): its physical address, or none for address 0. -/
def Mach.deskWord (m : Mach) (d : List Byte) (off : Nat) (w : Bool) : Except Unit (Option Nat) × Mach :=
  let va := fieldAt d off 8
  if va = 0 then (.ok none, m)
  else
    match m.check (deskAgent d) ⟨.ofNat 64 va, 8, 8, !w, w, false, false, .letter, .denied 0x24⟩ with
    | (.error _, m) => (.error (), m)
    | (.ok ps, m) => if (onePiece ps).pkg.isSome then (.error (), m) else (.ok (some (onePiece ps).addr), m)

/-- The record as a grid, before its size word is read. -/
def gridOfRecord (d : List Byte) (og : Origination) (size guard done : Option Nat) : Grid :=
  let x := fieldAt d 24 8
  let coll := if zeroSpanOf d 256 32 then [] else (List.range 4).map fun k => BitVec.ofNat 64 (fieldAt d (256 + 8 * k) 8)
  { entry := .ofNat 64 (fieldAt d 0 8), gx := fieldAt d 8 4, gy := fieldAt d 12 2, gz := fieldAt d 14 2
    threads := recThreads d, regs := recRegs d, scr := nfld x 25 16, tiles := nfld x 36 32, cls := nfld x 41 40
    det := x.testBit 42, legacy := x.testBit 43, world := x.testBit 44, chk := nfld x 46 45
    age := if nfld x 63 48 = 0 then 1024 else nfld x 63 48
    asid := recAsid d, diemask := recMask d og, roletab := .ofNat 64 (fieldAt d 40 8), mbs := .ofNat 64 (fieldAt d 48 8)
    sizeaddr := size, guard := guard, done := done, hmask := .ofNat 64 (fieldAt d 96 8), htab := .ofNat 64 (fieldAt d 104 8)
    slots := (List.range 8).map fun k => BitVec.ofNat 128 (fieldAt d (128 + 16 * k) 16)
    coll := coll, args := (List.range 4).map fun k => BitVec.ofNat 64 (fieldAt d (288 + 8 * k) 8)
    pri := og.pri, depth := og.depth, parent := og.parent, home := og.home, guarded := false, next := 0, retired := 0
    anyKilled := false, device := og.parent.isSome, closed := false, chunks := [], due := [] }

/-- What the desk is about to read: a line with an uncorrectable error is logged, and its bytes hold free values (R400). -/
def Mach.exposeDesk (m : Mach) (sp : Space) (a n : Nat) : Mach := if sp = .dev then m.expose 0xFF (homeDie a) a n else m
def Mach.exposeWord (m : Mach) (pa : Option Nat) : Mach := match pa with | some a => m.exposeDesk .dev a 8 | none => m

/-- The grid's dimensions from its size word, or none above the limits of R12 (R307 cause 0x05, R311). -/
def Mach.sized (m : Mach) (g : Grid) : Option Grid :=
  match g.sizeaddr with
  | none => some g
  | some pa =>
    let x := m.readNat .dev pa 8
    if 2 ^ 31 ≤ nfld x 31 0 then none else some { g with gx := nfld x 31 0, gy := nfld x 47 32, gz := nfld x 63 48 }

/-- The guard lets the grid go (R311). -/
def Mach.guardMet (m : Mach) (g : Option Nat) : Bool :=
  match g with
  | none => true
  | some pa => arrivalMet (m.readNat .dev pa 8)

/-- A record checked under R307: a grid, or the lowest cause, with its DONE word. A guard not met holds the grid, and a
guarded child's size word is read and judged only after LAUNCH has returned (R311). -/
def Mach.accept (m : Mach) (d : List Byte) (og : Origination) : Except (Nat × Option Nat) Grid × Mach :=
  let (size, m) := m.deskWord d 56 false
  let (guard, m) := m.deskWord d 64 false
  let (done, m) := m.deskWord d 72 true
  let dn := match done with | .ok x => x | .error _ => none
  match size, guard, done with
  | .ok size, .ok guard, .ok done =>
    let group := m.group (fieldAt d 256 4)
    if recMalformed d || (!zeroSpanOf d 256 32 && !group.valid) then (.error (1, dn), m)
    else if m.recUnplaceable d og then (.error (2, dn), m)
    else if recMisdeclared d then (.error (3, dn), m)
    else if m.recForeign d og then (.error (4, dn), m)
    else
      let g := gridOfRecord d og size guard done
      let m := m.exposeWord guard
      if (og.parent.isSome && guard.isSome) || !m.guardMet guard then (.ok { g with guarded := true }, m)
      else
        let m := m.exposeWord size
        match m.sized g with
        | some g => (.ok g, m)
        | none => (.error (5, dn), m)
  | _, _, _ => (.error (1, dn), m)

/-- RSTAT, where the record was taken, and then the arrival at DONE (R312). -/
def Mach.report (m : Mach) (home : Option (Space × Nat)) (done : Option Nat) (state cause : Nat) : Mach :=
  let m := match home with
    | some (sp, pa) => if sp = .host ∧ m.linkUp = false then m else m.writeNat sp pa 2 (state + 256 * cause)
    | none => m
  match done with
  | some pa => m.arrive pa 1
  | none => m

/-- A grid given to the dispatchers. -/
def Mach.addGrid (m : Mach) (g : Grid) : Mach := { m.setGrid m.nextGrid (some g) with nextGrid := m.nextGrid + 1 }

/-! ## Launch queues (R309, R310) -/

def Queue.host (q : Queue) : Bool := bitAt q.base 0
def Queue.slot (q : Queue) : Nat := fld q.base 63 12 * 4096 + 512 * (q.head.toNat % 2 ^ fld q.ctl 4 0)

/-- The queue's tail word shows a record (R309). -/
def Mach.shows (m : Mach) (q : Queue) : Bool :=
  bitAt q.ctl 16 && m.queueReach q.host && decide (m.readNat (qspace q.host) (fld q.tail 63 2 * 4) 4 ≠ q.head.toNat)

def Mach.headRecord (m : Mach) (q : Queue) : List Byte := m.readBytes (qspace q.host) q.slot 512

/-- The desk reads the tail words, the head records they show, and their guards. -/
def Mach.exposeQueues (m : Mach) : Mach :=
  (List.range 64).foldl (fun m k =>
    let q := m.queue k
    if ¬ (bitAt q.ctl 16 = true ∧ m.queueReach q.host = true) then m
    else
      let m := m.exposeDesk (qspace q.host) (fld q.tail 63 2 * 4) 4
      if m.shows q then
        let m := m.exposeDesk (qspace q.host) q.slot 512
        match (m.deskWord (m.headRecord q) 64 false).1 with
        | .ok g => m.exposeWord g
        | .error _ => m
      else m) m

/-- The desk notes the head records that it sees for the first time (R310). -/
def Mach.observe (m : Mach) : Mach :=
  (List.range 64).foldl (fun m k =>
    let q := m.queue k
    if m.shows q && q.seen.isNone then m.setQueue k { q with seen := some m.clk } else m) m

/-- The head record is held by its guard alone (R310, R311). -/
def Mach.heldByGuard (m : Mach) (q : Queue) : Bool :=
  match (m.deskWord (m.headRecord q) 64 false).1 with
  | .ok g => !m.guardMet g
  | .error _ => false

/-- The queue whose record is taken next: the highest PRI, then the earliest seen, then the lowest number. -/
def Mach.nextQueue (m : Mach) : Option Nat :=
  (List.range 64).foldl (fun best k =>
    let q := m.queue k
    if m.shows q && !m.heldByGuard q then
      match best with
      | none => some k
      | some b =>
        let p := m.queue b
        if fld p.ctl 10 8 < fld q.ctl 10 8 ∨ (fld p.ctl 10 8 = fld q.ctl 10 8 ∧ q.seen.getD 0 < p.seen.getD 0) then some k else best
    else best) none

/-- The desk takes the head record of a queue (R307, R309, R312). -/
def Mach.takeHead (m : Mach) (k : Nat) : Mach :=
  let q := m.queue k
  let og : Origination := ⟨fld q.ctl 10 8, bitAt q.ctl 17, 15, 1, none, some (qspace q.host, q.slot + 504)⟩
  let d := m.headRecord q
  let m := m.setQueue k { q with head := q.head + 1, seen := none }
  match m.accept d og with
  | (.error (c, done), m) => m.report og.home done 2 c
  | (.ok g, m) => m.addGrid g

/-- LAUNCH_RECORD_TAKE (R309, R310): while the package is READY, its number is set (R404) and translation is enabled (R165). -/
def execLaunchRecordTake (q : Nat) (s : State) : Host.Outcome State Fault Refusal :=
  if s.boot.state = 3 ∧ s.boot.pkgV = true ∧ bitAt s.mach.desk.astbase 0 = true then
    let m := s.mach.exposeQueues.observe
    .next { s with mach := if m.nextQueue = some q then m.takeHead q else m }
  else .next s

/-- GUARD_MET (R311): a guarded child's size word is read, and a size above the limits refuses it. -/
def execGuardMet (grid : Nat) (s : State) : Host.Outcome State Fault Refusal :=
  let m := s.mach
  match m.grid? grid with
  | none => .next s
  | some g =>
    let m := m.exposeWord g.guard
    if g.guarded && m.guardMet g.guard then
      let m := m.exposeWord g.sizeaddr
      match m.sized g with
      | some g => .next { s with mach := m.setGrid grid (some { g with guarded := false }) }
      | none => .next { s with mach := (m.setGrid grid none).report g.home g.done 2 5 }
    else .next { s with mach := m }

/-! ## LAUNCH (R313, R314) -/

def launchRule : Rule where
  opc := 0xB8
  form _ := { modBits := 0xF, useD := true, useA := true, litB := false }
  extra o := bitAt o.mods 3 || decide (fld o.mods 2 0 = 0)
  opds o := [.s o.d.toNat 1 1, .s o.a.toNat 1 1]

/-- Grids launched by threads that have not retired (R314). -/
def Mach.deviceGrids (m : Mach) : Nat := (m.grids.filter fun p => match p.2 with | some g => g.device && !g.closed | none => false).length

/-- LAUNCH (R313, R314). -/
def execLaunch (o : Opn) (s : State) : Host.Outcome State Fault Refusal :=
  issue launchRule o s fun c m =>
    let va := c.s o.a.toNat
    match (laneList c.grp).find? fun l => decide ((c.b.lane l).tidx = 0) with
    | none => .trap m (c.trap clsRole 0x6F)
    | some lead =>
      match m.check c.agent ⟨va, 512, 64, true, false, false, false, .local_, .allowed⟩ with
      | (.error e, m) => c.resolve m (c.everyLane va e) false
      | (.ok ps, m) =>
        if c.g.depth = 10 then .trap m (c.trap clsNest 0x69)
        else if !c.memQuiet m || !bitAt m.desk.astbase 0 then .hold
        else
          let p := ps.getLastD (onePiece ps)
          let pri := if bitAt o.mods 3 then fld o.mods 2 0 else c.g.pri
          let og : Origination := ⟨pri, c.g.world, 2 ^ c.die, c.g.depth + 1, some c.tm.grid,
            if p.space = .scratch then none else some (p.space, p.addr + p.len - 8)⟩
          let (d, m) := c.takeOwn m lead ps
          match m.accept d og with
          | (.error _, m) => .trap m (c.trap clsOperand 0x2D)
          | (.ok g, m) =>
            if 65536 ≤ m.deviceGrids then .done (c.setS m o.d.toNat (errWord 1))
            else .done (c.setS (m.addGrid g) o.d.toNat 0)

/-! ## Retirement of a grid (R312) -/

def Grid.teams (g : Grid) : Nat := g.gx * g.gy * g.gz

/-- Every team has retired and every child has (R13, R312). A team retires only after its neighbour jobs (R291). -/
def Mach.gridDone (m : Mach) (k : Nat) (g : Grid) : Bool :=
  !g.guarded && decide (g.retired = g.teams)
    && !(m.grids.any fun p => match p.2 with | some c => decide (c.parent = some k) && !c.closed | none => false)

/-- GRID_RETIRE (R312). A grid is kept while a chunk of its collective is due (R357). -/
def execGridRetire (grid : Nat) (s : State) : Host.Outcome State Fault Refusal :=
  let m := s.mach
  match m.grid? grid with
  | none => .next s
  | some g =>
    if g.closed then .next { s with mach := if g.due = [] then m.setGrid grid none else m }
    else if m.gridDone grid g then
      let m := m.report g.home g.done (if g.anyKilled then 3 else 1) 0
      .next { s with mach := m.setGrid grid (if g.due = [] then none else some { g with closed := true }) }
    else .next s

end Sys2Proof.Machine
end

