-- ==== Sys2Proof/Machine/Dispatcher.lean ====
section
/-! DEFINITION. Room on a core (R15, R155, R316), the placement of teams (R308, R315, R316), and the end of bundles and
teams (R85, R312, R357). -/

namespace Sys2Proof.Machine

/-! ## Room on a core (R316) -/

/-- Bundle slots of a quadrant that hold no bundle. -/
def Mach.freeSlots (m : Mach) (core q : Nat) : List Nat :=
  ((List.range 32).map fun i => 32 * q + i).filter fun s => (m.bundle? (core * 256 + s)).isNone

/-- Register granules in use in a quadrant (R15). -/
def Mach.usedGranules (m : Mach) (core q : Nat) : Nat :=
  ((List.range 32).map fun i =>
    match m.bundle? (core * 256 + 32 * q + i) with
    | some b => (m.gridOf (m.team b.team)).regs / 16
    | none => 0).foldl (· + ·) 0

/-- The teams resident on a core, with their keys. -/
def Mach.teamsOn (m : Mach) (core : Nat) : List (Nat × Team) :=
  m.teams.filterMap fun p => if coreOfTeam p.1 = core then p.2.map fun t => (p.1, t) else none

/-- The lowest run of n free scratchpad slots (R155). -/
def Mach.freeRun (m : Mach) (core n : Nat) : Option Nat :=
  let ts := m.teamsOn core
  ((0 :: ts.map fun p => p.2.scr + p.2.nscr).filter fun s =>
    decide (s + n ≤ 768) && !(ts.any fun p => decide (p.2.scr < s + n ∧ s < p.2.scr + p.2.nscr))).min?

/-- The lowest n free tiles. -/
def Mach.freeTiles (m : Mach) (core n : Nat) : Option (List Nat) :=
  let used := (m.teamsOn core).flatMap fun p => p.2.tiles
  let ts := ((List.range 16).filter fun t => !used.contains t).take n
  if ts.length = n then some ts else none

/-- The lowest team slot that no resident team holds and no team saved whole comes back to. -/
def Mach.freeTeam (m : Mach) (core : Nat) : Option Nat :=
  ((List.range 128).map fun i => core * 128 + i).find? fun k =>
    (m.team? k).isNone && !(m.frames.any fun f => f.whole && decide (f.key = k))

/-- Bundles, listed by number, fit a core's quadrants: slots and granules (R15). -/
def Mach.bundlesFit (m : Mach) (core regs : Nat) (bs : List Nat) : Bool :=
  (List.range 4).all fun q =>
    let n := (bs.filter fun b => decide (b % 4 = q)).length
    decide (n = 0 ∨ (n ≤ (m.freeSlots core q).length ∧ m.usedGranules core q + n * (regs / 16) ≤ 128))

/-- Bundle keys for bundles listed by number: in each quadrant the lowest free slots. -/
def Mach.bundleKeys (m : Mach) (core : Nat) : List Nat → List (Nat × Nat)
  | [] => []
  | bs => (List.range 4).flatMap fun q =>
    (bs.filter fun b => decide (b % 4 = q)).zip ((m.freeSlots core q).map fun s => core * 256 + s)

/-- A whole team fits a core. -/
def Mach.teamFits (m : Mach) (core regs nb nscr ntiles : Nat) : Bool :=
  m.bundlesFit core regs (List.range nb) && (m.freeRun core nscr).isSome && (m.freeTiles core ntiles).isSome

/-! ## Placement (R308, R315, R316) -/

/-- Evicted work of this priority or higher waits on a die (R318). -/
def Mach.evictedFirst (m : Mach) (die pri : Nat) : Bool :=
  m.frames.any fun f => decide (f.die = die) && f.sid.isNone && decide (pri ≤ ((m.grid? f.grid).getD Grid.none).pri)

/-- The core on which the next team of a grid can be placed: the lowest of the lowest die (R315, R316). -/
def Mach.placeFor (m : Mach) (g : Grid) : Option Nat :=
  let nb := (g.threads + 31) / 32
  (List.range 384).find? fun c =>
    g.diemask.testBit (dieOfCore c) && decide ((m.core c).world = g.world) && !m.evictedFirst (dieOfCore c) g.pri
      && m.teamFits c g.regs nb g.scr g.tiles && (m.freeTeam c).isSome

/-- A bundle as it starts (R308). -/
def startBundle (g : Grid) (tk bnum clk : Nat) : Bundle :=
  { Bundle.start tk bnum with
    last := clk
    lanes := ((List.range 32).filter fun l => decide (32 * bnum + l < g.threads)).map fun l =>
      (l, { Lane.none with st := .runnable, pc := g.entry, tidx := 32 * bnum + l, last := clk })
    regs := (List.range 4).foldl (fun r k => r.setS k (g.args.getD k 0)) Regs.reset }

/-- The mailbags that a record declares (R326). -/
def Grid.mailbags (g : Grid) : Sparse Mailbag :=
  (List.range 8).foldl (fun s k =>
    let x := fld g.mbs (8 * k + 7) (8 * k)
    if x.testBit 4 then Sparse.put Mailbag.none s k { Mailbag.none with stages := x % 16 + 1 } else s) []

/-- Handle hn of a new team: bound to its descriptor unless that is malformed or out of reach (R308). -/
def Mach.bindAtStart (m : Mach) (tk : Nat) (g : Grid) (n : Nat) : Mach :=
  let va := g.htab + BitVec.ofNat 64 (64 * n)
  match m.check (m.engineAgent tk g.asid g.world (coreOfTeam tk % 96)) ⟨va, 64, 64, true, false, false, false, .local_, .denied 0x24⟩ with
  | (.error _, m) => m
  | (.ok ps, m) =>
    let (d, m) := m.readPieces (coreOfTeam tk % 96) (dieOfCore (coreOfTeam tk)) ps
    if handleBad d then m else m.bindHandle tk n d

/-- Invalidate the tags of a run of scratchpad slots (R155). -/
def Core.clearTags (k : Core) (scr n : Nat) : Core :=
  { k with tags := k.tags.filter fun p => !decide (scr ≤ p.1 ∧ p.1 < scr + n)
           named := k.named.filter fun s => !decide (scr ≤ s ∧ s < scr + n) }

/-- The order of the next placement, beyond that of every team, resident or saved whole (R317). -/
def Mach.placeOrder (m : Mach) : Nat :=
  ((m.teams.filterMap Prod.snd ++ m.frames.filterMap Frame.team).map Team.placed).foldl max 0 + 1

/-- Place the next team of a grid on a core. -/
def Mach.placeTeam (m : Mach) (gk : Nat) (g : Grid) (core tk scr : Nat) (tiles : List Nat) : Mach :=
  let nb := (g.threads + 31) / 32
  let keys := m.bundleKeys core (List.range nb)
  let k := m.core core
  let t : Team := { Team.none with
    grid := gk, idx := g.next, gen := k.gen + 1, nb := nb, scr := scr, nscr := g.scr, tiles := tiles, placed := m.placeOrder
    mails := g.mailbags }
  let m := (m.setCore core { k.clearTags scr g.scr with gen := k.gen + 1 }).setTeam tk (some t)
  let m := (List.range 64).foldl (fun m n => if bitAt g.hmask n then m.bindAtStart tk g n else m) m
  let m := keys.foldl (fun m p => m.setBundle p.2 (some (startBundle g tk p.1 m.clk))) m
  m.modGrid gk fun g => { g with next := g.next + 1 }

/-- TEAM_DISPATCH (R315, R316): the next index is placed, or waits. -/
def execTeamDispatch (grid : Nat) (s : State) : Host.Outcome State Fault Refusal :=
  let m := s.mach
  match m.grid? grid with
  | none => .next s
  | some g =>
    if g.guarded || decide (g.teams ≤ g.next) then .next s
    else
      match m.placeFor g with
      | none => .next s
      | some core =>
        match m.freeTeam core, m.freeRun core g.scr, m.freeTiles core g.tiles with
        | some tk, some scr, some tiles => .next { s with mach := m.placeTeam grid g core tk scr tiles }
        | _, _, _ => .next s

/-! ## The end of bundles and teams -/

/-- An owner that no team is: of a control core whose team has retired. -/
def noTeam : Nat := 2 ^ 60

/-- A team that has ended is counted (R312, R357). -/
def Mach.countTeam (m : Mach) (gk idx : Nat) (killed held : Bool) : Mach :=
  (m.chunkRetire gk idx killed held).modGrid gk fun g => { g with retired := g.retired + 1, anyKilled := g.anyKilled || killed }

/-- Nothing of a resident team is left: bundles, saved bundles, filed threads, copies, neighbour jobs (R291), queued matrix
instructions, a running control core (R334), or accesses of a halted one that are not performed (R357). -/
def Mach.teamDone (m : Mach) (tk : Nat) : Bool :=
  decide (m.bundlesOf tk = []) && decide (m.awayFrames tk = []) && !m.anyFiled tk && !(m.copies.any fun x => decide (x.team = tk))
    && !((m.die (dieOfCore (coreOfTeam tk))).jobs.any fun j => decide (j.team = tk))
    && !((m.core (coreOfTeam tk)).mx.any fun x => decide (x.team = tk))
    && !decide ((m.core (coreOfTeam tk)).owner = tk ∧ ((m.core (coreOfTeam tk)).cst = 1
      ∨ (m.ops.any fun x => decide (x.key = coreOfTeam tk * 256 + 128)) = true))

/-- A team retires (R312): its resources are freed. -/
def Mach.retireTeam (m : Mach) (tk : Nat) : Mach :=
  match m.team? tk with
  | none => m
  | some t =>
    let m := t.disp.foldl (fun m d => m.complete d.key d.out) m
    let m := m.modCore (coreOfTeam tk) fun c => { c with
      holes := c.holes.filter fun h => decide (h.team ≠ tk), owner := if c.owner = tk then noTeam else c.owner }
    (m.setTeam tk none).countTeam t.grid t.idx t.killed (t.leave.held m.clk)

/-- Every team of a core that has come to its end retires. -/
def Mach.retireTeams (m : Mach) (core : Nat) : Mach :=
  (m.teamsOn core).foldl (fun m p => if m.teamDone p.1 then m.retireTeam p.1 else m) m

/-- The key that outstanding loads of a freed bundle go under; no bundle has it. -/
def deadKey (key : Nat) : Nat := key / 256 * 256 + 255

/-- A bundle's slot and registers are freed; results still on their way, those of queued ACCMV reads too, are discarded (R85, R285). -/
def Mach.freeBundle (m : Mach) (key : Nat) : Mach :=
  let m := (m.keepStores key).modCore (coreOfKey key) fun c => { c with
    mx := c.mx.map fun j => if j.key = key then { j with key := deadKey key } else j }
  let m : Mach := { m with
    ops := m.ops.map fun x => if x.key = key then { x with key := deadKey key, dest := .none } else x
    later := m.later.filter fun x => decide (x.key ≠ key)
    runs := m.runs.filter fun p => match p.2 with | some r => decide (r.key ≠ key) | none => false }
  m.setBundle key none

/-- A bundle of the team is filing its threads, or will (R96). -/
def Mach.teamFiling (m : Mach) (tk : Nat) : Bool := (m.bundlesOf tk).any fun k => (m.bundle k).filing

/-- The slot may be freed: every lane is empty or exited and no operation is outstanding, and, of a waiting slot, no thread of the team
is filed or being filed (R85, R96). -/
def Mach.freeable (m : Mach) (key : Nat) (b : Bundle) : Bool :=
  decide (b.live = 0 ∧ b.outs = []) && b.hand.isNone && !b.filing && (!b.waiting || (!m.anyFiled b.team && !m.teamFiling b.team))
    && decide (key % 256 < 128)

/-- BUNDLE_FREE (R85, R96, R312, R334). -/
def execBundleFree (b : Nat) (s : State) : Host.Outcome State Fault Refusal :=
  let m := s.mach
  let core := coreOfKey b
  if b % 256 = 128 then .next { s with mach := (m.idleControl core).retireTeams core }
  else
    match m.bundle? b with
    | none => .next { s with mach := m.retireTeams core }
    | some x => .next { s with mach := (if m.freeable b x then m.freeBundle b else m).retireTeams core }

end Sys2Proof.Machine
end

