-- ==== Sys2Proof/Machine/Regroup.lean ====
section
/-! DEFINITION. The sorting table: filing (R95), refilling (R96), and fresh bundles (R66, R97, R369, R376). -/

namespace Sys2Proof.Machine

/-! ## Filing (R95) -/

/-- What a bundle gives to a fresh bundle. -/
def Bundle.origin (b : Bundle) : Origin :=
  ⟨b.bnum, b.regs.s, b.regs.fpctl, b.regs.fpstat, b.regs.stepTag, b.trap.tvbase, b.trap.dbgctl⟩

/-- A lane's thread as the sorting table holds it. -/
def Bundle.filed (b : Bundle) (l carry : Nat) : Filed :=
  let x := b.lane l
  ⟨x.tidx, carry, x.lnk, x.sbuf, (List.range carry).foldl (fun s n => Sparse.put 0 s n (b.regs.getV n l)) [],
    (List.range 16).foldl (fun w k => if k ≠ 0 ∧ (b.regs.getP k).getLsbD l then w ||| (1#16 <<< k) else w) 0, b.origin⟩

/-- Add a thread to the pigeonhole of its team and program counter that has room, or to a free one, if there is one. -/
def Core.file (k : Core) (tk clk : Nat) (pc : W64) (t : Filed) : Option Core :=
  match k.holes.findIdx? fun h => decide (h.team = tk ∧ h.pc = pc ∧ h.thr.length < 32) with
  | some i => some { k with holes := k.holes.mapIdx fun j h => if j = i then { h with thr := h.thr ++ [t] } else h }
  | none => if k.holes.length < 16 then some { k with holes := k.holes ++ [⟨tk, pc, clk, [t]⟩] } else none

/-- The lane at REFORM with the lowest TIDX, its CARRY and next program counter. -/
def Bundle.nextToFile (b : Bundle) : Option (Nat × Nat × W64) :=
  (b.lanes.foldl (fun (best : Option (Nat × Nat × Nat × W64)) p =>
    match p.2.st with
    | .reform c n => if best.all fun y => decide (p.2.tidx < y.1) then some (p.2.tidx, p.1, c, n) else best
    | _ => best) none).map Prod.snd

/-! ## Fresh bundles (R97) -/

/-- The waiting slot of a team with the lowest bundle number. -/
def Mach.waitingSlot (m : Mach) (tk : Nat) : Option Nat :=
  ((m.bundlesOf tk).filter fun k => (m.bundle k).waiting).foldl (fun best k =>
    match best with
    | none => some k
    | some j => if (m.bundle k).bnum < (m.bundle j).bnum then some k else best) none

/-- The values that a register from CARRY on may read in a lane: zero, or what a thread of the team held there (R97). -/
def Mach.heldBefore (m : Mach) (tk n : Nat) : List W32 :=
  ((0 : W32) :: (m.bundlesOf tk).flatMap fun k => (List.range 32).map fun l => (m.bundle k).regs.getV n l).eraseDups

/-- The registers of lane l of a fresh bundle, from `n` on, `k` of them. -/
def Mach.freshRegs (tk l : Nat) (t : Filed) (old : Mach) : Nat → Nat → Regs → Mach → Regs × Mach
  | _, 0, r, m => (r, m)
  | n, k + 1, r, m =>
    let (x, m) := if n < t.carry then (Sparse.get 0 t.v n, m) else m.pick 0 (old.heldBefore tk n)
    Mach.freshRegs tk l t old (n + 1) k (r.setV n l x) m

/-- A waiting slot takes threads: a fresh bundle (R97). `thr` holds each thread with its program counter, in the order taken. What v0 to
v(CARRY - 1) and p1 to p15 hold in the lanes that stay empty is zero (DESIGN CHOICE, log 88). -/
def Mach.refill (m : Mach) (key : Nat) (thr : List (W64 × Filed)) : Mach :=
  let b := m.bundle key
  let g := m.gridOf (m.team b.team)
  let os := thr.map fun p => p.2.origin
  let low := (os.map Origin.bnum).min?.getD 0
  let (o, m) := m.pick b.origin ((os.filter fun o => decide (o.bnum = low)).eraseDups)
  let m := m.keepStores key
  let clk := m.clk
  let nth := thr.mapIdx fun i p => (i, p)
  let lanes := nth.map fun p => (p.1, ({ Lane.none with
    st := .runnable, pc := p.2.1, lnk := p.2.2.lnk, tidx := p.2.2.tidx, last := clk, sbuf := p.2.2.sbuf } : Lane))
  let regs : Regs := { b.regs with
    v := [], j := [], w := [], s := o.s, fpctl := o.fpctl, stepTag := o.stepTag, fpstat := os.foldl (fun x o => x ||| o.fpstat) 0
    p := (List.range 15).foldl (fun s k => Sparse.put 0 s (k + 1)
      (laneMask fun l => match thr[l]? with | some t => bitAt t.2.p (k + 1) | none => false)) [] }
  let (regs, m) := nth.foldl (fun (x : Regs × Mach) p => Mach.freshRegs b.team p.1 p.2.2 m 0 g.regs x.1 x.2) (regs, m)
  m.setBundle key (some { b with
    lanes := lanes, regs := regs, waiting := false, stepped := 0, last := clk, resume := none
    trap := { b.trap with tvbase := o.tvbase, dbgctl := o.dbgctl } })

/-- Drop pigeonholes that have become empty (R96). -/
def Core.dropEmpty (k : Core) : Core := { k with holes := k.holes.filter fun h => !h.thr.isEmpty }

/-- Insert a thread by TIDX. -/
def insertFiled (t : Filed) : List Filed → List Filed
  | [] => [t]
  | x :: r => if t.tidx < x.tidx then t :: x :: r else x :: insertFiled t r

def sortFiled (ts : List Filed) : List Filed := ts.foldl (fun s t => insertFiled t s) []

/-- Full pigeonholes refill waiting slots (R96). Whether the 32 threads are taken in filing order or by TIDX is open. -/
def Mach.refillFull (m : Mach) (core : Nat) : Nat → Mach
  | 0 => m
  | n + 1 =>
    match (m.core core).holes.findIdx? fun h => decide (h.thr.length = 32) && (m.waitingSlot h.team).isSome with
    | none => m
    | some i =>
      match (m.core core).holes[i]? with
      | none => m
      | some h =>
        match m.waitingSlot h.team with
        | none => m
        | some key =>
          let byTidx := sortFiled h.thr
          let (ts, m) := m.pick h.thr [h.thr, byTidx].eraseDups
          let m := m.modCore core fun k => { k with holes := k.holes.eraseIdx i }
          (m.refill key (ts.map fun t => (h.pc, t))).refillFull core n

/-- File the threads of a bundle one at a time while there is room (R95). -/
def Mach.fileAll (m : Mach) (key : Nat) : Nat → Mach
  | 0 => m
  | n + 1 =>
    let b := m.bundle key
    let core := coreOfKey key
    match b.nextToFile with
    | none => m
    | some (l, carry, pc) =>
      match (m.core core).file b.team m.clk pc (b.filed l carry) with
      | none => m
      | some k =>
        let m := (m.setCore core k).modBundle key fun b => b.setLane l { Lane.none with st := .empty }
        (m.refillFull core 16).fileAll key n

/-- Filing of the bundle may begin: every thread is parked at REFORM and nothing is outstanding (R95). -/
def Mach.mayFile (m : Mach) (key : Nat) (b : Bundle) : Bool :=
  decide (b.live ≠ 0 ∧ b.outs = []) && b.hand.isNone && b.pend.isNone && !m.writing key
    && b.lanes.all fun p => match p.2.st with | .reform _ _ | .empty | .exited => true | _ => false

/-- REFORM_FILING (R95, R279): the deposit is complete once the last thread is filed. -/
def execReformFiling (b : Nat) (s : State) : Host.Outcome State Fault Refusal :=
  let m := s.mach
  match m.bundle? b with
  | none => .next s
  | some x =>
    if x.filing || m.mayFile b x then
      let m := (m.modBundle b fun k => { k with filing := true }).fileAll b 32
      if (m.bundle b).nextToFile.isSome then .next { s with mach := m }
      else
        let m := m.modBundle b fun k => { k with filing := false, waiting := true, latch := none }
        .next { s with mach := m.refillFull (coreOfKey b) 16 }
    else .next s

/-! ## The age limit (R96) -/

/-- Insert a pigeonhole by age, ties by program counter. -/
def insertByAge (h : Pigeon) : List Pigeon → List Pigeon
  | [] => [h]
  | x :: r => if h.born < x.born ∨ (h.born = x.born ∧ h.pc.toNat < x.pc.toNat) then h :: x :: r else x :: insertByAge h r

/-- The threads that an aged team's slot takes: oldest pigeonhole first, by TIDX within one, up to 32. -/
def takeOrder (hs : List Pigeon) (tk : Nat) : List (W64 × Filed) :=
  (((hs.filter fun h => decide (h.team = tk)).foldl (fun s h => insertByAge h s) []).flatMap fun h =>
    (sortFiled h.thr).map fun t => (h.pc, t)).take 32

/-- PIGEONHOLE_AGE_EXPIRY (R96). -/
def execPigeonholeAgeExpiry (core : Nat) (s : State) : Host.Outcome State Fault Refusal :=
  let m := s.mach
  let aged := fun (h : Pigeon) => decide (h.born + (m.gridOf (m.team h.team)).age ≤ m.clk) && (m.waitingSlot h.team).isSome
  match (m.core core).holes.find? aged with
  | none => .next s
  | some h =>
    match m.waitingSlot h.team with
    | none => .next s
    | some key =>
      let ts := takeOrder (m.core core).holes h.team
      let gone := ts.map fun p => p.2.tidx
      let m := m.modCore core fun k => Core.dropEmpty { k with holes := k.holes.map fun x =>
        if x.team = h.team then { x with thr := x.thr.filter fun t => !gone.contains t.tidx } else x }
      .next { s with mach := m.refill key ts }

end Sys2Proof.Machine
end

