-- ==== Sys2Proof/Machine/Frames.lean ====
section
/-! DEFINITION. Save pools (R387, R389), the frames of evicted and halted work and what they hold (R390 to R393), eviction (R317) and
restoring (R318, R394). -/

namespace Sys2Proof.Machine

/-! ## Save pools (R387, R389) -/

def granule : Nat := 65536
def roundGranule (n : Nat) : Nat := (n + 65535) / 65536 * 65536

/-- First and last address of the pool of a die that is in use. -/
def Mach.pool (m : Mach) (die : Nat) (secure : Bool) : Option (Nat × Nat) :=
  let k := die + if secure then 4 else 0
  let w := Sparse.get 0 m.desk.svbase k
  if bitAt w 0 then some (fld w 63 16 * granule, fld w 63 16 * granule + fld (Sparse.get 0 m.desk.svsize k) 31 0 * granule) else none

/-- The lowest address in the pool at which a frame fits (R389). -/
def Mach.freeFrame (m : Mach) (die : Nat) (secure : Bool) (size : Nat) : Option Nat :=
  match m.pool die secure with
  | none => none
  | some (lo, hi) =>
    ((lo :: m.frames.map fun f => f.addr + f.size).filter fun a =>
      decide (lo ≤ a ∧ a + size ≤ hi) && !(m.frames.any fun f => decide (f.addr < a + size ∧ a < f.addr + f.size))).min?

/-! ## Bundle frames (R391, R392) -/

/-- Write words, each with its offset and length; zeros are there already. -/
def Mach.writeWords (m : Mach) (base : Nat) : List (Nat × Nat × Nat) → Mach
  | [] => m
  | (off, n, v) :: r => (if v = 0 then m else m.writeNat .dev (base + off) n v).writeWords base r

/-- ST and WK of a lane's state: waits other than JWAIT, REFORM and BAR are saved runnable (R390). -/
def laneCode : LaneSt → Nat
  | .empty => 0
  | .exited => 1
  | .runnable | .wait _ _ _ => 2
  | .join k _ => 3 + 16 * k
  | .reform _ _ => 4
  | .bar k _ => 6 + 16 * k

/-- The two words of a lane-state entry (R392). -/
def laneWords (clk l : Nat) (x : Lane) (code : Nat) : List (Nat × Nat × Nat) :=
  [(0x600 + 16 * l, 8, x.pc.toNat),
    (0x608 + 16 * l, 8, code + 256 * x.sbuf.length + 65536 * x.tidx + 2 ^ 32 * min (clk - x.last) (2 ^ 32 - 1)),
    (0x800 + 8 * l, 8, x.lnk.toNat)]

def storeWords (l : Nat) (es : List StoreEntry) : List (Nat × Nat × Nat) :=
  (es.mapIdx fun e x =>
    let at_ := 0x1000 + 0x400 * l + 32 * e
    [(at_, 4, x.off), (at_ + 4, 4, x.data.length), (at_ + 16, 16, leNat x.data)]).flatten

def Latch.regs (x : Latch) : Nat := (x.arun.length + x.srun.length) / 32

def latchWord : Option Latch → Nat
  | none => 0
  | some x => x.areg + 2 ^ 16 * x.asreg + 2 ^ 32 * x.ng + 2 ^ 40 * x.fa + 2 ^ 48

def Bundle.latchRegs (b : Bundle) : Nat := (b.latch.map Latch.regs).getD 0

/-- The size of a bundle frame (R391). -/
def bundleFrameSize (regs latchn : Nat) : Nat := roundGranule (0x9000 + 128 * (regs + latchn))

/-- The identity word of a team (R391). -/
def identity (tk : Nat) (gen : W32) : Nat :=
  gen.toNat + 2 ^ 32 * (tk % 128) + 2 ^ 39 * (coreOfTeam tk % 96) + 2 ^ 46 * dieOfCore (coreOfTeam tk)

/-- The words of a bundle frame; `filed` lists the lanes that hold threads of the sorting table (ST 5). -/
def Bundle.frameWords (b : Bundle) (g : Grid) (tk : Nat) (gen : W32) (clk : Nat) (filed : List Nat) : List (Nat × Nat × Nat) :=
  let mk := b.marks.find? Mark.ready
  let head := 1 + 256 + 65536 * b.bnum + 2 ^ 24 * g.regs + 2 ^ 35 * boolNat b.hand.isSome + 2 ^ 36 * boolNat b.fault.isSome
    + 2 ^ 37 * boolNat g.det + 2 ^ 38 * boolNat g.legacy + 2 ^ 40 * b.latchRegs
  [(0, 8, head), (8, 8, (b.fault.map fun f => f.1.toNat).getD 0), (0x10, 8, identity tk gen),
    (0x18, 8, b.regs.fpctl.toNat + 2 ^ 32 * b.regs.fpstat.toNat), (0x20, 8, b.regs.stepTag.toNat),
    (0x28, 8, (b.hand.map BitVec.toNat).getD 0), (0x30, 8, frameCounts b.outs),
    (0x38, 8, (mk.map Mark.word).getD 0), (0xB8, 8, (mk.map fun k => k.addr.toNat).getD 0),
    (0x80, 8, b.trap.tvbase.toNat), (0x88, 8, b.trap.dbgctl.toNat), (0x90, 8, b.trap.tpc.toNat), (0x98, 8, b.trap.tstat.toNat),
    (0xA0, 8, b.trap.tmask.toNat), (0xA8, 8, b.trap.tcond.toNat), (0xB0, 8, b.trap.tinfo.toNat), (0xC0, 8, latchWord b.latch)]
  ++ b.regs.j.map (fun p => (0x40 + 8 * p.1, 8, p.2.toNat))
  ++ b.regs.s.map (fun p => (0x100 + 8 * p.1, 8, p.2.toNat))
  ++ b.regs.w.map (fun p => (0x500 + 8 * p.1, 8, p.2.toNat))
  ++ (List.range 32).flatMap (fun l =>
      let x := b.lane l
      laneWords clk l x (if filed.contains l then 5 else laneCode x.st)
        ++ (0x900 + 2 * l, 2, (List.range 16).foldl (fun n k => if (b.regs.getP k).getLsbD l then n + 2 ^ k else n) 0)
        :: storeWords l x.sbuf)
  ++ b.trap.side.flatMap (fun p => [(0x940 + 16 * p.1, 8, p.2.addr.toNat), (0x948 + 16 * p.1, 8, p.2.info.toNat)])
  ++ b.regs.v.map (fun p => (0x9000 + 4 * p.1, 4, p.2.toNat))
  ++ (match b.latch with
      | none => []
      | some x => (x.arun ++ x.srun).mapIdx fun i w => (0x9000 + 128 * g.regs + 4 * i, 4, w.toNat))

/-- Write a bundle frame. -/
def Mach.writeBundle (m : Mach) (at_ : Nat) (b : Bundle) (g : Grid) (tk : Nat) (gen : W32) (filed : List Nat) : Mach :=
  (m.zeroSpan at_ (bundleFrameSize g.regs b.latchRegs)).writeWords at_ (b.frameWords g tk gen m.clk filed)

def Mach.frame8 (m : Mach) (at_ off : Nat) : Nat := m.readNat .dev (at_ + off) 8

/-- Store-buffer entries of a lane are well formed. -/
def Mach.storesBad (m : Mach) (at_ l n alloc : Nat) : Bool :=
  (List.range n).any fun e =>
    let a := at_ + 0x1000 + 0x400 * l + 32 * e
    let x := m.readNat .dev a 8
    decide (nfld x 63 37 ≠ 0 ∨ nfld x 36 32 = 0 ∨ 16 < nfld x 36 32 ∨ alloc < nfld x 31 0 + nfld x 36 32 ∨ m.readNat .dev (a + 8) 8 ≠ 0)

/-- A lane's entries break R392. -/
def Mach.laneBad (m : Mach) (at_ l threads alloc : Nat) (whole : Bool) : Bool :=
  let x := m.frame8 at_ (0x608 + 16 * l)
  let st := nfld x 2 0
  decide (nfld x 31 26 ≠ 0 ∨ nfld x 15 14 ≠ 0 ∨ nfld x 3 3 ≠ 0 ∨ 32 < nfld x 13 8 ∨ st = 7 ∨ (st = 3 ∧ 8 ≤ nfld x 7 4)
    ∨ (2 ≤ st ∧ threads ≤ nfld x 25 16) ∨ (2 ≤ st ∧ m.frame8 at_ (0x600 + 16 * l) % 4 ≠ 0)
    ∨ m.readNat .dev (at_ + 0x900 + 2 * l) 2 % 2 = 0)
  || (decide (st = 5) && !whole) || m.storesBad at_ l (nfld x 13 8) alloc
  || decide (nfld (m.frame8 at_ (0x948 + 16 * l)) 63 22 ≠ 0 ∨ nfld (m.frame8 at_ (0x948 + 16 * l)) 15 14 ≠ 0)

/-- A bundle frame breaks R391, for a bundle of the number and the grid given. -/
def Mach.bundleBad (m : Mach) (at_ bnum : Nat) (g : Grid) (alloc : Nat) (whole : Bool) : Bool :=
  let h := m.frame8 at_ 0
  let f := fun off => m.frame8 at_ off
  let tv : W64 := .ofNat 64 (f 0x80)
  decide (h % 256 ≠ 1 ∨ nfld h 15 8 ≠ 1 ∨ nfld h 20 16 ≠ bnum ∨ nfld h 23 21 ≠ 0 ∨ nfld h 34 24 ≠ g.regs ∨ nfld h 37 37 ≠ boolNat g.det
    ∨ nfld h 38 38 ≠ boolNat g.legacy ∨ nfld h 39 39 ≠ 0 ∨ nfld h 63 51 ≠ 0)
  || decide (nfld (f 8) 63 32 ≠ 0 ∨ nfld (f 0x10) 63 48 ≠ 0 ∨ 96 ≤ nfld (f 0x10) 45 39 ∨ nfld (f 0x18) 63 38 ≠ 0 ∨ nfld (f 0x20) 63 16 ≠ 0
    ∨ (h.testBit 35 = true ∧ f 0x28 % 4 ≠ 0) ∨ nfld (f 0x30) 63 48 ≠ 0 ∨ nfld (f 0x38) 63 13 ≠ 0
    ∨ ((f 0x38).testBit 12 = true ∧ 13 < nfld (f 0x38) 11 8))
  || !fpctlOk (.ofNat 64 (nfld (f 0x18) 31 0))
  || ((List.range 8).any fun k => decide (2 ^ 32 ≤ f (0x40 + 8 * k)))
  || decide (nfld (f 0x80) 11 1 ≠ 0 ∨ nfld (f 0x88) 63 1 ≠ 0 ∨ f 0x90 % 4 ≠ 0 ∨ nfld (f 0x98) 63 28 ≠ 0 ∨ nfld (f 0x98) 23 18 ≠ 0
    ∨ nfld (f 0x98) 7 4 ≠ 0 ∨ 13 < nfld (f 0x98) 3 0 ∨ 2 ^ 32 ≤ f 0xA0 ∨ 2 ^ 32 ≤ f 0xA8 ∨ nfld (f 0xB0) 63 28 ≠ 0)
  || !canonical tv
  || decide (nfld (f 0xC0) 15 11 ≠ 0 ∨ nfld (f 0xC0) 31 27 ≠ 0 ∨ nfld (f 0xC0) 39 37 ≠ 0 ∨ nfld (f 0xC0) 47 43 ≠ 0 ∨ nfld (f 0xC0) 63 49 ≠ 0
    ∨ ((f 0xC0).testBit 48 = false ∧ nfld h 50 40 ≠ 0))
  || (m.readBytes .dev (at_ + 0xC8) 0x38).any (fun b => decide (b ≠ 0)) || (m.readBytes .dev (at_ + 0xB40) 0x4C0).any (fun b => decide (b ≠ 0))
  || (List.range 32).any fun l => m.laneBad at_ l g.threads alloc whole

/-- The threads of a bundle frame, by TIDX. -/
def Mach.frameTidx (m : Mach) (at_ : Nat) : List Nat :=
  (List.range 32).filterMap fun l =>
    let x := m.frame8 at_ (0x608 + 16 * l)
    if 2 ≤ nfld x 2 0 then some (nfld x 25 16) else none

/-- A saved lane's state, the sizes and values that the frame does not hold taken from the lane as it was saved; where that was something
else, a park of 4 bytes, or a REFORM that issues again. -/
def restoredSt (st wk : Nat) (old : Lane) (pc : W64) : LaneSt :=
  match st with
  | 0 | 5 => .empty
  | 1 => .exited
  | 3 => .join wk (match old.st with | .join _ sz => sz | _ => 4)
  | 4 => match old.st with | .reform c n => if old.pc = pc then .reform c n else .runnable | _ => .runnable
  | 6 => .bar wk (match old.st with | .bar _ sz => sz | _ => 4)
  | _ => .runnable

def Mach.readStores (m : Mach) (at_ l n : Nat) : List StoreEntry :=
  (List.range n).map fun e =>
    let a := at_ + 0x1000 + 0x400 * l + 32 * e
    ⟨m.readNat .dev a 4, m.readBytes .dev (a + 16) (m.readNat .dev (a + 4) 1 % 32)⟩

/-- A lane as its frame gives it. -/
def Mach.readLane (m : Mach) (at_ l : Nat) (old : Lane) : Lane :=
  let x := m.frame8 at_ (0x608 + 16 * l)
  let pc : W64 := .ofNat 64 (m.frame8 at_ (0x600 + 16 * l))
  if nfld x 2 0 = 0 ∨ nfld x 2 0 = 5 then Lane.none
  else ⟨restoredSt (nfld x 2 0) (nfld x 7 4) old pc, pc, .ofNat 64 (m.frame8 at_ (0x800 + 8 * l)), nfld x 25 16, m.clk - nfld x 63 32,
    m.readStores at_ l (nfld x 13 8)⟩

/-- A keyed file of n values read from a frame. -/
def Mach.readFile {α : Type} [DecidableEq α] (m : Mach) (at_ step n : Nat) (d : α) (f : Nat → α) : Sparse α :=
  (List.range n).foldl (fun s k => Sparse.put d s k (f (m.readNat .dev (at_ + step * k) step))) []

def Mach.readLatch (m : Mach) (at_ regs : Nat) (old : Option Latch) : Option Latch :=
  let x := m.frame8 at_ 0xC0
  let n := nfld (m.frame8 at_ 0) 50 40
  if x.testBit 48 then
    let ws := (List.range (32 * n)).map fun i => BitVec.ofNat 32 (m.readNat .dev (at_ + 0x9000 + 128 * regs + 4 * i) 4)
    let k := (old.map fun o => o.arun.length).getD ws.length
    some ⟨nfld x 10 0, nfld x 26 16, nfld x 36 32, nfld x 42 40, ws.take k, ws.drop k⟩
  else none

/-- The predicates of a bundle frame. -/
def Mach.readPreds (m : Mach) (at_ : Nat) : Sparse Lanes :=
  (List.range 15).foldl (fun s k =>
    Sparse.put 0 s (k + 1) (laneMask fun l => (m.readNat .dev (at_ + 0x900 + 2 * l) 2).testBit (k + 1))) []

/-- Outstanding operations of a class as a frame counts them (R391): the oldest of those saved, and where software has raised the count,
operations that never complete. -/
def countedOuts (cls n : Nat) (outs : List Out) : List Out :=
  let mine := outs.filter fun x => decide (x.cls = cls)
  mine.take n ++ (List.range (n - mine.length)).map fun i => ⟨2 ^ 64 + 65536 * cls + i, cls, false⟩

/-- The operations of a bundle whose frame holds the counts given (R389). -/
def restoredOuts (counts : Nat) (outs : List Out) : List Out :=
  (outs.filter fun x => decide (x.cls ≠ 0 ∧ x.cls ≠ 4 ∧ x.cls ≠ 5)) ++ countedOuts 0 (nfld counts 15 0) outs
    ++ countedOuts 4 (nfld counts 31 16) outs ++ countedOuts 5 (nfld counts 47 32) outs

/-- A bundle as its frame gives it (R391): the counts, and the iteration of a resumption point from TINFO, too; the rest as it was saved. -/
def Mach.readBundle (m : Mach) (at_ : Nat) (g : Grid) (old : Bundle) : Bundle :=
  let f := fun off => m.frame8 at_ off
  let h := f 0
  let w := fun off => BitVec.ofNat 64 (f off)
  let lanes := (List.range 32).foldl (fun s l => Sparse.put Lane.none s l (m.readLane at_ l (old.lane l))) []
  let regs : Regs := {
    v := m.readFile (at_ + 0x9000) 4 (32 * g.regs) 0 (BitVec.ofNat 32), s := m.readFile (at_ + 0x100) 8 128 0 (BitVec.ofNat 64)
    p := m.readPreds at_, j := m.readFile (at_ + 0x40) 8 8 0 (BitVec.ofNat 32), w := m.readFile (at_ + 0x500) 8 32 0 (BitVec.ofNat 64)
    fpctl := .ofNat 32 (f 0x18), fpstat := .ofNat 32 (nfld (f 0x18) 63 32), stepTag := .ofNat 16 (f 0x20) }
  let trap : TrapRegs := {
    tvbase := w 0x80, dbgctl := w 0x88, tpc := w 0x90, tstat := w 0x98, tmask := w 0xA0, tcond := w 0xA8, tinfo := w 0xB0
    side := (List.range 32).foldl (fun s l => Sparse.put ⟨0, 0⟩ s l ⟨w (0x940 + 16 * l), w (0x948 + 16 * l)⟩) [] }
  let k := f 0x38
  let mk : List Mark := if k.testBit 12 then [⟨0, true, nfld k 11 8, nfld k 11 8, nfld k 7 0, w 0xB8, 6, false⟩] else []
  let fault := if h.testBit 36 then
      some (BitVec.ofNat 32 (f 8), ((old.fault.map Prod.snd).getD ⟨clsXlate, 3, w 0x600, false, false, 0, 0, [], 0, 0⟩)) else none
  { old with
    lanes := lanes, regs := regs, trap := trap, hand := if h.testBit 35 then some (w 0x28) else none
    outs := restoredOuts (f 0x30) old.outs, resume := old.resume.map fun x => (x.1, nfld (f 0xB0) 27 16, x.2.2)
    marks := mk ++ old.marks, latch := m.readLatch at_ g.regs old.latch, fault := fault }

/-! ## Team frames (R393) -/

/-- The words of a barrier's entry. -/
def Barrier.words (b : Barrier) (k : Nat) : List (Nat × Nat × Nat) :=
  let at_ := 0x40 + 48 * k
  let lst := fun (off : Nat) (ts : List Nat) =>
    (ts.take 8).mapIdx fun i t => ((at_ + off + 2 * i, 2, t % 128 + 128 * (coreOfTeam t % 96)) : Nat × Nat × Nat)
  [(at_, 8, b.mode + 2 ^ 16 * (b.e % 65536) + 2 ^ 32 * (b.arrivals % 65536) + 2 ^ 48 * b.recv.length + 2 ^ 52 * b.last.length)]
    ++ lst 8 b.recv ++ lst 24 b.last

def Mailbag.words (b : Mailbag) (k : Nat) : List (Nat × Nat × Nat) :=
  let at_ := 0x340 + 32 * k
  [(at_, 8, b.claim.toNat + 2 ^ 32 * b.fill.toNat), (at_ + 8, 8, b.take.toNat + 2 ^ 32 * b.free.toNat),
    (at_ + 16, 8, boolNat b.err + 16 * (b.stages - 1))]

/-- Size of the team's own part of its frame. -/
def teamPart (g : Grid) : Nat := roundGranule (0x4000 + 0x5000 * g.tiles + 2048 * g.scr)

/-- Where a thread of the sorting table goes in a team frame: its pigeonhole and place, and the bundle and lane that hold it. -/
structure Seat where
  hole : Nat
  pos : Nat
  pc : W64
  t : Filed
  bnum : Nat
  lane : Nat
  deriving DecidableEq, Repr

/-- Lanes of the team's bundles that can hold filed threads: all of a waiting slot, and the empty ones of a slot being filed. -/
def seatsOf (bs : List Bundle) : List (Nat × Nat) :=
  bs.flatMap fun b => ((List.range 32).filter fun l => b.waiting || (b.filing && decide ((b.lane l).st = .empty))).map fun l => (b.bnum, l)

/-- The team's pigeonholes with a seat for every thread. -/
def seatsFor (hs : List Pigeon) (bs : List Bundle) : List Seat :=
  let all := (hs.mapIdx fun i h => h.thr.mapIdx fun j t => (i, j, h.pc, t)).flatten
  (all.zip (seatsOf bs)).map fun p => ⟨p.1.1, p.1.2.1, p.1.2.2.1, p.1.2.2.2, p.2.1, p.2.2⟩

/-- A bundle with the threads of the sorting table in its lanes. -/
def Bundle.seat (b : Bundle) (ss : List Seat) : Bundle :=
  let b := if b.waiting then { b with lanes := [] } else b
  (ss.filter fun x => decide (x.bnum = b.bnum)).foldl (fun b x =>
    let b := b.setLane x.lane { Lane.none with pc := x.pc, lnk := x.t.lnk, tidx := x.t.tidx, sbuf := x.t.sbuf }
    b.modRegs fun r =>
      let r := (List.range x.t.carry).foldl (fun r n => r.setV n x.lane (Sparse.get 0 x.t.v n)) r
      (List.range 16).foldl (fun r k => r.putP k (laneBit x.lane) (if bitAt x.t.p k then laneBit x.lane else 0)) r) b

def holeWords (hs : List Pigeon) (ss : List Seat) (clk : Nat) : List (Nat × Nat × Nat) :=
  (hs.mapIdx fun i h =>
    let at_ := 0x440 + 80 * i
    [(at_, 8, h.pc.toNat), (at_ + 8, 8, h.thr.length + 2 ^ 32 * min (clk - h.born) (2 ^ 32 - 1))]
      ++ (ss.filter fun x => decide (x.hole = i)).map fun x => (at_ + 16 + 2 * x.pos, 2, x.lane + 128 * x.bnum)).flatten

/-- Where each bundle's frame lies in a team frame: offset, and the bundle. -/
def layBundles (g : Grid) : Nat → List Bundle → List (Nat × Bundle)
  | _, [] => []
  | off, b :: r => (off, b) :: layBundles g (off + bundleFrameSize g.regs b.latchRegs) r

/-- The words of the team's own part, tiles and scratchpad apart. -/
def Team.frameWords (t : Team) (tk : Nat) (g : Grid) (bs : List (Nat × Bundle)) (tags : List (Nat × W64)) : List (Nat × Nat × Nat) :=
  [(0, 8, 2 + 256 + 65536 * t.nb + 2 ^ 32 * t.nscr + 2 ^ 42 * t.tiles.length + 2 ^ 47 * boolNat g.det), (8, 8, identity tk t.gen),
    (0x10, 8, (t.handles.filter fun p => decide (p.2 ≠ [])).foldl (fun n p => n + 2 ^ p.1) 0), (0x18, 8, t.mstat.toNat),
    (0x20, 8, t.mism2.toNat + 2 ^ 32 * t.reruns.toNat), (0x28, 8, t.copySeq.toNat)]
  ++ (List.range 16).flatMap (fun k => (t.bar k).words k) ++ (List.range 8).flatMap (fun k => (t.mail k).words k)
  ++ (List.range 32).map (fun b => (0x940 + 2 * b, 2,
      match bs.find? fun x => decide (x.2.bnum = b) with | some x => x.1 / granule | .none => 0xFFFF))
  ++ t.handles.map (fun p => (0x1000 + 64 * p.1, 64, leNat p.2))
  ++ tags.map (fun p => (0x2000 + 8 * p.1, 8, 2 ^ 63 + p.2.toNat % 2 ^ 63))

/-- The valid tags of a team by team slot. -/
def Core.teamTags (k : Core) (t : Team) : List (Nat × W64) :=
  k.tags.filterMap fun p => if t.scr ≤ p.1 ∧ p.1 < t.scr + t.nscr then p.2.map fun x => (p.1 - t.scr, x) else none

/-! ## Saving (R317, R390) -/

/-- The next place in the order of evictions. -/
def Mach.frameOrder (m : Mach) : Nat := (m.frames.map Frame.order).foldl max 0 + 1

/-- A bundle is at a run boundary, in no sweep and no suspended ACCMV, and its registers are written; its loads have returned. -/
def Mach.settled (m : Mach) (key : Nat) (b : Bundle) : Bool :=
  (m.runs.all fun p => match p.2 with | some r => decide (r.key ≠ key) | none => true) && b.pend.isNone && b.sweep.isNone
    && !((m.core (coreOfKey key)).mx.any fun j => decide (j.key = key) && j.suspends) && !m.writing key
    && !(m.ops.any fun x => decide (x.key = key))

/-- A bundle eviction may save the bundle (R390). -/
def Mach.mayEvict (m : Mach) (key : Nat) (b : Bundle) : Bool :=
  m.settled key b && decide (b.count 1 = 0 ∧ b.count 2 = 0 ∧ b.count 3 = 0 ∧ b.live ≠ 0) && !b.filing

/-- A team eviction or HALT may save the team: every bundle at rest with no operation but collective ones, no job that writes stages, an
empty engine queue, and no running control core. `own` is the halting bundle; a bundle held at its own HALT passes too. -/
def Mach.maySaveTeam (m : Mach) (tk : Nat) (atRest : Nat → Bundle → Bool) : Bool :=
  ((m.bundlesOf tk).all fun k =>
    let b := m.bundle k
    atRest k b && (b.outs.all fun x => decide (x.cls = 5)))
  && ((m.awayFrames tk).all fun f => f.parts.all fun p => p.b.outs.all fun x => decide (x.cls = 5))
  && !((m.die (dieOfCore (coreOfTeam tk))).jobs.any fun j => decide (j.team = tk ∧ j.st ≠ 0) && nbMb j.job)
  && !((m.core (coreOfTeam tk)).mx.any fun x => decide (x.team = tk))
  && !decide ((m.core (coreOfTeam tk)).cst = 1 ∧ (m.core (coreOfTeam tk)).owner = tk)

/-- A bundle in a frame; its oldest pending mark stands in the frame's own words. -/
def Bundle.savedAt (b : Bundle) (at_ : Nat) : SavedPart :=
  ⟨b.bnum, at_, { b with marks := match b.marks.find? Mark.ready with | some k => b.marks.erase k | none => b.marks }⟩

/-- Save one bundle of a resident team (R317, R390); none if the pool has no room. -/
def Mach.saveBundle (m : Mach) (key : Nat) : Option Mach :=
  let b := m.bundle key
  let t := m.team b.team
  let g := m.gridOf t
  let die := dieOfCore (coreOfKey key)
  let size := bundleFrameSize g.regs b.latchRegs
  (m.freeFrame die g.world size).map fun a =>
    let m := m.writeBundle a b g b.team t.gen []
    let f : Frame := ⟨false, b.team, a, size, die, g.world, t.grid, m.frameOrder, none, [b.savedAt a], none, [], []⟩
    let m := (m.setBundle key none).modTeam b.team fun t => { t with away := b.bnum :: t.away }
    { m with frames := m.frames ++ [f] }

/-- An evicted bundle as its frame stands, at present. -/
def Mach.savedNow (m : Mach) (g : Grid) (p : SavedPart) : Bundle := m.readBundle p.addr g p.b

/-- Save a whole team (R317, R384, R390), frames of bundles that are away already taken in; the frame's address, none if the pool has no
room. -/
def Mach.saveTeam (m : Mach) (tk : Nat) (sid : Option W32) : Option (Nat × Mach) :=
  match m.team? tk with
  | none => none
  | some t =>
    let g := m.gridOf t
    let core := coreOfTeam tk
    let die := dieOfCore core
    let keys := m.bundlesOf tk
    let away := (m.awayFrames tk).flatMap fun f => f.parts.map fun p => m.savedNow g p
    let m := keys.foldl (fun m k => if (m.bundle k).waiting then m.keepStores k else m) m
    let hs := (m.core core).holes.filter fun h => decide (h.team = tk)
    let bs := keys.map m.bundle ++ away
    let ss := seatsFor hs bs
    let lay := layBundles g (teamPart g) (bs.map fun b => b.seat ss)
    let size := teamPart g + (lay.map fun x => bundleFrameSize g.regs x.2.latchRegs).foldl (· + ·) 0
    let m0 : Mach := { m with frames := m.frames.filter fun f => !(decide (f.key = tk) && !f.whole) }
    (m0.freeFrame die g.world size).map fun a =>
      let k := m.core core
      let tags := k.teamTags t
      let m := (m0.zeroSpan a (teamPart g)).writeWords a (t.frameWords tk g lay tags ++ holeWords hs ss m.clk)
      let m := (t.tiles.mapIdx fun i p => (i, p)).foldl (fun m p => m.writeBytes .dev (a + 0x4000 + 0x5000 * p.1) (k.tileImage p.2)) m
      let m := m.writeBytes .dev (a + 0x4000 + 0x5000 * g.tiles) (m.readBytes .scratch (t.phys core 0) t.alloc)
      let m := lay.foldl (fun m x => m.writeBundle (a + x.1) x.2 g tk t.gen
        ((ss.filter fun y => decide (y.bnum = x.2.bnum)).map Seat.lane)) m
      let f : Frame := ⟨true, tk, a, size, die, g.world, t.grid, m.frameOrder, sid,
        bs.zipWith (fun b x => b.savedAt (a + x.1)) lay, some (m.team tk), hs.flatMap Pigeon.thr,
        (k.named.filter fun s => decide (t.scr ≤ s ∧ s < t.scr + t.nscr)).map fun s => s - t.scr⟩
      let m := keys.foldl (fun m k => m.setBundle k none) m
      let m := (m.setTeam tk none).modCore core fun c =>
        { c.clearTags t.scr t.nscr with holes := c.holes.filter fun h => decide (h.team ≠ tk) }
      (a, { m with frames := m.frames ++ [f] })

/-! ## Eviction (R317) -/

/-- Work that a grid of priority `pri` may evict from a core: the teams, lowest class first, then youngest placement. -/
def Mach.victims (m : Mach) (core pri : Nat) : List Nat :=
  let ts := (m.teamsOn core).filter fun p => decide ((m.gridOf p.2).pri < pri) && !p.2.killed
  let before := fun (a b : Nat × Team) =>
    let x := (m.gridOf a.2).cls
    let y := (m.gridOf b.2).cls
    decide (x < y ∨ (x = y ∧ b.2.placed < a.2.placed))
  let ins := fun (a : Nat × Team) (xs : List (Nat × Team)) => xs.takeWhile (fun b => before b a) ++ a :: xs.dropWhile (fun b => before b a)
  (ts.foldr ins []).map Prod.fst

/-- The machine as it would be without some work, to see whether a team then fits. -/
def Mach.withoutTeam (m : Mach) (tk : Nat) : Mach := ((m.bundlesOf tk).foldl (fun m k => m.setBundle k none) m).setTeam tk none

/-- Whole teams to evict until a team fits (R317). -/
def Mach.teamPlan (m : Mach) (core regs nb nscr ntiles : Nat) : List Nat → Option (List Nat)
  | [] => if m.teamFits core regs nb nscr ntiles then some [] else none
  | v :: r =>
    if m.teamFits core regs nb nscr ntiles then some []
    else ((m.withoutTeam v).teamPlan core regs nb nscr ntiles r).map fun vs => v :: vs

/-- A quadrant lacks granules or slots for the bundles of a team. -/
def Mach.quadShort (m : Mach) (core regs nb q : Nat) : Bool := !m.bundlesFit core regs ((List.range nb).filter fun b => decide (b % 4 = q))

/-- Bundles to evict until a team fits, only in quadrants that lack room (R317). -/
def Mach.bundlePlan (m : Mach) (core regs nb : Nat) : List Nat → Option (List Nat)
  | [] => if m.bundlesFit core regs (List.range nb) then some [] else none
  | k :: r =>
    if m.bundlesFit core regs (List.range nb) then some []
    else if m.quadShort core regs nb (k % 128 / 32) then ((m.setBundle k none).bundlePlan core regs nb r).map fun vs => k :: vs
    else m.bundlePlan core regs nb r

/-- What to evict on a core: bundles, or whole teams when scratchpad or tiles are short. -/
inductive Plan where
  | bundles (ks : List Nat)
  | teams (ts : List Nat)
  deriving DecidableEq, Repr

def Plan.cost : Plan → Nat
  | .bundles ks => ks.length
  | .teams ts => ts.length

def Mach.planOn (m : Mach) (g : Grid) (core : Nat) : Option Plan :=
  let nb := (g.threads + 31) / 32
  let vs := m.victims core g.pri
  if (m.freeTeam core).isNone then none
  else
    let ks := (vs.flatMap fun t => (m.bundlesOf t).reverse).filter fun k => decide ((m.bundle k).live ≠ 0) && !(m.bundle k).filing
    let few := if (m.freeRun core g.scr).isSome ∧ (m.freeTiles core g.tiles).isSome then m.bundlePlan core g.regs nb ks else none
    match few with
    | some ks => some (.bundles ks)
    | none => (m.teamPlan core g.regs nb g.scr g.tiles vs).map Plan.teams

/-- The core that needs the fewest evictions, and what they are; ties go to the lower core. -/
def Mach.evictPlan (m : Mach) (g : Grid) : Option Plan :=
  ((List.range 384).foldl (fun (best : Option Plan) c =>
    if g.diemask.testBit (dieOfCore c) ∧ (m.core c).world = g.world ∧ m.evictedFirst (dieOfCore c) g.pri = false then
      match m.planOn g c, best with
      | some p, none => some p
      | some p, some b => if p.cost < b.cost then some p else some b
      | none, b => b
    else best) none)

/-- Save what a plan names, first victim first, as far as it is at rest; nothing unless the pool holds every frame (R389). -/
def Mach.carryOut (m : Mach) : Plan → Mach
  | .bundles ks =>
    if (ks.foldl (fun (x : Option Mach) k => x.bind fun m => m.saveBundle k) (some m)).isNone then m
    else (ks.foldl (fun (x : Mach × Bool) k =>
      if x.2 && x.1.mayEvict k (x.1.bundle k) then ((x.1.saveBundle k).getD x.1, true) else (x.1, false)) (m, true)).1
  | .teams ts =>
    if (ts.foldl (fun (x : Option Mach) t => x.bind fun m => (m.saveTeam t none).map Prod.snd) (some m)).isNone then m
    else (ts.foldl (fun (x : Mach × Bool) t =>
      if x.2 && x.1.maySaveTeam t x.1.settled then (((x.1.saveTeam t none).map Prod.snd).getD x.1, true) else (x.1, false)) (m, true)).1

/-- EVICTION (R317, R389, R390): for the next team of a grid, which no core can hold. -/
def execEviction (grid : Nat) (s : State) : Host.Outcome State Fault Refusal :=
  let m := s.mach
  match m.grid? grid with
  | none => .next s
  | some g =>
    if g.guarded || decide (g.teams ≤ g.next) || (m.placeFor g).isSome then .next s
    else
      match m.evictPlan g with
      | none => .next s
      | some p => .next { s with mach := m.carryOut p }

/-! ## Restoring (R318, R394) -/

/-- A frame leaves the pool. -/
def Mach.dropFrame (m : Mach) (order : Nat) : Mach := { m with frames := m.frames.filter fun f => decide (f.order ≠ order) }

/-- A stop record of kind 4 (R388, R394). -/
def Mach.stopInvalid (m : Mach) (f : Frame) : Mach :=
  m.postStop (stopRecord 0 ((m.grid? f.grid).getD Grid.none).asid (coreOfTeam f.key) ((f.parts.head?.map SavedPart.bnum).getD 0) 0x27 0 4 0 0 0)

/-- A team saved whole ends as killed: every saved thread ends and the team retires (R381, R384). -/
def Mach.killSaved (m : Mach) (f : Frame) : Mach :=
  let m := m.dropFrame f.order
  match f.team with
  | none => m
  | some t => (t.disp.foldl (fun m d => m.complete d.key d.out) m).countTeam t.grid t.idx true (t.leave.held m.clk)

/-- The bundles of a frame fit back (R318): slots, granules and latches. -/
def Mach.partsFit (m : Mach) (core : Nat) (g : Grid) (ps : List SavedPart) : Bool :=
  m.bundlesFit core g.regs (ps.map SavedPart.bnum)
    && (List.range 4).all fun q =>
      decide (m.latches (core * 8 + q) + (ps.filter fun p => decide (p.bnum % 4 = q) && p.b.latch.isSome).length ≤ 2)

/-- The core has room for the work of a frame. -/
def Mach.frameFits (m : Mach) (f : Frame) : Bool :=
  let core := coreOfTeam f.key
  let g := (m.grid? f.grid).getD Grid.none
  m.partsFit core g f.parts
    && (!f.whole || ((m.team? f.key).isNone && (m.freeRun core g.scr).isSome && (m.freeTiles core g.tiles).isSome
      && decide ((m.core core).holes.length + ((List.range 16).filter fun i => decide (m.readNat .dev (f.addr + 0x448 + 80 * i) 1 % 64 ≠ 0)).length ≤ 16)))

/-- Put bundles back in the lowest free slots of their quadrants. -/
def Mach.placeParts (m : Mach) (tk : Nat) (bs : List (Nat × Bundle)) : Mach :=
  (m.bundleKeys (coreOfTeam tk) (bs.map Prod.fst)).foldl (fun m p =>
    match bs.find? fun x => decide (x.1 = p.1) with
    | some x => m.setBundle p.2 (some x.2)
    | none => m) m

/-- A TIDX stands twice. -/
def repeats : List Nat → Bool
  | [] => false
  | x :: r => r.contains x || repeats r

/-- The threads of a resident team by TIDX. -/
def Mach.tidxOf (m : Mach) (tk : Nat) : List Nat :=
  (m.bundlesOf tk).flatMap (fun k => (m.bundle k).lanes.filterMap fun p =>
    if p.2.st = .empty ∨ p.2.st = .exited then none else some p.2.tidx)
  ++ (m.core (coreOfTeam tk)).holes.flatMap fun h => if h.team = tk then h.thr.map Filed.tidx else []

/-- Restore one bundle of a resident team. -/
def Mach.restoreBundle (m : Mach) (f : Frame) (p : SavedPart) : Mach :=
  let t := m.team f.key
  let g := m.gridOf t
  if m.bundleBad p.addr p.bnum g t.alloc false || repeats (m.tidxOf f.key ++ m.frameTidx p.addr) then
    ((m.dropFrame f.order).killTeam f.key).stopInvalid f
  else
    ((m.dropFrame f.order).modTeam f.key fun t => { t with away := t.away.filter fun b => decide (b ≠ p.bnum) }).placeParts f.key
      [(p.bnum, m.readBundle p.addr g p.b)]

/-- Bundle b's frame in a team frame, by its 16-bit entry. -/
def Mach.partAt (m : Mach) (f : Frame) (b : Nat) : Option Nat :=
  let x := m.readNat .dev (f.addr + 0x940 + 2 * b) 2
  if x = 0xFFFF then none else some (f.addr + granule * x)

/-- The words of a pigeonhole entry: threads and their places. -/
def Mach.holeSeats (m : Mach) (f : Frame) (i : Nat) : List (Nat × Nat) :=
  let at_ := f.addr + 0x440 + 80 * i
  (List.range (m.readNat .dev (at_ + 8) 1 % 64)).map fun j =>
    let x := m.readNat .dev (at_ + 16 + 2 * j) 2
    (nfld x 11 7, x % 128)

/-- A team frame breaks R393. -/
def Mach.teamBad (m : Mach) (f : Frame) (g : Grid) (nb : Nat) : Bool :=
  let w := fun off => m.frame8 f.addr off
  let h := w 0
  let here := (List.range 32).filter fun b => (m.partAt f b).isSome
  decide (h % 256 ≠ 2 ∨ nfld h 15 8 ≠ 1 ∨ nfld h 21 16 ≠ nb ∨ nfld h 31 22 ≠ 0 ∨ nfld h 41 32 ≠ g.scr ∨ nfld h 46 42 ≠ g.tiles
    ∨ nfld h 47 47 ≠ boolNat g.det ∨ nfld h 63 48 ≠ 0 ∨ nfld (w 8) 63 48 ≠ 0 ∨ 96 ≤ nfld (w 8) 45 39 ∨ nfld (w 0x28) 63 32 ≠ 0
    ∨ w 0x30 ≠ 0 ∨ w 0x38 ≠ 0 ∨ nfld (w 0x18) 63 6 ≠ 0)
  || ((List.range 16).any fun k =>
    let x := w (0x40 + 48 * k)
    decide (x % 4 = 3 ∨ nfld x 15 2 ≠ 0 ∨ 8 < nfld x 51 48 ∨ 8 < nfld x 55 52 ∨ nfld x 63 56 ≠ 0 ∨ w (0x68 + 48 * k) ≠ 0)
      || (List.range 8).any fun i => decide (96 * 128 ≤ m.readNat .dev (f.addr + 0x48 + 48 * k + 2 * i) 2 ∨
          96 * 128 ≤ m.readNat .dev (f.addr + 0x58 + 48 * k + 2 * i) 2))
  || ((List.range 8).any fun k => decide (nfld (w (0x350 + 32 * k)) 3 1 ≠ 0 ∨ nfld (w (0x350 + 32 * k)) 63 8 ≠ 0 ∨ w (0x358 + 32 * k) ≠ 0))
  || ((List.range 16).any fun i =>
    let x := w (0x448 + 80 * i)
    decide (32 < x % 64 ∨ nfld x 31 6 ≠ 0) || (List.range 32).any (fun j => decide (2 ^ 12 ≤ m.readNat .dev (f.addr + 0x450 + 80 * i + 2 * j) 2))
      || (m.holeSeats f i).any fun p =>
        match m.partAt f p.1 with
        | none => true
        | some a => decide (32 ≤ p.2 ∨ nfld (m.frame8 a (0x608 + 16 * p.2)) 2 0 ≠ 5))
  || (m.readBytes .dev (f.addr + 0x980) 0x680).any (fun b => decide (b ≠ 0)) || (m.readBytes .dev (f.addr + 0x3800) 0x800).any (fun b => decide (b ≠ 0))
  || here.any (fun b => decide (nb ≤ b) || !(f.parts.any fun p => decide (p.bnum = b ∧ some p.addr = m.partAt f b)))
  || f.parts.any (fun p => (m.partAt f p.bnum).isNone || m.bundleBad p.addr p.bnum g (2048 * g.scr) true)
  || repeats (f.parts.flatMap fun p => m.frameTidx p.addr)
  || repeats ((List.range 16).flatMap fun i => (m.holeSeats f i).map fun p => p.1 * 32 + p.2)

/-- A barrier as its frame gives it. -/
def Mach.readBarrier (m : Mach) (f : Frame) (k : Nat) : Barrier :=
  let at_ := f.addr + 0x40 + 48 * k
  let x := m.readNat .dev at_ 8
  let die := f.die
  let lst := fun (off n : Nat) => (List.range n).map fun i =>
    let y := m.readNat .dev (at_ + off + 2 * i) 2
    (die * 96 + nfld y 13 7) * 128 + y % 128
  ⟨x % 4, nfld x 31 16, nfld x 47 32, lst 8 (nfld x 51 48), lst 24 (nfld x 55 52)⟩

def Mach.readMailbag (m : Mach) (f : Frame) (k : Nat) (old : Mailbag) : Mailbag :=
  let w := fun off => m.frame8 f.addr (0x340 + 32 * k + off)
  ⟨if old.stages = 0 then 0 else nfld (w 16) 7 4 + 1, .ofNat 32 (w 0), .ofNat 32 (nfld (w 0) 63 32), .ofNat 32 (w 8), .ofNat 32 (nfld (w 8) 63 32),
    (w 16).testBit 0⟩

/-- A filed thread as its lane of a bundle frame gives it. -/
def Mach.readFiled (m : Mach) (f : Frame) (g : Grid) (bnum lane : Nat) : Filed :=
  let p := (f.parts.find? fun p => decide (p.bnum = bnum))
  let at_ := (p.map SavedPart.addr).getD 0
  let x := m.frame8 at_ (0x608 + 16 * lane)
  let old := f.filed.find? fun t => decide (t.tidx = nfld x 25 16)
  let carry := (old.map Filed.carry).getD g.regs
  ⟨nfld x 25 16, carry, .ofNat 64 (m.frame8 at_ (0x800 + 8 * lane)), m.readStores at_ lane (nfld x 13 8),
    (List.range carry).foldl (fun s n => Sparse.put 0 s n (BitVec.ofNat 32 (m.readNat .dev (at_ + 0x9000 + 128 * n + 4 * lane) 4))) [],
    .ofNat 16 (m.readNat .dev (at_ + 0x900 + 2 * lane) 2 / 2 * 2),
    (old.map Filed.origin).getD ((p.map fun p => (m.savedNow g p).origin).getD ⟨0, [], 0, 0, 0, 0, 0⟩)⟩

/-- The pigeonholes of a team frame. -/
def Mach.readHoles (m : Mach) (f : Frame) (g : Grid) : List Pigeon :=
  (List.range 16).filterMap fun i =>
    let ss := m.holeSeats f i
    if ss = [] then none
    else some ⟨f.key, .ofNat 64 (m.frame8 f.addr (0x440 + 80 * i)), m.clk - nfld (m.frame8 f.addr (0x448 + 80 * i)) 63 32,
      ss.map fun p => m.readFiled f g p.1 p.2⟩

/-- A team as its frame gives it; the rest as it was saved. -/
def Mach.readTeam (m : Mach) (f : Frame) (old : Team) (scr : Nat) (tiles : List Nat) : Team :=
  let w := fun off => m.frame8 f.addr off
  { old with
    gen := .ofNat 32 (w 8), scr := scr, tiles := tiles, away := []
    bars := (List.range 16).foldl (fun s k => Sparse.put Barrier.none s k (m.readBarrier f k)) []
    mails := (List.range 8).foldl (fun s k => if (old.mail k).stages = 0 then s else Sparse.put Mailbag.none s k (m.readMailbag f k (old.mail k))) []
    handles := (List.range 64).foldl (fun s n =>
      if (w 0x10).testBit n then Sparse.put [] s n (m.readBytes .dev (f.addr + 0x1000 + 64 * n) 64) else s) []
    mstat := .ofNat 64 (w 0x18), mism2 := .ofNat 32 (w 0x20), reruns := .ofNat 32 (nfld (w 0x20) 63 32), copySeq := .ofNat 32 (w 0x28) }

/-- Tags, tiles, scratchpad and pigeonholes of a team come back. -/
def Mach.refillCore (m : Mach) (f : Frame) (g : Grid) (core scr : Nat) (tiles : List Nat) : Mach :=
  let holes := m.readHoles f g
  let k := (m.core core).clearTags scr g.scr
  let k := (List.range g.scr).foldl (fun (k : Core) i =>
    let x := m.frame8 f.addr (0x2000 + 8 * i)
    if x.testBit 63 then k.setTag (scr + i) (some (.ofNat 64 (x % 2 ^ 63))) else k) k
  let k := { k with named := k.named ++ f.named.map fun s => scr + s, holes := k.holes ++ holes }
  let k := (tiles.mapIdx fun i p => (i, p)).foldl (fun k p =>
    Core.fillTile p.2 0 (m.readBytes .dev (f.addr + 0x4000 + 0x5000 * p.1) tileBytes) k) k
  (m.setCore core k).writeBytes .scratch (core * Config.scratchStride + scr * 2048) (m.readBytes .dev (f.addr + 0x4000 + 0x5000 * g.tiles) (2048 * g.scr))

/-- Restore a whole team. -/
def Mach.restoreTeam (m : Mach) (f : Frame) (old : Team) : Mach :=
  let core := coreOfTeam f.key
  let g := (m.grid? f.grid).getD Grid.none
  match m.freeRun core g.scr, m.freeTiles core g.tiles with
  | some scr, some tiles =>
    if m.teamBad f g old.nb then (m.killSaved f).stopInvalid f
    else
      let bs := f.parts.map fun p => (p.bnum, m.readBundle p.addr g p.b)
      (((m.refillCore f g core scr tiles).dropFrame f.order).setTeam f.key (some (m.readTeam f old scr tiles))).placeParts f.key bs
  | _, _ => m

/-- Restore a frame that fits. -/
def Mach.restoreFrame (m : Mach) (f : Frame) : Mach :=
  match f.whole, f.team, f.parts with
  | true, some t, _ => m.restoreTeam f t
  | false, _, p :: _ => m.restoreBundle f p
  | _, _, _ => m

/-- RESTORE (R318, R394): of the evicted work of a die, the oldest whose core has room for it; `k` is its place in the order of evictions. -/
def execRestore (k : Nat) (s : State) : Host.Outcome State Fault Refusal :=
  let m := s.mach
  match m.frames.find? fun f => decide (f.order = k) && f.sid.isNone with
  | none => .next s
  | some f =>
    let older := m.frames.any fun x => decide (x.order < k ∧ x.die = f.die) && x.sid.isNone && m.frameFits x
    if older || !m.frameFits f then .next s else .next { s with mach := m.restoreFrame f }

end Sys2Proof.Machine
end

