-- ==== Sys2Proof/Machine/System.lean ====
section
/-! DEFINITION. TRAP, BKPT, HALT, TRET, SWRP (R383 to R386), trap entry (R373) and STRESUME (R384). -/

namespace Sys2Proof.Machine

/-! ## TRAP and BKPT (R383) -/

/-- A trap with a code for TINFO, held by the lanes given. -/
def Ctx.codeTrap (c : Ctx) (cls cause : Nat) (ls : Lanes) : Trap :=
  { c.trapWith cls cause ((laneList ls).map fun l => ⟨l, cls, cause, 0, 0⟩) with code := c.o.imm.toNat }

/-- What TRAP allows and reads. -/
def trapRule : Rule :=
  { opc := 0xD8, form := fun _ => { pred := true, litB := false } }

/-- TRAP (R383). -/
def execTrap (o : Opn) (s : State) : Host.Outcome State Fault Refusal :=
  issue trapRule o s fun c m =>
    let ls := c.grp &&& maskLanes c.b.regs c.o
    if ls = 0 then .done m else .trap m (c.codeTrap clsSoft 0x6D ls)

/-- What BKPT allows and reads. -/
def bkptRule : Rule :=
  { opc := 0xDA, form := fun _ => { litB := false } }

/-- BKPT (R383). -/
def execBkpt (o : Opn) (s : State) : Host.Outcome State Fault Refusal :=
  issue bkptRule o s fun c m => .trap m (c.codeTrap clsDebug 0x6E c.grp)

/-! ## HALT (R384) -/

/-- A bundle's run is held at a HALT of its own, which nothing else keeps from issuing. -/
def Mach.heldAtHalt (m : Mach) (key : Nat) (b : Bundle) : Option (Nat × Run) :=
  let t := m.team b.team
  let g := m.gridOf t
  let ag : Agent := ⟨g.asid, dieOfCore (coreOfKey key), coreOfKey key, g.world, t.scr, t.alloc, g.det, coreOfKey key % 96⟩
  (m.runs.findSome? fun p => p.2.bind fun r => if r.key = key then some (p.1, r) else none).filter fun p =>
    b.pend.isNone && !m.writing key && !(m.ops.any fun x => decide (x.key = key)) &&
    match (m.check ag ⟨p.2.pc, 4, 4, false, false, true, false, .fetch, .allowed⟩).1 with
    | .ok ps =>
      let w := m.readNat (onePiece ps).space (onePiece ps).addr 4
      decide (nfld w 28 21 = 0xDB ∧ nfld w 31 30 = 0 ∧ nfld w 20 0 = 0)
    | .error _ => false

/-- Bundles held at their own HALT go on after it (R384). -/
def Mach.passHalts (m : Mach) (tk : Nat) : Mach :=
  (m.bundlesOf tk).foldl (fun m k =>
    match m.heldAtHalt k (m.bundle k) with
    | some (q, r) => m.closeRun q r (r.pc + 4)
    | none => m) m

/-- What HALT allows and reads. -/
def haltRule : Rule :=
  { opc := 0xDB, form := fun _ => { litB := false }, extra := fun o => decide (o.imm = 0) }

/-- HALT (R384). -/
def execHalt (o : Opn) (s : State) : Host.Outcome State Fault Refusal :=
  issue haltRule o s fun c m =>
    if c.b.count 1 ≠ 0 then .hold
    else if ¬ bitAt m.desk.stqbase 1 then .trap m (c.trap clsDebug 0x72)
    else
      let m := (c.step m).closeRun c.q c.run c.nextPc
      if ¬ m.maySaveTeam c.tk (fun k b => m.settled k b || (m.heldAtHalt k b).isSome) then .hold
      else
        let sid := m.desk.sid
        match (m.passHalts c.tk).saveTeam c.tk (some sid) with
        | none => .hold
        | some (a, m) =>
          let m : Mach := { m with desk := { m.desk with sid := sid + 1 } }
          .closed (m.postStop (stopRecord c.pc c.g.asid c.core c.b.bnum 0 0 3 (.ofNat 64 a) 0 sid))

/-- STRESUME_RESUME (R384): the team is restored from its frame as it stands, now or once its core has room. -/
def execStresumeResume (sid : W32) (s : State) : Host.Outcome State Fault Refusal :=
  let m := s.mach
  match m.frames.find? fun f => decide (f.sid = some sid) with
  | none => .next s
  | some f =>
    let f' : Frame := { f with sid := none }
    let m : Mach := { m with frames := m.frames.map fun x => if x.order = f.order then f' else x }
    .next { s with mach := if m.frameFits f' then m.restoreFrame f' else m }

/-- STRESUME_KILL (R384). -/
def execStresumeKill (sid : W32) (s : State) : Host.Outcome State Fault Refusal :=
  match s.mach.frames.find? fun f => decide (f.sid = some sid) with
  | none => .next s
  | some f => .next { s with mach := s.mach.killSaved f }

/-! ## TRET (R385) -/

/-- What TRET allows and reads. -/
def tretRule : Rule :=
  { opc := 0xD9, form := fun _ => { useA := true, useB := true, litB := false }, site := fun c => c.hand
    opds := fun o => [.s o.a.toNat 1 1, .s o.b.toNat 1 1] }

/-- TRET (R385): the handler ends; the threads of the lanes killed end as EXIT ends them. -/
def execTret (o : Opn) (s : State) : Host.Outcome State Fault Refusal :=
  issue tretRule o s fun c m =>
    let retry : Lanes := (c.s o.a.toNat).setWidth 32
    let kill : Lanes := (c.s o.b.toNat).setWidth 32 &&& c.b.trap.tmask.setWidth 32 &&& c.b.live
    let m := m.leaveHandler c.q c.run retry kill
    .closed (if kill = 0 then m else m.exitLanes c.key kill)

/-! ## SWRP (R375, R376, R386) -/

/-- Word n of the system words; none where it cannot be read (R375). -/
def Bundle.sysWord (b : Bundle) (hand : Bool) (n : Nat) : Option W64 :=
  if n = 0x80 then some b.trap.tvbase
  else if n = 0x81 then some b.trap.dbgctl
  else if hand = false then none
  else if n < 0x80 then some (b.regs.getS n)
  else if n = 0x82 then some b.trap.tpc
  else if n = 0x83 then some b.trap.tstat
  else if n = 0x84 then some b.trap.tmask
  else if n = 0x85 then some b.trap.tcond
  else if n = 0x86 then some b.trap.tinfo
  else none

/-- Word n may be written (R375). -/
def sysWritable (hand : Bool) (n : Nat) : Bool := decide (n = 0x80 ∨ n = 0x81) || (hand && decide (n < 0x80 ∨ n = 0x82))

/-- The value fits the word (R376). -/
def sysFits (n : Nat) (x : W64) : Bool :=
  if n = 0x80 then decide (fld x 11 1 = 0) && canonical x
  else if n = 0x81 then decide (fld x 63 1 = 0)
  else if n = 0x82 then decide (fld x 1 0 = 0)
  else true

/-- Write word n; a write of TPC cancels a resumption point (R385). -/
def Bundle.setSys (b : Bundle) (n : Nat) (x : W64) : Bundle :=
  if n = 0x80 then { b with trap := { b.trap with tvbase := x } }
  else if n = 0x81 then { b with trap := { b.trap with dbgctl := x } }
  else if n = 0x82 then { b with trap := { b.trap with tpc := x }, resume := none }
  else b.modRegs fun r => r.setS n x

def swrpRule (fn : Nat) : Rule where
  opc := 0xDC
  form _ := { fns := [fn], modBits := 0x1FF, useD := true, litB := false }
  opds o := [.s o.d.toNat 1 1]

/-- What SWRP.rd allows and reads. -/
def swrpRdRule : Rule :=
  { swrpRule 0 with site := fun c => (c.b.sysWord c.hand c.o.mods.toNat).isSome }

/-- SWRP.rd (R386). -/
def execSwrpRd (o : Opn) (s : State) : Host.Outcome State Fault Refusal :=
  issue swrpRdRule o s fun c m =>
    .done (c.setS m o.d.toNat ((c.b.sysWord c.hand o.mods.toNat).getD 0))

/-- What SWRP.wr allows and reads. -/
def swrpWrRule : Rule :=
  { swrpRule 1 with site := fun c => sysWritable c.hand c.o.mods.toNat }

/-- SWRP.wr (R386). -/
def execSwrpWr (o : Opn) (s : State) : Host.Outcome State Fault Refusal :=
  issue swrpWrRule o s fun c m =>
    let x := c.s o.d.toNat
    if sysFits o.mods.toNat x then .done (m.modBundle c.key fun b => b.setSys o.mods.toNat x) else .trap m (c.trap clsIll 0x60)

/-- What SWRP.sb allows and reads. -/
def swrpSbRule : Rule :=
  { opc := 0xDC, form := fun _ => { fns := [2], useD := true, useA := true, litB := false }
    extra := fun o => decide (o.len = 2), site := fun c => c.hand
    opds := fun o => [.s o.d.toNat 2 2, .s o.a.toNat 1 1] }

/-- SWRP.sb (R386). -/
def execSwrpSb (o : Opn) (s : State) : Host.Outcome State Fault Refusal :=
  issue swrpSbRule o s fun c m =>
    let e := Sparse.get ⟨0, 0⟩ c.b.trap.side ((c.s o.a.toNat).toNat % 32)
    .done (c.modRegs m fun r => (r.setW o.d.toNat e.addr).setW (o.d.toNat + 1) e.info)

/-! ## Trap entry (R373) -/

/-- TRAP_ENTRY (R373): once every register write of the bundle is done. -/
def execTrapEntry (b : Nat) (s : State) : Host.Outcome State Fault Refusal :=
  let m := s.mach
  match (m.bundle b).pend with
  | none => .next s
  | some t =>
    if ¬ bitAt (m.bundle b).trap.tvbase 0 then .next { s with mach := m.takeTrap b t }
    else if m.writing b then .next s
    else .next { s with mach := m.modBundle b fun x => x.enterHandler t }

end Sys2Proof.Machine
end

