-- ==== Sys2Proof/Machine/Host.lean ====
section
/-! DEFINITION. What the host, the security processor and the power controller do: registers (R309, R165, R353, R370, R387, R396, R397, R400,
R404, R405, R408), resuming faults (R168, R169), TLBINV (R166), CXL.mem (R398, R403, R407), boot (R402, R406), reset, the host
link (R399) and power (R409). -/

namespace Sys2Proof.Machine

/-- READY (R402). -/
def Boot.ready (b : Boot) : Bool := decide (b.state = 3)

/-! ## Resuming a fault (R168, R169) -/

/-- A bundle whose fault has the FID goes on, or traps (R169). -/
def Mach.resumeBundle (m : Mach) (fid : W32) (fail : Bool) (key : Nat) : Mach :=
  match (m.bundle key).fault with
  | some (f, t) =>
    if f = fid then
      let m := m.modBundle key fun b => { b with fault := none }
      if fail then m.takeTrap key t else m
    else m
  | none => m

/-- A saved bundle's fault is no longer outstanding; a failed one traps once the bundle is restored. -/
def Mach.resumeSaved (m : Mach) (fid : W32) (fail : Bool) : Mach :=
  m.frames.foldl (fun m f => f.parts.foldl (fun m p =>
    match p.b.fault with
    | some (g, t) =>
      if g = fid then
        let h := m.frame8 p.addr 0
        let m := m.writeNat .dev p.addr 8 (if h.testBit 36 then h - 2 ^ 36 else h)
        { m with frames := m.frames.map fun x => { x with parts := x.parts.map fun y =>
          if y.addr = p.addr then { y with b := { y.b with fault := none, pend := if fail then some t else none } } else y } }
      else m
    | none => m) m) m

/-- A copy that waits for the FID resumes at F, or stops (R242). -/
def Mach.resumeCopy (m : Mach) (fid : W32) (fail : Bool) (x : Copy) : Mach :=
  if x.fid = some fid.toNat then
    if fail then (m.modCopy x.id fun x => { x with st := 3, fid := none, status := 2, fault := 3 }).copyAdvance x.id
    else m.modCopy x.id fun x => { x with st := 1, fid := none }
  else m

/-- A neighbour job that waits for the FID resumes at the access, or fails there; so does its arrival (R295, R303). -/
def NbrJob.resume (j : NbrJob) (fid : W32) (fail : Bool) : NbrJob :=
  let j := if j.fid = some fid.toNat then { j with fid := none, failVa := if fail then j.failVa else none } else j
  if j.arrFid = some fid.toNat then { j with arrFid := none, arrFail := if fail then some 3 else none } else j

/-- FQRESUME on a machine (R168, R169). -/
def Mach.resumeFault (m : Mach) (v : W64) : Mach :=
  let fid : W32 := v.setWidth 32
  let fail := bitAt v 32
  let m := (m.bundles.map Prod.fst).foldl (fun m k => m.resumeBundle fid fail k) m
  let m := m.resumeSaved fid fail
  let m := m.copies.foldl (fun m x => m.resumeCopy fid fail x) m
  [0, 1, 2, 3].foldl (fun m d =>
    if (m.die d).jobs = [] then m else m.modDie d fun k => { k with jobs := k.jobs.map fun j => j.resume fid fail }) m

/-- FQRESUME (R168, R169). -/
def execFqresume (v : W64) (s : State) : Host.Outcome State Fault Refusal :=
  .next (if s.boot.ready then { s with mach := s.mach.resumeFault v } else s)

/-! ## TLBINV (R165, R166) -/

/-- A write of TLBINVC: ignored while BUSY, and for codes 6 to 15. -/
def Mach.startInv (m : Mach) (v : W64) : Mach :=
  if bitAt m.desk.tlbinvc 63 ∨ 6 ≤ fld v 11 8 then m
  else { m with desk := { m.desk with tlbinvc := .ofNat 64 (fld v 11 0 + 2 ^ 63) } }

/-- TLBINVC (R166). -/
def execTlbinvc (v : W64) (s : State) : Host.Outcome State Fault Refusal :=
  .next (if s.boot.ready then { s with mach := s.mach.startInv v } else s)

/-- The command in progress names an address space, and, for the codes of a page, some of the addresses from lo up to hi. -/
def Desk.drops (d : Desk) (asid lo hi : Nat) : Bool :=
  let code := fld d.tlbinvc 11 8
  let size := if code = 0 then 0x10000 else if code = 1 then 0x200000 else 0x40000000
  let at_ := d.tlbinva.toNat / size * size
  decide (code = 4) || (decide (asid = fld d.tlbinvc 7 0)
    && (decide (code = 3 ∨ code = 5) || decide (code ≤ 2 ∧ lo < at_ + size ∧ at_ < hi)))

/-- The command drops range entries (codes 3 to 5), and leaf translations and table entries (all but code 5). -/
def Desk.dropsRange (d : Desk) (x : RangeCopy) : Bool := decide (3 ≤ fld d.tlbinvc 11 8) && d.drops x.asid 0 0
def Desk.dropsLeaf (d : Desk) (x : Xlat) : Bool := decide (fld d.tlbinvc 11 8 ≠ 5) && d.drops x.asid x.lo x.hi
def Desk.dropsTable (d : Desk) (x : TableCopy) : Bool := decide (fld d.tlbinvc 11 8 ≠ 5) && d.drops x.asid x.lo x.hi

/-- Some access that the command's entries may have translated is not yet performed (R166): part of an operation, a letter or a reply that
is awaited, a tile image, a copy's arrival, or the destination of a collective's chunk. -/
def Mach.invBusy (m : Mach) : Bool :=
  (m.ops.any fun o => o.parts.any fun p => !p.done && m.desk.drops o.asid p.va.toNat (p.va.toNat + max 1 p.size))
  || (m.sent.any fun y => !y.acked && y.spans.any fun z => m.desk.drops y.asid z.1 (z.1 + z.2))
  || (m.cores.any fun p => p.2.mx.any fun j => (j.image).any fun z => m.desk.drops z.1 z.2 (z.2 + 20480))
  || (m.copies.any fun x => x.arr.isSome && !x.arrived && m.desk.drops x.asid x.arrVa.toNat (x.arrVa.toNat + 8))
  || m.insts.any fun i => i.chunks.any fun c => c.spans.any fun z => m.desk.drops c.asid z.1 z.2

/-- Every cache of the package drops the entries that match. -/
def Mach.dropXlats (m : Mach) : Mach :=
  let d := m.desk
  let m := (m.cores.map Prod.fst).foldl (fun m c => m.modCore c fun k =>
    { k with rcache := k.rcache.filter fun x => !d.dropsRange x, tlb := k.tlb.filter fun x => !d.dropsLeaf x }) m
  (m.dies.map Prod.fst).foldl (fun m c => m.modDie c fun k =>
    { k with tlb2 := k.tlb2.filter fun x => !d.dropsLeaf x, wcache := k.wcache.filter fun x => !d.dropsTable x }) m

/-- TLBINV_COMPLETE (R166). -/
def execTlbinvComplete (s : State) : Host.Outcome State Fault Refusal :=
  let m := s.mach
  if ¬ bitAt m.desk.tlbinvc 63 ∨ m.invBusy then .next s
  else
    let m := m.dropXlats
    .next { s with mach := { m with desk := { m.desk with tlbinvc := .ofNat 64 (fld m.desk.tlbinvc 11 0) } } }

/-! ## Registers of the launch desk (R309, R165, R387) -/

/-- Keep the bits of a mask. -/
def keep (v : W64) (mask : Nat) : W64 := v &&& BitVec.ofNat 64 mask

/-- A size register: LOG2N within its limits or the default; the count above it stays. -/
def sizeReg (old v : W64) (lo hi dflt : Nat) : W64 :=
  let n := fld v 4 0
  .ofNat 64 (fld old 63 32 * 2 ^ 32 + if lo ≤ n ∧ n ≤ hi then n else dflt)

def Queue.write (q : Queue) (r : Nat) (v : W64) : Queue :=
  match r with
  | 0 => { q with base := keep v 0xFFFFFFFFFFFFF001 }
  | 1 =>
    let n := fld v 4 0
    { q with
      ctl := (q.ctl &&& 0x20000#64) ||| keep v 0x10700 ||| BitVec.ofNat 64 (if 1 ≤ n ∧ n ≤ 12 then n else 4)
      seen := if bitAt v 16 then q.seen else none }
  | 2 => { q with tail := keep v 0xFFFFFFFFFFFFFFFC }
  | _ => q

/-- Records that waited for room go in (R165, R387, R400). -/
def Mach.drainAll (m : Mach) : Mach :=
  let m := m.drainFaults m.desk.fqwait
  let m := m.drainStops m.desk.stqwait
  m.drainErrors m.desk.elwait

def Desk.write (d : Desk) (off : Nat) (v : W64) : Desk :=
  if off = 0x100 then { d with stqbase := keep v 0xFFFFFFFFFFFFF003 }
  else if off = 0x108 then { d with stqsize := sizeReg d.stqsize v 4 12 6 }
  else if off = 0x118 then { d with stqhead := v.setWidth 32 }
  else if 0x140 ≤ off ∧ off < 0x180 then
    let k := (off - 0x140) / 16
    if off % 16 = 0 then { d with svbase := Sparse.put 0 d.svbase k (keep v 0xFFFFFFFFFFFF0001) }
    else { d with svsize := Sparse.put 0 d.svsize k (keep v 0xFFFFFFFF) }
  else if off = 0x2000 then { d with astbase := keep v 0x3FFFFFFF00001 }
  else if off = 0x2008 then { d with fqbase := keep v 0xFFFFFFFFFFFFF001 }
  else if off = 0x2010 then { d with fqsize := sizeReg d.fqsize v 6 16 6 }
  else if off = 0x2020 then { d with fqhead := v.setWidth 32 }
  else if off = 0x2030 then { d with tlbinva := v }
  else d

/-- A halted team resumes or is killed (R384, R387). -/
def Mach.stresume (m : Mach) (v : W64) : Mach :=
  match m.frames.find? fun f => decide (f.sid = some (v.setWidth 32)) with
  | none => m
  | some f =>
    if fld v 33 32 = 1 then m.killSaved f
    else if fld v 33 32 = 0 then
      let f' : Frame := { f with sid := none }
      let m : Mach := { m with frames := m.frames.map fun x => if x.order = f.order then f' else x }
      if m.frameFits f' then m.restoreFrame f' else m
    else m

def Mach.writeDesk (m : Mach) (off : Nat) (v : W64) : Mach :=
  if 0x1000 ≤ off ∧ off < 0x1800 then
    let k := (off - 0x1000) / 32
    m.setQueue k ((m.queue k).write (off % 32 / 8) v)
  else if off = 0x120 then m.stresume v
  else if off = 0x2028 then m.resumeFault v
  else if off = 0x2038 then m.startInv v
  else { m with desk := m.desk.write off v }.drainAll

/-! ## Collective registers (R353, R354, R370) -/

/-- A group entry's registers, while the entry is not live (R354). -/
def Group.write (g : Group) (r : Nat) (v : W64) : Group :=
  match r with
  | 0 => { g with gctl := (g.gctl &&& (1#64 <<< 62)) ||| keep v 0xA000FFFF3FFF7FFF }
  | 1 => { g with gring := keep v 0xBFFF3FFF3FFF }
  | 2 => { g with gtree := keep v 0xFFFFFBFFFBFFF }
  | 3 => { g with cur := v.setWidth 32 }
  | _ => g

def Mach.writeGroup (m : Mach) (k r : Nat) (v : W64) : Mach :=
  let g := m.group k
  let live := g.valid && !g.hold
  let g' := if ¬ live then g.write r v else if r = 0 then { g with gctl := (g.gctl &&& 0x5FFFFFFFFFFFFFFF#64) ||| keep v 0xA000000000000000 } else g
  let m := m.setGroup k g'
  let m := if r = 3 ∧ live = false then m.restartInsts k else m
  if g'.hold && !g.hold then m.abortRunning 0x55 fun x => decide (x.group = k) else m

/-- An entry of the fence table; the postmarks of a package fenced are removed (R191, R370). -/
def Mach.writeFence (m : Mach) (f : Nat) (v : W64) : Mach :=
  let v := keep v 0x8000000000003FFF
  let m : Mach := { m with fence := Sparse.put 0 m.fence f v }
  if bitAt v 63 then
    [0, 1, 2, 3].foldl (fun m d =>
      if (m.die d).marks = [] then m
      else m.modDie d fun k => { k with marks := k.marks.filter fun p => decide (p.1 / 2 ^ 50 ≠ fld v 13 0) }) m
  else m

/-- FENCE_TABLE_WRITE (R370). -/
def execFenceTableWrite (f : Nat) (v : W64) (s : State) : Host.Outcome State Fault Refusal :=
  .next (if s.boot.ready && decide (f < 256) then { s with mach := s.mach.writeFence f v } else s)

def Mach.writeColl (m : Mach) (off : Nat) (v : W64) : Mach :=
  if 0x40000 ≤ off ∧ off < 0x50000 then m.writeGroup ((off - 0x40000) / 64) (off % 64 / 8) v
  else if 0x50000 ≤ off ∧ off < 0x50800 then m.writeFence ((off - 0x50000) / 8) v
  else m

/-! ## The power and error block (R400, R408) -/

def State.writePower (s : State) (off : Nat) (v : W64) : State :=
  let m := s.mach
  if off = 0 then
    { s with boot := { s.boot with pwrlim := if 1000 ≤ fld v 12 0 ∧ fld v 12 0 ≤ 4200 then fld v 12 0 else 4200 } }
  else if off = 0x40 then { s with mach := { m with desk := { m.desk with elbase := keep v 0xFFFFFFFFFFFFF001 } }.drainAll }
  else if off = 0x48 then { s with mach := { m with desk := { m.desk with elsize := sizeReg m.desk.elsize v 4 12 6 } }.drainAll }
  else if off = 0x58 then { s with mach := { m with desk := { m.desk with elhead := v.setWidth 32 } }.drainAll }
  else s

/-! ## The security mailbox (R402, R404, R405) -/

/-- The package number is set once, while READY (R404). -/
def State.setPkg (s : State) (v : W64) : State :=
  if s.boot.ready && !s.boot.pkgV then
    { s with boot := { s.boot with pkgV := true }, mach := { s.mach with pkg := fld v 13 0 } }
  else s

/-- PKGID_WRITE (R404). -/
def execPkgidWrite (v : W64) (s : State) : Host.Outcome State Fault Refusal := .next (s.setPkg v)

/-- A write of MBCMD (R405). Whether a valid code clears ERR is open. -/
def State.command (s : State) (v : W64) : State :=
  let code := fld v 7 0
  if s.boot.mbBusy then s
  else if code = 1 ∨ code = 2 then
    let (e, m) := s.mach.pick false [false, s.boot.mbErr].eraseDups
    { s with mach := m, boot := { s.boot with mbBusy := true, mbCode := code, mbErr := e } }
  else { s with boot := { s.boot with mbErr := true, mbCode := code } }

/-- Word k of the nonce. -/
def Boot.setNonce (b : Boot) (k : Nat) (v : W64) : Boot :=
  let n := b.nonce ++ List.replicate (32 - b.nonce.length) 0
  { b with nonce := n.take (8 * k) ++ leBytes 8 v.toNat ++ n.drop (8 * k + 8) }

/-- Bytes of the report or the key that the spec does not compute. -/
def identityBytes (what salt n : Nat) : List Byte := (List.range n).map (Config.identity what salt)

/-- SHA3-512 of bytes that the state holds, and of a world assignment, whose encoding is open (R405). -/
def digestBytes (b : List Byte) : List Byte := (List.range 64).map (Config.digest (b.map BitVec.toNat))

/-- A world assignment as the report's digest takes it: its lists, each after its length. -/
def worldsBytes (w : Worlds) : List Nat :=
  let pairs := fun (ps : List (Nat × Nat)) => ps.length :: ps.flatMap fun p => [p.1, p.2]
  w.cores.length :: w.cores ++ w.queues.length :: w.queues ++ w.groups.length :: w.groups ++ pairs w.ranges ++ pairs w.pools

/-- The identity public key (R405). -/
def publicKey : List Byte := identityBytes 3 0 2592

/-- The first 256 bytes of a report (R405). -/
def State.reportBody (s : State) : List Byte :=
  leBytes 8 1 ++ leBytes 8 s.boot.svn.toNat ++ (s.boot.nonce ++ List.replicate (32 - s.boot.nonce.length) 0)
    ++ identityBytes 0 s.boot.svn.toNat 64 ++ (List.range 64).map (Config.digest (worldsBytes s.boot.worlds)) ++ digestBytes publicKey
    ++ List.replicate 16 0

/-- MBCMD_REPORT (R405): the report is complete and BUSY clears. -/
def execMbcmdReport (s : State) : Host.Outcome State Fault Refusal :=
  if s.boot.mbBusy && decide (s.boot.mbCode = 1) then
    let r := s.reportBody ++ identityBytes 4 s.mach.free 4627
    .next { s with boot := { s.boot with mbBusy := false, report := r }, mach := { s.mach with free := s.mach.free + 1 } }
  else .next s

/-- MBCMD_PUBKEY (R405). -/
def execMbcmdPubkey (s : State) : Host.Outcome State Fault Refusal :=
  if s.boot.mbBusy && decide (s.boot.mbCode = 2) then
    .next { s with boot := { s.boot with mbBusy := false, report := publicKey } }
  else .next s

def State.writeMailbox (s : State) (off : Nat) (v : W64) : State :=
  if s.boot.state = 0 then s
  else if off = 8 then s.command v
  else if off = 0x10 then s.setPkg v
  else if 0x20 ≤ off ∧ off < 0x40 then { s with boot := s.boot.setNonce ((off - 0x20) / 8) v }
  else s

/-! ## Register access (R396, R397, R403) -/

/-- A write at a BAR0 offset that is a multiple of 8. -/
def State.writeReg (s : State) (off : Nat) (v : W64) : State :=
  if 0x300000 ≤ off ∧ off < 0x400000 then s.writeMailbox (off - 0x300000) v
  else if ¬ s.boot.ready then s
  else if off < 0x100000 then { s with mach := s.mach.writeDesk off v }
  else if off < 0x200000 then { s with mach := s.mach.writeColl (off - 0x100000) v }
  else if off < 0x300000 then s.writePower (off - 0x200000) v
  else s

/-- REGISTER_WRITE (R397). -/
def execRegisterWrite (off size : Nat) (v : W64) (s : State) : Host.Outcome State Fault Refusal :=
  .next (if size = 8 ∧ off % 8 = 0 then s.writeReg off v else s)

def Queue.read (q : Queue) (r : Nat) : W64 :=
  match r with
  | 0 => q.base
  | 1 => q.ctl
  | 2 => q.tail
  | _ => q.head.setWidth 64

def Desk.read (d : Desk) (off : Nat) : W64 :=
  if off = 0x100 then d.stqbase else if off = 0x108 then d.stqsize else if off = 0x110 then d.stqtail.setWidth 64
  else if off = 0x118 then d.stqhead.setWidth 64
  else if 0x140 ≤ off ∧ off < 0x1C0 then
    if off % 16 = 0 then Sparse.get 0 d.svbase ((off - 0x140) / 16) else Sparse.get 0 d.svsize ((off - 0x140) / 16)
  else if off = 0x2000 then d.astbase else if off = 0x2008 then d.fqbase else if off = 0x2010 then d.fqsize
  else if off = 0x2018 then d.fqtail.setWidth 64 else if off = 0x2020 then d.fqhead.setWidth 64
  else if off = 0x2030 then d.tlbinva else if off = 0x2038 then d.tlbinvc else 0

def Group.read (g : Group) (r : Nat) : W64 :=
  match r with
  | 0 => g.gctl
  | 1 => g.gring
  | 2 => g.gtree
  | 3 => g.cur.setWidth 64
  | 4 => .ofNat 64 (g.last.toNat + 2 ^ 32 * boolNat g.av)
  | 5 => .ofNat 64 (g.stale.toNat + 2 ^ 32 * g.aborts.toNat)
  | _ => 0

/-- DIESTAT (R408). -/
def Mach.dieStat (m : Mach) (d : Nat) : W64 :=
  let k := m.die d
  .ofNat 64 (k.temp % 256 + 256 * boolNat k.hold + 65536 * ((m.requests d).length % 65536) + 2 ^ 32 * k.grants.toNat)

def Boot.read (b : Boot) (pkg off : Nat) : W64 :=
  if off = 0 then .ofNat 64 (b.state + 256 * b.cause + 65536 * b.svn.toNat)
  else if off = 8 then .ofNat 64 (b.mbCode + 2 ^ 62 * boolNat b.mbErr + 2 ^ 63 * boolNat b.mbBusy)
  else if off = 0x10 then .ofNat 64 (pkg + 2 ^ 63 * boolNat b.pkgV)
  else if off = 0x18 then b.secviol.setWidth 64
  else if 0x20 ≤ off ∧ off < 0x40 then .ofNat 64 (leNat ((b.nonce.drop (off - 0x20)).take 8))
  else if 0x1000 ≤ off then .ofNat 64 (leNat ((b.report.drop (off - 0x1000)).take 8))
  else 0

/-- What a host read of a register returns (R397); a read of another size or alignment returns zero. -/
def State.readReg (s : State) (off size : Nat) : W64 :=
  let m := s.mach
  if size ≠ 8 ∨ off % 8 ≠ 0 then 0
  else if off < 0x100000 then
    if 0x1000 ≤ off ∧ off < 0x1800 then (m.queue ((off - 0x1000) / 32)).read (off % 32 / 8) else m.desk.read off
  else if off < 0x200000 then
    if 0x140000 ≤ off ∧ off < 0x150000 then (m.group ((off - 0x140000) / 64)).read (off % 64 / 8)
    else if 0x150000 ≤ off ∧ off < 0x150800 then Sparse.get 0 m.fence ((off - 0x150000) / 8)
    else 0
  else if off < 0x300000 then
    if off = 0x200000 then .ofNat 64 s.boot.pwrlim
    else if off = 0x200008 then .ofNat 64 s.boot.pwrnow
    else if 0x200010 ≤ off ∧ off < 0x200030 then m.dieStat ((off - 0x200010) / 8)
    else if off = 0x200040 then m.desk.elbase
    else if off = 0x200048 then m.desk.elsize
    else if off = 0x200050 then m.desk.eltail.setWidth 64
    else if off = 0x200058 then m.desk.elhead.setWidth 64
    else 0
  else if off < 0x400000 then s.boot.read m.pkg (off - 0x300000)
  else 0

/-! ## CXL.mem (R395, R398, R403, R407) -/

/-- An access that the port carries: within one 64-byte line of device memory, while the link is up. -/
def Mach.portFits (m : Mach) (addr n : Nat) : Bool := m.linkUp && decide (1 ≤ n ∧ addr % 64 + n ≤ 64 ∧ addr + n ≤ devTop)

/-- A CXL.mem access to a secure range is counted (R407). -/
def State.violates (s : State) : State := { s with boot := { s.boot with secviol := satInc s.boot.secviol } }

/-- The port sends something to the host. -/
def State.send (s : State) (x : Sending) : State := { s with mach := { s.mach with out := s.mach.out ++ [x] } }

/-- CXL_MEM_WRITE (R398, R403, R407). -/
def execCxlMemWrite (addr : Nat) (data : List Byte) (s : State) : Host.Outcome State Fault Refusal :=
  let m := s.mach
  if ¬ m.portFits addr data.length ∨ s.boot.state = 4 then .next s
  else if ¬ s.boot.ready then .next (s.send .wrote)
  else if m.secureRange addr data.length then .next (s.violates.send .wrote)
  else .next ({ s with mach := m.writeBytes .dev addr data }.send .wrote)

/-- CXL_MEM_READ (R403, R407). A line with an uncorrectable error gives free values (R400). -/
def execCxlMemRead (addr n : Nat) (s : State) : Host.Outcome State Fault Refusal :=
  let m := s.mach
  if ¬ m.portFits addr n ∨ s.boot.state = 4 then .next s
  else if ¬ s.boot.ready then .next (s.send (.data (List.replicate n 0xFF)))
  else if m.secureRange addr n then .next (s.violates.send (.data (List.replicate n 0)))
  else if m.damaged .dev addr n then
    let bs := (List.range n).map fun i => (Config.word (m.free + i)).setWidth 8
    .next ({ s with mach := { m with free := m.free + n }.logError 1 0xFF (homeDie addr) addr }.send (.data bs))
  else .next (s.send (.data (m.readBytes .dev addr n)))

/-! ## The host link (R399) -/

/-- The link goes down; the error record's UNIT and DIE are open (R401). -/
def Mach.dropLink (m : Mach) : Mach :=
  if m.linkUp then
    let (k, m) := m.draw
    { m with linkUp := false }.logError 4 (fld (Config.word k) 7 0) (fld (Config.word k) 9 8) 0
  else m

/-- HOST_LINK_DOWN (R399). -/
def execHostLinkDown (s : State) : Host.Outcome State Fault Refusal := .next { s with mach := s.mach.dropLink }

/-! ## Reset and boot (R402, R406) -/

/-- PACKAGE_RESET (R402): everything as at reset, CLK from zero (R78) and BOOTST 0 until the boot ROM starts. Device and host memory, damaged
lines, the fused SVN counter, and the counters of the model's own values stay (log 22). -/
def execPackageReset (s : State) : Host.Outcome State Fault Refusal :=
  let m := s.mach
  .next { s with
    focus := 0, boot := { Boot.reset with fuse := s.boot.fuse }
    mach := { Mach.reset with
      free := m.free, nextOp := m.nextOp, dev := m.dev, host := m.host, bad := m.bad } }

/-- BOOT_ROM (R402): it starts; then it has read and verified an image of the SVN given, or fails with CAUSE 1 to 3. An image below the fused
SVN counter is a rollback, and no other is. -/
def execBootRom (fail : Nat) (svn : W32) (s : State) : Host.Outcome State Fault Refusal :=
  if s.boot.state = 0 then .next { s with boot := { s.boot with state := 1 } }
  else if s.boot.state ≠ 1 then .next s
  else if fail = 0 ∧ s.boot.fuse.toNat ≤ svn.toNat then .next { s with boot := { s.boot with state := 2, svn := svn } }
  else if fail = 1 ∨ fail = 2 ∨ (fail = 3 ∧ svn.toNat < s.boot.fuse.toNat) then
    .next { s with boot := { s.boot with state := 4, cause := fail } }
  else .next s

/-- An assignment that the part allows: existing cores, queues and groups, at most 16 ranges a die, each of whole GiB within its die. -/
def worldsOk (w : Worlds) : Bool :=
  (w.cores.all fun c => decide (c < 384)) && (w.queues.all fun q => decide (q < 64)) && (w.groups.all fun g => decide (g < 1024))
    && (w.ranges.all fun r => decide (r.1 % 2 ^ 30 = 0 ∧ r.2 % 2 ^ 30 = 0 ∧ r.1 < r.2 ∧ r.2 ≤ devTop ∧ homeDie r.1 = homeDie (r.2 - 1)))
    && ([0, 1, 2, 3].all fun d => decide ((w.ranges.filter fun r => decide (homeDie r.1 = d)).length ≤ 16))
    && decide (w.pools.length ≤ 4)
    && ((w.pools.mapIdx fun d p => decide (p.2 = 0 ∨ (homeDie (p.1 * 65536) = d ∧ homeDie ((p.1 + p.2) * 65536 - 1) = d ∧ p.2 < 2 ^ 32))).all id)

/-- Worlds are assigned and the secure pools and ranges are cleared (R402, R406). -/
def Mach.assign (m : Mach) (w : Worlds) : Mach :=
  let m := w.cores.foldl (fun m c => m.modCore c fun k => { k with world := true }) m
  let m := w.queues.foldl (fun m q => m.setQueue q { m.queue q with ctl := (m.queue q).ctl ||| 0x20000#64 }) m
  let m := w.groups.foldl (fun m g => m.modGroup g fun x => { x with gctl := x.gctl ||| (1#64 <<< 62) }) m
  let m := w.ranges.foldl (fun m r => m.zeroSpan r.1 (r.2 - r.1)) { m with ranges := w.ranges }
  (w.pools.mapIdx fun d p => (d, p)).foldl (fun m x =>
    if x.2.2 = 0 then m
    else
      let d := { m.desk with
        svbase := Sparse.put 0 m.desk.svbase (x.1 + 4) (.ofNat 64 (x.2.1 * 65536 + 1))
        svsize := Sparse.put 0 m.desk.svsize (x.1 + 4) (.ofNat 64 x.2.2) }
      { m with desk := d }.zeroSpan (x.2.1 * 65536) (x.2.2 * 65536)) m

/-- BOOT_FIRMWARE (R402, R406): READY, with the CXL Memory_Active indication, or CAUSE 4. -/
def execBootFirmware (fail : Nat) (w : Worlds) (s : State) : Host.Outcome State Fault Refusal :=
  if s.boot.state ≠ 2 then .next s
  else if fail = 4 then .next { s with boot := { s.boot with state := 4, cause := 4 } }
  else if fail = 0 ∧ worldsOk w = true then .next { s with boot := { s.boot with state := 3, worlds := w, memActive := true }, mach := s.mach.assign w }
  else .next s

/-! ## Power (R408, R409) -/

/-- POWER_DIVISION (R409): in each 10 µs once, PWRLIM less the hub's share is divided among the desks in proportion to the requests that wait
there. The hub's share, and the division while none waits, are open. -/
def execPowerDivision (watts : Nat) (s : State) : Host.Outcome State Fault Refusal :=
  let period := 10 * Config.usCycles
  if s.mach.clk / period ≤ s.boot.divided / period then .next s
  else
    let (h, m) := s.mach.draw
    let room := s.boot.pwrlim - (Config.word h).toNat % (s.boot.pwrlim + 1)
    let queued := fun d => (s.mach.requests d).length
    let total := queued 0 + queued 1 + queued 2 + queued 3
    let m := [0, 1, 2, 3].foldl (fun m d =>
      let (k, m) := m.draw
      m.modDie d fun x => { x with share := if total = 0 then (Config.word k).toNat % (room + 1) else room * queued d / total }) m
    .next { s with mach := m, boot := { s.boot with pwrnow := watts % 8192, divided := s.mach.clk } }

/-- A die is too hot to run (R409): every clock stops, and the host link drops. -/
def State.shutDown (s : State) (die temp : Nat) : State :=
  { s with
    mach := (s.mach.modDie die fun k => { k with temp := temp, hold := true }).dropLink
    boot := { s.boot with stopped := true } }

/-- THERMAL_HOLD (R409): HOLD from 105 degrees on; from 115 on the package shuts down. -/
def execThermalHold (die temp : Nat) (s : State) : Host.Outcome State Fault Refusal :=
  if ¬ (105 ≤ temp ∧ die < 4) then .next s
  else if 115 ≤ temp then .next (s.shutDown die temp)
  else .next { s with mach := s.mach.modDie die fun k => { k with temp := temp, hold := true } }

/-- THERMAL_HOLD_CLEAR (R409). -/
def execThermalHoldClear (die temp : Nat) (s : State) : Host.Outcome State Fault Refusal :=
  if temp < 105 ∧ die < 4 then .next { s with mach := s.mach.modDie die fun k => { k with temp := temp, hold := false } } else .next s

/-- THERMAL_SHUTDOWN (R409). -/
def execThermalShutdown (die temp : Nat) (s : State) : Host.Outcome State Fault Refusal :=
  .next (if 115 ≤ temp ∧ die < 4 then s.shutDown die temp else s)

end Sys2Proof.Machine
end

