-- ==== Sys2Proof/Machine/Letters.lean ====
section
/-! DEFINITION. Letters at their home and at their sender: LETTER_RECEIVE (R185 to R191, R221), RGET_READ, REPLY_RECEIVE (R206),
acknowledgements, resends and refusals (R189, R194), and settle notices (R190). -/

namespace Sys2Proof.Machine

/-! ## At the home -/

/-- TY and SZ that an OP takes (R185, R196, R200, R204, R206, R220). -/
def tySzFits (op ty sz : Nat) : Bool :=
  match op with
  | 0x01 => decide ((ty = 0 ∨ ty = 2) ∧ sz = szOfTy ty)
  | 0x02 | 0x10 => decide ((ty = 4 ∨ ty = 6 ∨ ty = 7) ∧ sz = szOfTy ty)
  | 0x03 | 0x04 => decide (ty ≤ 4 ∧ sz = szOfTy ty)
  | 0x05 => decide ((ty = 1 ∨ ty = 3) ∧ sz = szOfTy ty)
  | 0x06 => decide (ty = 0 ∧ (sz = 3 ∨ sz = 4))
  | 0x07 | 0x08 | 0x11 | 0x12 => decide (ty = 0 ∧ sz = 3)
  | 0x09 => decide (ty = 0 ∧ 2 ≤ sz ∧ sz ≤ 4)
  | _ => false

/-- The bytes after the header are those of the OP (R20, R200). -/
def bodyFits (l : Letter) : Bool :=
  if l.op = 0x06 ∧ l.sz = 4 then decide (l.body.length = 16 ∧ fld l.data 8 0 = 16)
  else if l.op = 0x07 then decide (l.body.length = fld l.data 8 0 ∧ l.body.length % 8 = 0 ∧ 8 ≤ l.body.length ∧ l.body.length ≤ 256)
  else decide (l.body = [])

/-- A malformed letter (R185). -/
def letterBad (l : Letter) : Bool :=
  l.rsv || l.sp || decide (devTop ≤ l.tpa.toNat) || !tySzFits l.op.toNat l.ty.toNat l.sz.toNat || !bodyFits l

/-- A copy inside the package leaves the wire, its time in flight in units of 16 ns, a unit begun counting whole, so that no copy sent more
than 4 µs ago is taken; a copy from another package has the AGE given (R186). -/
def Mach.takeCopy (m : Mach) (l : Letter) (from_ : Nat) (age : Nat) : Option (Nat × Mach) :=
  if from_ = m.pkg then
    match m.wire.find? fun w => decide (w.letter = l) with
    | none => none
    | some w => some (min 255 ((m.clk - w.time + 35) / 36), { m with wire := m.wire.erase w })
  else some (age, m)

/-- The Traris ports carry letters of other packages only once the package's number is set (R404). -/
def State.carries (s : State) (from_ : Nat) : Bool := decide (from_ = s.mach.pkg) || s.boot.pkgV

/-- An acknowledgement leaves for a package. -/
def Mach.ackTo (m : Mach) (l : Letter) (status : Nat) : Mach :=
  if pmPkg l.pm = m.pkg then { m with acks := m.acks ++ [(l.pm, status)] }
  else { m with out := m.out ++ [.ack (pmPkg l.pm) l.pm status] }

/-- The postmarks a die's table holds, and how many it has room for (R187). -/
def Mach.marked (m : Mach) (die : Nat) (pm : W64) : Bool := (Sparse.get none (m.die die).marks pm.toNat).isSome
def Mach.marksFull (m : Mach) (die : Nat) : Bool := decide (262144 ≤ (m.die die).marks.length)
def Mach.setMark (m : Mach) (die : Nat) (pm : W64) (t : Option Nat) : Mach :=
  m.modDie die fun d => { d with marks := Sparse.put none d.marks pm.toNat t }

/-- Apply a letter by its OP. -/
def Mach.applyLetter (m : Mach) (l : Letter) : Nat × Mach :=
  if 0x10 ≤ l.op.toNat then m.applyMeeting l else m.applyPlain l

/-- Receive (R187). -/
def Mach.receive (m : Mach) (l : Letter) : Mach :=
  let die := homeDie l.tpa.toNat
  if m.marked die l.pm then m.ackTo l 0
  else if m.marksFull die then m.ackTo l 1
  else
    let (st, m) := m.applyLetter l
    (if st = 0 then m.setMark die l.pm (some m.clk) else m).ackTo l st

/-- LETTER_RECEIVE (R185 to R187, R191): a copy beyond the flight limit, of a fenced source, or malformed has no effect. -/
def execLetterReceive (l : Letter) (age : Nat) (s : State) : Host.Outcome State Fault Refusal :=
  if l.tpkg.toNat ≠ s.mach.pkg ∨ l.op = 0x09 ∨ l.op = 0x0A ∨ s.carries (pmPkg l.pm) = false then .next s
  else
    match s.mach.takeCopy l (pmPkg l.pm) age with
    | none => .next s
    | some (age, m) =>
      if 250 < age ∨ m.fenced (pmPkg l.pm) = true ∨ letterBad l = true then .next { s with mach := m }
      else .next { s with mach := m.receive l }

/-- A region or range of the secure world holds part of a span (R210). -/
def Mach.secureSpan (m : Mach) (pa len : Nat) : Bool :=
  m.secureRange pa len || (m.die (homeDie pa)).table.any fun p => p.2.secure && p.2.touches pa len

/-- The reply to a request (R185, R206). -/
def replyTo (l : Letter) (v : Nat) : Letter :=
  { blankLetter with
    pm := l.pm, tpkg := .ofNat 14 (pmPkg l.pm), tpa := .ofNat 40 (fld l.data 39 0), sp := bitAt l.data 40, sz := l.sz, op := 0x0A
    world := l.world, data := if l.sz = 4 then 16 else .ofNat 64 v, body := if l.sz = 4 then leBytes 16 v else [] }

/-- A letter leaves without a record: a reply. -/
def Mach.sendReply (m : Mach) (l : Letter) : Mach :=
  if l.tpkg.toNat = m.pkg then { m with wire := m.wire ++ [⟨l, m.clk⟩] } else { m with out := m.out ++ [.letter l] }

/-- RGET_READ (R206): one atomic read, and its reply; a non-secure request of the secure world is answered WORLD (R210). A line with an
uncorrectable error gives free values and is logged (R400). -/
def execRgetRead (l : Letter) (age : Nat) (s : State) : Host.Outcome State Fault Refusal :=
  if l.tpkg.toNat ≠ s.mach.pkg ∨ l.op ≠ 0x09 ∨ s.carries (pmPkg l.pm) = false then .next s
  else
    match s.mach.takeCopy l (pmPkg l.pm) age with
    | none => .next s
    | some (age, m) =>
      let pa := l.tpa.toNat
      let n := 2 ^ l.sz.toNat
      if 250 < age ∨ m.fenced (pmPkg l.pm) = true ∨ letterBad l = true then .next { s with mach := m }
      else if !l.world && m.secureSpan pa n then .next { s with mach := m.ackTo l 3 }
      else
        let (v, m) := m.homeRead pa n
        .next { s with mach := m.sendReply (replyTo l v) }

/-! ## At the sender -/

def Mach.sentAt (m : Mach) (pm : W64) : Option Sent := m.sent.find? fun x => decide (x.letter.pm = pm)
def Mach.modSent (m : Mach) (pm : W64) (f : Sent → Sent) : Mach :=
  { m with sent := m.sent.map fun x => if x.letter.pm = pm then f x else x }

/-- A letter is done: its operation completes when all of its letters are (R194). -/
def Mach.letterDone (m : Mach) (s : Sender) : Mach :=
  match s with
  | .bundle key out => if m.lettersOut s then m else m.complete key out
  | .copy job _ => m.copyAdvance job
  | .locq _ _ => m

/-- A row or arrival letter of a copy failed (R242): the first failed row decides where the copy stops. -/
def Mach.rowFailed (m : Mach) (job off cause : Nat) (va : W64) : Mach :=
  m.modCopy job fun x =>
    if off < x.f ∨ x.arrived = true then { x with st := 3, status := 4, fault := cause, f := off, faultVa := va, fid := none } else x

/-- A letter fails (R188, R189, R194, R242, R350). -/
def Mach.failLetter (m : Mach) (x : Sent) (cause : Nat) : Mach :=
  let m := m.dropSent x.letter.pm
  match x.sender with
  | .bundle key out => (m.mark key out clsRemote clsAsync 4 cause x.va).letterDone x.sender
  | .copy job off => (m.rowFailed job off cause x.va).letterDone x.sender
  | .locq key seq => m.locAnswer key seq (.error cause)

/-- The value of a reply. -/
def replyValue (l : Letter) : Nat := if l.sz = 4 then leNat l.body else l.data.toNat % 2 ^ (8 * 2 ^ l.sz.toNat)

/-- A reply answers a request that is outstanding (R206). -/
def Sent.answeredBy (x : Sent) (l : Letter) : Bool :=
  decide (x.letter.op = 0x09 ∧ x.letter.sz = l.sz ∧ l.op = 0x0A ∧ l.rsv = false ∧ l.body.length = if l.sz = 4 then 16 else 0) && !x.acked

/-- REPLY_RECEIVE (R206): the first reply is written to its slot; a later one finds no request and is discarded. -/
def execReplyReceive (l : Letter) (s : State) : Host.Outcome State Fault Refusal :=
  let src := ((s.mach.sentAt l.pm).map fun x => x.letter.tpkg.toNat).getD s.mach.pkg
  if l.op ≠ 0x0A ∨ l.tpkg.toNat ≠ s.mach.pkg ∨ s.carries src = false then .next s
  else
    match s.mach.takeCopy l src l.age.toNat with
    | none => .next s
    | some (age, m) =>
      match (m.sentAt l.pm).filter fun x => x.answeredBy l && decide (age ≤ 250) with
      | none => .next { s with mach := m }
      | some x =>
        let v := replyValue l
        let m := m.dropSent l.pm
        let m := match x.slot with
          | some (sp, a) => m.writeNat sp a (2 ^ l.sz.toNat) v
          | none => m
        match x.sender with
        | .locq key seq => .next { s with mach := m.locAnswer key seq (.ok (.ofNat 64 v, .ofNat 64 (v / 2 ^ 64))) }
        | _ => .next { s with mach := m.letterDone x.sender }

/-- An acknowledgement inside the package leaves the wire; another package's comes from outside. -/
def Mach.takeAck (m : Mach) (peer : Nat) (pm : W64) (status : Nat) : Option Mach :=
  if peer = m.pkg then
    if m.acks.contains (pm, status) then some { m with acks := m.acks.erase (pm, status) } else none
  else some m

/-- What an acknowledgement does to the letter's record (R188, R189). A request is answered by its reply alone, but for a failure. -/
def Mach.acknowledge (m : Mach) (x : Sent) (status : Nat) : Mach :=
  if x.acked then m
  else
    match status with
    | 0 => if x.letter.op = 0x09 then m else (m.modSent x.letter.pm fun x => { x with acked := true, refused := false, timer := m.clk }).letterDone x.sender
    | 1 => if x.letter.op = 0x09 then m else m.modSent x.letter.pm fun x => { x with refused := true, timer := m.clk }
    | 2 | 3 | 4 => m.failLetter x (0x30 + status)
    | _ => m

/-- ACKNOWLEDGEMENT_RECEIVE (R188, R189, R194). -/
def execAcknowledgementReceive (pm : W64) (status : Nat) (s : State) : Host.Outcome State Fault Refusal :=
  match s.mach.sentAt pm with
  | none =>
    match s.mach.takeAck s.mach.pkg pm status with
    | some m => .next { s with mach := m }
    | none => .next s
  | some x =>
    match s.mach.takeAck x.letter.tpkg.toNat pm status with
    | some m => .next { s with mach := m.acknowledge x status }
    | none => .next s

/-- A new copy of a letter, with the same postmark. -/
def Mach.sendAgain (m : Mach) (x : Sent) (resends : Nat) : Mach :=
  (m.launchCopy x.letter).modSent x.letter.pm fun y => { y with last := m.clk, timer := m.clk, resends := resends, refused := false }

/-- RESEND_TIMER (R189): 8 µs without an answer; after 16 resends the letter fails. -/
def execResendTimer (pm : W64) (s : State) : Host.Outcome State Fault Refusal :=
  let m := s.mach
  match m.sentAt pm with
  | none => .next s
  | some x =>
    if x.acked = true ∨ x.refused = true ∨ m.clk < x.timer + 8 * Config.usCycles then .next s
    else if x.resends < 16 then .next { s with mach := m.sendAgain x (x.resends + 1) }
    else .next { s with mach := m.failLetter x 0x31 }

/-- REFUSED_RETRY (R189). -/
def execRefusedRetry (pm : W64) (s : State) : Host.Outcome State Fault Refusal :=
  match s.mach.sentAt pm with
  | none => .next s
  | some x => .next (if x.refused && !x.acked then { s with mach := s.mach.sendAgain x x.resends } else s)

/-! ## Settling (R190) -/

/-- SETTLE_NOTICE_SEND (R190): an owed notice that no letter has carried within 2 µs leaves alone. -/
def execSettleNoticeSend (pm : W64) (s : State) : Host.Outcome State Fault Refusal :=
  let m := s.mach
  match m.sentAt pm with
  | none => .next s
  | some x => .next (if x.owes m.clk && decide (x.due + 2 * Config.usCycles ≤ m.clk) then { s with mach := m.settle x } else s)

/-- SETTLE_NOTICE_RECEIVE (R190): the home removes the postmark. -/
def execSettleNoticeReceive (die : Nat) (pm : W64) (s : State) : Host.Outcome State Fault Refusal :=
  let m := s.mach
  if pmPkg pm = m.pkg then
    if m.settles.contains (die, pm) then
      let m : Mach := { m with settles := m.settles.erase (die, pm) }
      .next { s with mach := m.setMark die pm none }
    else .next s
  else .next { s with mach := m.setMark die pm none }

/-- A copy of the letter can still come to its home: it is on the wire, or its sender may send it again. Of a letter from another package the
home cannot tell. -/
def Mach.mayCome (m : Mach) (pm : W64) : Bool :=
  (m.wire.any fun w => decide (w.letter.pm = pm ∧ m.clk ≤ w.time + 4 * Config.usCycles))
    || m.sent.any fun x => decide (x.letter.pm = pm) && !x.acked

/-- POSTMARK_EXPIRY (R190): a postmark that has stood 200 µs is removed; by then, as the rule's last sentence has it, no copy can come. -/
def execPostmarkExpiry (die : Nat) (pm : W64) (s : State) : Host.Outcome State Fault Refusal :=
  let m := s.mach
  match Sparse.get none (m.die die).marks pm.toNat with
  | none => .next s
  | some t => .next (if t + 200 * Config.usCycles ≤ m.clk ∧ m.mayCome pm = false then { s with mach := m.setMark die pm none } else s)

end Sys2Proof.Machine
end

