-- ==== Sys2Proof/Machine/Special.lean ====
section
/-! DEFINITION. Special functions (R124 to R126). Where the spec gives only an error bound, the result is an opaque choice among the
encodings within that bound, fixed by opcode, type, operand and FPCTL (log 2); the bound is judged against the function's value, computed
in fixed point to far more places than the formats hold. -/

namespace Sys2Proof.Machine

/-- Fraction bits of the fixed-point values here. -/
def fxN : Nat := 400

def fxOne : Int := ((2 ^ fxN : Nat) : Int)

def fxMul (a b : Int) : Int := a * b / fxOne

/-- The sum of k terms t, t*z/d(i), ... of a power series: term i is the one before times z / d i. -/
def fxSeries (z : Int) (d : Nat → Int) : Nat → Nat → Int → Int
  | 0, _, _ => 0
  | n + 1, i, t => t + fxSeries z d n (i + 1) (fxMul t z / d i)

/-- atanh x, or atan x where `alt`, for |x| up to 1/3: the odd powers over the odd numbers. -/
def fxOdd (alt : Bool) (x : Int) : Nat → Nat → Int → Int
  | 0, _, _ => 0
  | n + 1, i, p => p / ((2 * i + 1 : Nat) : Int) + fxOdd alt x n (i + 1) (if alt then -fxMul (fxMul p x) x else fxMul (fxMul p x) x)

def fxAtanh (x : Int) : Int := fxOdd false x 140 0 x
def fxAtan (x : Int) : Int := fxOdd true x 100 0 x

def fxLn2 : Int := 2 * fxAtanh (fxOne / 3)
def fxPi : Int := 16 * fxAtan (fxOne / 5) - 4 * fxAtan (fxOne / 239)

/-- e^t for |t| up to 1. -/
def fxExp (t : Int) : Int := fxSeries t (fun i => ((i + 1 : Nat) : Int)) 110 0 fxOne

/-- sin t for |t| up to 2. -/
def fxSin (t : Int) : Int := fxSeries (-fxMul t t) (fun i => (((2 * i + 2) * (2 * i + 3) : Nat) : Int)) 70 0 t

/-- A finite value in fixed point. -/
def fxOf (neg : Bool) (m : Nat) (e : Int) : Int :=
  let k := e + (fxN : Int)
  let x : Nat := if 0 ≤ k then m <<< k.toNat else m >>> (-k).toNat
  if neg then -(x : Int) else x

/-- 2^x for |x| up to 1. -/
def fxExp2 (x : Int) : Int := fxExp (fxMul x fxLn2)

/-- log2 of m * 2^e. -/
def fxLog2 (m : Nat) (e : Int) : Int :=
  let k := Nat.log2 m
  let y := fxOf false m (-(k : Int))
  ((k : Int) + e) * fxOne + 2 * fxAtanh ((y - fxOne) * fxOne / (y + fxOne)) * fxOne / fxLn2

/-- sin(pi x), x in fixed point. -/
def fxSinPi (x : Int) : Int :=
  let r := x % (2 * fxOne)
  let r := if 3 * fxOne < 2 * r then r - 2 * fxOne else if fxOne < 2 * r then fxOne - r else r
  fxSin (fxMul r fxPi)

/-- tanh x; beyond 128 it differs from 1 by less than 2^-300. -/
def fxTanh (x : Int) : Int :=
  let a := (x.natAbs : Int)
  let y :=
    if 128 * fxOne ≤ a then fxOne - ((2 ^ 100 : Nat) : Int)
    else
      let t := 2 * a * fxOne / fxLn2
      let k := t / fxOne
      let p := fxExp2 (t - k * fxOne) * ((2 ^ k.toNat : Nat) : Int)
      (p - fxOne) * fxOne / (p + fxOne)
  if x < 0 then -y else y

/-- The integer square root, by n binary digits. -/
def isqrt (x : Nat) : Nat → Nat → Nat
  | 0, r => r
  | n + 1, r => let t := r + 2 ^ n; isqrt x n (if t * t ≤ x then t else r)

def natSqrt (x : Nat) : Nat := isqrt x (Nat.log2 x / 2 + 1) 0

/-- floor(log2 |y|) of a fixed-point value with n fraction bits. -/
def fxTop (n : Nat) (y : Int) : Int := (Nat.log2 y.natAbs : Int) - n

/-- Finite encodings of a sign within k units of a value y with n fraction bits (R124). -/
def nearEncodings (f : Fmt) (n k : Nat) (neg : Bool) (y : Nat) : List Nat :=
  let e := max (fxTop n y) f.emin
  let tol : Nat := (k * 2 ^ ((n : Int) + e - f.fb).toNat)
  let (b, _, _) := f.round 1 false y (-(n : Int))
  ((List.range 12).filterMap fun i =>
    if b + i < 6 then none
    else
      let x := b + i - 6
      if f.maxBits < x then none
      else
        match f.decode x with
        | .fin _ m q =>
          let v : Int := ((m <<< ((n : Int) + q).toNat : Nat) : Int)
          if (v - y).natAbs < tol then some (f.sign neg + x) else none
        | _ => none)

/-- An inexact result within k units of the value (R124), with NX, and UF when it is subnormal (R125); FTZ flushes it. -/
def VEnv.within (e : VEnv) (opc n k : Nat) (neg : Bool) (y : Nat) (x : Nat) : Nat × Nat :=
  let f := fmtOf e.ty
  if f.maxBits < (f.round 0 neg y (-(n : Int))).1 then (f.sign neg + f.infBits, flOF + flNX)
  else
    let c := nearEncodings f n k neg y
    let r := c.getD (Config.special opc e.ty (x + 2 ^ 64 * e.fpctl) % c.length) (f.sign neg)
    if r % 2 ^ (f.eb + f.fb) < 2 ^ f.fb then (if e.ftz then f.sign neg else r, flUF + flNX) else (r, flNX)

/-- As `within`, of a signed fixed-point value. -/
def VEnv.withinFx (e : VEnv) (opc k : Nat) (y : Int) (x : Nat) : Nat × Nat := e.within opc fxN k (decide (y < 0)) y.natAbs x

/-- A result that is exact. -/
def VEnv.exactly (e : VEnv) (neg : Bool) (m : Nat) (k : Int) : Nat × Nat := e.give (.fin neg m k, 0)

def VEnv.nanIv (e : VEnv) : Nat × Nat := e.give (.nan false, flIV)

/-- FEXPF (R124, R125); the two values at ±0.5 are the ones R125 gives. -/
def elFexpf : ElemOp := fun e a _ _ =>
  match e.read a with
  | .nan s => e.give (.nan s, ivOf [.nan s])
  | .inf _ => e.nanIv
  | .fin neg m k =>
    let one := Val.fin false 1 0
    if m = 0 then e.exactly false 1 0
    else if (one.cmp (.fin false m k)).1 then e.nanIv
    else if (one.cmp (.fin false m k)).2 then e.exactly false 1 (if neg then -1 else 1)
    else if ((Val.fin false 1 (-1)).cmp (.fin false m k)).2 then (if neg then 0x3F3504F3 else 0x3FB504F3, flNX)
    else
      let ulps := if ((Val.fin false 1 (-1)).cmp (.fin false m k)).1 then 2 else 1
      e.withinFx 0x4E ulps (fxExp2 (fxOf neg m k)) a

/-- FLOG2 (R124, R125). -/
def elFlog2 : ElemOp := fun e a _ _ =>
  match e.read a with
  | .nan s => e.give (.nan s, ivOf [.nan s])
  | .inf neg => if neg then e.nanIv else e.give (.inf false, 0)
  | .fin neg m k =>
    if m = 0 then e.give (.inf true, flDZ)
    else if neg then e.nanIv
    else if m = 2 ^ Nat.log2 m then e.give (valOfInt false ((Nat.log2 m : Int) + k) 0, 0)
    else e.withinFx 0x4F 2 (fxLog2 m k) a

/-- FRCP (R124, R125): exact for powers of two, a subnormal result of which raises nothing and is returned under FTZ too. -/
def elFrcp : ElemOp := fun e a _ _ =>
  match e.read a with
  | .nan s => e.give (.nan s, ivOf [.nan s])
  | .inf neg => e.exactly neg 0 0
  | .fin neg m k =>
    if m = 0 then e.give (.inf neg, flDZ)
    else if m = 2 ^ Nat.log2 m then
      (fmtOf e.ty).deliver 0 false (.fin neg 1 (-(Nat.log2 m : Int) - k))
    else
      let n := 1500
      e.within 0x50 n 1 neg (2 ^ ((n : Int) - k).toNat / m) a

/-- FRSQ (R124, R125). -/
def elFrsq : ElemOp := fun e a _ _ =>
  match e.read a with
  | .nan s => e.give (.nan s, ivOf [.nan s])
  | .inf neg => if neg then e.nanIv else e.exactly false 0 0
  | .fin neg m k =>
    if m = 0 then e.give (.inf neg, flDZ)
    else if neg then e.nanIv
    else
      let t := (Nat.log2 m : Int) + k
      if m = 2 ^ Nat.log2 m ∧ t % 2 = 0 then e.exactly false 1 (-(t / 2))
      else
        let n := 1500
        e.within 0x51 n 1 false (natSqrt (2 ^ (2 * (n : Int) - k).toNat / m)) a

/-- FSQRT, correctly rounded (R124): the root to many more places, with a last place that marks a remainder. -/
def elFsqrt : ElemOp := fun e a _ _ =>
  match e.read a with
  | .nan s => e.give (.nan s, ivOf [.nan s])
  | .inf neg => if neg then e.nanIv else e.give (.inf false, 0)
  | .fin neg m k =>
    if m = 0 then e.exactly neg 0 0
    else if neg then e.nanIv
    else
      let odd := decide (k % 2 ≠ 0)
      let x := (if odd then 2 * m else m) * 2 ^ 256
      let r := natSqrt x
      let h := (if odd then k - 1 else k) / 2 - 128
      e.exactly false (2 * r + (if r * r = x then 0 else 1)) (h - 1)

/-- A finite value times 2 is an integer: that integer. -/
def halves2 (neg : Bool) (m : Nat) (k : Int) : Option Int :=
  let (n, nx) := roundAt 1 neg m (k + 1) 0
  if nx then none else some (if neg then -(n : Int) else n)

/-- The accuracy of FSIN and FCOS (R124, R126). -/
def trigUlps (m : Nat) (k : Int) : Nat := if (Nat.log2 m : Int) + k < 20 then 2 else 4

/-- FSIN (R124 to R126): the sign of an exact zero is x's. -/
def elFsin : ElemOp := fun e a _ _ =>
  match e.read a with
  | .nan s => e.give (.nan s, ivOf [.nan s])
  | .inf _ => e.nanIv
  | .fin neg m k =>
    match halves2 neg m k with
    | some h => if h % 2 = 0 then e.exactly neg 0 0 else e.exactly (decide (h % 4 = 3)) 1 0
    | none => e.withinFx 0x53 (trigUlps m k) (fxSinPi (fxOf neg m k)) a

/-- FCOS (R124 to R126). -/
def elFcos : ElemOp := fun e a _ _ =>
  match e.read a with
  | .nan s => e.give (.nan s, ivOf [.nan s])
  | .inf _ => e.nanIv
  | .fin neg m k =>
    match halves2 neg m k with
    | some h => if h % 2 = 1 then e.exactly false 0 0 else e.exactly (decide (h % 4 = 2)) 1 0
    | none => e.withinFx 0x54 (trigUlps m k) (fxSinPi (fxOf false m k + fxOne / 2)) a

/-- FTANH (R124, R125). -/
def elFtanh : ElemOp := fun e a _ _ =>
  match e.read a with
  | .nan s => e.give (.nan s, ivOf [.nan s])
  | .inf neg => e.exactly neg 1 0
  | .fin neg m k =>
    if m = 0 then e.exactly neg 0 0
    else e.withinFx 0x55 2 (fxTanh (fxOf neg m (min k 128))) a

def specRule (opc : Nat) (tys : List Nat) : VRule := { fprule opc with tys := tys, useB := false, la := true }

def vruleFexpf : VRule := specRule 0x4E [4]
def vruleFlog2 : VRule := specRule 0x4F [4]
def vruleFrcp : VRule := specRule 0x50 [4, 7]
def vruleFrsq : VRule := specRule 0x51 [4, 7]
def vruleFsqrt : VRule := { specRule 0x52 [4, 7] with rounds := true }
def vruleFsin : VRule := specRule 0x53 [4]
def vruleFcos : VRule := specRule 0x54 [4]
def vruleFtanh : VRule := specRule 0x55 [4]

def execFexpf (o : Opn) (s : State) := vecRegs vruleFexpf elFexpf o s
def execFlog2 (o : Opn) (s : State) := vecRegs vruleFlog2 elFlog2 o s
def execFrcp (o : Opn) (s : State) := vecRegs vruleFrcp elFrcp o s
def execFrsq (o : Opn) (s : State) := vecRegs vruleFrsq elFrsq o s
def execFsqrt (o : Opn) (s : State) := vecRegs vruleFsqrt elFsqrt o s
def execFsin (o : Opn) (s : State) := vecRegs vruleFsin elFsin o s
def execFcos (o : Opn) (s : State) := vecRegs vruleFcos elFcos o s
def execFtanh (o : Opn) (s : State) := vecRegs vruleFtanh elFtanh o s

/-! ## Which opcodes sweep (R35, R128) -/

/-- The operation that a sweep of an opcode makes, where R35 and R128 let it sweep. VSEL, VCVT, FCVT, ICVT, FCVTI, FEXPN, FKEY,
VCMP, FCMP, FCLASS and VLI do not. -/
def sweepElem (opc : Nat) : Option (VRule × ElemOp) :=
  match opc with
  | 0x20 => some (vruleAdd, elAdd)
  | 0x21 => some (vruleSub, elSub)
  | 0x22 => some (vruleMul, elMul)
  | 0x23 => some (vruleMulh, elMulh)
  | 0x24 => some (vruleMad, elMad)
  | 0x25 => some (vruleAnd, elAnd)
  | 0x26 => some (vruleOr, elOr)
  | 0x27 => some (vruleXor, elXor)
  | 0x28 => some (vruleShl, elShl)
  | 0x29 => some (vruleShr, elShr)
  | 0x2A => some (vruleSar, elSar)
  | 0x2B => some (vruleMin, elMin)
  | 0x2C => some (vruleMax, elMax)
  | 0x2D => some (vruleAbs, elAbs)
  | 0x30 => some (vruleMov, elMov)
  | 0x31 => some ({ vrulePopc with tys := [0, 1] }, elPopc)
  | 0x32 => some ({ vruleClz with tys := [0, 1] }, elClz)
  | 0x33 => some (vruleBrev, elBrev)
  | 0x34 => some (vruleBfe, elBfe)
  | 0x35 => some (vruleBfi, elBfi)
  | 0x36 => some (vruleMix3, elMix3)
  | 0x38 => some (vruleAdds, elAdds)
  | 0x39 => some (vruleSubs, elSubs)
  | 0x40 => some (vruleFadd, elFadd)
  | 0x41 => some (vruleFsub, elFsub)
  | 0x42 => some (vruleFmul, elFmul)
  | 0x43 => some (vruleFfma, elFfma)
  | 0x44 => some (vruleFmin, elFmin)
  | 0x45 => some (vruleFmax, elFmax)
  | 0x48 => some (vruleFrint, elFrint)
  | 0x4C => some (vruleFscale, elFscale)
  | 0x4E => some (vruleFexpf, elFexpf)
  | 0x4F => some (vruleFlog2, elFlog2)
  | 0x50 => some (vruleFrcp, elFrcp)
  | 0x51 => some (vruleFrsq, elFrsq)
  | 0x52 => some (vruleFsqrt, elFsqrt)
  | 0x53 => some (vruleFsin, elFsin)
  | 0x54 => some (vruleFcos, elFcos)
  | 0x55 => some (vruleFtanh, elFtanh)
  | 0x56 => some (vruleFsgn, elFsgn)
  | _ => none

/-- What SWEEP allows and reads. -/
def noSweepRule (opc : BitVec 8) : Rule :=
  { opc := opc.toNat, form := fun _ => {}, extra := (fun _ => false), swp := true }

/-- SWEEP of an opcode (R34, R35); ILL where the opcode does not sweep. -/
def execSweep (opc : BitVec 8) (o : Opn) (s : State) : Host.Outcome State Fault Refusal :=
  match sweepElem opc.toNat with
  | some (r, _) => sweepOp r o s
  | none => issue (noSweepRule opc) o s fun _ m => .done m

/-- The operation of the sweep that a bundle has under way. -/
def Sweep.elem (w : Sweep) : Option (VRule × ElemOp) := sweepElem w.opc

/-- VECTOR_RESULT_WRITE (R101, R38): one lane's result of an outstanding operation is written, the lanes in any order. -/
def execVectorResultWrite (op : Nat) (s : State) : Host.Outcome State Fault Refusal :=
  let m := s.mach
  match m.later.find? fun x => decide (x.id = op) with
  | none => .next s
  | some x =>
    let (l, m) := m.pick 0 (laneList x.lanes)
    let m := m.modBundle x.key fun b =>
      if (b.lane l).st = .exited then b
      else b.modRegs fun r => r.writeAll (x.writes.filter fun w => decide (w.1 % 32 = l))
    let left := x.lanes &&& ~~~laneBit l
    let rest := if left = 0 then m.later.filter fun y => decide (y.id ≠ op)
      else m.later.map fun y => if y.id = op then { y with lanes := left } else y
    .next { s with mach := { m with later := rest } }

end Sys2Proof.Machine
end

