-- ==== Sys2Proof/Machine/Perform.lean ====
section
/-! DEFINITION. The performance of outstanding accesses: LOAD_DATA_RETURN and WRITE_PERFORMED (R149, R150, R152, R171, R207, R257 to
R264). -/

namespace Sys2Proof.Machine

/-- The operation and the part of it that an event names, if the part may be performed now (R171 to R175). -/
def Mach.performable (m : Mach) (op unit : Nat) : Option (Op × Part) :=
  match m.ops.find? fun x => decide (x.id = op) with
  | none => none
  | some x => if m.mayPerform x unit then x.parts[unit]?.map fun p => (x, p) else none

/-- Results of a GLD in one lane: value, and column for .nz (R257). -/
def Mach.deliverElem (col : Option W32) (m : Mach) (x : Op) (l : Nat) : Mach :=
  match x.dest with
  | .gather d es _ =>
    let v := laneValueOf x.parts l
    m.modBundle x.key fun b =>
      if (b.lane l).st = .exited then b
      else b.modRegs fun r =>
        let n := if es = 8 then 2 else 1
        let r := (List.range n).foldl (fun r k => r.setV (d + k) l (.ofNat 32 (v / 2 ^ (32 * k)))) r
        match col with
        | some c => r.setV (d + n) l c
        | none => r
  | _ => m
where
  /-- The value that the lane's part holds; its size is that of a later read, not of the value. -/
  laneValueOf (xs : List Part) (l : Nat) : Nat := ((xs.find? fun p => decide (p.lane = l)).map fun p => p.got.toNat).getD 0

/-- Results of an ACCRD in one lane; its exceptions are recorded with them (R207, R65). -/
def Mach.deliverAcc (fl : Nat) (m : Mach) (x : Op) (l : Nat) : Mach :=
  match x.dest, x.parts.find? fun p => decide (p.lane = l) with
  | .vec d _, some p =>
    m.modBundle x.key fun b =>
      if (b.lane l).st = .exited then b
      else b.modRegs fun r =>
        (r.raiseFlags fl).writeAll (accWrites d (x.size / 4) l (p.got.toNat + 2 ^ 64 * p.got2.toNat))
  | _, _ => m

/-- The element of a GLD as it returns: the value decoded at issue, or, with `fresh`, as its line stands now (R260); zero where a line
had an uncorrectable error (R258). -/
def Mach.elemReturn (m : Mach) (x : Op) (p : Part) (val : W64) (bad fresh err : Bool) : W64 × Mach :=
  if bad || (decide (p.size ≠ 0) && (err || m.damaged p.space p.addr p.size)) then
    (0, (m.logError 1 (coreOfKey x.key % 96) (dieOfCore (coreOfKey x.key)) p.addr).mark x.key x.id clsAsync clsAsync 2 0x40 p.va)
  else if fresh && decide (p.size ≠ 0) then (.ofNat 64 (m.readNat p.space p.addr p.size), m)
  else (val, m)

/-- A lane's results of a plain access reach their registers. -/
def Mach.deliver (m : Mach) (x : Op) (l : Nat) : Mach :=
  match x.dest with
  | .tape d => m.deliverTape x d
  | _ => m.deliverLane x l

/-- Part i of a plain access is done; the last of a sweep's accesses of one half of an iteration brings on the next half (R128). -/
def Mach.finish (m : Mach) (x : Op) (i : Nat) (p : Part) : Mach :=
  let m := m.finishPart x i p Mach.deliver
  let ps := setPart x.parts i p
  if x.dest = .sweep ∧ ps.all Part.done = true then
    match (m.bundle x.key).sweep.bind Sweep.elem with
    | some (r, f) => m.sweepStage x.key r f ps
    | none => m
  else m

/-- LOAD_DATA_RETURN (R150): part `unit` of operation `op` is read at its ordering point. `fresh` says which instant a GLD's element is
of (R260), `err` that the read meets an uncorrectable error (R400). -/
def execLoadDataReturn (op unit : Nat) (fresh err : Bool) (s : State) : Host.Outcome State Fault Refusal :=
  let m := s.mach
  match m.performable op unit with
  | none => .next s
  | some (x, p) =>
    match p.kind with
    | .read own =>
      let (v, m) := m.readPart (coreOfKey x.key) p own err
      .next { s with mach := m.finish x unit { p with done := true, got := .ofNat 64 v } }
    | .acc fn ty mode status b =>
      if err then
        let (k1, m) := m.draw
        let (k2, m) := m.draw
        let m := m.logError 1 (coreOfKey x.key % 96) (dieOfCore (coreOfKey x.key)) p.addr
        .next { s with mach := m.finishPart x unit { p with done := true, got := Config.word k1, got2 := Config.word k2 } (Mach.deliverAcc 0) }
      else
        let (r, m) := m.accRead (coreOfKey x.key) fn ty mode p.addr status b
        let p := { p with done := true, got := .ofNat 64 r.1, got2 := .ofNat 64 (r.1 / 2 ^ 64) }
        .next { s with mach := m.finishPart x unit p (Mach.deliverAcc r.2) }
    | .elem val col bad =>
      let (v, m) := m.elemReturn x p val bad fresh err
      .next { s with mach := m.finishPart x unit { p with done := true, got := v } (Mach.deliverElem col) }
    | _ => .next s

/-- The old value of a read-modify-write, and the machine after it: one atomic step (R151). A location whose line has an uncorrectable
error gives a free value and is written with what the function makes of it (R400). -/
def Mach.rmwPart (m : Mach) (core : Nat) (p : Part) (fn ty : Nat) (opd cmp : W64) : Nat × Mach :=
  let (old, m) := m.readPart core p [] false
  (old, m.writeNat p.space p.addr p.size (atomNew fn ty old opd.toNat cmp.toNat))

/-- WRITE_PERFORMED (R150): part `unit` of operation `op`, a write or a read-modify-write, is performed at its ordering point. -/
def execWritePerformed (op unit : Nat) (s : State) : Host.Outcome State Fault Refusal :=
  let m := s.mach
  match m.performable op unit with
  | none => .next s
  | some (x, p) =>
    match p.kind with
    | .write cells =>
      .next { s with mach := (m.writeCells p.space cells).finish x unit { p with done := true } }
    | .rmw fn ty opd cmp =>
      let (old, m) := m.rmwPart (coreOfKey x.key) p fn ty opd cmp
      .next { s with mach := m.finish x unit { p with done := true, got := .ofNat 64 old } }
    | .dec core =>
      let (old, m) := m.decrement (dieOfCore (coreOfKey x.key)) core p
      .next { s with mach := m.finish x unit { p with done := true, got := old } }
    | .pack _ _ _ _ _ _ _ =>
      let (p, m) := m.packStep x.key x.id p
      .next { s with mach := m.finishPart x unit p (fun m _ _ => m) }
    | _ => .next s

end Sys2Proof.Machine
end

