-- ==== Sys2Proof/Machine/Sched.lean ====
section
/-! DEFINITION. Arbitration (R319): the choice of a bundle and of its group (R81, R82), pending marks (R194) and single step (R377) at a
run boundary; and what moves by itself when no agenda says so (log 1). -/

namespace Sys2Proof.Machine

/-! ## The group (R80 to R82) -/

/-- Runnable lanes at a program counter. -/
def Bundle.groupAt (b : Bundle) (pc : W64) : Lanes := laneMask fun l => decide ((b.lane l).st = .runnable ∧ (b.lane l).pc = pc)

/-- When a group last ran: the earliest of its lanes' times (R81). -/
def Bundle.groupLast (b : Bundle) (g : Lanes) : Nat :=
  (laneList g).foldl (fun n l => min n (b.lane l).last) (b.lane (lowestLane g)).last

/-- Runnable lanes whose group no W-marked wait holds (R319); `barred` are the lanes of groups that wait. -/
def Bundle.ready (b : Bundle) (barred : Lanes) : Lanes :=
  laneMask fun l => b.runnable.getLsbD l && decide (b.groupAt (b.lane l).pc &&& barred = 0)

/-- The lane whose group runs next: of the group that has gone longest since its last run, or of the lowest program counter; the lowest
lane of equals. -/
def Bundle.nextLane (b : Bundle) (barred : Lanes) (legacy : Bool) : Option Nat :=
  let rank := fun l => if legacy then (b.lane l).pc.toNat else b.groupLast (b.groupAt (b.lane l).pc)
  (laneList (b.ready barred)).foldl (fun best l =>
    match best with
    | none => some l
    | some k => if rank l < rank k then some l else some k) none

/-! ## The bundle (R319) -/

/-- Lanes whose group waits at an instruction marked W for accesses that are not performed (R36, R319). -/
def Mach.barred (m : Mach) (key : Nat) (b : Bundle) : Lanes :=
  b.calm.foldl (fun n x => if m.threadsBusy key x.2 then n ||| x.1 else n) 0

/-- Nothing that the whole bundle waits for holds its next run: a FENCE (R176), a sweep under way (R128), a suspended ACCMV (R36). -/
def Mach.unheld (m : Mach) (key : Nat) (b : Bundle) : Bool :=
  !m.fenceHolds key && b.sweep.isNone && !((m.core (coreOfKey key)).mx.any fun j => decide (j.key = key) && j.suspends)

/-- An eligible bundle and its rank: a handler before all, unless its WAITK waits, then the higher class, then the longer wait, then the
lower slot. -/
def Mach.eligible (m : Mach) (key : Nat) (b : Bundle) : Option (Nat × Nat × Nat) :=
  let t := m.team b.team
  if ¬ m.unheld key b then none
  else if key % 256 = 128 then
    if (m.core (coreOfKey key)).cst = 1 ∧ b.ready (m.barred key b) ≠ 0 then some (0, b.last, key) else none
  else if t.killed || b.pend.isSome then none
  else if b.hand.isSome then if b.hwait.any fun w => decide (w.2 < b.count w.1) then none else some (0, b.last, key)
  else if b.fault.isSome || b.waiting || b.filing || decide (b.ready (m.barred key b) = 0) then none
  else some (4 - (m.gridOf t).cls, b.last, key)

/-- One rank comes before another. -/
def rankBefore (x y : Nat × Nat × Nat) : Bool :=
  decide (x.1 < y.1) || (decide (x.1 = y.1) && (decide (x.2.1 < y.2.1) || (decide (x.2.1 = y.2.1) && decide (x.2.2 < y.2.2))))

/-- The bundle that wins an issue slot. -/
def Mach.winner (m : Mach) (q : Nat) : Option Nat :=
  (m.bundles.foldl (fun best p =>
    match p.2.bind fun b => if quadOfKey p.1 = q then m.eligible p.1 b else none, best with
    | none, best => best
    | some r, none => some r
    | some r, some x => if rankBefore r x then some r else some x) none).map fun r => r.2.2

/-! ## Traps at a run boundary -/

/-- A trap that names no instruction, taken by a group about to run (R373). -/
def boundaryTrap (cls cause : Nat) (pc : W64) (g : Lanes) (conds : List Cond) : Trap :=
  ⟨cls, cause, pc, true, false, 0, g, conds, 0, 0⟩

/-- The oldest mark of a completed operation that no instruction held for its class reports (R194, R280). -/
def Bundle.looseMark (b : Bundle) : Option Mark := b.marks.find? fun k => k.ready && !(k.held && b.heldFor k.kind)

/-- A mark's trap: the side buffer has it in the lowest lane (R374). -/
def Mark.boundary (k : Mark) (pc : W64) (g : Lanes) : Trap :=
  boundaryTrap k.trapCls k.cause pc g [⟨lowestLane g, k.trapCls, k.cause, k.addr, 0⟩]

/-- The single-step trap of lanes that have completed an instruction (R377). -/
def stepTrap (pc : W64) (g ls : Lanes) : Trap :=
  boundaryTrap clsDebug 0x71 pc g ((laneList (g &&& ls)).map fun l => ⟨l, clsDebug, 0x71, 0, 0⟩)

/-- The run of a group opens: what held it is over, a FENCE (R176) or a wait of its own. -/
def Mach.openRun (m : Mach) (q key : Nat) (g : Lanes) (pc : W64) : Mach :=
  (m.modBundle key fun b => { b with
    fenced := false, hwait := none, calm := if b.hand.isSome then b.calm else b.calm.filter fun x => decide (x.1 &&& g = 0) }).setRun q
    (some ⟨key, g, pc, 0⟩)

/-- The winner of an issue slot: its handler goes on, or its next group reports a mark or, while SS is still set (R386), a step, or runs. -/
def Mach.startRun (m : Mach) (q key : Nat) : Mach :=
  let b := m.bundle key
  match b.hand with
  | some pc => m.openRun q key 1#32 pc
  | none =>
    match b.nextLane (m.barred key b) (m.gridOf (m.team b.team)).legacy with
    | none => m
    | some l =>
      let pc := (b.lane l).pc
      let g := b.groupAt pc
      match b.looseMark with
      | some k =>
        let t := k.boundary pc g
        let m := m.modBundle key fun b => { b with marks := dropMark k b.marks }
        if key % 256 = 128 then m.haltControl key t else m.takeTrap key t
      | none =>
        if b.stepped &&& g ≠ 0 ∧ bitAt b.trap.dbgctl 0 = true then
          (m.modBundle key fun b => { b with stepped := b.stepped &&& ~~~g }).takeTrap key (stepTrap pc g b.stepped)
        else (m.modBundle key fun b => { b with stepped := b.stepped &&& ~~~g }).openRun q key g pc

/-- RUN_SELECT (R319): nothing while a run holds the issue slot. -/
def execRunSelect (q : Nat) (s : State) : Host.Outcome State Fault Refusal :=
  let m := s.mach
  match m.run? q, m.winner q with
  | none, some key => .next { s with mach := m.startRun q key }
  | _, _ => .next s

/-! ## What moves by itself (log 1) -/

/-- A part of an outstanding operation that may be performed. -/
def Mach.nextPart (m : Mach) : Option Instr :=
  m.ops.findSome? fun x => (List.range x.parts.length).findSome? fun i =>
    if m.mayPerform x i then
      match (x.parts[i]?).map Part.kind with
      | some (.read _) | some (.acc _ _ _ _ _) | some (.elem _ _ _) => some (.loadDataReturn x.id i true false)
      | some _ => some (.writePerformed x.id i)
      | none => none
    else none

/-- A letter, an acknowledgement or a notice on its way inside the package. -/
def Mach.nextMessage (m : Mach) : Option Instr :=
  match m.wire, m.acks, m.settles with
  | w :: _, _, _ =>
    some (if w.letter.op = 0x0A then .replyReceive w.letter else if w.letter.op = 0x09 then .rgetRead w.letter 0 else .letterReceive w.letter 0)
  | [], a :: _, _ => some (.acknowledgementReceive a.1 a.2)
  | [], [], n :: _ => some (.settleNoticeReceive n.1 n.2)
  | [], [], [] => none

/-- A copy's next step. -/
def Copy.nextSteps (x : Copy) : List Instr :=
  match x.st with
  | 0 => [.copyDispatch (coreOfKey x.key)]
  | 1 => [.copyPage x.id false]
  | 4 => [.copyCompletionStep x.id]
  | _ => []

/-- What may wake a parked lane. -/
def wakesOf (key l : Nat) (x : Lane) : List Instr :=
  match x.st with
  | .wait w _ _ =>
    match w with
    | .arrival _ _ => [.arrwaitWake key l]
    | .locq _ _ _ _ _ _ _ _ => []
    | .meeting _ _ _ => [.mwaitWake key l]
    | .ring _ _ _ => [.csleepWake key l]
    | .mailbag _ _ _ => [.mbwaitWake key l]
    | .counter _ _ => [.waitkRelease key l]
    | .sleep _ => [.sleepExpiry key l]
    | .event _ => [.evgetWake (coreOfKey key)]
  | _ => []

/-- The steps of a bundle that are no issue: its wakes, its filing, its end. -/
def Bundle.ownSteps (b : Bundle) (key : Nat) : List Instr :=
  (if b.pend.isSome then [.trapEntry key] else []) ++ b.lanes.flatMap (fun p => wakesOf key p.1 p.2)
    ++ (if b.filing || b.lanes.any fun p => match p.2.st with | .reform _ _ => true | _ => false then [.reformFiling key] else [])
    ++ if b.live = 0 then [.bundleFree key] else []

/-- The steps of engines, dispatchers and waiting work, in a fixed order. -/
def Mach.workSteps (m : Mach) : List Instr :=
  m.nextPart.toList ++ (m.later.map fun x => .vectorResultWrite x.id) ++ m.nextMessage.toList ++ m.copies.flatMap Copy.nextSteps
    ++ (m.cores.flatMap fun p => if p.2.mx = [] then [] else [.matrixGroup p.1 false false, .queuedMatrixInstruction p.1])
    ++ (m.dies.flatMap fun p => p.2.jobs.flatMap fun j =>
      [.neighbourJobStart j.id false, .npairStageFill j.id, .neighbourJobComplete j.id])
    ++ (m.dies.flatMap fun p => p.2.regions.filterMap fun r => (r.2.bind Region.meeting).map fun _ => .meetingClearComplete p.1 r.1)
    ++ (m.bundles.flatMap fun p => (p.2.map fun b => b.ownSteps p.1).getD [])
    ++ (m.teams.flatMap fun p => (p.2.map fun t => t.disp.map fun d => .tdispFill p.1 d.mb).getD [])
    ++ (m.cores.map fun p => .pigeonholeAgeExpiry p.1)
    ++ (m.teams.filterMap fun p => p.2.map fun _ => .bundleFree (coreOfTeam p.1 * 256 + 255))
    ++ (m.frames.map fun f => .restore f.order)
    ++ m.grids.flatMap fun p => (p.2.map fun g =>
      (g.due.map fun d => .chunkFire p.1 d.chunk) ++ [.gridRetire p.1, .teamDispatch p.1, .eviction p.1]).getD []

/-- What else happens of itself: leave, launches, the timers of letters, an invalidation's end, a mailbox command's. -/
def Mach.idleSteps (m : Mach) : List Instr :=
  ((List.range 64).map fun q => .launchRecordTake q) ++ (m.grids.filterMap fun p => p.2.map fun _ => .guardMet p.1)
    ++ ([0, 1, 2, 3].flatMap fun d => (m.requests d).map fun r => .leaveGrant r.who)
    ++ (m.teams.filterMap fun p => p.2.map fun _ => .leaveExpiry p.1)
    ++ (m.sent.flatMap fun x => [.refusedRetry x.letter.pm, .resendTimer x.letter.pm, .settleNoticeSend x.letter.pm])
    ++ (m.dies.flatMap fun p => p.2.marks.map fun x => .postmarkExpiry p.1 (.ofNat 64 x.1))
    ++ [.tlbinvComplete, .mbcmdReport, .mbcmdPubkey, .powerDivision 0]

/-- An issue slot has a run, or a bundle that would win it. -/
def Mach.slotReady (m : Mach) (q : Nat) : Bool := (m.run? q).isSome || (m.winner q).isSome

/-- The next issue slot in turn, after the one in focus. -/
def State.nextSlot (s : State) : Option Nat :=
  let qs := ((s.mach.runs.map Prod.fst) ++ s.mach.bundles.map fun p => quadOfKey p.1).filter s.mach.slotReady
  match (qs.filter fun q => decide (s.focus < q)).min? with
  | some q => some q
  | none => qs.min?

/-- The turn of the next issue slot; none where no slot has anything to run. -/
def State.slotTurn (s : State) : Option Move :=
  s.nextSlot.map fun q => if (s.mach.run? q).isSome then .issue q else .event (.runSelect q)

/-- What moves when the agenda is empty: internal work that does something, else the issue slots in turn, so that each run goes on (R320),
else what is left. In one cycle of 16 what is left goes before the slots, so that busy slots do not hold it back. `act` is what an event does. -/
def State.ownMove (act : Instr → State → Host.Outcome State Fault Refusal) (s : State) : Move :=
  let does := fun i => match act i s with | .next t => decide (t ≠ s) | _ => false
  match s.mach.workSteps.find? does with
  | some i => .event i
  | none =>
    match if s.mach.clk % 16 = 15 then none else s.slotTurn with
    | some v => v
    | none =>
      match s.mach.idleSteps.find? does with
      | some i => .event i
      | none => s.slotTurn.getD (.event (.runSelect s.focus))

end Sys2Proof.Machine
end

