-- ==== Sys2Proof/Machine/Dispatch.lean ====
section
/-! DEFINITION. The meaning of every instruction and step, one arm per constructor. -/

namespace Sys2Proof.Machine

def exec (i : Instr) (s : State) : Host.Outcome State Fault Refusal :=
  match i with
  | .nop o => Sys2Proof.Machine.execNop o s
  | .bra o => Sys2Proof.Machine.execBra o s
  | .brx o => Sys2Proof.Machine.execBrx o s
  | .call o => Sys2Proof.Machine.execCall o s
  | .ret o => Sys2Proof.Machine.execRet o s
  | .exit o => Sys2Proof.Machine.execExit o s
  | .jenrol o => Sys2Proof.Machine.execJenrol o s
  | .jwait o => Sys2Proof.Machine.execJwait o s
  | .jmov o => Sys2Proof.Machine.execJmov o s
  | .reform o => Sys2Proof.Machine.execReform o s
  | .matchKeys o => Sys2Proof.Machine.execMatchKeys o s
  | .compact o => Sys2Proof.Machine.execCompact o s
  | .sadd o => Sys2Proof.Machine.execSadd o s
  | .ssub o => Sys2Proof.Machine.execSsub o s
  | .smul o => Sys2Proof.Machine.execSmul o s
  | .smulh o => Sys2Proof.Machine.execSmulh o s
  | .sand o => Sys2Proof.Machine.execSand o s
  | .sor o => Sys2Proof.Machine.execSor o s
  | .sxor o => Sys2Proof.Machine.execSxor o s
  | .sshl o => Sys2Proof.Machine.execSshl o s
  | .sshr o => Sys2Proof.Machine.execSshr o s
  | .ssar o => Sys2Proof.Machine.execSsar o s
  | .smin o => Sys2Proof.Machine.execSmin o s
  | .smax o => Sys2Proof.Machine.execSmax o s
  | .sset o => Sys2Proof.Machine.execSset o s
  | .ssel o => Sys2Proof.Machine.execSsel o s
  | .sli o => Sys2Proof.Machine.execSli o s
  | .smov o => Sys2Proof.Machine.execSmov o s
  | .srd o => Sys2Proof.Machine.execSrd o s
  | .swr o => Sys2Proof.Machine.execSwr o s
  | .plog o => Sys2Proof.Machine.execPlog o s
  | .vadd o => Sys2Proof.Machine.execVadd o s
  | .vsub o => Sys2Proof.Machine.execVsub o s
  | .vmul o => Sys2Proof.Machine.execVmul o s
  | .vmulh o => Sys2Proof.Machine.execVmulh o s
  | .vmad o => Sys2Proof.Machine.execVmad o s
  | .vand o => Sys2Proof.Machine.execVand o s
  | .vor o => Sys2Proof.Machine.execVor o s
  | .vxor o => Sys2Proof.Machine.execVxor o s
  | .vshl o => Sys2Proof.Machine.execVshl o s
  | .vshr o => Sys2Proof.Machine.execVshr o s
  | .vsar o => Sys2Proof.Machine.execVsar o s
  | .vmin o => Sys2Proof.Machine.execVmin o s
  | .vmax o => Sys2Proof.Machine.execVmax o s
  | .vabs o => Sys2Proof.Machine.execVabs o s
  | .vcmp o => Sys2Proof.Machine.execVcmp o s
  | .vsel o => Sys2Proof.Machine.execVsel o s
  | .vmov o => Sys2Proof.Machine.execVmov o s
  | .vpopc o => Sys2Proof.Machine.execVpopc o s
  | .vclz o => Sys2Proof.Machine.execVclz o s
  | .vbrev o => Sys2Proof.Machine.execVbrev o s
  | .vbfe o => Sys2Proof.Machine.execVbfe o s
  | .vbfi o => Sys2Proof.Machine.execVbfi o s
  | .vmix3 o => Sys2Proof.Machine.execVmix3 o s
  | .vcvt o => Sys2Proof.Machine.execVcvt o s
  | .vadds o => Sys2Proof.Machine.execVadds o s
  | .vsubs o => Sys2Proof.Machine.execVsubs o s
  | .vli o => Sys2Proof.Machine.execVli o s
  | .sweep opc o => Sys2Proof.Machine.execSweep opc o s
  | .fadd o => Sys2Proof.Machine.execFadd o s
  | .fsub o => Sys2Proof.Machine.execFsub o s
  | .fmul o => Sys2Proof.Machine.execFmul o s
  | .ffma o => Sys2Proof.Machine.execFfma o s
  | .fmin o => Sys2Proof.Machine.execFmin o s
  | .fmax o => Sys2Proof.Machine.execFmax o s
  | .fcmp o => Sys2Proof.Machine.execFcmp o s
  | .fclass o => Sys2Proof.Machine.execFclass o s
  | .frint o => Sys2Proof.Machine.execFrint o s
  | .fcvt o => Sys2Proof.Machine.execFcvt o s
  | .fcvtBlk o => Sys2Proof.Machine.execFcvtBlk o s
  | .fcvtDec o => Sys2Proof.Machine.execFcvtDec o s
  | .icvt o => Sys2Proof.Machine.execIcvt o s
  | .fcvti o => Sys2Proof.Machine.execFcvti o s
  | .fscale o => Sys2Proof.Machine.execFscale o s
  | .fexpn o => Sys2Proof.Machine.execFexpn o s
  | .fexpf o => Sys2Proof.Machine.execFexpf o s
  | .flog2 o => Sys2Proof.Machine.execFlog2 o s
  | .frcp o => Sys2Proof.Machine.execFrcp o s
  | .frsq o => Sys2Proof.Machine.execFrsq o s
  | .fsqrt o => Sys2Proof.Machine.execFsqrt o s
  | .fsin o => Sys2Proof.Machine.execFsin o s
  | .fcos o => Sys2Proof.Machine.execFcos o s
  | .ftanh o => Sys2Proof.Machine.execFtanh o s
  | .fsgn o => Sys2Proof.Machine.execFsgn o s
  | .fkey o => Sys2Proof.Machine.execFkey o s
  | .xshf o => Sys2Proof.Machine.execXshf o s
  | .xrot o => Sys2Proof.Machine.execXrot o s
  | .xbcst o => Sys2Proof.Machine.execXbcst o s
  | .xbal o => Sys2Proof.Machine.execXbal o s
  | .xbcnt o => Sys2Proof.Machine.execXbcnt o s
  | .xred o => Sys2Proof.Machine.execXred o s
  | .xscan o => Sys2Proof.Machine.execXscan o s
  | .xmov o => Sys2Proof.Machine.execXmov o s
  | .ld o => Sys2Proof.Machine.execLd o s
  | .st o => Sys2Proof.Machine.execSt o s
  | .lda o => Sys2Proof.Machine.execLda o s
  | .stl o => Sys2Proof.Machine.execStl o s
  | .atom o => Sys2Proof.Machine.execAtom o s
  | .loadDataReturn op unit fresh err => Sys2Proof.Machine.execLoadDataReturn op unit fresh err s
  | .vectorResultWrite op => Sys2Proof.Machine.execVectorResultWrite op s
  | .writePerformed op unit => Sys2Proof.Machine.execWritePerformed op unit s
  | .fence o => Sys2Proof.Machine.execFence o s
  | .tagl o => Sys2Proof.Machine.execTagl o s
  | .tagi o => Sys2Proof.Machine.execTagi o s
  | .tagx o => Sys2Proof.Machine.execTagx o s
  | .ifence o => Sys2Proof.Machine.execIfence o s
  | .prf o => Sys2Proof.Machine.execPrf o s
  | .radd o => Sys2Proof.Machine.execRadd o s
  | .rmin o => Sys2Proof.Machine.execRmin o s
  | .rmax o => Sys2Proof.Machine.execRmax o s
  | .ror o => Sys2Proof.Machine.execRor o s
  | .ronce o => Sys2Proof.Machine.execRonce o s
  | .ronceRow o => Sys2Proof.Machine.execRonceRow o s
  | .rarr o => Sys2Proof.Machine.execRarr o s
  | .rget o => Sys2Proof.Machine.execRget o s
  | .accrd o => Sys2Proof.Machine.execAccrd o s
  | .accdef o => Sys2Proof.Machine.execAccdef o s
  | .accdefFree o => Sys2Proof.Machine.execAccdefFree o s
  | .accdefStep o => Sys2Proof.Machine.execAccdefStep o s
  | .accdefQuery o => Sys2Proof.Machine.execAccdefQuery o s
  | .arrwait o => Sys2Proof.Machine.execArrwait o s
  | .arrwaitWake b l => Sys2Proof.Machine.execArrwaitWake b l s
  | .letterReceive l age => Sys2Proof.Machine.execLetterReceive l age s
  | .meetingClearComplete die idx => Sys2Proof.Machine.execMeetingClearComplete die idx s
  | .rgetRead l age => Sys2Proof.Machine.execRgetRead l age s
  | .replyReceive l => Sys2Proof.Machine.execReplyReceive l s
  | .acknowledgementReceive pm status => Sys2Proof.Machine.execAcknowledgementReceive pm status s
  | .resendTimer pm => Sys2Proof.Machine.execResendTimer pm s
  | .refusedRetry pm => Sys2Proof.Machine.execRefusedRetry pm s
  | .settleNoticeSend pm => Sys2Proof.Machine.execSettleNoticeSend pm s
  | .settleNoticeReceive die pm => Sys2Proof.Machine.execSettleNoticeReceive die pm s
  | .postmarkExpiry die pm => Sys2Proof.Machine.execPostmarkExpiry die pm s
  | .mopen o => Sys2Proof.Machine.execMopen o s
  | .mpost o => Sys2Proof.Machine.execMpost o s
  | .marr o => Sys2Proof.Machine.execMarr o s
  | .mwait o => Sys2Proof.Machine.execMwait o s
  | .mwaitWake b l => Sys2Proof.Machine.execMwaitWake b l s
  | .mstat o => Sys2Proof.Machine.execMstat o s
  | .mrel o => Sys2Proof.Machine.execMrel o s
  | .mclose o => Sys2Proof.Machine.execMclose o s
  | .cpy o => Sys2Proof.Machine.execCpy o s
  | .cpym o => Sys2Proof.Machine.execCpym o s
  | .copyDispatch core => Sys2Proof.Machine.execCopyDispatch core s
  | .leaveGrant team => Sys2Proof.Machine.execLeaveGrant team s
  | .leaveExpiry team => Sys2Proof.Machine.execLeaveExpiry team s
  | .copyPage job err => Sys2Proof.Machine.execCopyPage job err s
  | .copyCompletionStep job => Sys2Proof.Machine.execCopyCompletionStep job s
  | .cpoll o => Sys2Proof.Machine.execCpoll o s
  | .csleep o => Sys2Proof.Machine.execCsleep o s
  | .csleepWake b l => Sys2Proof.Machine.execCsleepWake b l s
  | .gld o => Sys2Proof.Machine.execGld o s
  | .gsc o => Sys2Proof.Machine.execGsc o s
  | .nzscan o => Sys2Proof.Machine.execNzscan o s
  | .hset o => Sys2Proof.Machine.execHset o s
  | .ginv o => Sys2Proof.Machine.execGinv o s
  | .mxp o => Sys2Proof.Machine.execMxp o s
  | .mxd o => Sys2Proof.Machine.execMxd o s
  | .matrixGroup core soft again => Sys2Proof.Machine.execMatrixGroup core soft again s
  | .ldt o => Sys2Proof.Machine.execLdt o s
  | .unpk o => Sys2Proof.Machine.execUnpk o s
  | .accmv o => Sys2Proof.Machine.execAccmv o s
  | .mxsave o => Sys2Proof.Machine.execMxsave o s
  | .mxload o => Sys2Proof.Machine.execMxload o s
  | .mxclr o => Sys2Proof.Machine.execMxclr o s
  | .mxclrLatch o => Sys2Proof.Machine.execMxclrLatch o s
  | .mxstat o => Sys2Proof.Machine.execMxstat o s
  | .nbin o => Sys2Proof.Machine.execNbin o s
  | .npair o => Sys2Proof.Machine.execNpair o s
  | .npairRes o => Sys2Proof.Machine.execNpairRes o s
  | .nstat o => Sys2Proof.Machine.execNstat o s
  | .nstatEng o => Sys2Proof.Machine.execNstatEng o s
  | .neighbourJobStart job err => Sys2Proof.Machine.execNeighbourJobStart job err s
  | .npairStageFill job => Sys2Proof.Machine.execNpairStageFill job s
  | .neighbourJobComplete job => Sys2Proof.Machine.execNeighbourJobComplete job s
  | .launch o => Sys2Proof.Machine.execLaunch o s
  | .bar o => Sys2Proof.Machine.execBar o s
  | .barv o => Sys2Proof.Machine.execBarv o s
  | .barvSelf o => Sys2Proof.Machine.execBarvSelf o s
  | .mbwait o => Sys2Proof.Machine.execMbwait o s
  | .mbwaitWake b l => Sys2Proof.Machine.execMbwaitWake b l s
  | .mbfill o => Sys2Proof.Machine.execMbfill o s
  | .mbfree o => Sys2Proof.Machine.execMbfree o s
  | .waitk o => Sys2Proof.Machine.execWaitk o s
  | .waitkRelease b l => Sys2Proof.Machine.execWaitkRelease b l s
  | .yield o => Sys2Proof.Machine.execYield o s
  | .yieldGrp o => Sys2Proof.Machine.execYieldGrp o s
  | .sleep o => Sys2Proof.Machine.execSleep o s
  | .sleepExpiry b l => Sys2Proof.Machine.execSleepExpiry b l s
  | .pwrq o => Sys2Proof.Machine.execPwrq o s
  | .pwrqRel o => Sys2Proof.Machine.execPwrqRel o s
  | .evget o => Sys2Proof.Machine.execEvget o s
  | .evgetWake core => Sys2Proof.Machine.execEvgetWake core s
  | .evpost o => Sys2Proof.Machine.execEvpost o s
  | .evpostStart o => Sys2Proof.Machine.execEvpostStart o s
  | .evpostStat o => Sys2Proof.Machine.execEvpostStat o s
  | .evpostHpc o => Sys2Proof.Machine.execEvpostHpc o s
  | .evpostDrop o => Sys2Proof.Machine.execEvpostDrop o s
  | .tapef o => Sys2Proof.Machine.execTapef o s
  | .tdec o => Sys2Proof.Machine.execTdec o s
  | .tdisp o => Sys2Proof.Machine.execTdisp o s
  | .tdispFill team mb => Sys2Proof.Machine.execTdispFill team mb s
  | .locq o => Sys2Proof.Machine.execLocq o s
  | .locqInv o => Sys2Proof.Machine.execLocqInv o s
  | .clstat o => Sys2Proof.Machine.execClstat o s
  | .clabort o => Sys2Proof.Machine.execClabort o s
  | .clstep o => Sys2Proof.Machine.execClstep o s
  | .clstepRd o => Sys2Proof.Machine.execClstepRd o s
  | .trap o => Sys2Proof.Machine.execTrap o s
  | .tret o => Sys2Proof.Machine.execTret o s
  | .bkpt o => Sys2Proof.Machine.execBkpt o s
  | .halt o => Sys2Proof.Machine.execHalt o s
  | .swrpRd o => Sys2Proof.Machine.execSwrpRd o s
  | .swrpWr o => Sys2Proof.Machine.execSwrpWr o s
  | .swrpSb o => Sys2Proof.Machine.execSwrpSb o s
  | .runSelect q => Sys2Proof.Machine.execRunSelect q s
  | .trapEntry b => Sys2Proof.Machine.execTrapEntry b s
  | .reformFiling b => Sys2Proof.Machine.execReformFiling b s
  | .pigeonholeAgeExpiry core => Sys2Proof.Machine.execPigeonholeAgeExpiry core s
  | .bundleFree b => Sys2Proof.Machine.execBundleFree b s
  | .launchRecordTake q => Sys2Proof.Machine.execLaunchRecordTake q s
  | .guardMet grid => Sys2Proof.Machine.execGuardMet grid s
  | .teamDispatch grid => Sys2Proof.Machine.execTeamDispatch grid s
  | .eviction grid => Sys2Proof.Machine.execEviction grid s
  | .restore k => Sys2Proof.Machine.execRestore k s
  | .gridRetire grid => Sys2Proof.Machine.execGridRetire grid s
  | .chunkFire grid chunk => Sys2Proof.Machine.execChunkFire grid chunk s
  | .segmentReceive seg => Sys2Proof.Machine.execSegmentReceive seg s
  | .segmentTimeout group seq chunk => Sys2Proof.Machine.execSegmentTimeout group seq chunk s
  | .linkLoss port => Sys2Proof.Machine.execLinkLoss port s
  | .abortReceive group seq cause src => Sys2Proof.Machine.execAbortReceive group seq cause src s
  | .fqresume v => Sys2Proof.Machine.execFqresume v s
  | .tlbinvc v => Sys2Proof.Machine.execTlbinvc v s
  | .tlbinvComplete => Sys2Proof.Machine.execTlbinvComplete s
  | .stresumeResume sid => Sys2Proof.Machine.execStresumeResume sid s
  | .stresumeKill sid => Sys2Proof.Machine.execStresumeKill sid s
  | .groupHold group => Sys2Proof.Machine.execGroupHold group s
  | .fenceTableWrite f v => Sys2Proof.Machine.execFenceTableWrite f v s
  | .pkgidWrite v => Sys2Proof.Machine.execPkgidWrite v s
  | .mbcmdReport => Sys2Proof.Machine.execMbcmdReport s
  | .mbcmdPubkey => Sys2Proof.Machine.execMbcmdPubkey s
  | .registerWrite off size v => Sys2Proof.Machine.execRegisterWrite off size v s
  | .cxlMemWrite addr data => Sys2Proof.Machine.execCxlMemWrite addr data s
  | .cxlMemRead addr n => Sys2Proof.Machine.execCxlMemRead addr n s
  | .hostLinkDown => Sys2Proof.Machine.execHostLinkDown s
  | .packageReset => Sys2Proof.Machine.execPackageReset s
  | .bootRom fail svn => Sys2Proof.Machine.execBootRom fail svn s
  | .bootFirmware fail w => Sys2Proof.Machine.execBootFirmware fail w s
  | .powerDivision watts => Sys2Proof.Machine.execPowerDivision watts s
  | .thermalHold die temp => Sys2Proof.Machine.execThermalHold die temp s
  | .thermalShutdown die temp => Sys2Proof.Machine.execThermalShutdown die temp s
  | .queuedMatrixInstruction core => Sys2Proof.Machine.execQueuedMatrixInstruction core s
  | .thermalHoldClear die temp => Sys2Proof.Machine.execThermalHoldClear die temp s
  | .groupHoldClear group => Sys2Proof.Machine.execGroupHoldClear group s
  | .abortAnswer group seq src => Sys2Proof.Machine.execAbortAnswer group seq src s
  | .ringTrafficAcknowledgement group seq => Sys2Proof.Machine.execRingTrafficAcknowledgement group seq s

end Sys2Proof.Machine
end

