-- ==== Sys2Proof/Machine/Fetch.lean ====
section
/-! DEFINITION. Instruction fetch (R86, R162) through fetch blocks that may be older than memory (R154, R184), and the decoding of
what was fetched, with the traps of both. -/

namespace Sys2Proof.Machine

/-- What the fetch of an instruction gives. -/
inductive Fetched where
  | instr (i : Instr)
  /-- A word could not be fetched: cause, its address, and ISZ (R376). -/
  | lost (cause : Nat) (va : W64) (isz : Nat)
  /-- ILL with this cause (R41, R184). -/
  | ill (cause isz : Nat)
  deriving DecidableEq, Repr

/-- The key of a 64-byte fetch block: device memory below 2^60, host memory above. -/
def blockKey (sp : Space) (pa : Nat) : Nat := if sp = .host then 2 ^ 60 + pa / 64 else pa / 64

/-- A fetch block as this bundle receives it, and how it resolved (R184): 0 no older version is held, 1 the new words, 2 older ones, 3 no
version was held before. A block read from a damaged line holds free values (R400). -/
def Mach.fetchBlock (m : Mach) (key : Nat) (sp : Space) (pa : Nat) : List Byte × Nat × Mach :=
  let k := blockKey sp pa
  let core := coreOfKey key
  let cur := m.readBytes sp (pa / 64 * 64) 64
  let held := [Sparse.get [] (m.bundle key).blocks k, Sparse.get [] (m.core core).icache k].filter fun x => decide (x ≠ [])
  let older := held.filter fun x => decide (x ≠ cur)
  let (old, m) := m.pick none (none :: older.map some)
  match old with
  | some x => (x, 2, m.modBundle key fun b => { b with blocks := Sparse.put [] b.blocks k x })
  | none =>
    let (got, m) := if held.contains cur then (cur, m) else m.readLogged (core % 96) (dieOfCore core) sp (pa / 64 * 64) 64
    let m := m.modBundle key fun b => { b with blocks := Sparse.put [] b.blocks k got }
    (got, if older ≠ [] then 1 else if held = [] then 3 else 0, m.modCore core fun c => { c with icache := Sparse.put [] c.icache k got })

/-- One instruction word at a virtual address; the blocks fetched for this instruction are fetched once. -/
def Ctx.fetchWord (c : Ctx) (m : Mach) (va : W64) (got : List (Nat × List Byte × Nat)) :
    Except Nat (W32 × List (Nat × List Byte × Nat)) × Mach :=
  match m.check c.agent ⟨va, 4, 4, false, false, true, false, .fetch, .allowed⟩ with
  | (.error e, m) => (.error e, m)
  | (.ok ps, m) =>
    let p := onePiece ps
    let word := fun (bs : List Byte) => BitVec.ofNat 32 (leNat ((bs.drop (p.addr % 64)).take 4))
    match got.find? fun x => decide (x.1 = blockKey p.space p.addr) with
    | some x => (.ok (word x.2.1, got), m)
    | none =>
      let (bs, st, m) := m.fetchBlock c.key p.space p.addr
      (.ok (word bs, (blockKey p.space p.addr, bs, st) :: got), m)

/-- Fetch the n words from va on; `isz` is the size of the instruction if one of them is lost. -/
def Ctx.fetchTail (c : Ctx) (isz : Nat) : Nat → W64 → Mach → List (Nat × List Byte × Nat) → List W32 →
    Except Fetched (List W32 × List (Nat × List Byte × Nat)) × Mach
  | 0, _, m, got, ws => (.ok (ws.reverse, got), m)
  | n + 1, va, m, got, ws =>
    match c.fetchWord m va got with
    | (.error e, m) => (.error (.lost e va isz), m)
    | (.ok (w, got), m) => c.fetchTail isz n (va + 4) m got (w :: ws)

/-- Blocks resolve to old words and to new ones (R184). Whether a block of which no version was held has new words is not known, so
that beside older words either answer may come (log 30). -/
def Mach.mixed (m : Mach) (got : List (Nat × List Byte × Nat)) : Bool × Mach :=
  let has := fun k => got.any fun x => decide (x.2.2 = k)
  if has 2 then (if has 1 then (true, m) else if has 3 then m.pick false [false, true] else (false, m)) else (false, m)

/-- The cause of ILL for words that are no instruction: what a handler may not issue comes first (R379). -/
def Ctx.illCause (c : Ctx) (p : Option W32) (w : W32) : Nat :=
  if c.hand && (p.isSome || !handlerOpc (fld w 28 21)) then 0x62 else 0x60

/-- The words before an instruction's base word are fetched; fetch the rest and decode. -/
def Ctx.fetchRest (c : Ctx) (p : Option W32) (w : W32) (m : Mach) (got : List (Nat × List Byte × Nat)) : Fetched × Mach :=
  let pre := boolNat p.isSome
  let isz := pre + 1 + tailWords w
  let misused : Bool := (p.map fun x => badPre x w).getD false
  if misused || !((lensOf (fld w 28 21)).getD []).contains (fld w 31 30) then (.ill (c.illCause p w) isz, m)
  else
    match c.fetchTail isz (tailWords w) (c.pc + BitVec.ofNat 64 (4 * (pre + 1))) m got [] with
    | (.error e, m) => (e, m)
    | (.ok (ws, got), m) =>
      let (mix, m) := m.mixed got
      if mix then (.ill 0x61 isz, m)
      else
        match decodeWords (p.toList ++ w :: ws) with
        | .ok i => (.instr i, m)
        | .error _ => (.ill (c.illCause p w) isz, m)

/-- Fetch and decode the instruction at the run's program counter. -/
def Ctx.fetch (c : Ctx) (m : Mach) : Fetched × Mach :=
  match c.fetchWord m c.pc [] with
  | (.error e, m) => (.lost e c.pc 0, m)
  | (.ok (w, got), m) =>
    if fld w 28 21 ≠ 0xFF then c.fetchRest none w m got
    else
      match c.fetchWord m (c.pc + 4) got with
      | (.error e, m) => (.lost e (c.pc + 4) 0, m)
      | (.ok (w1, got), m) => c.fetchRest (some w) w1 m got

/-- The trap of a failed fetch, for every lane of the group (R86); a page that is not present waits for the host (R146). -/
def Ctx.fetchFails (c : Ctx) (m : Mach) (f : Fetched) : Mach :=
  match f with
  | .instr _ => m
  | .ill cause isz =>
    let c := { c with size := 4 * isz }
    m.raise c.q c.run (c.trap clsIll cause)
  | .lost cause va isz =>
    let c := { c with size := 4 * isz }
    match c.resolve m ((laneList c.grp).map fun l => condOf l va cause) false true with
    | .trap m t => m.raise c.q c.run t
    | .closed m => m
    | _ => m

end Sys2Proof.Machine
end

