-- ==== Sys2Proof/Machine/Step.lean ====
section
/-! DEFINITION. One step: the next turn of the agenda, or, when the agenda is empty, the next internal work. The time that the
turn takes passes first. -/

namespace Sys2Proof.Machine

/-- The next turn, and the state without it. -/
def State.nextTurn (s : State) : Turn × State :=
  match s.agenda with
  | [] => (⟨1, s.ownMove exec⟩, s)
  | t :: r => (t, { s with agenda := r })

/-- Time passes (R1, R79). -/
def State.tick (s : State) (n : Nat) : State := { s with mach := { s.mach with clk := s.mach.clk + max n 1 } }

/-- The run in focus fetches, decodes and issues its next instruction; with no run there, nothing happens. -/
def State.issueNext (s : State) : Host.Outcome State Fault Refusal :=
  match ctxOf s Opn.zero with
  | none => .next s
  | some c =>
    match c.fetch s.mach with
    | (.instr i, m) => exec i { s with mach := m }
    | (f, m) => .next { s with mach := c.fetchFails m f }

/-- An uncorrectable error strikes a line of device memory (R400; log 5). -/
def Mach.strike (m : Mach) (pa : Nat) : Mach :=
  if pa < devTop ∧ m.bad.contains (pa / 64) = false then { m with bad := pa / 64 :: m.bad } else m

/-- What moves in a turn. An agenda cannot make an encoded instruction happen by itself: only an issue slot does. -/
def State.move (s : State) (v : Move) : Host.Outcome State Fault Refusal :=
  match v with
  | .issue q => State.issueNext { s with focus := q }
  | .event i => if (opnOf i).isSome then .next s else exec i s
  | .damage pa => .next { s with mach := s.mach.strike pa }
  | .hostStore pa data => .next { s with mach := s.mach.writeBytes .host pa data }

def step (s : State) : Host.Outcome State Fault Refusal :=
  if s.boot.stopped && decide (s.nextTurn.1.move ≠ .event .packageReset) then .fault .clocksStopped
  else (s.nextTurn.2.tick s.nextTurn.1.cycles).move s.nextTurn.1.move

/-! ## Placing one instruction (log 8) -/

/-- Where State.withFetchWord places the instruction: its virtual address and the device memory behind it. -/
def placeVa : Nat := 0x10000
def placePa : Nat := 0x100000

/-- Range entry 0 of address space 0: the 64 KiB at placeVa, readable, writable and executable (R158). -/
def placeRange : List Byte :=
  leBytes 8 placeVa ++ leBytes 8 (placeVa + 0x10000) ++ leBytes 8 placePa ++ leBytes 8 0x1D

/-- A grid of one team of 32 threads, and the team, resident on core 0. -/
def placeGrid : Grid := { Grid.none with gx := 1, gy := 1, gz := 1, threads := 32, regs := 1536, scr := 0x10000, tiles := 16, next := 1 }

def placeTeam : Team :=
  { Team.none with grid := 0, nb := 1, nscr := 32, tiles := List.range 16 }

def placeBundle : Bundle :=
  { Bundle.start 0 0 with
    lanes := (List.range 32).map fun l => (l, { Lane.none with st := .runnable, pc := BitVec.ofNat 64 placeVa, tidx := l }) }

/-- The package READY, one team resident, its bundle's run in focus, and the instruction's words at the run's program counter. -/
def State.withFetchWord (s : State) (nbits w : Nat) : State :=
  let m := s.mach
  let m : Mach := { m with
    desk := { m.desk with astbase := 1 }, bad := []
    grids := Sparse.put none m.grids 0 (some placeGrid), teams := Sparse.put none m.teams 0 (some placeTeam)
    bundles := Sparse.put none m.bundles 0 (some placeBundle)
    runs := Sparse.put none m.runs 0 (some ⟨0, BitVec.allOnes 32, BitVec.ofNat 64 placeVa, 0⟩)
    ops := m.ops.filter fun x => decide (x.key ≠ 0), later := m.later.filter fun x => decide (x.key ≠ 0) }
  let m := m.modCore 0 fun c => { c with icache := [], rcache := [], tlb := [], mx := c.mx.filter fun x => decide (x.key ≠ 0) }
  let m := m.modDie 0 fun d => { d with tlb2 := [], wcache := [] }
  let m := (m.writeBytes .dev 0x800 placeRange).writeNat .dev placePa 24 (w % 2 ^ nbits)
  { s with
    agenda := ⟨1, .issue 0⟩ :: s.agenda, focus := 0, mach := m
    boot := { s.boot with state := 3, stopped := false } }

end Sys2Proof.Machine
end

