-- ==== Sys2Proof/Machine/Rules.lean ====
section
/-! DEFINITION. The rule under which each encoded instruction issues: its opcode, the encodings and operands it allows, and what of R41
and R42 it answers to. Steps that have no encoding have none. -/

namespace Sys2Proof.Machine

/-- The rule of an instruction; `hand` says that a handler issues it, which changes the form of loads and stores (R379). -/
def ruleOf (i : Instr) (hand : Bool) : Option Rule :=
  match i with
  | .nop _ => some nopRule
  | .bra _ => some (braRule 0x01)
  | .brx _ => some brxRule
  | .call _ => some (braRule 0x03)
  | .ret _ => some (guardRule 0x04)
  | .exit _ => some (guardRule 0x05)
  | .jenrol _ => some jenrolRule
  | .jwait _ => some jwaitRule
  | .jmov _ => some jmovRule
  | .reform _ => some reformRule
  | .matchKeys _ => some matchKeysRule
  | .compact _ => some compactRule
  | .sadd _ => some (scalarRule 0x0C [0] [0])
  | .ssub _ => some (scalarRule 0x0D [0] [0])
  | .smul _ => some (scalarRule 0x0E [0] [0])
  | .smulh _ => some (scalarRule 0x0F [0] [2, 3])
  | .sand _ => some (scalarRule 0x10 [0] [0])
  | .sor _ => some (scalarRule 0x11 [0] [0])
  | .sxor _ => some (scalarRule 0x12 [0] [0])
  | .sshl _ => some (scalarRule 0x13 [0] [0])
  | .sshr _ => some (scalarRule 0x14 [0] [0])
  | .ssar _ => some (scalarRule 0x15 [0] [0])
  | .smin _ => some (scalarRule 0x16 [0] [2, 3])
  | .smax _ => some (scalarRule 0x17 [0] [2, 3])
  | .sset _ => some (scalarRule 0x18 [0, 1, 2, 3, 4, 5] [2, 3])
  | .ssel _ => some (scalarRule 0x19 [0] [0])
  | .sli _ => some sliRule
  | .smov _ => some smovRule
  | .srd _ => some srdRule
  | .swr _ => some swrRule
  | .plog _ => some plogRule
  | .vadd _ => some vruleAdd.rule
  | .vsub _ => some vruleSub.rule
  | .vmul _ => some vruleMul.rule
  | .vmulh _ => some vruleMulh.rule
  | .vmad _ => some vruleMad.rule
  | .vand _ => some vruleAnd.rule
  | .vor _ => some vruleOr.rule
  | .vxor _ => some vruleXor.rule
  | .vshl _ => some vruleShl.rule
  | .vshr _ => some vruleShr.rule
  | .vsar _ => some vruleSar.rule
  | .vmin _ => some vruleMin.rule
  | .vmax _ => some vruleMax.rule
  | .vabs _ => some vruleAbs.rule
  | .vcmp _ => some vcmpIssueRule
  | .vsel _ => some vselIssueRule
  | .vmov _ => some vruleMov.rule
  | .vpopc _ => some vrulePopc.rule
  | .vclz _ => some vruleClz.rule
  | .vbrev _ => some vruleBrev.rule
  | .vbfe _ => some vruleBfe.rule
  | .vbfi _ => some vruleBfi.rule
  | .vmix3 _ => some vruleMix3.rule
  | .vcvt _ => some vruleVcvt.rule
  | .vadds _ => some vruleAdds.rule
  | .vsubs _ => some vruleSubs.rule
  | .vli _ => some vliRule
  | .sweep opc _ => some (match sweepElem opc.toNat with | some (r, _) => r.sweepRule | none => noSweepRule opc)
  | .fadd _ => some vruleFadd.rule
  | .fsub _ => some vruleFsub.rule
  | .fmul _ => some vruleFmul.rule
  | .ffma _ => some vruleFfma.rule
  | .fmin _ => some vruleFmin.rule
  | .fmax _ => some vruleFmax.rule
  | .fcmp _ => some fcmpIssueRule
  | .fclass _ => some vruleFclass.rule
  | .frint _ => some vruleFrint.rule
  | .fcvt _ => some vruleFcvt.rule
  | .fcvtBlk _ => some (blkRule 1 [0] [4, 5, 6])
  | .fcvtDec _ => some (blkRule 2 [4] [0])
  | .icvt _ => some vruleIcvt.rule
  | .fcvti _ => some vruleFcvti.rule
  | .fscale _ => some vruleFscale.rule
  | .fexpn _ => some vruleFexpn.rule
  | .fexpf _ => some vruleFexpf.rule
  | .flog2 _ => some vruleFlog2.rule
  | .frcp _ => some vruleFrcp.rule
  | .frsq _ => some vruleFrsq.rule
  | .fsqrt _ => some vruleFsqrt.rule
  | .fsin _ => some vruleFsin.rule
  | .fcos _ => some vruleFcos.rule
  | .ftanh _ => some vruleFtanh.rule
  | .fsgn _ => some vruleFsgn.rule
  | .fkey _ => some vruleFkey.rule
  | .xshf _ => some xshfRule
  | .xrot _ => some xrotRule
  | .xbcst _ => some xbcstRule
  | .xbal _ => some xbalRule
  | .xbcnt _ => some xbcntRule
  | .xred o => some (xredRule o)
  | .xscan o => some (xscanRule o)
  | .xmov _ => some xmovRule
  | .ld _ => some (loadRule 0x68 4 0 hand)
  | .st _ => some (storeRule 0x69 4 0 hand)
  | .lda _ => some (loadRule 0x6A 3 0xC0 hand)
  | .stl _ => some (storeRule 0x6B 3 0xC0 hand)
  | .atom _ => some (atomRule hand)
  | .fence _ => some fenceRule
  | .tagl _ => some (tagRule 0x6E [0, 1] fun o => decide (o.fn = 1))
  | .tagi _ => some (tagRule 0x6F [0] fun _ => true)
  | .tagx _ => some (tagRule 0x70 [0, 1] fun _ => false)
  | .ifence _ => some ifenceRule
  | .prf _ => some prfRule
  | .radd _ => some (addRule 0x78 [0, 2, 4, 6, 7] true false)
  | .rmin _ => some (addRule 0x79 [0, 1, 2, 3, 4] false false)
  | .rmax _ => some (addRule 0x7A [0, 1, 2, 3, 4] false false)
  | .ror _ => some (addRule 0x7B [1, 3] false true)
  | .ronce _ => some ronceRule
  | .ronceRow _ => some rowRule
  | .rarr _ => some rarrRule
  | .rget _ => some rgetRule
  | .accrd _ => some accrdRule
  | .accdef _ => some (accdefRule 0)
  | .accdefFree _ => some (accdefRule 1)
  | .accdefStep _ => some (accdefRule 2)
  | .accdefQuery _ => some (accdefRule 3)
  | .arrwait _ => some arrwaitRule
  | .mopen _ => some (meetRule 0x88 [0, 1] true)
  | .mpost _ => some mpostRule
  | .marr _ => some (meetRule 0x8A [0] false)
  | .mwait _ => some (meetRule 0x8B [0, 1] true)
  | .mstat _ => some (meetRule 0x8C [0, 1, 2] true)
  | .mrel _ => some (meetRule 0x8D [0] false)
  | .mclose _ => some (meetRule 0x8E [0] true)
  | .cpy _ => some (cpyRule 0x90)
  | .cpym _ => some (cpyRule 0x91)
  | .cpoll _ => some (pollRule 0x92)
  | .csleep _ => some (pollRule 0x93)
  | .gld _ => some gldRule
  | .gsc _ => some gscRule
  | .nzscan _ => some nzscanRule
  | .hset _ => some hsetRule
  | .ginv _ => some ginvRule
  | .mxp _ => some mxpRule
  | .mxd _ => some mxdRule
  | .ldt _ => some ldtRule
  | .unpk _ => some unpkRule
  | .accmv _ => some accmvRule
  | .mxsave _ => some (tileRule 0xA5)
  | .mxload _ => some (tileRule 0xA6)
  | .mxclr _ => some mxclrRule
  | .mxclrLatch _ => some mxclrLatchRule
  | .mxstat _ => some mxstatRule
  | .nbin _ => some (nbrRule 0xB0 [0])
  | .npair _ => some (nbrRule 0xB1 [0])
  | .npairRes _ => some (nbrRule 0xB1 [1])
  | .nstat _ => some nstatRule
  | .nstatEng _ => some nstatEngRule
  | .launch _ => some launchRule
  | .bar _ => some barRule
  | .barv _ => some barvRule
  | .barvSelf _ => some barvSelfRule
  | .mbwait _ => some (mailRule 0xBB [0, 1, 2, 3, 4] true)
  | .mbfill _ => some (mailRule 0xBC [0] false)
  | .mbfree _ => some (mailRule 0xBD [0] false)
  | .waitk _ => some waitkRule
  | .yield _ => some yieldRule
  | .yieldGrp _ => some yieldGrpRule
  | .sleep _ => some sleepRule
  | .pwrq _ => some pwrqRule
  | .pwrqRel _ => some pwrqRelRule
  | .evget _ => some evgetIssueRule
  | .evpost _ => some (evpostRule 0 (fun o => [.s o.a.toNat 2 2]) true)
  | .evpostStart _ => some (evpostRule 1 (fun o => [.s o.a.toNat 5 1]) true)
  | .evpostStat _ => some (evpostRule 2 (fun _ => []) false)
  | .evpostHpc _ => some (evpostRule 3 (fun _ => []) false)
  | .evpostDrop _ => some evpostDropRule
  | .tapef _ => some (tapeRule 0xCA 0 7)
  | .tdec _ => some (tapeRule 0xCB 3 1)
  | .tdisp _ => some tdispRule
  | .locq _ => some (tapeRule 0xCD 0 2)
  | .locqInv _ => some locqInvRule
  | .clstat _ => some (clRule 0xD0 0 true true)
  | .clabort _ => some (clRule 0xD1 0 true true)
  | .clstep _ => some (clRule 0xD2 0 false true)
  | .clstepRd _ => some (clRule 0xD2 1 true false)
  | .trap _ => some trapRule
  | .tret _ => some tretRule
  | .bkpt _ => some bkptRule
  | .halt _ => some haltRule
  | .swrpRd _ => some swrpRdRule
  | .swrpWr _ => some swrpWrRule
  | .swrpSb _ => some swrpSbRule
  | .loadDataReturn _ _ _ _ => none
  | .vectorResultWrite _ => none
  | .writePerformed _ _ => none
  | .arrwaitWake _ _ => none
  | .letterReceive _ _ => none
  | .meetingClearComplete _ _ => none
  | .rgetRead _ _ => none
  | .replyReceive _ => none
  | .acknowledgementReceive _ _ => none
  | .resendTimer _ => none
  | .refusedRetry _ => none
  | .settleNoticeSend _ => none
  | .settleNoticeReceive _ _ => none
  | .postmarkExpiry _ _ => none
  | .mwaitWake _ _ => none
  | .copyDispatch _ => none
  | .leaveGrant _ => none
  | .leaveExpiry _ => none
  | .copyPage _ _ => none
  | .copyCompletionStep _ => none
  | .csleepWake _ _ => none
  | .matrixGroup _ _ _ => none
  | .neighbourJobStart _ _ => none
  | .npairStageFill _ => none
  | .neighbourJobComplete _ => none
  | .mbwaitWake _ _ => none
  | .waitkRelease _ _ => none
  | .sleepExpiry _ _ => none
  | .evgetWake _ => none
  | .tdispFill _ _ => none
  | .runSelect _ => none
  | .trapEntry _ => none
  | .reformFiling _ => none
  | .pigeonholeAgeExpiry _ => none
  | .bundleFree _ => none
  | .launchRecordTake _ => none
  | .guardMet _ => none
  | .teamDispatch _ => none
  | .eviction _ => none
  | .restore _ => none
  | .gridRetire _ => none
  | .chunkFire _ _ => none
  | .segmentReceive _ => none
  | .segmentTimeout _ _ _ => none
  | .linkLoss _ => none
  | .abortReceive _ _ _ _ => none
  | .fqresume _ => none
  | .tlbinvc _ => none
  | .tlbinvComplete => none
  | .stresumeResume _ => none
  | .stresumeKill _ => none
  | .groupHold _ => none
  | .fenceTableWrite _ _ => none
  | .pkgidWrite _ => none
  | .mbcmdReport => none
  | .mbcmdPubkey => none
  | .registerWrite _ _ _ => none
  | .cxlMemWrite _ _ => none
  | .cxlMemRead _ _ => none
  | .hostLinkDown => none
  | .packageReset => none
  | .bootRom _ _ => none
  | .bootFirmware _ _ => none
  | .powerDivision _ => none
  | .thermalHold _ _ => none
  | .thermalShutdown _ _ => none
  | .queuedMatrixInstruction _ => none
  | .thermalHoldClear _ _ => none
  | .groupHoldClear _ => none
  | .abortAnswer _ _ _ => none
  | .ringTrafficAcknowledgement _ _ => none

end Sys2Proof.Machine
end

