-- ==== Sys2Proof/Safety.lean ====
section
/-! DEFINITION. The terms in which claims are made: when an instruction issues and meets no trap of R41, what an instruction of a group
leaves as it was and where the group goes on, the canonical form of the memories, the legal values of the boot and identity state, and
a run that never stops. -/

namespace Sys2Proof.Machine

/-- Instruction `i`, with operands `o`, issues in `s` under rule `r`: `c` is what its issuer sees, its group has a lane, no result holds it
back (R37), and it meets none of the traps of R41. -/
structure Issues (i : Instr) (o : Opn) (s : State) (r : Rule) (c : Ctx) : Prop where
  operands : opnOf i = some o
  rule : ruleOf i s.inHandler = some r
  seen : (ctxOf s o).map r.view = some c
  group : c.grp ≠ 0
  ready : s.mach.blocked c.key &&& c.grp = 0
  legal : r.refuses c = none

/-- Every byte of the memories reads as before. -/
def MemoryKept (s t : State) : Prop := ∀ sp a, t.mach.readByte sp a = s.mach.readByte sp a

/-- Every issuer but one is as it was. -/
def OthersKept (s t : State) (key : Nat) : Prop := ∀ k, k ≠ key → t.mach.bundle? k = s.mach.bundle? k

/-- The registers of a bundle or control core. -/
def State.regs (s : State) (key : Nat) : Regs := (s.mach.bundle key).regs

/-- What an ordinary instruction of the issuer `key` leaves alone beside registers, lanes and memory: the trap-state words, the side buffer
and the handler's presence, the accumulators of every core, teams, grids, the launch desk, the boot and identity registers. -/
structure SystemKept (s t : State) (key : Nat) : Prop where
  trapRegs : (t.mach.bundle key).trap = (s.mach.bundle key).trap
  handler : (t.mach.bundle key).hand.isSome = (s.mach.bundle key).hand.isSome
  acc : ∀ k, (t.mach.core k).acc = (s.mach.core k).acc
  teams : t.mach.teams = s.mach.teams
  grids : t.mach.grids = s.mach.grids
  desk : t.mach.desk = s.mach.desk
  boot : t.boot = s.boot

/-- An operation, a delayed result and an engine's queue apart from their lookahead windows, which each instruction of their bundle counts
down (R37). -/
def Op.bare (x : Op) : Op := { x with win := [] }
def Later.bare (x : Later) : Later := { x with win := [] }

def MxKind.bare : MxKind → MxKind
  | .accRead fn ty rm d t r c n a _ => .accRead fn ty rm d t r c n a []
  | k => k

def Core.bare (x : Core) : Core := { x with mx := x.mx.map fun j => { j with kind := j.kind.bare } }

/-- What an instruction of the group of `c` leaves alone in all of the machine, beside its bundle's registers and lanes and its own run: the
memories, dies, cores, copies, letters, frames, instances, groups, translations, other runs, and the rest of its bundle. -/
structure RestKept (s t : State) (c : Ctx) : Prop where
  machine : t.mach = { s.mach with
    bundles := t.mach.bundles, runs := t.mach.runs, cores := t.mach.cores, ops := t.mach.ops, later := t.mach.later }
  others : ∀ k, k ≠ c.key → t.mach.bundle? k = s.mach.bundle? k
  runs : ∀ q, q ≠ c.q → t.mach.run? q = s.mach.run? q
  cores : ∀ k, (t.mach.core k).bare = (s.mach.core k).bare
  ops : t.mach.ops.map Op.bare = s.mach.ops.map Op.bare
  later : t.mach.later.map Later.bare = s.mach.later.map Later.bare
  issuer : let b := t.mach.bundle c.key
    b = { s.mach.bundle c.key with
      regs := b.regs, lanes := b.lanes, hand := b.hand, last := b.last, stepped := b.stepped, resume := b.resume }
  world : t.boot = s.boot ∧ t.agenda = s.agenda ∧ t.focus = s.focus

/-- The lanes outside the group of `c` are as they were, where they stand included. -/
def LanesKept (s t : State) (c : Ctx) : Prop :=
  ∀ l, c.grp.getLsbD l = false → (t.mach.bundle c.key).lane l = (s.mach.bundle c.key).lane l

/-- The threads in the lanes of an issuer keep their state, identity, LNK and store buffers. -/
def ThreadsKept (s t : State) (key : Nat) : Prop :=
  ∀ l, let x := (s.mach.bundle key).lane l
    let y := (t.mach.bundle key).lane l
    y.st = x.st ∧ y.tidx = x.tidx ∧ y.lnk = x.lnk ∧ y.sbuf = x.sbuf

/-- The group of `c` stands at a program counter: its run goes on there, or the run has ended and the handler or the lanes stand there. -/
def StandsAt (t : State) (c : Ctx) (pc : W64) : Prop :=
  t.mach.run? c.q = some { c.run with pc := pc, n := c.run.n + 1 }
    ∨ (t.mach.run? c.q = none
        ∧ if c.hand then (t.mach.bundle c.key).hand = some pc
          else ∀ l, c.grp.getLsbD l = true → ((t.mach.bundle c.key).lane l).pc = pc)

/-- The run of `c` has ended, and each lane of its group stands at a program counter of its own; a handler stands at that of its one lane. -/
def Scattered (t : State) (c : Ctx) (pcs : Nat → W64) : Prop :=
  t.mach.run? c.q = none
    ∧ if c.hand then (t.mach.bundle c.key).hand = some (pcs (lowestLane c.grp))
      else ∀ l, c.grp.getLsbD l = true → ((t.mach.bundle c.key).lane l).pc = pcs l

/-- Everything that an ordinary instruction of the issuer leaves alone but its registers. -/
structure OnlyRegs (s t : State) (c : Ctx) : Prop where
  memory : MemoryKept s t
  others : OthersKept s t c.key
  system : SystemKept s t c.key
  threads : ThreadsKept s t c.key
  rest : RestKept s t c
  lanes : LanesKept s t c

/-- The state with its machine changed, to say what an instruction that also queues or counts something leaves alone. -/
def State.but (s : State) (f : Mach → Mach) : State := { s with mach := f s.mach }

/-- The instruction or step answers a next state, of which the rest is said. -/
def Gives (i : Instr) (s : State) (P : State → Prop) : Prop := ∃ t, exec i s = .next t ∧ P t

/-- An instruction of the issuer `c` completes, its group going on after it, and changes nothing but registers, which become `f` of what
they were. -/
def WritesRegs (i : Instr) (s : State) (c : Ctx) (f : Regs → Regs) : Prop :=
  Gives i s fun t => OnlyRegs s t c ∧ StandsAt t c c.nextPc ∧ t.regs c.key = f (s.regs c.key)

/-- Registers after a write of one vector register, or of an even/odd pair for a type of 64 bits, in the lanes `w`: lane l holds `f l`, and
nothing else has changed. -/
def ElemWrite (r r' : Regs) (ty d : Nat) (w : Lanes) (f : Nat → Nat) : Prop :=
  (∀ n l, l < 32 → r'.getV n l =
      if n = d ∧ w.getLsbD l = true then BitVec.ofNat 32 (f l)
      else if wideTy ty = true ∧ n = d + 1 ∧ w.getLsbD l = true then BitVec.ofNat 32 (f l / 2 ^ 32)
      else r.getV n l)
    ∧ r' = { r with v := r'.v }

/-! ## Invariants -/

/-- The memories hold their canonical form: cells at strictly rising addresses, none with what an unlisted address reads as. -/
def State.MemInv (s : State) : Prop := s.mach.memWf = true

/-- The boot, identity and power registers hold legal values: a state of R402 with a CAUSE in FAILED alone, PKGID set only in READY (R404), a
busy mailbox only for a valid code (R405), and PWRLIM and PWRNOW within their ranges (R408). -/
structure State.BootInv (s : State) : Prop where
  state : s.boot.state ≤ 4
  cause : s.boot.cause ≤ 4
  failed : s.boot.cause ≠ 0 ↔ s.boot.state = 4
  identity : s.boot.pkgV = true → s.boot.state = 3
  mailbox : s.boot.mbBusy = true → s.boot.mbCode = 1 ∨ s.boot.mbCode = 2
  limit : 1000 ≤ s.boot.pwrlim ∧ s.boot.pwrlim ≤ 4200
  now : s.boot.pwrnow < 8192

/-- A run of `n` steps that meets no fault and no refusal. -/
def SafeRun (n : Nat) (s : State) : Prop := ∃ t, Host.Core.run Sys2Proof.core n s = .next t

end Sys2Proof.Machine
end

