-- ==== Sys2Proof/WellFormed.lean ====
section
/-! DEFINITION. Well-formed instructions: those whose operands some words of the encoding hold (R21 to R34). Field values
that an opcode forbids are another matter: such an instruction is decoded and raises ILL when it issues (R41). -/

namespace Sys2Proof

/-- The length is one the opcode map allows (R39). -/
def lenOk (opc : Nat) (o : Opn) : Bool := ((lensOf opc).getD []).contains o.len.toNat

/-- A prefix word stands only before a base form that takes one, names v0 to v127, and gives no broadcast of a literal (R33). -/
def preOk (opc : Nat) (o : Opn) : Bool :=
  if o.pre then takesPre opc && decide (o.len.toNat ≤ 1 ∧ o.c.toNat < 128) && !(o.sb && decide (o.len = 1))
  else !o.sb

/-- A base form without a prefix has no zeroing and no rounding mode (R29, R30). -/
def bareOk (o : Opn) : Bool := o.pre || decide (2 ≤ o.len.toNat) || (!o.zm && decide (o.rm = 0))

/-- A base form has no element type and no extended function (R25, R31). -/
def extOk (o : Opn) : Bool := if 2 ≤ o.len.toNat then !o.pre else decide (o.ty = 0 ∧ o.xf = 0)

/-- A value at a literal's place only where the form has one (R22). -/
def litOk (l : Layout) (o : Opn) : Bool :=
  if o.len = 1 ∨ o.len = 3 then true
  else if o.len = 2 then decide (o.imm = 0)
  else match l with
    | .br => decide ((BitVec.ofNat 15 (o.imm.toNat / 4)).signExtend 64 * 4#64 = o.imm)
    | .prd | .waitk => decide (o.imm.toNat < 65536)
    | _ => decide (o.imm = 0)

/-- The fields of a base form fit the bits that its layout gives them, and the others are zero (R23). -/
def fieldsOk (l : Layout) (o : Opn) : Bool :=
  let noMask := o.pre || decide (o.mp = 0 ∧ o.mn = false)
  let noC := o.pre || decide (o.c = 0)
  let plain := decide (o.fn = 0)
  let noLa := decide (o.la = 0)
  if 2 ≤ o.len.toNat then true
  else match l with
    | .rrr => noMask && noC && plain && noLa && decide (o.mods = 0 ∧ o.d.toNat < 128 ∧ o.a.toNat < 128 ∧ o.b.toNat < 128)
    | .mem =>
      noMask && noC && plain && decide (o.mods.toNat < 16 ∧ o.d.toNat < 128 ∧ o.b = 0)
        && (if o.mods.toNat < 8 then decide (o.a.toNat < 128 ∧ o.a.toNat % 2 = 0) else decide (o.a.toNat < 64))
    | .br => noC && plain && noLa && decide (o.mods.toNat < 2 ∧ o.d = 0 ∧ o.a = 0 ∧ o.b = 0)
    | .prd => noC && plain && noLa && decide (o.mods = 0 ∧ o.d = 0 ∧ o.a = 0 ∧ o.b = 0)
    | .fence => noMask && noC && plain && noLa && decide (o.mods.toNat < 16 ∧ o.d = 0 ∧ o.a = 0 ∧ o.b = 0)
    | .cpy =>
      noMask && plain && noLa
        && decide (o.mods.toNat % 256 = 0 ∧ o.d = 0 ∧ o.a.toNat < 32 ∧ o.b.toNat < 32 ∧ o.c.toNat < 32)
    | .mxp =>
      noMask && noC && plain && noLa
        && decide (o.mods.toNat % 128 = 0 ∧ o.d.toNat < 16 ∧ o.a.toNat < 128 ∧ o.b.toNat < 16)
    | .mxd => noMask && noC && plain && noLa && decide (o.mods.toNat % 128 = 0 ∧ o.d = 0 ∧ o.a.toNat < 128 ∧ o.b = 0)
    | .bar => noMask && noC && plain && noLa && decide (o.mods.toNat < 32 ∧ o.d = 0 ∧ o.a = 0 ∧ o.b.toNat < 128)
    | .mb => noMask && noC && plain && noLa && decide (o.mods.toNat < 8 ∧ o.d.toNat < 128 ∧ o.a = 0 ∧ o.b = 0)
    | .waitk => noMask && noC && plain && noLa && decide (o.mods.toNat < 8 ∧ o.d = 0 ∧ o.a = 0 ∧ o.b = 0)
    | .tret => noMask && noC && plain && noLa && decide (o.mods = 0 ∧ o.d = 0 ∧ o.a.toNat < 32 ∧ o.b.toNat < 32)
    | .swrp => noMask && noC && noLa && decide (o.fn.toNat < 2 ∧ o.mods.toNat < 512 ∧ o.d.toNat < 128 ∧ o.a = 0 ∧ o.b = 0)
    | .npair => noMask && noC && noLa && decide (o.fn.toNat < 2 ∧ o.mods = 0 ∧ o.d = 0 ∧ o.a.toNat < 128 ∧ o.b = 0)
    | .reform => noMask && noC && plain && noLa && decide (o.mods.toNat < 128 ∧ o.d = 0 ∧ o.a.toNat < 128 ∧ o.b = 0)

/-- Some words hold these operands under this opcode. -/
def Opn.wf (opc : Nat) (o : Opn) : Bool :=
  lenOk opc o && preOk opc o && bareOk o && extOk o && litOk (layoutOf opc) o && fieldsOk (layoutOf opc) o

/-- The instruction that an opcode and its operands stand for, a sweep among them (R34). -/
def instrOf (opc : Nat) (o : Opn) : Option Instr :=
  if 2 ≤ o.len.toNat ∧ o.xf = 1 ∧ takesPre opc then some (.sweep (.ofNat 8 opc) o) else mkInstr opc o

/-- A well-formed instruction: the operands fit, and the constructor is the one they stand for. Steps that have no
encoding are well-formed as they stand. -/
def Instr.wf (i : Instr) : Bool :=
  match opnOf i with
  | none => true
  | some o => o.wf (opcOf i) && decide (instrOf (opcOf i) o = some i)

end Sys2Proof
end

