-- ==== Sys2Proof/Certificates/Slice0/Obligations.lean ====
section
/-! DEFINITION. The claims about the model. Each says what an instruction or the machine does and, where something changes, what stays as it
was; `Issues` is the premise that the instruction issues and meets no trap of R41. -/

open Sys2Proof Sys2Proof.Machine

namespace Sys2Proof.Claims

/-! ## Scalar unit (R73 to R78) -/

/-- SMULH, SMIN, SMAX and SSET read their operands as signed numbers unless TY is 3 (R73). -/
def signedOf (o : Opn) : Bool := decide (typeOf o 2 ≠ 3)

def less (sg : Bool) (a b : W64) : Bool := if sg then decide (a.toInt < b.toInt) else decide (a.toNat < b.toNat)

/-- The condition of SSET by FN (R75). -/
def setCond (fn : Nat) (sg : Bool) (a b : W64) : Bool :=
  match fn with
  | 0 => decide (a = b)
  | 1 => decide (a ≠ b)
  | 2 => less sg a b
  | 3 => less sg a b || decide (a = b)
  | 4 => less sg b a
  | _ => less sg b a || decide (a = b)

/-- What R74 writes to s[D], from s[A] and operand B. -/
def scalarResults : List ((Opn → Instr) × (Opn → W64 → W64 → W64)) :=
  [(.sadd, fun _ a b => .ofInt 64 (a.toInt + b.toInt)),
   (.ssub, fun _ a b => .ofInt 64 (a.toInt - b.toInt)),
   (.smul, fun _ a b => .ofNat 64 (a.toNat * b.toNat)),
   (.smulh, fun o a b => if signedOf o then .ofInt 64 (a.toInt * b.toInt / 2 ^ 64) else .ofNat 64 (a.toNat * b.toNat / 2 ^ 64)),
   (.sand, fun _ a b => a &&& b),
   (.sor, fun _ a b => a ||| b),
   (.sxor, fun _ a b => a ^^^ b),
   (.sshl, fun _ a n => .ofNat 64 (a.toNat * 2 ^ n.toNat)),
   (.sshr, fun _ a n => .ofNat 64 (a.toNat / 2 ^ n.toNat)),
   (.ssar, fun _ a n => .ofInt 64 (a.toInt / 2 ^ n.toNat)),
   (.smin, fun o a b => if less (signedOf o) b a then b else a),
   (.smax, fun o a b => if less (signedOf o) a b then b else a),
   (.sset, fun o a b => if setCond o.fn.toNat (signedOf o) a b then 1 else 0)]

/-! ## Vector unit (R101 to R130) -/

/-- Vector instructions of one element operation: constructor, encodings, and what the operation makes of the operands' encodings. -/
def vectorOps : List ((Opn → Instr) × VRule × ElemOp) :=
  [(.vadd, vruleAdd, elAdd), (.vsub, vruleSub, elSub), (.vmul, vruleMul, elMul), (.vmulh, vruleMulh, elMulh), (.vmad, vruleMad, elMad),
   (.vand, vruleAnd, elAnd), (.vor, vruleOr, elOr), (.vxor, vruleXor, elXor), (.vshl, vruleShl, elShl), (.vshr, vruleShr, elShr),
   (.vsar, vruleSar, elSar), (.vmin, vruleMin, elMin), (.vmax, vruleMax, elMax), (.vabs, vruleAbs, elAbs), (.vmov, vruleMov, elMov),
   (.vpopc, vrulePopc, elPopc), (.vclz, vruleClz, elClz), (.vbrev, vruleBrev, elBrev), (.vbfe, vruleBfe, elBfe), (.vbfi, vruleBfi, elBfi),
   (.vmix3, vruleMix3, elMix3), (.vcvt, vruleVcvt, elVcvt), (.vadds, vruleAdds, elAdds), (.vsubs, vruleSubs, elSubs),
   (.fadd, vruleFadd, elFadd), (.fsub, vruleFsub, elFsub), (.fmul, vruleFmul, elFmul), (.ffma, vruleFfma, elFfma),
   (.fmin, vruleFmin, elFmin), (.fmax, vruleFmax, elFmax), (.fclass, vruleFclass, elFclass), (.frint, vruleFrint, elFrint),
   (.fcvt, vruleFcvt, elFcvt), (.icvt, vruleIcvt, elIcvt), (.fcvti, vruleFcvti, elFcvti), (.fscale, vruleFscale, elFscale),
   (.fexpn, vruleFexpn, elFexpn), (.fexpf, vruleFexpf, elFexpf), (.flog2, vruleFlog2, elFlog2), (.frcp, vruleFrcp, elFrcp),
   (.frsq, vruleFrsq, elFrsq), (.fsqrt, vruleFsqrt, elFsqrt), (.fsin, vruleFsin, elFsin), (.fcos, vruleFcos, elFcos),
   (.ftanh, vruleFtanh, elFtanh), (.fsgn, vruleFsgn, elFsgn), (.fkey, vruleFkey, elFkey)]

/-- The result and the exceptions of lane l: the operation of its operands A, B and the fourth, unused ones being 0. -/
def laneResult (r : VRule) (f : ElemOp) (c : Ctx) (l : Nat) : Nat × Nat :=
  let e := r.env c.o c.b.regs.fpctl
  f e (if r.useA then c.elem (r.aTy e) c.o.a.toNat l else 0) (if r.usesB c.o then c.elemB (r.bTy e) l else 0)
    (if r.useC then c.elem e.ty (fourth c.o) l else 0)

/-- The type of the destination. -/
def destTy (r : VRule) (c : Ctx) : Nat := r.dTy (r.env c.o c.b.regs.fpctl)

/-- FPSTAT takes the exceptions of every lane that takes part (R65). -/
def flagged (x : Regs) (c : Ctx) (fl : Nat → Nat) : Regs := x.raiseFlags (orFlags ((laneList c.act).map fun l => (l, fl l)))

/-- No lane that takes part raises an exception that FPCTL enables (R65). -/
def NoTrap (c : Ctx) (fl : Nat → Nat) : Prop := ∀ l, c.act.getLsbD l = true → enabledOf c.b.regs.fpctl (fl l) = 0

/-- A value for the lanes that take part, zero for those that ZM clears (R30). -/
def orZero (c : Ctx) (f : Nat → Nat) (l : Nat) : Nat := if c.act.getLsbD l = true then f l else 0

/-- An instruction of the issuer completes, its group going on, and writes an element register in the lanes that take part. -/
def WritesLanes (i : Instr) (s : State) (c : Ctx) (ty : Nat) (f : Nat → Nat) : Prop :=
  Gives i s fun t => OnlyRegs s t c ∧ StandsAt t c c.nextPc ∧
    ElemWrite (s.regs c.key) (t.regs c.key) ty c.o.d.toNat c.written (orZero c f)

/-- The lanes an instruction writes that writes nothing when no lane takes part (R136, R140; the model's reading for ZM, log 122). -/
def unlessEmpty (c : Ctx) : BitVec 32 := if c.act = 0 then 0 else c.written

/-- One of the six conditions by FN (R75, R106). -/
def intCond (fn : Nat) (a b : Int) : Bool :=
  match fn with
  | 0 => decide (a = b)
  | 1 => decide (a ≠ b)
  | 2 => decide (a < b)
  | 3 => decide (a ≤ b)
  | 4 => decide (b < a)
  | _ => decide (b ≤ a)

/-- The integer that a lane's operand stands for in a type. -/
def asInt (ty x : Nat) : Int := intVal (signedTy ty) (intBits ty) x

/-! ## Cross-lane unit (R131 to R142) -/

/-- Element j of width w of a packed register (R47). -/
def elemAt (w x j : Nat) : Nat := x / 2 ^ (w * j) % 2 ^ w

/-- The table of R105, element by element: operation, the types it has, and its result for elements a, b and c of width w, `sg` being whether
the type is signed; results count modulo 2^w. -/
def integerTable : List (ElemOp × List Nat × (Bool → Nat → Nat → Nat → Nat → Int)) :=
  [(elAdd, tysWP, fun _ _ a b _ => a + b),
   (elSub, tysWP, fun _ _ a b _ => a - b),
   (elMul, tysWP, fun _ _ a b _ => a * b),
   (elMulh, tysWP, fun sg w a b _ => intVal sg w a * intVal sg w b / 2 ^ w),
   (elMad, tysWP, fun _ _ a b c => a * b + c),
   (elShl, tysWP, fun _ w a n _ => if w ≤ n then 0 else a * 2 ^ n),
   (elShr, tysWP, fun _ w a n _ => if w ≤ n then 0 else a / 2 ^ n),
   (elSar, tysWP, fun _ w a n _ => if w ≤ n then (if 2 ^ (w - 1) ≤ a then -1 else 0) else intVal true w a / 2 ^ n),
   (elMin, tysWP, fun sg w a b _ => min (intVal sg w a) (intVal sg w b)),
   (elMax, tysWP, fun sg w a b _ => max (intVal sg w a) (intVal sg w b)),
   (elAbs, [0, 2, 8, 10], fun _ w a _ _ => (intVal true w a).natAbs),
   (elAdds, tysWP, fun sg w a b _ => max (intLo sg w) (min (intHi sg w) (intVal sg w a + intVal sg w b))),
   (elSubs, tysWP, fun sg w a b _ => max (intLo sg w) (min (intHi sg w) (intVal sg w a - intVal sg w b)))]

/-- The rows of R105 that act on the bits of one element: bit i of the result, in a type of width w. -/
def bitTable : List (ElemOp × (Nat → Nat → Nat → Nat → Bool)) :=
  [(elAnd, fun _ a b i => a.testBit i && b.testBit i), (elOr, fun _ a b i => a.testBit i || b.testBit i),
   (elXor, fun _ a b i => a.testBit i != b.testBit i), (elMov, fun _ _ b i => b.testBit i), (elBrev, fun w a _ i => a.testBit (w - 1 - i))]

/-- What a lane gives as a source: its register as it stands, zero for an empty lane (R132). -/
def given (c : Ctx) (ty l : Nat) : Nat := if (c.b.lane l).st = .empty then 0 else c.elem ty c.o.a.toNat l

/-- A lane count n (R133). -/
def countN (o : Opn) : Nat := if bitAt o.mods 7 then 32 / 2 ^ fld o.mods 6 0 else fld o.mods 6 0

/-- The source lanes of XSHF, XROT and XBCST for lane i (R134 to R136). -/
def shfLane (c : Ctx) (i : Nat) : Nat :=
  match c.o.fn.toNat with
  | 0 => (c.v c.o.b.toNat i).toNat % 32
  | 1 => if countN c.o ≤ i then i - countN c.o else i
  | 2 => if i + countN c.o < 32 then i + countN c.o else i
  | _ => i ^^^ countN c.o % 32

def rotLane (c : Ctx) (i : Nat) : Nat := (i + if c.o.fn = 0 then (c.s c.o.b.toNat).toNat else countN c.o) % 32

def bcstLane (c : Ctx) : Nat :=
  if c.o.fn = 1 then lowestLane c.act else if c.o.fn = 2 then highestLane c.act else (c.s c.o.b.toNat).toNat % 32

/-- The mask M of XBAL (R137). -/
def ballot (c : Ctx) : Lanes := laneMask fun l => c.act.getLsbD l && (c.b.regs.getP c.o.a.toNat).getLsbD l

/-! ## Control (R80 to R98) -/

/-- p[PRED] XOR NEG of a lane (R83). -/
def guardHolds (c : Ctx) (l : Nat) : Bool := (c.b.regs.getP c.o.mp.toNat).getLsbD l != c.o.mn

/-- A lane of the group takes a BRA or CALL; with UNI all go as the lowest lane does (R83). -/
def branchTakes (c : Ctx) (l : Nat) : Bool := if bitAt c.o.mods 0 then guardHolds c (lowestLane c.grp) else guardHolds c l

/-- The lanes of BRX that transfer, and a lane's target (R84). -/
def brxTakes (c : Ctx) : Bool :=
  if c.o.fn = 1 then decide (c.s c.o.b.toNat ≠ 0) else if c.o.fn = 2 then decide (c.s c.o.b.toNat = 0) else true

def brxTarget (c : Ctx) (l : Nat) : W64 := if c.o.fn = 3 ∨ c.o.fn = 5 then c.v2 c.o.a.toNat l else c.s c.o.a.toNat

/-- Where RET goes: the lane's LNK, w31 in a handler (R85, R379). -/
def retTarget (c : Ctx) (l : Nat) : W64 := if c.hand then c.b.regs.getW 31 else (c.b.lane l).lnk

/-- The return address is in LNK of the lanes that transfer, or in w31 of a handler, and registers and threads are otherwise as before. -/
def Links (s t : State) (c : Ctx) (takes : Nat → Bool) : Prop :=
  if c.hand then
    t.regs c.key = (if (List.range 32).any (fun l => c.grp.getLsbD l && takes l) then (s.regs c.key).setW 31 c.nextPc else s.regs c.key)
      ∧ ThreadsKept s t c.key
  else
    t.regs c.key = s.regs c.key ∧ ∀ l, let x := (s.mach.bundle c.key).lane l
      let y := (t.mach.bundle c.key).lane l
      y.st = x.st ∧ y.tidx = x.tidx ∧ y.sbuf = x.sbuf
        ∧ y.lnk = if c.grp.getLsbD l = true ∧ takes l = true then c.nextPc else x.lnk

end Sys2Proof.Claims

open Sys2Proof.Claims

/-- R30, R65, R101, R104: a vector instruction without enabled exceptions writes its operation's result in every lane that takes part, zero in
the lanes that ZM clears, and nothing elsewhere; FPSTAT takes the exceptions; with a lookahead window the results are left outstanding, and the
next of the operations' numbers is taken. R105: the integer operations give, element by element, the values of the table. -/
def Obligations.VectorOpsWriteEveryLane : Prop :=
  (∀ e ∈ vectorOps, ∀ o s r c, Issues (e.1 o) o s r c → NoTrap c (fun l => (laneResult e.2.1 e.2.2 c l).2) →
    Gives (e.1 o) s fun t => StandsAt t c c.nextPc ∧
      let x := flagged (s.regs c.key) c fun l => (laneResult e.2.1 e.2.2 c l).2
      if c.la e.2.1.arith = 0 then
        OnlyRegs s t c ∧ ElemWrite x (t.regs c.key) (destTy e.2.1 c) o.d.toNat c.written (orZero c fun l => (laneResult e.2.1 e.2.2 c l).1)
      else
        t.regs c.key = x ∧ ∃ y, y.id = s.mach.nextOp ∧ y.key = c.key ∧ y.lanes = c.written ∧
          y.win = (laneList c.grp).map (fun l => (l, c.la e.2.1.arith)) ∧
          OnlyRegs (s.but fun m => { m with nextOp := m.nextOp + 1, later := m.later ++ [y] }) t c ∧
          ElemWrite x (x.writeAll y.writes) (destTy e.2.1 c) o.d.toNat c.written (orZero c fun l => (laneResult e.2.1 e.2.2 c l).1)) ∧
  (∀ e ∈ integerTable, ∀ env : VEnv, env.ty ∈ e.2.1 → ∀ a b c j, j < intCount env.ty →
    let w := intBits env.ty
    ((elemAt w (e.1 env a b c).1 j : Nat) : Int) = e.2.2 (signedTy env.ty) w (elemAt w a j) (elemAt w b j) (elemAt w c j) % 2 ^ w
      ∧ (e.1 env a b c).2 = 0) ∧
  (∀ e ∈ bitTable, ∀ env : VEnv, env.ty < 4 → ∀ a b c i, i < intBits env.ty →
    (e.1 env a b c).1.testBit i = e.2 (intBits env.ty) a b i ∧ (e.1 env a b c).2 = 0) ∧
  (∀ env : VEnv, env.ty < 4 → ∀ a b c, a < 2 ^ intBits env.ty →
    elPopc env a b c = (((List.range (intBits env.ty)).filter fun i => a.testBit i).length, 0) ∧
    (elClz env a b c).2 = 0 ∧ (elClz env a b c).1 ≤ intBits env.ty ∧ a < 2 ^ (intBits env.ty - (elClz env a b c).1) ∧
    (a ≠ 0 → 2 ^ (intBits env.ty - 1 - (elClz env a b c).1) ≤ a))

/-! ## Scalar moves, special registers, PLOG -/

/-- R74, R75: SADD to SSET write to s[D] the value of the table and nothing else, and the group goes on after them. R74: SSEL takes s[A] where s[C] is not
zero, and operand B otherwise; without an extended form C is D. R76: SLI writes the sign-extended 7-bit immediate, or the literal, to s[D]. -/
def Obligations.ScalarUnitComputes : Prop :=
  (∀ e ∈ scalarResults, ∀ o s r c, Issues (e.1 o) o s r c →
     WritesRegs (e.1 o) s c fun x => x.sset c.hand o.d.toNat (e.2 o (c.s o.a.toNat) c.sB)) ∧
  (∀ o s r c, Issues (.ssel o) o s r c →
     WritesRegs (.ssel o) s c fun x =>
       x.sset c.hand o.d.toNat (if c.s (fourth o) ≠ 0 then c.s o.a.toNat else c.sB)) ∧
  (∀ o s r c, Issues (.sli o) o s r c →
     WritesRegs (.sli o) s c fun x =>
       x.sset c.hand o.d.toNat (if o.len = 0 then (BitVec.ofNat 7 o.b.toNat).signExtend 64 else o.imm))

/-- R77: SMOV moves between scalar, vector and LNK registers as FN says, and changes nothing else; SMOV.lane waits for a result still to be
written to the register it reads. Lanes of the control core's vector registers above lane
0 read as zero, which is the model's reading of R333 (log 23). R78: SRD reads the lane number and TIDX into a vector register, and every other special
register into a scalar one, CLK as the count or up to 64 more (R79; log 121). TIDX of the control core reads as all ones (R333). R78, R67, R68: SWR writes FPCTL when no reserved bit is set and RMODE
is legal, and raises ILL otherwise, and clears in FPSTAT the flags written with one. R65: FPSTAT changes in program order, so SRD and SWR of it wait
for the flags of earlier instructions. -/
def Obligations.SpecialRegistersAreMoved : Prop :=
  (∀ o s r c, Issues (.smov o) o s r c →
     (o.fn = 0 → WritesRegs (.smov o) s c fun x => x.sset c.hand o.d.toNat (c.s o.a.toNat)) ∧
     (o.fn = 1 → s.mach.regPending c.key o.a.toNat ((c.s o.b.toNat).toNat % 32) = true → exec (.smov o) s = .next s) ∧
     (o.fn = 1 → s.mach.regPending c.key o.a.toNat ((c.s o.b.toNat).toNat % 32) = false → WritesRegs (.smov o) s c fun x =>
       x.sset c.hand o.d.toNat (if c.ctl = true ∧ (c.s o.b.toNat).toNat % 32 ≠ 0 then 0 else (c.v o.a.toNat ((c.s o.b.toNat).toNat % 32)).setWidth 64)) ∧
     (o.fn = 2 → WritesLanes (.smov o) s c 0 fun _ => (c.s o.a.toNat).toNat % 2 ^ 32) ∧
     (o.fn = 3 → WritesLanes (.smov o) s c 3 fun l => (c.b.lane l).lnk.toNat) ∧
     (o.fn = 4 → Gives (.smov o) s fun t => MemoryKept s t ∧ SystemKept s t c.key ∧ RestKept s t c ∧ LanesKept s t c ∧ StandsAt t c c.nextPc ∧
       t.regs c.key = s.regs c.key ∧ ∀ l, let x := (s.mach.bundle c.key).lane l
         let y := (t.mach.bundle c.key).lane l
         y.st = x.st ∧ y.tidx = x.tidx ∧ y.sbuf = x.sbuf ∧
           y.lnk = if c.written.getLsbD l = true then (if c.act.getLsbD l = true then c.v2 o.a.toNat l else 0) else x.lnk)) ∧
  (∀ o s r c, Issues (.srd o) o s r c →
     (o.b = 1 → WritesLanes (.srd o) s c 0 fun l => l) ∧
     (o.b = 2 → WritesLanes (.srd o) s c 0 fun l => if c.ctl then 2 ^ 32 - 1 else (c.b.lane l).tidx % 2 ^ 32) ∧
     (o.b = 18 → s.mach.flagsDue c.key = true → exec (.srd o) s = .next s) ∧
     (o.b ≠ 1 → o.b ≠ 2 → (o.b = 18 → s.mach.flagsDue c.key = false) → ∃ x, WritesRegs (.srd o) s c (fun y => y.sset c.hand o.d.toNat x) ∧
       (o.b = 0 → x = 32) ∧ (o.b = 9 → x = .ofNat 64 c.g.depth) ∧ (o.b = 10 → x = .ofNat 64 (c.core % 96)) ∧ (o.b = 11 → x = .ofNat 64 c.die)
       ∧ (o.b = 6 → x = .ofNat 64 c.g.gx) ∧ (o.b = 7 → x = .ofNat 64 c.g.gy) ∧ (o.b = 8 → x = .ofNat 64 c.g.gz)
       ∧ (o.b = 3 → x = .ofNat 64 (c.tm.idx % c.g.gx)) ∧ (o.b = 4 → x = .ofNat 64 (c.tm.idx / c.g.gx % c.g.gy))
       ∧ (o.b = 5 → x = .ofNat 64 (c.tm.idx / c.g.gx / c.g.gy))
       ∧ (o.b = 12 → x = .ofNat 64 s.mach.pkg) ∧ (o.b = 13 → x = .ofNat 64 c.g.cls) ∧ (o.b = 15 → x = if c.g.world then 1 else 0)
       ∧ (o.b = 14 → c.ctl = false → x = .ofNat 64 (c.g.roletab.toNat / 4 ^ c.b.bnum % 4)) ∧ (o.b = 16 → ∃ k ≤ 64, x = .ofNat 64 (s.mach.clk + k))
       ∧ (o.b = 17 → x = c.b.regs.fpctl.setWidth 64) ∧ (o.b = 18 → x = c.b.regs.fpstat.setWidth 64))) ∧
  (∀ o s r c, Issues (.swr o) o s r c →
     (o.b = 17 → fld (c.s o.a.toNat) 63 13 = 0 → fld (c.s o.a.toNat) 7 5 = 0 → fld (c.s o.a.toNat) 2 0 ≤ 4 →
       WritesRegs (.swr o) s c fun x => { x with fpctl := (c.s o.a.toNat).setWidth 32 }) ∧
     (o.b = 17 → ¬ (fld (c.s o.a.toNat) 63 13 = 0 ∧ fld (c.s o.a.toNat) 7 5 = 0 ∧ fld (c.s o.a.toNat) 2 0 ≤ 4) →
       exec (.swr o) s = .next { s with mach := (c.leaveResume s.mach).raise c.q c.run (c.trap clsIll 0x60) }) ∧
     (o.b = 18 → s.mach.flagsDue c.key = true → exec (.swr o) s = .next s) ∧
     (o.b = 18 → s.mach.flagsDue c.key = false → WritesRegs (.swr o) s c fun x =>
       { x with fpstat := .ofNat 32 (x.fpstat.toNat - (x.fpstat.toNat &&& (c.s o.a.toNat).toNat % 64)) }))

/-! ## Vector predicates, selections, immediates, block conversions -/

/-- R91: PLOG writes a Boolean function of two predicates, or the low bits of a scalar register, in the lanes that take part; p0 discards it. R106, R117:
VCMP and FCMP write a predicate in the lanes written: the condition where a lane takes part, zero where ZM clears it; FCMP without enabled exceptions
adds its exceptions to FPSTAT. -/
def Obligations.PredicatesAreWritten : Prop :=
  (∀ o s r c, Issues (.plog o) o s r c →
     WritesRegs (.plog o) s c fun x => x.putP o.d.toNat c.written (c.act &&&
       if o.fn = 1 then (c.s o.a.toNat).setWidth 32
       else laneMask fun l => (if 2 ≤ o.len.toNat then o.mods.toNat else 8).testBit
         (2 * boolNat ((c.b.regs.getP o.a.toNat).getLsbD l) + boolNat ((c.b.regs.getP o.b.toNat).getLsbD l)))) ∧
  (∀ o s r c, Issues (.vcmp o) o s r c →
    WritesRegs (.vcmp o) s c fun x => x.putP o.d.toNat c.written (c.act &&& laneMask fun l =>
      intCond o.fn.toNat (asInt (typeOf o 0) (c.elem (typeOf o 0) o.a.toNat l)) (asInt (typeOf o 0) (c.elemB (typeOf o 0) l)))) ∧
  (∀ o s r c, Issues (.fcmp o) o s r c →
    let e := fcmpRule.env o c.b.regs.fpctl
    let res := fun l => fcmp o.fn.toNat (e.read (c.elem e.ty o.a.toNat l)) (e.read (c.elemB e.ty l))
    NoTrap c (fun l => (res l).2) →
    WritesRegs (.fcmp o) s c fun x =>
      (flagged x c fun l => (res l).2).putP o.d.toNat c.written (c.act &&& laneMask fun l => (res l).1))

/-- R134 to R136: XSHF, XROT and XBCST write in every lane that takes part what the source lane held, all sources being read first; XBCST.first and
XBCST.last write nothing at all when no lane takes part (for ZM the model's reading, log 122). R137: XBAL gathers a
predicate over the lanes that take part: the mask, its upper half (zero on this part), its count, or the mask in each lane. -/
def Obligations.CrossLaneResults : Prop :=
  (∀ o s r c, Issues (.xshf o) o s r c → WritesLanes (.xshf o) s c (typeOf o 0) fun i => given c (typeOf o 0) (shfLane c i)) ∧
  (∀ o s r c, Issues (.xrot o) o s r c → WritesLanes (.xrot o) s c (typeOf o 0) fun i => given c (typeOf o 0) (rotLane c i)) ∧
  (∀ o s r c, Issues (.xbcst o) o s r c → o.fn = 0 → WritesLanes (.xbcst o) s c (typeOf o 0) fun _ => given c (typeOf o 0) (bcstLane c)) ∧
  (∀ o s r c, Issues (.xbcst o) o s r c → o.fn ≠ 0 → Gives (.xbcst o) s fun t => OnlyRegs s t c ∧ StandsAt t c c.nextPc ∧
    ElemWrite (s.regs c.key) (t.regs c.key) (typeOf o 0) o.d.toNat (unlessEmpty c) (orZero c fun _ => given c (typeOf o 0) (bcstLane c))) ∧
  (∀ o s r c, Issues (.xbal o) o s r c →
     (o.fn = 0 → WritesRegs (.xbal o) s c fun x => x.sset c.hand o.d.toNat ((ballot c).setWidth 64)) ∧
     (o.fn = 1 → WritesRegs (.xbal o) s c fun x => x.sset c.hand o.d.toNat 0) ∧
     (o.fn = 2 → WritesRegs (.xbal o) s c fun x => x.sset c.hand o.d.toNat (.ofNat 64 (popCount (ballot c)))) ∧
     (o.fn = 3 → WritesLanes (.xbal o) s c 0 fun _ => (ballot c).toNat))

/-- R138 to R142: XBCNT writes the selected lanes as a predicate; XRED writes the reduction in every lane that takes part and XSCAN each lane's prefix,
their exceptions going to FPSTAT, and neither writes when no lane takes part (for ZM the model's reading, log 122). R142: XMOV, in a handler, reads a lane or a
predicate of the trapped bundle, zero for an empty lane, and writes a lane or the predicate of the lanes that hold a thread. -/
def Obligations.SelectReduceScanMove : Prop :=
  (∀ o s r c, Issues (.xbcnt o) o s r c →
    WritesRegs (.xbcnt o) s c fun x => x.putP o.d.toNat c.written (c.act &&& laneMask fun l =>
      (topK (fun i => c.elem (typeOf o 1) o.a.toNat i) (decide (o.fn = 1)) (regBits (typeOf o 1)) (laneList c.act) []
        (min (c.s o.b.toNat).toNat (laneList c.act).length)).contains l)) ∧
  (∀ o s r c, Issues (.xred o) o s r c →
    let x := reduceTree (redEnv c) 5 c.present 0
    NoTrap c (fun _ => x.2) →
    Gives (.xred o) s fun t => OnlyRegs s t c ∧ StandsAt t c c.nextPc ∧
      ElemWrite (flagged (s.regs c.key) c fun _ => x.2) (t.regs c.key) (typeOf o 0) o.d.toNat (unlessEmpty c) (orZero c fun _ => x.1.getD 0)) ∧
  (∀ o s r c, Issues (.xscan o) o s r c →
    let x := scanSteps (redEnv c) 5 0 c.present 0
    let id := identityOf o.fn.toNat (typeOf o 0)
    NoTrap c (fun _ => x.2) →
    Gives (.xscan o) s fun t => OnlyRegs s t c ∧ StandsAt t c c.nextPc ∧
      ElemWrite (flagged (s.regs c.key) c fun _ => x.2) (t.regs c.key) (typeOf o 0) o.d.toNat (unlessEmpty c) (orZero c fun l =>
        if bitAt o.mods 0 = true then (if l = 0 then id else (x.1.getD (l - 1) none).getD id) else (x.1.getD l none).getD 0)) ∧
  (∀ o s r c, Issues (.xmov o) o s r c →
     let l := (c.s o.b.toNat).toNat % 32
     (o.fn = 0 → WritesRegs (.xmov o) s c fun x => x.setW o.d.toNat (.ofNat 64 (given c 0 l))) ∧
     (o.fn = 1 → WritesRegs (.xmov o) s c fun x => if c.b.live.getLsbD l then x.setV o.d.toNat l ((c.s o.a.toNat).setWidth 32) else x) ∧
     (o.fn = 2 → WritesRegs (.xmov o) s c fun x => x.setW o.d.toNat (.ofNat 64 (given c 2 l))) ∧
     (o.fn = 3 → WritesRegs (.xmov o) s c fun x => if c.b.live.getLsbD l then x.setV2 o.d.toNat l (c.s o.a.toNat) else x) ∧
     (o.fn = 4 → WritesRegs (.xmov o) s c fun x =>
       x.setW o.d.toNat ((c.b.regs.getP o.a.toNat &&& laneMask fun k => decide ((c.b.lane k).st ≠ .empty)).setWidth 64)) ∧
     (o.fn = 5 → WritesRegs (.xmov o) s c fun x => x.putP o.d.toNat c.b.live ((c.s o.a.toNat).setWidth 32)))

/-! ## Control -/

/-- R83 to R87: NOP has no effect; BRA, BRX without a call, and RET send each lane that transfers to its target and the other lanes of the group past the
instruction, and change nothing else. R83, R84: CALL and the calling forms of BRX also put the address after the instruction into LNK of the lanes
that transfer. R84, R85: a branch through a register, or a RET, some lane of which would transfer to an address that is no multiple of 4 raises ALIGN,
and nothing else happens. -/
def Obligations.BranchesTransfer : Prop :=
  (∀ o s r c, Issues (.nop o) o s r c → WritesRegs (.nop o) s c id) ∧
  (∀ o s r c, Issues (.bra o) o s r c → Gives (.bra o) s fun t => OnlyRegs s t c ∧ t.regs c.key = s.regs c.key ∧
    Scattered t c fun l => if branchTakes c l then c.pc + o.imm else c.nextPc) ∧
  (∀ o s r c, Issues (.brx o) o s r c → o.fn.toNat ≤ 3 → (brxTakes c = true → ∀ l, c.grp.getLsbD l = true → (brxTarget c l).toNat % 4 = 0) →
    Gives (.brx o) s fun t => OnlyRegs s t c ∧ t.regs c.key = s.regs c.key ∧
      Scattered t c fun l => if brxTakes c then brxTarget c l else c.nextPc) ∧
  (∀ o s r c, Issues (.ret o) o s r c → (∀ l, c.grp.getLsbD l = true → guardHolds c l = true → (retTarget c l).toNat % 4 = 0) →
    Gives (.ret o) s fun t => OnlyRegs s t c ∧ t.regs c.key = s.regs c.key ∧
      Scattered t c fun l => if guardHolds c l then retTarget c l else c.nextPc) ∧
  (∀ o s r c, Issues (.call o) o s r c → Gives (.call o) s fun t => MemoryKept s t ∧ SystemKept s t c.key ∧ RestKept s t c ∧ LanesKept s t c ∧
    Links s t c (branchTakes c) ∧ Scattered t c fun l => if branchTakes c l then c.pc + o.imm else c.nextPc) ∧
  (∀ o s r c, Issues (.brx o) o s r c → 4 ≤ o.fn.toNat → (∀ l, c.grp.getLsbD l = true → (brxTarget c l).toNat % 4 = 0) →
    Gives (.brx o) s fun t => MemoryKept s t ∧ SystemKept s t c.key ∧ RestKept s t c ∧ LanesKept s t c ∧ Links s t c (fun _ => true) ∧
      Scattered t c fun l => brxTarget c l) ∧
  (∀ o s r c, Issues (.brx o) o s r c → brxTakes c = true → (∃ l, c.grp.getLsbD l = true ∧ (brxTarget c l).toNat % 4 ≠ 0) →
    ∃ x, exec (.brx o) s = .next { s with mach := (c.leaveResume s.mach).raise c.q c.run (c.trapWith clsAlign 0x10 x) }) ∧
  (∀ o s r c, Issues (.ret o) o s r c → (∃ l, c.grp.getLsbD l = true ∧ guardHolds c l = true ∧ (retTarget c l).toNat % 4 ≠ 0) →
    ∃ x, exec (.ret o) s = .next { s with mach := (c.leaveResume s.mach).raise c.q c.run (c.trapWith clsAlign 0x10 x) })

namespace Sys2Proof.Claims

/-! ## The end of threads, rejoin masks, COMPACT, sweeps, block conversions (R35, R80 to R93, R101, R122, R123) -/

/-- Lanes of the group that an EXIT ends (R85). -/
def ends (c : Ctx) (l : Nat) : Bool := c.grp.getLsbD l && guardHolds c l

/-- A lane is parked at rejoin mask k. -/
def atJoin (b : Bundle) (k l : Nat) : Bool := match (b.lane l).st with | .join i _ => decide (i = k) | _ => false

/-- Every lane enrolled in mask k is parked at it once the group has reached its JWAIT (R89). -/
def allJoined (c : Ctx) (k : Nat) : Bool :=
  (List.range 32).all fun l => !(c.b.regs.getJ k).getLsbD l || c.grp.getLsbD l || atJoin c.b k l

/-- A rejoin mask after the lanes of an EXIT have left it, before the release check (R85). -/
def leftMask (c : Ctx) (k : Nat) : Lanes := c.b.regs.getJ k &&& ~~~laneMask (ends c)

/-- The release check of R89 lets the lanes of mask k go after an EXIT: some lane is still enrolled, and all of them are parked at it. -/
def exitFrees (c : Ctx) (k : Nat) : Bool :=
  decide (leftMask c k ≠ 0) && (List.range 32).all fun l => !(leftMask c k).getLsbD l || atJoin c.b k l

/-- Length of the JWAIT at which a lane is parked. -/
def joinSize (x : Lane) : Nat := match x.st with | .join _ n => n | _ => 4

/-- A lane but for its state and where it stands. -/
def SameThread (x y : Lane) : Prop := y.tidx = x.tidx ∧ y.lnk = x.lnk ∧ y.sbuf = x.sbuf

/-- The source lanes of COMPACT in the order in which they are packed (R93). -/
def packed (c : Ctx) : List Nat :=
  if c.o.fn = 1 then sortByKey (fun l => (c.v c.o.b.toNat l).toNat) (laneList c.act)
  else (laneList c.act).filter fun l => (c.b.regs.getP c.o.b.toNat).getLsbD l

/-- Place of a lane among those that take part. -/
def placeOf (c : Ctx) (l : Nat) : Nat := (laneList c.act).idxOf l

/-- Lanes that COMPACT writes. -/
def compacted (c : Ctx) : Lanes :=
  laneMask fun l => if c.act.getLsbD l then decide (placeOf c l < (packed c).length) else c.written.getLsbD l

/-- One operation is outstanding besides those before it, which keep all but their lookahead windows. -/
def Queued (s t : State) (x : Op) : Prop := ∃ xs, t.mach.ops = xs ++ [x] ∧ xs.map Op.bare = s.mach.ops.map Op.bare

/-- No operation more is outstanding. -/
def NoneQueued (s t : State) : Prop := t.mach.ops.map Op.bare = s.mach.ops.map Op.bare

/-- Where an element of a sweep lies in the scratchpad (R34): base register value, byte step, iteration, element size and lane. -/
def sweepAt (m : Mach) (key : Nat) (base : W64) (step : Int) (it size l : Nat) : Nat :=
  (m.team (m.bundle key).team).phys (coreOfKey key) ((base.toNat : Int) + it * step + (l * size : Nat)).toNat

/-- One access of a sweep, not performed yet. -/
def sweepAccess (m : Mach) (key : Nat) (base : W64) (step : Int) (it size l : Nat) (k : Nat → PartKind) : Part :=
  let a := sweepAt m key base step it size l
  ⟨l, .scratch, a, size, .ofNat 64 (winBase + ((base.toNat : Int) + it * step + (l * size : Nat)).toNat), k a, false, 0, 0, false⟩

/-- The reads of an iteration (R34, R35): each lane that takes part reads its elements of A, B and, with four operands, D. -/
def sweepTakes (m : Mach) (key : Nat) (v : VRule) (w : Sweep) (size : Nat) : List Part :=
  let rd := fun (_ : Nat) => PartKind.read []
  (laneList w.act).flatMap fun l =>
    (if v.useA then [sweepAccess m key w.offA (sweepStep w.o 35) w.it size l rd] else [])
      ++ (if v.usesB w.o then [sweepAccess m key w.offB (sweepStep w.o 19) w.it size l rd] else [])
      ++ if v.useC then [sweepAccess m key w.offD (sweepStep w.o 51) w.it size l rd] else []

/-- The writes of an iteration: results in the lanes that take part, zero in those that ZM clears. -/
def sweepGives (m : Mach) (key : Nat) (w : Sweep) (size : Nat) (res : Nat → Nat) : List Part :=
  let wr := fun l x => sweepAccess m key w.offD (sweepStep w.o 51) w.it size l fun a => .write (cellsAt a (leBytes size x))
  (laneList w.act).map (fun l => wr l (res l)) ++ (laneList (w.wrt &&& ~~~w.act)).map fun l => wr l 0

/-- The accesses of half an iteration, as one operation. -/
def sweepOpOf (m : Mach) (key size : Nat) (ps : List Part) : Op :=
  { id := m.nextOp, key := key, acq := false, rel := false, serial := false, dest := .sweep, size := size, win := [], parts := ps
    counted := false, asid := 0 }

/-- An iteration begins: its reads are outstanding, or its writes where no lane takes part. -/
def sweepOpens (m : Mach) (key : Nat) (v : VRule) (w : Sweep) (size : Nat) : Op :=
  sweepOpOf m key size (if w.act = 0 then sweepGives m key w size fun _ => 0 else sweepTakes m key v w size)

/-- What a lane's accesses of a stream have read: the element of A, B or D by its place among the lane's reads. -/
def sweepRead (v : VRule) (w : Sweep) (ps : List Part) (l : Nat) : Nat × Nat × Nat :=
  let xs := (ps.filter fun p => decide (p.lane = l)).map fun p => p.got.toNat
  let a := if v.useA then 1 else 0
  let b := if v.usesB w.o then 1 else 0
  (if v.useA then xs.getD 0 0 else 0, if v.usesB w.o then xs.getD a 0 else 0, xs.getD (a + b) 0)

/-- The machine with one operation more outstanding; with one operation more counted in a class (R182). -/
def addOp (m : Mach) (x : Op) : Mach := { m with ops := m.ops ++ [x] }
def skipId (m : Mach) : Mach := { m with nextOp := m.nextOp + 1 }
def addOut (m : Mach) (key cls : Nat) : Mach :=
  { m.modBundle key fun b => { b with outs := b.outs ++ [⟨m.nextOp, cls, false⟩] } with nextOp := m.nextOp + 1 }

/-- A bundle as one of its operations completes: the operation retires behind those of its class before it (R182), and marks of it are ready for
report (R194). -/
def completed (b : Bundle) (id : Nat) : Bundle := ({ b with outs := finishOut id b.outs }).ripen id
def dropOut (m : Mach) (key id : Nat) : Mach := m.modBundle key fun b => completed b id

/-- No access but of die scope orders others (R174), so that performing one leaves no note of order behind. -/
def DieScope (s : State) (x : Op) : Prop :=
  s.mach.early = [] ∧ (∀ y ∈ s.mach.ops, y.acq = true → y.scope = 0) ∧ (x.rel = true → x.scope = 0)

/-- What the performance of a part leaves alone, beside the memory it writes: all but the operations outstanding, of which `n` are new, the notes of
their order (R174), and its own bundle. -/
def PartFrame (s t : State) (x : Op) (n : Nat) : Prop :=
  OthersKept s t x.key ∧ t = { s with mach := { s.mach with
    ops := t.mach.ops, bundles := t.mach.bundles, early := t.mach.early, nextOp := s.mach.nextOp + n
    dev := t.mach.dev, host := t.mach.host, scratch := t.mach.scratch } }

/-- Part `i` of operation `x` is done with data `v`. -/
def withPart (x : Op) (i : Nat) (p : Part) (v : W64) : List Part := x.parts.set i { p with done := true, got := v }

/-- The bytes that a read takes: its thread's own buffered ones, else memory (R179). -/
def readValue (s : State) (p : Part) (own : List (Nat × Byte)) : Nat :=
  leNat ((List.range p.size).map fun k => ((own.find? fun x => decide (x.1 = p.addr + k)).map (·.2)).getD (s.mach.readByte p.space (p.addr + k)))

end Sys2Proof.Claims

/-- R85, R88, R89: EXIT ends the lanes whose guard holds and takes them out of every rejoin mask, and the other lanes of the group go on. Then the
release check: a mask whose lanes are all parked at it is cleared, and its lanes go on, each after its own JWAIT; every other mask and every other
lane stays as it was. R279: the latch of a bundle without threads is freed. R334: the control core becomes IDLE when its last thread ends with no
operation counted. All this where no barrier waits for every thread (R323) and no store is buffered (R180); nothing else changes. -/
def Obligations.ExitEndsThreads : Prop :=
  ∀ o s r c, Issues (.exit o) o s r c → c.g.det = false → (∀ k < 16, (c.tm.bar k).mode ≠ 1) →
    Gives (.exit o) s fun t =>
      let old := fun l => (s.mach.bundle c.key).lane l
      let new := fun l => (t.mach.bundle c.key).lane l
      let last := c.b.live &&& ~~~laneMask (ends c) = 0
      MemoryKept s t ∧ Scattered t c (fun _ => c.nextPc) ∧
      (∃ j, t.regs c.key = { s.regs c.key with j := j }) ∧
      (∀ k < 8, (t.regs c.key).getJ k = if exitFrees c k then 0 else leftMask c k) ∧
      (∀ k, 8 ≤ k → (t.regs c.key).getJ k = (s.regs c.key).getJ k) ∧
      (∀ l < 32, SameThread (old l) (new l) ∧
        (ends c l = true → (new l).st = .exited) ∧
        (∀ k < 8, exitFrees c k = true → (leftMask c k).getLsbD l = true →
          (new l).st = .runnable ∧ (c.grp.getLsbD l = false → (new l).pc = (old l).pc + BitVec.ofNat 64 (joinSize (old l)))) ∧
        ((∀ k < 8, exitFrees c k = true → (leftMask c k).getLsbD l = false) → ends c l = false →
          (new l).st = (old l).st ∧ (c.grp.getLsbD l = false → new l = old l))) ∧
      RestKept (s.but fun m =>
        let m := m.modBundle c.key fun b => if last then { b with latch := none } else b
        if c.ctl = true ∧ last ∧ (m.core c.core).cst = 1 ∧ c.b.outs = [] then m.modCore c.core fun x => { x with cst := 0 } else m) t c

/-- R88 to R90, R82: JENROL adds the group to a mask, and in legacy mode has no effect. JWAIT sends the lanes of its group that are not enrolled past
it and parks the others at it; once every enrolled lane of the bundle is parked on the mask, all of them, those of other groups too, go on, each after
its own JWAIT, and the mask is cleared; the other masks and lanes stay as they were. JMOV moves a mask, and traps while a lane is parked on the one it
would write. -/
def Obligations.RejoinMasks : Prop :=
  (∀ o s r c, Issues (.jenrol o) o s r c →
    WritesRegs (.jenrol o) s c fun x => if c.g.legacy then x else x.setJ o.d.toNat (x.getJ o.d.toNat ||| c.grp)) ∧
  (∀ o s r c, Issues (.jwait o) o s r c → c.g.legacy = true → WritesRegs (.jwait o) s c id) ∧
  (∀ o s r c, Issues (.jwait o) o s r c → c.g.legacy = false → Gives (.jwait o) s fun t =>
    let k := o.d.toNat
    let j := c.b.regs.getJ k
    let old := fun l => (s.mach.bundle c.key).lane l
    let new := fun l => (t.mach.bundle c.key).lane l
    MemoryKept s t ∧ SystemKept s t c.key ∧ RestKept s t c ∧ t.mach.run? c.q = none ∧
      t.regs c.key = (if j ≠ 0 ∧ allJoined c k = true then (s.regs c.key).setJ k 0 else s.regs c.key) ∧
      ∀ l < 32, SameThread (old l) (new l) ∧
        if c.grp.getLsbD l = true then
          if j.getLsbD l = false then (new l).st = (old l).st ∧ (new l).pc = c.nextPc
          else if allJoined c k = true then (new l).st = .runnable ∧ (new l).pc = c.nextPc
          else (new l).st = .join k c.size ∧ (new l).pc = c.pc
        else if j.getLsbD l = true ∧ allJoined c k = true then
          (new l).st = .runnable ∧ (new l).pc = (old l).pc + BitVec.ofNat 64 (joinSize (old l))
        else new l = old l) ∧
  (∀ o s r c, Issues (.jmov o) o s r c →
    (o.fn = 1 → WritesRegs (.jmov o) s c fun x => x.sset c.hand o.d.toNat ((x.getJ o.a.toNat).setWidth 64)) ∧
    (o.fn ≠ 1 → (∀ l < 32, atJoin c.b o.d.toNat l = false) → WritesRegs (.jmov o) s c fun x =>
      x.setJ o.d.toNat (if o.fn = 2 then (c.s o.a.toNat).setWidth 32 &&& c.b.live else x.getJ o.a.toNat)) ∧
    (o.fn ≠ 1 → (∃ l < 32, atJoin c.b o.d.toNat l = true) →
      exec (.jmov o) s = .next { s with mach := (c.leaveResume s.mach).raise c.q c.run (c.trap clsRole 0x68) }))

/-- R107, R111: VSEL writes A where p[C] is set and B elsewhere, VLI its immediate or literal, in every lane that takes part. R92, R93: MATCH writes in
each lane that takes part the lanes of equal key, or its rank among them; COMPACT packs the selected lanes, or all in the order of their keys, into
the lowest lanes that take part, and leaves the rest of the destination. -/
def Obligations.LanesAreSelectedAndPacked : Prop :=
  (∀ o s r c, Issues (.vsel o) o s r c →
    WritesLanes (.vsel o) s c (typeOf o 0) fun l =>
      if (c.b.regs.getP o.c.toNat).getLsbD l then c.elem (typeOf o 0) o.a.toNat l else c.elemB (typeOf o 0) l) ∧
  (∀ o s r c, Issues (.vli o) o s r c →
    WritesLanes (.vli o) s c (typeOf o 0) fun _ =>
      (if o.len = 0 then (BitVec.ofNat 7 o.b.toNat).signExtend 64 else o.imm).toNat) ∧
  (∀ o s r c, Issues (.matchKeys o) o s r c →
    let same := fun i => laneMask fun j => c.act.getLsbD j && decide (c.elem (typeOf o 0) o.a.toNat j = c.elem (typeOf o 0) o.a.toNat i)
    (o.fn = 0 → WritesLanes (.matchKeys o) s c 0 fun i => (same i).toNat) ∧
    (o.fn = 1 → WritesLanes (.matchKeys o) s c 0 fun i => popCount (laneMask fun j => (same i).getLsbD j && decide (j < i)))) ∧
  (∀ o s r c, Issues (.compact o) o s r c →
    Gives (.compact o) s fun t => OnlyRegs s t c ∧ StandsAt t c c.nextPc ∧
      ElemWrite (s.regs c.key) (t.regs c.key) (typeOf o 0) o.d.toNat (compacted c)
        (orZero c fun l => c.elem (typeOf o 0) o.a.toNat ((packed c).getD (placeOf c l) 0)))

/-- R34, R35, R128: a sweep of count 0, or that writes no lane, has no effect, and one with an element outside the allocation or out of line traps with
no effect. Otherwise its group stays at it while it makes one iteration after the other: the reads of an iteration are outstanding; as the last of
them returns, the exceptions go to FPSTAT and, unless one is enabled, the writes are outstanding, the operation's result for each lane that takes part
and zero in those that ZM clears; as the last of those is performed, the next iteration begins, or the group goes on after the sweep. -/
def Obligations.SweepWritesItsElements : Prop :=
  (∀ opc v f, sweepElem opc.toNat = some (v, f) → ∀ o s r c, Issues (.sweep opc o) o s r c →
    let size := sweepSize (v.env o c.b.regs.fpctl).ty
    (sweepCount o = 0 ∨ c.written = 0 → WritesRegs (.sweep opc o) s c id) ∧
    (sweepCount o ≠ 0 → c.written ≠ 0 → ∀ y ys, c.sweepConds v size = y :: ys →
      exec (.sweep opc o) s = .next { s with mach := (c.leaveResume s.mach).raise c.q c.run (c.trapWith y.cls y.cause (y :: ys)) }) ∧
    (sweepCount o ≠ 0 → c.written ≠ 0 → c.sweepConds v size = [] →
      let w : Sweep := ⟨v.opc, c.pc, o, c.grp, c.act, c.written, c.sweepFrom, c.s o.d.toNat, c.s o.a.toNat, c.s o.b.toNat⟩
      let x := sweepOpens s.mach c.key v w size
      Gives (.sweep opc o) s fun t => Scattered t c (fun _ => c.pc) ∧ t.regs c.key = s.regs c.key ∧ Queued s t x ∧
        OnlyRegs (s.but fun m => skipId (addOp (m.modBundle c.key fun b => { b with sweep := some w }) x)) t c)) ∧
  (∀ op unit fresh s x p b w v f, s.mach.performable op unit = some (x, p) → x.dest = .sweep → p.kind = .read [] → p.lane < 32 →
    s.mach.damaged p.space p.addr p.size = false → DieScope s x → (∀ y ∈ x.parts, y.kind = .read []) → s.mach.bundle? x.key = some b →
    b.sweep = some w → sweepElem w.opc = some (v, f) → x.counted = false →
    let parts := withPart x unit p (.ofNat 64 (readValue s p []))
    let e := { v.env w.o b.regs.fpctl with sty := 0 }
    let res := fun l => let y := sweepRead v w parts l; f e y.1 y.2.1 y.2.2
    let fl := orFlags ((laneList w.act).map fun l => (l, (res l).2))
    let size := sweepSize e.ty
    if parts.all Part.done = false then
      Gives (.loadDataReturn op unit fresh false) s fun t => MemoryKept s t ∧ PartFrame s t x 0 ∧ t.mach.bundle? x.key = some b ∧
        t.mach.ops = s.mach.ops.map fun y => if y.id = x.id then { x with parts := parts } else y
    else
      (∀ l, w.act.getLsbD l = true → enabledOf b.regs.fpctl (res l).2 = 0) →
      Gives (.loadDataReturn op unit fresh false) s fun t => MemoryKept s t ∧ PartFrame s t x 1 ∧
        t.mach.bundle? x.key = some { b with regs := b.regs.raiseFlags fl } ∧
        t.mach.ops = (s.mach.ops.filter fun y => decide (y.id ≠ x.id))
          ++ [sweepOpOf s.mach x.key size (sweepGives s.mach x.key w size fun l => (res l).1)]) ∧
  (∀ op unit s x p b w v f cells, s.mach.performable op unit = some (x, p) → x.dest = .sweep → p.kind = .write cells →
    DieScope s x → s.mach.bundle? x.key = some b → b.sweep = some w → sweepElem w.opc = some (v, f) → x.counted = false →
    let parts := withPart x unit p p.got
    let size := sweepSize (v.env w.o b.regs.fpctl).ty
    Gives (.writePerformed op unit) s fun t =>
      (∀ sp a, t.mach.readByte sp a =
        if sp = p.space then ((cells.reverse.find? fun z => decide (z.1 = a)).map (·.2)).getD (s.mach.readByte sp a) else s.mach.readByte sp a) ∧
      t.regs x.key = s.regs x.key ∧
      let rest := s.mach.ops.filter fun y => decide (y.id ≠ x.id)
      if parts.all Part.done = false then
        PartFrame s t x 0 ∧ t.mach.bundle? x.key = some b ∧ t.mach.ops = s.mach.ops.map fun y => if y.id = x.id then { x with parts := parts } else y
      else if w.it + 1 < sweepCount w.o then
        let w' := { w with it := w.it + 1 }
        PartFrame s t x 1 ∧ t.mach.bundle? x.key = some { b with sweep := some w' } ∧ t.mach.ops = rest ++ [sweepOpens s.mach x.key v w' size]
      else
        PartFrame s t x 0 ∧ t.mach.ops = rest ∧ (t.mach.bundle x.key).sweep = none ∧
          ∀ l < 32, (t.mach.bundle x.key).lane l =
            if w.grp.getLsbD l = true ∧ (b.lane l).pc = w.pc ∧ (b.lane l).st = .runnable then
              { b.lane l with pc := w.pc + .ofNat 64 (4 * sizeWords w.o) }
            else b.lane l)

/-- R122, R123: FCVT.blk gives each lane that takes part its element of the block's encoding with the scale above it, lanes that take no part counting
as +0 and not being written, with ZM too; FCVT.dec decodes each element, times its scale, to f32, an overflow giving an infinity in every rounding
mode. Where FPCTL's DAZ and FTZ act in them is the model's reading (log 24). Both need a descriptor in the slot, and no enabled exception; without such a
descriptor they raise OPERAND. -/
def Obligations.BlockConversionsWriteLanes : Prop :=
  (∀ o s r c, Issues (.fcvtBlk o) o s r c →
    c.slotTrap o.b.toNat (fun x => decide (4 ≤ slotEtype x ∧ slotEtype x ≤ 6 ∧ slotSmode x = 1)) = none →
    let src := fmtOf (fld o.mods 3 0)
    let blk := convertBlock src (etypeFmt (slotEtype (c.g.slot o.b.toNat))) (c.slotMode o.b.toNat) (bitAt c.b.regs.fpctl 3)
      ((List.range 32).map fun l =>
        if c.act.getLsbD l then src.read (bitAt c.b.regs.fpctl 4) (c.elem (fld o.mods 3 0) o.a.toNat l) else .fin false 0 0)
    let fl := fun l => (blk.2.getD l (0, 0)).2
    NoTrap c fl →
    Gives (.fcvtBlk o) s fun t => OnlyRegs s t c ∧ StandsAt t c c.nextPc ∧
      ElemWrite (flagged (s.regs c.key) c fl) (t.regs c.key) 0 o.d.toNat c.act (fun l => (blk.2.getD l (0, 0)).1 + 256 * blk.1)) ∧
  (∀ o s r c x, Issues (.fcvtBlk o) o s r c →
    c.slotTrap o.b.toNat (fun x => decide (4 ≤ slotEtype x ∧ slotEtype x ≤ 6 ∧ slotSmode x = 1)) = some x →
    exec (.fcvtBlk o) s = .next { s with mach := (c.leaveResume s.mach).raise c.q c.run (c.trap clsOperand 0x64) }) ∧
  (∀ o s r c x, Issues (.fcvtDec o) o s r c → c.slotTrap o.b.toNat (fun x => decide (4 ≤ slotEtype x ∧ slotEtype x ≤ 8)) = some x →
    exec (.fcvtDec o) s = .next { s with mach := (c.leaveResume s.mach).raise c.q c.run (c.trap clsOperand 0x64) }) ∧
  (∀ o s r c, Issues (.fcvtDec o) o s r c →
    c.slotTrap o.b.toNat (fun x => decide (4 ≤ slotEtype x ∧ slotEtype x ≤ 8)) = none →
    let sl := c.g.slot o.b.toNat
    let val := fun l => (decValue (slotEtype sl) (bitAt c.b.regs.fpctl 4) ((c.v o.a.toNat l).toNat % 2 ^ etypeBits (slotEtype sl))).mul
      (if slotSmode sl = 1 then e8m0 ((c.v o.a.toNat l).toNat / 256) else slotScaleVal sl)
    let res := fun l =>
      let y := fmtF32.deliver (c.slotMode o.b.toNat) (bitAt c.b.regs.fpctl 3) (val l).1
      (if y.2 &&& flOF ≠ 0 then fmtF32.sign (val l).1.negative + fmtF32.infBits else y.1, y.2)
    let fl := fun l => (res l).2 ||| (val l).2
    NoTrap c fl →
    Gives (.fcvtDec o) s fun t => OnlyRegs s t c ∧ StandsAt t c c.nextPc ∧
      ElemWrite (flagged (s.regs c.key) c fl) (t.regs c.key) 4 o.d.toNat c.written (orZero c fun l => (res l).1))

/-- R38, R101: a delayed vector result is written lane by lane, in any order, a lane that has exited taking none; the result is gone with its last
lane, and nothing else changes. -/
def Obligations.DelayedResultsAreWritten : Prop :=
  ∀ op s x, s.mach.later.find? (fun y => decide (y.id = op)) = some x → x.lanes ≠ 0 →
    ∃ l bs fr, x.lanes.getLsbD l = true ∧
      exec (.vectorResultWrite op) s = .next { s with mach := { s.mach with
        bundles := bs, free := fr
        later := if x.lanes = laneBit l then s.mach.later.filter fun y => decide (y.id ≠ op)
          else s.mach.later.map fun y => if y.id = op then { y with lanes := x.lanes &&& ~~~laneBit l } else y } } ∧
      ∀ k, Sparse.get none bs k = if k = x.key then
          (s.mach.bundle? k).map fun b => if (b.lane l).st = .exited then b
            else b.modRegs fun r => r.writeAll (x.writes.filter fun w => decide (w.1 % 32 = l))
        else s.mach.bundle? k

namespace Sys2Proof.Claims

/-! ## Memory (R143 to R156, R171 to R181) -/

/-- Two machines differ at most in the translations that caches hold (R164), and in the free values drawn. -/
structure CachesOnly (m m' : Mach) : Prop where
  machine : m' = { m with free := m'.free, cores := m'.cores, dies := m'.dies }
  cores : ∀ k, m'.core k = { m.core k with rcache := (m'.core k).rcache, tlb := (m'.core k).tlb }
  dies : ∀ k, m'.die k = { m.die k with tlb2 := (m'.die k).tlb2, wcache := (m'.die k).wcache }

/-- The accesses of the lanes that take part all pass the checks of R145, with the pieces given, and leave the machine `m`; no line of device
memory has an uncorrectable error. -/
def Pass (c : Ctx) (s : State) (acc : Nat → Access) (ps : List (Nat × List Piece)) (m : Mach) : Prop :=
  s.mach.bad = [] ∧ c.checkLanes acc (laneList c.act) (c.leaveResume s.mach) = (ps, [], m)

/-- A state with its machine replaced. -/
def State.at (s : State) (m : Mach) : State := s.but fun _ => m

/-- `n` vector registers from D are zero in the lanes that ZM clears, and nothing else has changed (R30). -/
def Zeroed (c : Ctx) (n : Nat) (r r' : Regs) : Prop :=
  (∀ k l, l < 32 → r'.getV k l =
    if c.o.zm = true ∧ c.o.d.toNat ≤ k ∧ k < c.o.d.toNat + n ∧ c.grp.getLsbD l = true ∧ c.act.getLsbD l = false then 0 else r.getV k l)
    ∧ r' = { r with v := r'.v }

/-- The group goes on, and nothing but what a statement names besides has changed. -/
def Passes (s t : State) (c : Ctx) : Prop := OnlyRegs s t c ∧ StandsAt t c c.nextPc ∧ t.regs c.key = s.regs c.key

/-- A bundle counts one operation more, in class `cls` (R182). -/
def Counted (s t : State) (key cls : Nat) : Prop :=
  (t.mach.bundle key).outs = (s.mach.bundle key).outs ++ [⟨s.mach.nextOp, cls, false⟩]

/-- The register that a returning access writes for a lane, by its destination (R147, R148, R379). -/
def Delivered (x : Op) (l v : Nat) (r r' : Regs) : Prop :=
  match x.dest with
  | .vec d sx =>
    (∀ n l', l' < 32 → r'.getV n l' =
      if l' = l ∧ d ≤ n ∧ n < d + max 1 (x.size / 4) then .ofNat 32 (extend 32 x.size sx v / 2 ^ (32 * (n - d))) else r.getV n l')
      ∧ r' = { r with v := r'.v }
  | .wide d sx => r' = r.setW d (.ofNat 64 (extend 64 x.size sx v))
  | .scalar d => r' = r.setS d (.ofNat 64 v)
  | .ldt d => r' = r.setV d l (.ofNat 32 v)
  | _ => r' = r

/-- The outstanding operations after part `i` of `x`: `x` leaves with its last part. -/
def opsAfter (s : State) (x : Op) (parts : List Part) : List Op :=
  if parts.all Part.done then s.mach.ops.filter fun y => decide (y.id ≠ x.id)
  else s.mach.ops.map fun y => if y.id = x.id then { x with parts := parts } else y

/-- The bundle of an operation after one of its lanes' parts: the lane's result is written with its last part, unless it has exited (R85), and a
counted operation retires with its last part (R182). -/
def AfterPart (x : Op) (p : Part) (parts : List Part) (b b' : Bundle) : Prop :=
  b' = { (if parts.all Part.done ∧ x.counted = true then completed b x.id else b) with regs := b'.regs } ∧
    if (parts.any fun q => decide (q.lane = p.lane) && !q.done) = false
      ∧ (match x.dest with | .vec _ _ | .ldt _ => decide ((b.lane p.lane).st ≠ .exited) | _ => true) = true
    then Delivered x p.lane (laneValue parts p.lane) b.regs b'.regs
    else b'.regs = b.regs

/-- An operation's bundle is resident, and counts it where it is counted. -/
def Owned (s : State) (x : Op) (b : Bundle) : Prop :=
  s.mach.bundle? x.key = some b ∧ (x.counted = true → b.outs.any (fun y => decide (y.id = x.id)) = true)

/-- The results of an operation go to registers lane by lane: it is no sweep and no tape entry. -/
def ByLane (x : Op) : Prop := x.dest ≠ .sweep ∧ ∀ d, x.dest ≠ .tape d

/-- The lanes of a store that its threads' buffers take: those whose piece lies in the scratchpad, in deterministic mode (R179). -/
def buffered (c : Ctx) (ps : List (Nat × Piece)) : List (Nat × Piece) := ps.filter fun y => c.buffers && decide (y.2.space = .scratch)

/-- The instructions whose accesses every lane makes at its own address: mnemonic, and whether they read, write and are atomic. -/
def laneAccesses : List ((Opn → Instr) × Bool × Bool × Bool) :=
  [(.ld, true, false, false), (.lda, true, false, false), (.st, false, true, false), (.stl, false, true, false), (.atom, true, true, true)]

end Sys2Proof.Claims

namespace Sys2Proof.Claims

/-! ### Checks and translation (R145, R157 to R161) -/

/-- Where an entry's home puts bytes of an access, or the cause where the instruction cannot reach it (R145 step 6, R161, R162): device memory of this
package, of the issuer's die for a plain access; host memory while the link is up; another package for letters and copies. -/
def homeOf (m : Mach) (ag : Agent) (a : Access) (x : Xlat) (pa : Nat) : Except Nat (List Piece) :=
  let hk := fld x.attr 6 5
  let near := decide (a.home = .plain ∨ a.home = .local_ ∨ a.home = .record)
  if hk = 0 then (if near ∧ pa / Config.dieBytes ≠ ag.die then .error 0x30 else .ok [⟨.dev, pa, a.size, none, x.attr⟩])
  else if hk = 1 then
    if a.home = .plain ∨ a.home = .fetch ∨ a.home = .copyDest then (if m.linkUp then .ok [⟨.host, pa, a.size, none, x.attr⟩] else .error 0x41)
    else .error 0x22
  else if a.home = .letter ∨ a.home = .copyDest then .ok [⟨.dev, pa, a.size, some (fld x.attr 63 50), x.attr⟩]
  else if a.home = .fetch then .error 0x22
  else .error 0x30

/-- Bytes of device memory touch the record or the member table of an open meeting of a die (R217). -/
def touchesMeeting (m : Mach) (die pa len : Nat) : Prop :=
  ∃ p ∈ (m.die die).regions, ∃ r g, p.2 = some r ∧ r.meeting = some g ∧
    ((pa < g.record + 128 ∧ g.record < pa + len) ∨ (pa < g.mem + 16 * g.n ∧ g.mem < pa + len))

/-- Index of an address in a table of level i, the bytes of the table, and the bytes that a leaf maps there (R159). -/
def tableIndex (va : Nat) : Nat → Nat
  | 0 => va / 2 ^ 48 % 2 ^ 8
  | 1 => va / 2 ^ 39 % 2 ^ 9
  | 2 => va / 2 ^ 30 % 2 ^ 9
  | 3 => va / 2 ^ 21 % 2 ^ 9
  | _ => va / 2 ^ 16 % 2 ^ 5

def tableBytes (i : Nat) : Nat := [0x800, 0x1000, 0x1000, 0x1000, 0x100].getD i 1
def pageBytes (i : Nat) : Nat := [0, 0, 2 ^ 30, 2 ^ 21, 2 ^ 16].getD i 0

/-- The entry of a table that an address selects. -/
def entryAt (m : Mach) (va i table : Nat) : W64 := m.read64 .dev (table + 8 * tableIndex va i)

/-- Tables of levels 0 to k, each where the entry of the one before it points, aligned and in device memory (R159). -/
structure TablePath (m : Mach) (va root : Nat) (t : Nat → Nat) (k : Nat) : Prop where
  first : t 0 = root
  sound : ∀ i ≤ k, t i % tableBytes i = 0 ∧ t i + tableBytes i ≤ devTop
  next : ∀ i < k, let e := entryAt m va i (t i)
    bitAt e 0 = true ∧ bitAt e 1 = true ∧ fld e 63 50 = 0 ∧ fld e 7 2 = 0 ∧ t (i + 1) = fld e 49 8 * 256

/-- Word k of range entry e of a space (R158). -/
def rangeWordAt (m : Mach) (asid e k : Nat) : W64 := m.read64 .dev (m.desk.space asid + 0x800 + 32 * e + 8 * k)

/-- The range entries before e are not valid. -/
def RangesOff (m : Mach) (asid e : Nat) : Prop := ∀ i < e, bitAt (rangeWordAt m asid i 3) 0 = false

/-- Translation is enabled, and the space's descriptor lies in device memory without an uncorrectable error. -/
def SpaceReadable (m : Mach) (asid : Nat) : Prop := m.bad = [] ∧ bitAt m.desk.astbase 0 = true ∧ m.desk.space asid + 0x1000 ≤ devTop

end Sys2Proof.Claims

/-- R148, R149, R182: ST and STL leave one write outstanding for each lane whose store is not buffered, with the bytes that no higher lane writes, as
one operation of the mem counter; memory changes only when the writes are performed. R179, R181: in deterministic mode a store to the scratchpad
enters the store buffer of its thread and changes no memory; where a buffer holds 32 entries the instruction raises QOVF. With nothing to write
the operation completes at once. R10, R182: with the tracker or the counter full, the instruction is held. -/
def Obligations.StoresAreOutstandingOrBuffered : Prop :=
  ∀ e ∈ [((.st : Opn → Instr), false), (.stl, true)], ∀ o s r c xs m, Issues (e.1 o) o s r c →
    Pass c s (c.plain (memSize o) false true false) xs m →
    let ps := xs.map fun y => (y.1, onePiece y.2)
    let buf := buffered c ps
    let parts := c.storeParts (ps.filter fun y => !(c.buffers && decide (y.2.space = .scratch)))
    let x : Op := { id := m.nextOp, key := c.key, acq := false, rel := e.2, serial := false, dest := .none, size := memSize o, win := []
                    parts := parts, counted := true, asid := c.g.asid, scope := c.opScope }
    CachesOnly (c.leaveResume s.mach) m ∧
    ((∃ y ∈ buf, 32 ≤ (c.b.lane y.1).sbuf.length) →
      ∃ conds, exec (e.1 o) s = .next { s with mach := m.raise c.q c.run (c.trapWith clsQovf 0x6A conds) }) ∧
    ((∀ y ∈ buf, (c.b.lane y.1).sbuf.length < 32) → m.trackerFull c.core parts = true ∨ c.counterFull 1 = true →
      exec (e.1 o) s = .next s) ∧
    ((∀ y ∈ buf, (c.b.lane y.1).sbuf.length < 32) → m.trackerFull c.core parts = false → c.counterFull 1 = false →
      Gives (e.1 o) s fun t => StandsAt t c c.nextPc ∧ MemoryKept s t ∧ t.regs c.key = s.regs c.key ∧
        (∀ l < 32, let y := (s.mach.bundle c.key).lane l
          let z := (t.mach.bundle c.key).lane l
          z.st = y.st ∧ z.tidx = y.tidx ∧ z.lnk = y.lnk ∧
            z.sbuf = y.sbuf ++ (buf.filter fun k => decide (k.1 = l)).map fun k => ⟨k.2.addr - c.tm.phys c.core 0, c.storeBytes l⟩) ∧
        LanesKept s t c ∧
        if parts = [] then RestKept (State.at s (dropOut (addOut m c.key 1) c.key m.nextOp)) t c
        else RestKept (State.at s (addOp (addOut m c.key 1) x)) t c ∧ Queued s t x)

/-- R144 to R150: LD and LDA whose lanes' accesses all pass leave one read outstanding for each lane, two of 8 bytes for an access of 16, at the place
that the lane's address translates to; ZM clears its lanes at once, and nothing else changes. R151, R152: ATOM leaves one read-modify-write
outstanding for each lane, to be performed in lane order, as one operation of the mem counter. R379: a load of a handler counts in the mem counter.
R10, R182: with the tracker or the counter full, they are held. -/
def Obligations.LoadsAndAtomicsAreOutstanding : Prop :=
  (∀ e ∈ [((.ld : Opn → Instr), false), (.lda, true)], ∀ o s r c ps m, Issues (e.1 o) o s r c →
     Pass c s (c.plain (memSize o) true false false) ps m →
     let parts := ps.flatMap fun y => (halvesOf (onePiece y.2)).map fun p => part y.1 p (c.ea y.1) (.read (c.ownBytes y.1 p))
     let x : Op := { id := m.nextOp, key := c.key, acq := e.2, rel := false, serial := false, dest := c.loadDest (decide (o.fn = 1))
                     size := memSize o, win := c.windows, parts := parts, counted := c.hand, asid := c.g.asid, scope := c.opScope }
     let full := m.trackerFull c.core parts = true ∨ (c.hand = true ∧ c.counterFull 1 = true)
     CachesOnly (c.leaveResume s.mach) m ∧
     (full → exec (e.1 o) s = .next s) ∧
     (¬ full → Gives (e.1 o) s fun t => StandsAt t c c.nextPc ∧ Zeroed c (sizeRegs (memSz o)) (s.regs c.key) (t.regs c.key) ∧
       if parts = [] then OnlyRegs (State.at s (skipId m)) t c
       else OnlyRegs (State.at s (addOp (if c.hand then addOut m c.key 1 else skipId m) x)) t c ∧ Queued s t x)) ∧
  (∀ o s r c ps m, Issues (.atom o) o s r c → Pass c s (c.plain (memSize o) true true true) ps m →
     let parts := ps.map fun y => part y.1 (onePiece y.2) (c.ea y.1)
       (.rmw o.fn.toNat (atomTy o) (c.atomReg o.d.toNat y.1) (if o.fn = 7 then c.atomReg o.c.toNat y.1 else 0))
     let x : Op := { id := m.nextOp, key := c.key, acq := decide (memOrd o % 2 = 1), rel := decide (2 ≤ memOrd o), serial := true
                     dest := c.loadDest false, size := memSize o, win := c.windows, parts := parts, counted := true, asid := c.g.asid
                     scope := c.opScope }
     CachesOnly (c.leaveResume s.mach) m ∧
     (m.trackerFull c.core parts = true ∨ c.counterFull 1 = true → exec (.atom o) s = .next s) ∧
     (m.trackerFull c.core parts = false → c.counterFull 1 = false →
       Gives (.atom o) s fun t => StandsAt t c c.nextPc ∧ Zeroed c (sizeRegs (memSz o)) (s.regs c.key) (t.regs c.key) ∧
         if parts = [] then OnlyRegs (State.at s (dropOut (addOut m c.key 1) c.key m.nextOp)) t c
         else OnlyRegs (State.at s (addOp (addOut m c.key 1) x)) t c ∧ Queued s t x))

/-- R147, R149, R179: a read that returns takes the bytes of memory, the thread's own buffered ones before them, and the lane's register is written with
its last part; memory and everything else is unchanged. R149 to R152: a write that is performed puts its bytes in place, and a read-modify-write
replaces its location by the function of the old value and returns the old value, each as one step; every other byte of memory is unchanged. Where
accesses of narrower scope stand beside them (R174), the order that they then owe is noted with the operations. -/
def Obligations.AccessesArePerformed : Prop :=
  (∀ op unit fresh s x p own b, s.mach.performable op unit = some (x, p) → p.kind = .read own → ByLane x →
     s.mach.damaged p.space p.addr p.size = false → p.lane < 32 → Owned s x b →
     let parts := withPart x unit p (.ofNat 64 (readValue s p own))
     Gives (.loadDataReturn op unit fresh false) s fun t => MemoryKept s t ∧ PartFrame s t x 0 ∧
       (∃ b', t.mach.bundle? x.key = some b' ∧ AfterPart x p parts b b') ∧
       (DieScope s x → t.mach.ops = opsAfter s x parts ∧ t.mach.early = [])) ∧
  (∀ op unit s x p b, s.mach.performable op unit = some (x, p) → p.lane < 32 → Owned s x b → ByLane x →
     (∀ cells, p.kind = .write cells → x.dest = .none →
       let parts := withPart x unit p p.got
       Gives (.writePerformed op unit) s fun t => PartFrame s t x 0 ∧
         (∃ b', t.mach.bundle? x.key = some b' ∧ AfterPart x p parts b b') ∧
         (DieScope s x → t.mach.ops = opsAfter s x parts ∧ t.mach.early = []) ∧
         ∀ sp a, t.mach.readByte sp a =
           if sp = p.space then ((cells.reverse.find? fun z => decide (z.1 = a)).map (·.2)).getD (s.mach.readByte sp a) else s.mach.readByte sp a) ∧
     (∀ fn ty opd cmp, p.kind = .rmw fn ty opd cmp → s.mach.damaged p.space p.addr p.size = false →
       let old := s.mach.readNat p.space p.addr p.size
       let parts := withPart x unit p (.ofNat 64 old)
       Gives (.writePerformed op unit) s fun t => PartFrame s t x 0 ∧
         (∃ b', t.mach.bundle? x.key = some b' ∧ AfterPart x p parts b b') ∧
         (DieScope s x → t.mach.ops = opsAfter s x parts ∧ t.mach.early = []) ∧
         t.mach.readNat p.space p.addr p.size = atomNew fn ty old opd.toNat cmp.toNat % 256 ^ p.size ∧
         ∀ sp a, sp ≠ p.space ∨ a < p.addr ∨ p.addr + p.size ≤ a → t.mach.readByte sp a = s.mach.readByte sp a))

/-- R145: the checks of an access in their order, on an access that one translation covers: a canonical address, alignment, a span that does not cross
into the scratchpad window, the window's own rules, translation, permissions, the world, an open meeting's memory (R217), and the home. R157 to R161:
without a table of spaces, or with an invalid root, there is no translation (0x06); the first valid range entry that holds the address translates it;
else the tables do, from the root down: an entry that is not valid is a page fault (0x03), and a leaf maps its page.
R145, R146, R167, R373: where lanes' accesses fail a check, the instruction has no effect: it traps with the class and cause of the lowest lane
whose cause is not a page fault, or, with page faults alone, it traps in a handler and on the control core, and elsewhere the bundle waits for them to
be answered. -/
def Obligations.FailedAccessesTrapOrWait : Prop :=
  (∀ (m : Mach) (ag : Agent) (a : Access), 0 < a.size →
    let va := a.va.toNat
    let top := 0xFFFFFFFFFF000000
    let off := va - top
    (fld a.va 63 55 ≠ 0 ∧ fld a.va 63 55 ≠ 0x1FF → m.check ag a = (.error 0x01, m)) ∧
    (fld a.va 63 55 = 0 ∨ fld a.va 63 55 = 0x1FF →
      (va % a.align ≠ 0 → m.check ag a = (.error 0x10, m)) ∧
      (va % a.align = 0 → (va < top ∧ top < va + a.size) ∨ 2 ^ 64 < va + a.size → m.check ag a = (.error 0x11, m)) ∧
      (va % a.align = 0 → top ≤ va → va + a.size ≤ 2 ^ 64 → m.check ag a =
        (match a.win with
         | .denied c => .error c
         | .allowed =>
           if Config.scratchBytes < off + a.size ∨ ag.alloc < off + a.size then .error 0x02
           else if a.x = true then .error 0x20
           else if a.atom = true ∧ ag.det = true then .error 0x23
           else .ok [⟨.scratch, ag.core * Config.scratchStride + ag.scr * 2048 + off, a.size, none, 0⟩], m)) ∧
      (va % a.align = 0 → va + a.size ≤ top →
        (∀ c m', m.translate ag.asid va ag.unit ag.die = (.bad c, m') → m.check ag a = (.error c, m')) ∧
        (∀ x m', m.translate ag.asid va ag.unit ag.die = (.found x, m') → va + a.size ≤ x.hi →
          let pa := x.pa + (va - x.lo)
          (a.r = true ∧ bitAt x.attr 2 = false ∨ a.w = true ∧ bitAt x.attr 3 = false ∨ a.x = true ∧ bitAt x.attr 4 = false →
            m.check ag a = (.error 0x20, m')) ∧
          ((a.r = true → bitAt x.attr 2 = true) → (a.w = true → bitAt x.attr 3 = true) → (a.x = true → bitAt x.attr 4 = true) →
            (bitAt x.attr 7 = true ∧ ag.secure = false → m.check ag a = (.error 0x21, m')) ∧
            ((bitAt x.attr 7 = true → ag.secure = true) →
              let strikes := a.w = true ∧ (a.home = .plain ∨ a.home = .local_ ∨ a.home = .copyDest) ∧ fld x.attr 6 5 = 0 ∧
                touchesMeeting m' (pa / Config.dieBytes) pa a.size
              (strikes → m.check ag a = (.error 0x26, m')) ∧ (¬ strikes → m.check ag a = (homeOf m' ag a x pa, m')))))))) ∧
  (∀ (m : Mach) asid va, bitAt m.desk.astbase 0 = false → m.walk asid va = .bad 0x06) ∧
  (∀ (m : Mach) asid va e, SpaceReadable m asid → e < 64 → RangesOff m asid e →
    let lo := rangeWordAt m asid e 0
    let hi := rangeWordAt m asid e 1
    let base := rangeWordAt m asid e 2
    let at_ := rangeWordAt m asid e 3
    bitAt at_ 0 = true → bitAt at_ 1 = false → fld at_ 49 16 = 0 → fld lo 15 0 = 0 → fld hi 15 0 = 0 → fld base 15 0 = 0 →
    canonical lo = true → attrBad m.pkg at_ base.toNat (hi.toNat - lo.toNat) = false → lo.toNat ≤ va → va < hi.toNat →
    m.walk asid va = .found ⟨asid, lo.toNat, hi.toNat, base.toNat, .ofNat 64 (fld at_ 15 0 + 2 ^ 50 * fld at_ 63 50)⟩) ∧
  (∀ (m : Mach) asid va t k, SpaceReadable m asid → RangesOff m asid 64 → k < 5 →
    let root := m.read64 .dev (m.desk.space asid)
    (bitAt root 0 = false → m.walk asid va = .bad 0x06) ∧
    (bitAt root 0 = true → TablePath m va (fld root 49 11 * 2048) t k →
      let e := entryAt m va k (t k)
      let page := pageBytes k
      let frame := fld e 49 16 * 65536
      (bitAt e 0 = false → m.walk asid va = .bad 0x03) ∧
      (bitAt e 0 = true → bitAt e 1 = false → k < 2 ∨ frame % page ≠ 0 ∨ attrBad m.pkg e frame page = true → m.walk asid va = .bad 0x04) ∧
      (bitAt e 0 = true → bitAt e 1 = false → 2 ≤ k → frame % page = 0 → attrBad m.pkg e frame page = false →
        m.walk asid va =
          .found ⟨asid, va / page * page, va / page * page + page, frame, .ofNat 64 (fld e 15 0 + 2 ^ 50 * fld e 63 50)⟩))) ∧
  ∀ e ∈ laneAccesses, ∀ o s r c ps conds m, Issues (e.1 o) o s r c → s.mach.bad = [] →
    c.checkLanes (c.plain (memSize o) e.2.1 e.2.2.1 e.2.2.2) (laneList c.act) (c.leaveResume s.mach) = (ps, conds, m) → conds ≠ [] →
    CachesOnly (c.leaveResume s.mach) m ∧
    (∀ y, conds.find? (fun y => decide (y.cause ≠ 0x03)) = some y →
      exec (e.1 o) s = .next { s with mach := m.raise c.q c.run (c.trapWith y.cls y.cause conds) }) ∧
    ((∀ y ∈ conds, y.cause = 0x03) → c.hand = true ∨ c.ctl = true →
      exec (e.1 o) s = .next { s with mach := m.raise c.q c.run (c.trapWith clsXlate 0x03 conds) }) ∧
    ((∀ y ∈ conds, y.cause = 0x03) → c.hand = false → c.ctl = false →
      Gives (e.1 o) s fun t => t.regs c.key = s.regs c.key ∧ OthersKept s t c.key ∧ t.mach.run? c.q = none ∧ t.mach.ops = s.mach.ops ∧
        (t.mach.bundle c.key).outs = (s.mach.bundle c.key).outs ∧
        (t.mach.bundle c.key).fault = some (s.mach.desk.fid, c.trapWith clsXlate 0x03 conds) ∧
        ∀ l, c.grp.getLsbD l = true → ((t.mach.bundle c.key).lane l).pc = c.pc)

/-- R153, R154, R176: FENCE holds the bundle's next run, IFENCE drops the bundle's fetch blocks and the core's instruction cache, and PRF does nothing
that a program can see. R155, R156: TAGL finds the slot of a key and names it, or answers the victim; TAGI enters a key in an invalid slot, or answers
the slot that has the key or is taken; TAGX empties a slot by number or by key. Each writes s[D] and changes nothing else but the tag table. -/
def Obligations.FencesPrefetchAndTags : Prop :=
  (∀ o s r c, Issues (.fence o) o s r c → Gives (.fence o) s fun t =>
    Passes (s.but fun m => m.modBundle c.key fun b => { b with fenced := true }) t c) ∧
  (∀ o s r c, Issues (.ifence o) o s r c → Gives (.ifence o) s fun t =>
    Passes (s.but fun m => (m.modBundle c.key fun b => { b with blocks := [] }).modCore c.core fun k => { k with icache := [] }) t c) ∧
  (∀ o s r c, Issues (.prf o) o s r c → s.mach.bad = [] → ∃ m, CachesOnly (c.leaveResume s.mach) m ∧
    Gives (.prf o) s fun t => Passes (State.at s m) t c) ∧
  (let done := fun (i : Instr) (s : State) (c : Ctx) (x : W64) (k : Core) =>
     Gives i s fun t => OnlyRegs (s.but fun m => m.setCore c.core k) t c ∧ StandsAt t c c.nextPc ∧
       t.regs c.key = (s.regs c.key).sset c.hand c.o.d.toNat x
   (∀ o s r c, Issues (.tagl o) o s r c →
     let k := s.mach.core c.core
     match c.tagFind k (tagKey (c.s o.a.toNat)) with
     | some i => done (.tagl o) s c (.ofNat 64 i) (k.name (c.tm.scr + i))
     | none =>
       let b := c.s o.b.toNat
       let lo := if o.fn = 1 then fld b 15 0 else 0
       let hi := if o.fn = 1 then min (fld b 15 0 + fld b 31 16) c.tm.nscr else c.tm.nscr
       done (.tagl o) s c (.ofNat 64 (2 ^ 63 + c.tagVictim k lo hi)) k) ∧
   (∀ o s r c, Issues (.tagi o) o s r c →
     let k := s.mach.core c.core
     let key := tagKey (c.s o.a.toNat)
     let i := (c.s o.b.toNat).toNat
     if c.tm.nscr ≤ i then exec (.tagi o) s = .next { s with mach := (c.leaveResume s.mach).raise c.q c.run (c.trap clsXlate 0x02) }
     else
       match c.tagFind k key, k.tag (c.tm.scr + i) with
       | some j, _ => done (.tagi o) s c (.ofNat 64 (2 ^ 63 + j)) k
       | none, some _ => done (.tagi o) s c (.ofNat 64 (2 ^ 62 + i)) k
       | none, none => done (.tagi o) s c (.ofNat 64 i) ((k.setTag (c.tm.scr + i) (some key)).name (c.tm.scr + i))) ∧
   (∀ o s r c, Issues (.tagx o) o s r c →
     let k := s.mach.core c.core
     let a := c.s o.a.toNat
     if o.fn = 1 then
       match c.tagFind k (tagKey a) with
       | some j => done (.tagx o) s c (.ofNat 64 j) (k.setTag (c.tm.scr + j) none)
       | none => done (.tagx o) s c (BitVec.allOnes 64) k
     else if c.tm.nscr ≤ a.toNat then
       exec (.tagx o) s = .next { s with mach := (c.leaveResume s.mach).raise c.q c.run (c.trap clsXlate 0x02) }
     else done (.tagx o) s c ((k.tag (c.tm.scr + a.toNat)).getD (BitVec.allOnes 64)) (k.setTag (c.tm.scr + a.toNat) none)))

namespace Sys2Proof.Claims

/-! ## Remote instructions and letters (R185 to R210) -/

/-- The one access of an instruction of the whole bundle passes its checks, with the pieces given, and leaves the machine `m`. -/
def PassOne (c : Ctx) (s : State) (a : Access) (ps : List Piece) (m : Mach) : Prop :=
  s.mach.bad = [] ∧ (c.leaveResume s.mach).check c.agent a = (.ok ps, m)

/-- No record of a letter waits for its settle notice (R190). -/
def NoneOwed (s : State) : Prop := ∀ x ∈ s.mach.sent, x.owes s.mach.clk = false

/-- The postmark of the i-th letter that an instruction sends (R18). -/
def markOf (s : State) (c : Ctx) (i : Nat) : W64 := postmark s.mach.pkg c.die (c.core % 96) ((s.mach.core c.core).seq + i)

/-- The postmarks of n letters to be sent next are not carried by letters still unsettled (R19). -/
def FreshMarks (s : State) (c : Ctx) (n : Nat) : Prop := ∀ i < n, s.mach.unsettled (markOf s c i) = false

/-- The machine after the letters of one operation of the remote counter have left, in order, each with a postmark of its own and a resend record:
those for this package go on its wire, the others leave it (R18, R189, R194). A letter comes with the virtual address of its target, its reply slot,
and the virtual spans it was translated from. -/
def sendsLetters (m : Mach) (c : Ctx) (ls : List (Letter × W64 × Option (Space × Nat) × List (Nat × Nat))) : Mach :=
  let marked := ls.mapIdx fun i x => ({ x.1 with pm := postmark m.pkg c.die (c.core % 96) ((m.core c.core).seq + i) }, x.2)
  { (addOut m c.key 4).modCore c.core fun k => { k with seq := (k.seq + ls.length) % 2 ^ 40 } with
    sent := m.sent ++ marked.map fun x =>
      ⟨x.1, .bundle c.key m.nextOp, x.2.1, m.clk, m.clk, 0, false, false, x.2.2.1, c.g.asid, x.2.2.2⟩
    wire := m.wire ++ (marked.filter fun x => decide (x.1.tpkg.toNat = m.pkg)).map fun x => ⟨x.1, m.clk⟩
    out := m.out ++ (marked.filter fun x => decide (x.1.tpkg.toNat ≠ m.pkg)).map fun x => .letter x.1 }

/-- The instructions that send one letter for each lane: the letter of a lane, and the size of its target. -/
def laneSenders : List ((Opn → Instr) × (Ctx → Nat → Letter) × (Opn → Nat)) :=
  [(.radd, addLetter 1 false, fun o => if addWx o then 16 else memSize o), (.rmin, addLetter 3 false, memSize),
   (.rmax, addLetter 4 false, memSize), (.ror, addLetter 5 true, memSize),
   (.ronce, fun c l =>
      { c.letter with
        op := 6, sz := .ofNat 3 (memSz c.o), aof := remAof c.o, aux := c.aofAux
        data := if memSz c.o = 3 then .ofNat 64 (leNat (c.storeBytes l)) else 16
        body := if memSz c.o = 3 then [] else c.storeBytes l }, memSize)]

/-- The group parks at its instruction, with what it waits for, and nothing else changes but that an operation's number is taken. -/
def Parks (s t : State) (c : Ctx) (w : Wait) : Prop :=
  MemoryKept s t ∧ SystemKept s t c.key ∧ RestKept (s.but skipId) t c ∧ LanesKept s t c ∧ t.regs c.key = s.regs c.key ∧
    t.mach.run? c.q = none ∧
    ∀ l < 32, let x := (s.mach.bundle c.key).lane l
      let y := (t.mach.bundle c.key).lane l
      SameThread x y ∧ (c.grp.getLsbD l = true → y.st = .wait w s.mach.nextOp c.size ∧ y.pc = c.pc)

/-- An instruction marked W waits for accesses of the lanes `ls` before it has any effect: its run ends, and its group stands at it (R36, R319). -/
def Waits (s t : State) (c : Ctx) (ls : Lanes) : Prop :=
  MemoryKept s t ∧ t.regs c.key = s.regs c.key ∧ t.mach.run? c.q = none ∧ LanesKept s t c ∧
    RestKept (s.but fun m => m.modBundle c.key fun b => { b with calm := b.calm ++ [(c.grp, ls)] }) t c ∧
    ∀ l < 32, c.grp.getLsbD l = true → let x := (s.mach.bundle c.key).lane l
      let y := (t.mach.bundle c.key).lane l
      SameThread x y ∧ y.st = x.st ∧ y.pc = c.pc

/-- The lanes parked by one issue go on, after their instruction or by issuing it again, and the registers become `f` of what they were. -/
def Woken (b b' : Bundle) (seq : Nat) (again : Bool) (f : Regs → Regs) : Prop :=
  b' = { b with lanes := b'.lanes, regs := f b.regs } ∧ ∀ l < 32, b'.lane l =
    match (b.lane l).st with
    | .wait _ k sz =>
      if k = seq then { b.lane l with st := .runnable, pc := if again then (b.lane l).pc else (b.lane l).pc + BitVec.ofNat 64 sz }
      else b.lane l
    | _ => b.lane l

/-- A step wakes the group that lane l of a bundle is parked with, and changes nothing but that bundle. -/
def Wakes (i : Instr) (s : State) (b seq : Nat) (again : Bool) (f : Regs → Regs) : Prop :=
  ∃ bs k, exec i s = .next { s with mach := { s.mach with bundles := bs } } ∧ Sparse.get none bs b = some k ∧
    Woken (s.mach.bundle b) k seq again f ∧ ∀ j, j ≠ b → Sparse.get none bs j = s.mach.bundle? j

/-- A letter that its home takes up: for this package, over ports that carry letters (R404), within the flight limit, of no fenced source, well
formed (R185, R186, R191). -/
def Accepted (s : State) (l : Letter) (age a : Nat) (m : Mach) : Prop :=
  l.tpkg.toNat = s.mach.pkg ∧ (pmPkg l.pm = s.mach.pkg ∨ s.boot.pkgV = true) ∧ s.mach.takeCopy l (pmPkg l.pm) age = some (a, m) ∧ a ≤ 250 ∧
    s.mach.fenced (pmPkg l.pm) = false ∧ letterBad l = false

/-- The order of RMIN and RMAX by type (R197): integers by their value, f32 by the total order of IEEE 754. -/
def minMaxKey (ty x : Nat) : Int :=
  if ty = 4 then (if 2 ^ 31 ≤ x then (2 ^ 31 - 1 : Int) - x else x) else intVal (signedTy ty) (intBits ty) x

/-- The world and step-tag checks of a region let a letter for n bytes act there (R210). -/
def regionTakes (m : Mach) (l : Letter) (n : Nat) (g : Region) : Prop :=
  ((g.secure = true ∨ m.secureRange l.tpa.toNat n = true) → l.world = true) ∧ (l.aof = true → l.aux.toNat < g.arrn)

/-- Status byte of an element's line (R198), and presence byte of an 8-byte unit (R201). -/
def statusPlace (g : Region) (pa : Nat) : Nat := pieceAddr g.aux ((pa - g.base) / 128)
def presencePlace (g : Region) (pa : Nat) : Nat := pieceAddr g.aux ((pa - g.base) / 8 / 8)
def presenceBit (g : Region) (pa : Nat) : Nat := (pa - g.base) / 8 % 8

/-- A status byte with bits set. -/
def withStatus (m : Mach) (at_ bits : Nat) : Mach := m.writeNat .dev at_ 1 (m.readNat .dev at_ 1 ||| bits)

/-- An integer within the range of n bits, signed. -/
abbrev inRange (n : Nat) (z : Int) : Prop := -(2 ^ (n - 1) : Int) ≤ z ∧ z < (2 ^ (n - 1) : Int)

/-- What landing a contribution in an element makes of the machine (R199): a value that is no number only sets a bit of its line's status byte; a
number, placed on the region's grid by the unscale shift, is added exactly, SAT instead where it or the sum is out of range, STK besides where the
placement was inexact, to the nearest and ties to even. -/
def Lands (m m' : Mach) (g : Region) (pa : Nat) (v : Val) (u : Nat) : Prop :=
  let st := statusPlace g pa
  let old := sval 128 (m.readNat .dev pa 16)
  match v with
  | .nan _ => m' = withStatus m st 2
  | .inf neg => m' = withStatus m st (if neg then 8 else 4)
  | .fin neg k e =>
    let grid := (u : Int) + g.b
    let sum := fun (z : Nat) (bits : Nat) =>
      let y : Int := if neg then -(z : Int) else z
      if inRange 128 y → ¬ inRange 128 (old + y) then m' = withStatus m st 1
      else m' = (let m := m.writeNat .dev pa 16 ((old + y) % 2 ^ 128).toNat; if bits = 0 then m else withStatus m st bits)
    if grid ≤ e then sum (k * 2 ^ (e - grid).toNat) 0
    else
      let q := 2 ^ (grid - e).toNat
      if k % q = 0 then sum (k / q) 0
      else ∃ z, (2 * k ≤ q * (2 * z + 1) ∧ q * (2 * z) ≤ 2 * k + q ∧ (2 * k = q * (2 * z + 1) ∨ q * (2 * z) = 2 * k + q → z % 2 = 0)) ∧ sum z 16

/-- Another letter of the same operation is still without an answer (R194). -/
def pendingElse (s : State) (pm : W64) (who : Sender) : Bool :=
  s.mach.sent.any fun y => decide (y.letter.pm ≠ pm ∧ y.sender = who) && !y.acked

/-- A bundle that counts an operation. -/
def Counts (s : State) (key out : Nat) (b : Bundle) : Prop := s.mach.bundle? key = some b ∧ b.outs.any (fun y => decide (y.id = out)) = true

/-- The bundles with that of `key` replaced. -/
def Rebundled (s : State) (bs : Sparse (Option Bundle)) (key : Nat) (b : Bundle) : Prop :=
  Sparse.get none bs key = some b ∧ ∀ k, k ≠ key → Sparse.get none bs k = s.mach.bundle? k

/-- A bundle once one of its letters has its answer: the operation completes with the last of its letters (R194). -/
def answered (s : State) (pm : W64) (who : Sender) (out : Nat) (b : Bundle) : Bundle := if pendingElse s pm who then b else completed b out

/-- A bundle with the mark of a failed letter, which it drops where no thread of it lives (R85, R194). -/
def failed (b : Bundle) (out cause : Nat) (va : W64) : Bundle :=
  if b.live = 0 then b else { b with marks := b.marks ++ [⟨out, false, clsRemote, clsAsync, cause, va, 4, false⟩] }

/-- The records of letters without one, and its number among those not used again until it is settled (R19). -/
def sentWithout (s : State) (pm : W64) : List Sent := s.mach.sent.filter fun y => decide (y.letter.pm ≠ pm)
def spentWith (s : State) (x : Sent) : List (W64 × Nat) :=
  (s.mach.spent.filter fun y => decide (s.mach.clk < y.2)) ++ [(x.letter.pm, x.last + (if x.letter.op = 9 then 8 else 204) * Config.usCycles)]

/-- Another copy of a letter leaves with its postmark, at the count of resends given (R189). -/
def sentAgain (s : State) (x : Sent) (n : Nat) : Mach :=
  let here := x.letter.tpkg.toNat = s.mach.pkg
  { s.mach with
    sent := s.mach.sent.map fun y =>
      if y.letter.pm = x.letter.pm then { y with last := s.mach.clk, timer := s.mach.clk, resends := n, refused := false } else y
    wire := if here then s.mach.wire ++ [⟨x.letter, s.mach.clk⟩] else s.mach.wire
    out := if here then s.mach.out else s.mach.out ++ [.letter x.letter] }

/-! ### Meeting letters at the home (R221) -/

/-- A field of a meeting record, by byte offset and length (R215). -/
def recField (m : Mach) (rc off n : Nat) : Nat := m.readNat .dev (rc + off) n

/-- Parity of a round: its distance from RTAG0. -/
def parityOf (m : Mach) (rc t : Nat) : Nat := (t + 2 ^ 32 - recField m rc 32 4) % 2 ^ 32 % 2

/-- The word of a parity: TAG, RST, RELCNT, ARRCNT. -/
def parityWord (m : Mach) (rc p : Nat) : Nat := recField m rc (80 + 8 * p) 8
def putParity (m : Mach) (rc p tag rst rel arr : Nat) : Mach :=
  m.writeNat .dev (rc + 80 + 8 * p) 8 (tag * 2 ^ 32 + rst * 2 ^ 29 + rel * 2 ^ 16 + arr)

/-- BeginOpen: the parity of round t is clearing, its counts and its weight sum zero. -/
def beginsOpen (m : Mach) (rc t : Nat) : Mach :=
  let p := parityOf m rc t
  (putParity m rc p t 3 0 0).writeNat .dev (rc + 48 + 16 * p) 16 0

/-- Dead: DEAD of the member rises by one, saturating at its 24 bits, LAG is set, and DEADTOT rises. -/
def meetsDead (m : Mach) (g : Meeting) (k : Nat) : Mach :=
  let a := g.mem + 16 * k + 8
  let x := m.readNat .dev a 8
  let dead := nfld x 55 32
  let lag := if x.testBit 56 then 0 else 2 ^ 56
  let m := m.writeNat .dev a 8 (x - dead * 2 ^ 32 + min (dead + 1) (2 ^ 24 - 1) * 2 ^ 32 + lag)
  m.writeNat .dev (g.record + 96) 4 (min (recField m g.record 96 4 + 1) (2 ^ 32 - 1))

/-- Release: RELCNT of a closed round rises; the last frees its parity, where a held meeting then opens the next round. -/
def releases (m : Mach) (rc nc t : Nat) : Nat × Mach :=
  let p := parityOf m rc t
  let x := parityWord m rc p
  let rel := nfld x 28 16
  if nfld x 31 29 ≠ 2 ∨ nfld x 63 32 ≠ t then (2, m)
  else if rel + 1 ≠ nc then (0, putParity m rc p t 2 (rel + 1) (nfld x 12 0))
  else
    let m := putParity m rc p t 0 (rel + 1) (nfld x 12 0)
    let next := (recField m rc 40 4 + 1) % 2 ^ 32
    (0, if (recField m rc 40 8).testBit 32 = true ∧ parityOf m rc next = p then beginsOpen m rc next else m)

/-- Close: the round's parity is closed and the meeting held; where the other parity is free, the next round begins to open. -/
def closes (m : Mach) (rc c : Nat) : Mach :=
  let p := parityOf m rc c
  let x := parityWord m rc p
  let m := putParity m rc p (nfld x 63 32) 2 (nfld x 28 16) (nfld x 12 0)
  let m := m.writeNat .dev (rc + 40) 8 (c + 2 ^ 32)
  if nfld (parityWord m rc (1 - p)) 31 29 = 0 then beginsOpen m rc ((c + 1) % 2 ^ 32) else m

/-- MARR: a member not yet counted takes its tag, its weight 2^(-W d) is added on the grid of exponent -120 (zero from W d = 121 on), and in the
current round ARRCNT rises, the K-th arrival closing the round. -/
def meetingArrives (m : Mach) (g : Meeting) (l : Letter) (c d w k : Nat) : Mach :=
  let e := (l.rtag.toNat + 2 ^ 32 - m.readNat .dev (g.mem + 16 * l.member.toNat) 4) % 2 ^ 32
  if e = 0 ∨ 2 ^ 31 ≤ e then m
  else
    let m := m.writeNat .dev (g.mem + 16 * l.member.toNat) 4 l.rtag.toNat
    let p := parityOf m g.record c
    let sum := g.record + 48 + 16 * p
    let m := m.writeNat .dev sum 16 (m.readNat .dev sum 16 + if w * d ≤ 120 then 2 ^ (120 - w * d) else 0)
    if d ≠ 0 then m
    else
      let x := parityWord m g.record p
      let m := putParity m g.record p (nfld x 63 32) (nfld x 31 29) (nfld x 28 16) (nfld x 12 0 + 1)
      if nfld x 12 0 + 1 = k then closes m g.record c else m

/-- MPOST after its value has landed: the member's PTAG in the current round; else FOLDTOT rises, and PART and PRND are set where the member has
posted to that round already. -/
def meetingPosted (m : Mach) (g : Meeting) (l : Letter) (c d : Nat) : Mach :=
  let a := g.mem + 16 * l.member.toNat
  if d = 0 then m.writeNat .dev (a + 4) 4 c
  else
    let m := m.writeNat .dev (g.record + 100) 4 (min (recField m g.record 100 4 + 1) (2 ^ 32 - 1))
    if m.readNat .dev (a + 4) 4 ≠ l.rtag.toNat then m
    else
      let x := m.readNat .dev (a + 8) 8 / 2 ^ 32
      m.writeNat .dev (a + 8) 8 (l.rtag.toNat + 2 ^ 32 * (if x.testBit 25 then x else x + 2 ^ 25))

end Sys2Proof.Claims

/-- R192 to R200: RADD, RMIN, RMAX, ROR and RONCE whose lanes' targets pass send one letter for each lane in increasing lane order, as one operation
of the remote counter, and change nothing else; where no lane takes part the operation completes at once. R182: with the counter full they are
held. R193: where a lane's target fails its checks no letter leaves, and the instruction traps with the cause of the lowest lane whose cause is not a
page fault. -/
def Obligations.RemoteOperationsSendLetters : Prop :=
  (∀ e ∈ laneSenders, ∀ o s r c ps m, Issues (e.1 o) o s r c → Pass c s (c.target (e.2.2 o) (e.2.2 o) false) ps m →
    CachesOnly (c.leaveResume s.mach) m ∧
    (c.counterFull 4 = true → exec (e.1 o) s = .next s) ∧
    (c.counterFull 4 = false → ps = [] → Gives (e.1 o) s fun t =>
      Passes (State.at s (dropOut (addOut m c.key 4) c.key m.nextOp)) t c) ∧
    (c.counterFull 4 = false → ps ≠ [] → NoneOwed s → FreshMarks s c ps.length →
      Gives (e.1 o) s fun t => Passes (State.at s (sendsLetters m c (ps.map fun y =>
        (aimLetter (e.2.1 c y.1) s.mach.pkg (onePiece y.2), c.rea y.1, none, [((c.rea y.1).toNat, e.2.2 o)])))) t c)) ∧
  (∀ e ∈ laneSenders, ∀ o s r c ps conds m y, Issues (e.1 o) o s r c → s.mach.bad = [] →
    c.checkLanes (c.target (e.2.2 o) (e.2.2 o) false) (laneList c.act) (c.leaveResume s.mach) = (ps, conds, m) →
    conds.find? (fun y => decide (y.cause ≠ 0x03)) = some y →
    exec (e.1 o) s = .next { s with mach := m.raise c.q c.run (c.trapWith y.cls y.cause conds) })

/-- R200, R204, R206: RONCE.row sends its row in one letter, RARR one arrival once the earlier remote and mem operations are done, holding until then,
and RGET one request for each lane with its reply slot. R193: a row of a wrong length raises ALIGN 0x12; R194: a RARR held as a letter fails raises
REMOTE with its cause and sends nothing. R213: a RGET is not sent before the threads' earlier acquires. -/
def Obligations.RowsArrivalsAndRequestsAreSent : Prop :=
  (∀ o s r c, Issues (.ronceRow o) o s r c →
    let len := (c.s o.b.toNat).toNat
    let off := (c.s o.d.toNat).toNat
    let fits := len % 8 = 0 ∧ 8 ≤ len ∧ len ≤ 256 ∧ c.sea.toNat % 65536 + len ≤ 65536
    (canonical c.sea = true → c.sea.toNat % 8 = 0 → ¬ fits →
      exec (.ronceRow o) s = .next { s with mach := (c.leaveResume s.mach).raise c.q c.run (c.trapWith clsAlign 0x12 (c.everyLane c.sea 0x12)) }) ∧
    (∀ ps m, fits → PassOne c s ⟨c.sea, len, 8, false, true, false, false, .letter, .denied 0x24⟩ ps m →
      CachesOnly (c.leaveResume s.mach) m ∧
      (c.tm.alloc < off + len →
        exec (.ronceRow o) s = .next { s with mach := m.raise c.q c.run (c.trapWith clsXlate 0x02 (c.everyLane 0 0x02)) }) ∧
      (off + len ≤ c.tm.alloc →
        let busy := s.mach.mustWait c.key (laneBit (lowestLane c.grp)) .scratch (c.tm.phys c.core off) len
        (c.counterFull 4 = true ∨ busy = true → exec (.ronceRow o) s = .next s) ∧
        (c.counterFull 4 = false → busy = false → NoneOwed s → FreshMarks s c 1 →
          Gives (.ronceRow o) s fun t => Passes (State.at s (sendsLetters m c [(aimLetter { c.letter with
            op := 7, sz := 3, aof := remAof o, aux := c.aofAux, data := .ofNat 64 len
            body := c.scratchRead s.mach (lowestLane c.grp) off len } s.mach.pkg (onePiece ps), c.sea, none, [(c.sea.toNat, len)])])) t c)))) ∧
  (∀ o s r c ps m, Issues (.rarr o) o s r c → PassOne c s ⟨c.sea, 8, 8, false, true, false, false, .letter, .denied 0x24⟩ ps m →
    CachesOnly (c.leaveResume s.mach) m ∧
    (∀ k, c.b.heldMark 4 = some k →
      let m' := m.modBundle c.key fun b => { b with held := false, marks := dropMark k b.marks }
      ∃ t, t.cls = k.trapCls ∧ t.cause = k.cause ∧ exec (.rarr o) s = .next { s with mach := m'.raise c.q c.run t }) ∧
    (c.b.heldMark 4 = none → c.b.count 4 = 0 → c.b.count 1 = 0 → NoneOwed s → FreshMarks s c 1 →
      Gives (.rarr o) s fun t => Passes (State.at s ((sendsLetters m c [(aimLetter { c.letter with
        op := 8, sz := 3, data := if o.fn = 1 then .ofNat 64 ((c.s o.d.toNat).toNat % 2 ^ 32) else 1 } s.mach.pkg (onePiece ps),
        c.sea, none, [(c.sea.toNat, 8)])]).modBundle c.key fun b => { b with held := false })) t c) ∧
    (c.b.heldMark 4 = none → c.b.count 4 ≠ 0 ∨ c.b.count 1 ≠ 0 →
      exec (.rarr o) s = .next { s with mach := m.modBundle c.key fun b => { b with held := true } })) ∧
  (∀ o s r c ps m, Issues (.rget o) o s r c → s.mach.bad = [] → c.rgetCheck (laneList c.act) (c.leaveResume s.mach) = (ps, [], m) →
    let late := s.mach.ops.any fun x => decide (x.key = c.key) && x.acq && x.parts.any fun p => !p.done && c.act.getLsbD p.lane
    CachesOnly (c.leaveResume s.mach) m ∧
    (c.counterFull 4 = true ∨ late = true → exec (.rget o) s = .next s) ∧
    (c.counterFull 4 = false → late = false → ps = [] → Gives (.rget o) s fun t =>
      Passes (State.at s (dropOut (addOut m c.key 4) c.key m.nextOp)) t c) ∧
    (c.counterFull 4 = false → late = false → ps ≠ [] → NoneOwed s → FreshMarks s c ps.length →
      Gives (.rget o) s fun t => Passes (State.at s (sendsLetters m c (ps.map fun y =>
        (aimLetter { c.letter with op := 9, sz := .ofNat 3 (memSz o), data := slotWord y.2.2 } s.mach.pkg y.2.1, c.rea y.1,
          some (y.2.2.space, y.2.2.addr),
          [((c.rea y.1).toNat, memSize o), ((c.s o.d.toNat + .ofNat 64 (y.1 * memSize o)).toNat, memSize o)])))) t c))

/-- R207: ACCRD leaves one read of an element outstanding for each lane, with its region's exponent and status byte (the model takes both at issue,
log 130); while FPCTL enables an exception it reads at issue (R36). The value is by the line's status byte: NaN where a contribution was NaN, left the
range, or was of both infinities, an infinity of the one sign met, and else the sum rounded once to the type. R193: a lane outside every accumulator
region raises PROT 0x25. R10: with the tracker full it is held. -/
def Obligations.AccumulatorReadsAreOutstanding : Prop :=
  (∀ o s r c ps m, Issues (.accrd o) o s r c → s.mach.bad = [] → c.accCheck (laneList c.act) (c.leaveResume s.mach) = (ps, [], m) →
    let info := fun (p : Piece) => ((s.mach.regionAt 1 p.addr 16).map fun y => (statusPlace y.2 p.addr, y.2.b)).getD (0, 0)
    let ty := typeOf o 4
    let fn := o.fn.toNat
    let parts := ps.map fun y => part y.1 y.2 (c.rea y.1) (.acc fn ty c.accMode (info y.2).1 (info y.2).2)
    let x : Op := { id := m.nextOp, key := c.key, acq := false, rel := false, serial := false, dest := .vec o.d.toNat false
                    size := 4 * accRegs fn ty, win := c.windows, parts := parts, counted := false, asid := c.g.asid }
    CachesOnly (c.leaveResume s.mach) m ∧
    ((fn = 0 → c.b.regs.trapsOn = false) →
      (m.trackerFull c.core parts = true → exec (.accrd o) s = .next s) ∧
      (m.trackerFull c.core parts = false → Gives (.accrd o) s fun t =>
        if ps = [] then Passes (State.at s (skipId m)) t c else Passes (State.at s (addOp (skipId m) x)) t c ∧ Queued s t x)) ∧
    (fn = 0 → c.b.regs.trapsOn = true →
      let busy := ps.any fun y => s.mach.mustWait c.key (laneBit y.1) .dev y.2.addr 16
      let res := fun (p : Piece) => accValue ty c.accMode (s.mach.readNat .dev (info p).1 1) (sval 128 (s.mach.readNat .dev p.addr 16)) (info p).2
      (busy = true → exec (.accrd o) s = .next s) ∧
      (busy = false → (∀ y ∈ ps, enabledOf c.b.regs.fpctl (res y.2).2 = 0) → Gives (.accrd o) s fun t =>
        OnlyRegs (State.at s m) t c ∧ StandsAt t c c.nextPc ∧
          ElemWrite ((s.regs c.key).raiseFlags (orFlags (ps.map fun y => (y.1, (res y.2).2)))) (t.regs c.key) ty o.d.toNat c.act fun l =>
            ((ps.find? fun y => decide (y.1 = l)).map fun y => (res y.2).1).getD 0))) ∧
  (∀ ty mode st n b, st.testBit 1 = true ∨ st.testBit 0 = true ∨ (st.testBit 2 = true ∧ st.testBit 3 = true) →
    accValue ty mode st n b = ((fmtOf ty).nanBits, 0)) ∧
  (∀ ty mode st n b, st.testBit 1 = false → st.testBit 0 = false → st.testBit 2 ≠ st.testBit 3 →
    accValue ty mode st n b = ((fmtOf ty).sign (st.testBit 3) + (fmtOf ty).infBits, 0)) ∧
  (∀ ty mode st n b, st % 16 = 0 → accValue ty mode st n b = (fmtOf ty).deliver mode false (valOfInt false n b)) ∧
  (∀ o s r c ps conds m y, Issues (.accrd o) o s r c → s.mach.bad = [] →
    c.accCheck (laneList c.act) (c.leaveResume s.mach) = (ps, conds, m) → conds.find? (fun y => decide (y.cause ≠ 0x03)) = some y →
    exec (.accrd o) s = .next { s with mach := m.raise c.q c.run (c.trapWith y.cls y.cause conds) }) ∧
  (∀ (c : Ctx) (m : Mach) l p m', c.o.fn ≠ 1 → m.check c.agent (c.accAccess l) = (.ok p, m') →
    (∀ y ∈ (m'.die (homeDie (onePiece p).addr)).table, ¬ (y.2.kind = 1 ∧ y.2.base ≤ (onePiece p).addr ∧ (onePiece p).addr + 16 ≤ y.2.limit)) →
    (c.accCheck [l] m).2.1 = [⟨l, clsProt, 0x25, c.rea l, 0⟩])

/-- R208, R209: the forms of ACCDEF wait for the mem counter and their thread's accesses, read a descriptor and write an index, or an error word, to
s[D]: .def installs a region with the descriptor's fields at the lowest free entry, .free removes one, .step writes its step tag, .query writes its
counts into the descriptor; with an error nothing is changed. An entry of a meeting is named by .query alone (error 8), and one of the secure world
by the secure world alone (error 6). The permissions checked on the descriptor and the width of the counts are the model's reading (logs 129, 34). -/
def Obligations.RegionsAreDefined : Prop :=
  let done := fun (i : Instr) (s : State) (c : Ctx) (x : W64) (m : Mach) =>
    Gives i s fun t => OnlyRegs (State.at s m) t c ∧ StandsAt t c c.nextPc ∧ t.regs c.key = (s.regs c.key).sset c.hand c.o.d.toNat x
  let late := fun (s : State) (c : Ctx) (ps : List Piece) => c.b.count 1 ≠ 0 ∨ s.mach.threadBusy c.key c.grp (onePiece ps).space = true
  let desc := fun (c : Ctx) (m : Mach) (ps : List Piece) => c.readOwn m (lowestLane c.grp) ps
  (∀ e ∈ [((.accdef : Opn → Instr), false), (.accdefFree, false), (.accdefStep, false), (.accdefQuery, true)], ∀ o s r c ps m,
    Issues (e.1 o) o s r c → PassOne c s ⟨c.sea, 64, 64, true, e.2, false, false, .local_, .allowed⟩ ps m →
    CachesOnly (c.leaveResume s.mach) m ∧ (late s c ps → exec (e.1 o) s = .next s)) ∧
  (∀ o s r c ps m x m', Issues (.accdef o) o s r c → PassOne c s ⟨c.sea, 64, 64, true, false, false, false, .local_, .allowed⟩ ps m →
    ¬ late s c ps → c.define m (desc c m ps) = (x, m') →
    done (.accdef o) s c x m' ∧ (x.getLsbD 63 = true → CachesOnly (c.leaveResume s.mach) m') ∧
    (x.getLsbD 63 = false → (s.mach.die c.die).freeRegion = some x.toNat ∧ (∀ k < x.toNat, Sparse.get none (s.mach.die c.die).regions k ≠ none) ∧
      let d := desc c m ps
      let ctl := fieldAt d 16 8
      ∃ m₀ g, CachesOnly (c.leaveResume s.mach) m₀ ∧
        m' = m₀.modDie c.die (fun y => { y with regions := Sparse.put none y.regions x.toNat (some g) }) ∧
        g.limit - g.base = fieldAt d 8 8 - fieldAt d 0 8 ∧ g.kind = nfld ctl 1 0 ∧ g.stepEn = ctl.testBit 2 ∧ g.stepTag = .ofNat 16 (nfld ctl 63 48) ∧
        g.b = sval 9 (nfld ctl 40 32) ∧ g.arrn = fieldAt d 40 2 ∧ g.stale = 0 ∧ g.conflicts = 0 ∧ g.secure = c.g.world ∧ g.owner = none ∧
        g.meeting = none ∧ m₀.inRegion g.base (g.limit - g.base) = false)) ∧
  (∀ o s r c ps m, Issues (.accdefFree o) o s r c → PassOne c s ⟨c.sea, 64, 64, true, false, false, false, .local_, .allowed⟩ ps m →
    ¬ late s c ps →
    match c.named m (desc c m ps) false with
    | (.error e, m') => done (.accdefFree o) s c (.ofNat 64 (2 ^ 63 + e)) m'
    | (.ok (i, _), m') => done (.accdefFree o) s c (.ofNat 64 i)
        (m'.modDie c.die fun d => { d with regions := Sparse.put none d.regions i none })) ∧
  (∀ o s r c ps m, Issues (.accdefStep o) o s r c → PassOne c s ⟨c.sea, 64, 64, true, false, false, false, .local_, .allowed⟩ ps m →
    ¬ late s c ps →
    match c.named m (desc c m ps) false with
    | (.error e, m') => done (.accdefStep o) s c (.ofNat 64 (2 ^ 63 + e)) m'
    | (.ok (i, _), m') => done (.accdefStep o) s c (.ofNat 64 i)
        (m'.modRegion c.die i fun g => { g with stepTag := (c.s o.c.toNat).setWidth 16 })) ∧
  (∀ o s r c ps m, Issues (.accdefQuery o) o s r c → PassOne c s ⟨c.sea, 64, 64, true, true, false, false, .local_, .allowed⟩ ps m →
    ¬ late s c ps →
    match c.named m (desc c m ps) true with
    | (.error e, m') => done (.accdefQuery o) s c (.ofNat 64 (2 ^ 63 + e)) m'
    | (.ok (i, g), m') =>
      let p := onePiece ps
      done (.accdefQuery o) s c (.ofNat 64 i)
        ((m'.writeNat p.space (p.addr + 48) 4 g.stale.toNat).writeNat p.space (p.addr + 56) 4 g.conflicts.toNat)) ∧
  (∀ (c : Ctx) (m : Mach) d meetings ps m', c.localSpan m (fieldAt d 0 8) 1 = (some ps, m') →
    let hit := (m'.die c.die).table.find? fun y => decide (y.2.base = (onePiece ps).addr)
    (hit = none → c.named m d meetings = (.error 5, m')) ∧
    (∀ y, hit = some y →
      (y.2.secure = true ∧ c.g.world = false → c.named m d meetings = (.error 6, m')) ∧
      ((y.2.secure = true → c.g.world = true) →
        (meetings = false ∧ (y.2.owner.isSome = true ∨ y.2.meeting.isSome = true) → c.named m d meetings = (.error 8, m')) ∧
        (meetings = true ∨ y.2.owner = none ∧ y.2.meeting = none → c.named m d meetings = (.ok y, m')))))

/-- R203, R205: ARRWAIT writes the arrival word to s[D] when its condition holds or with FN 1, and parks its group otherwise; once the condition holds
the group is woken with the word in s[D]. Before it reads, it waits for its threads' own older accesses to the word (R36, R173). -/
def Obligations.ArrivalsAreAwaited : Prop :=
  (∀ o s r c ps m, Issues (.arrwait o) o s r c → PassOne c s (⟨c.sea, 8, 8, true, false, false, false, .local_, .denied 0x24⟩ : Access) ps m →
    let x := s.mach.readNat .dev (onePiece ps).addr 8
    CachesOnly (c.leaveResume s.mach) m ∧
    if s.mach.mustWait c.key c.grp .dev (onePiece ps).addr 8 = true then Gives (.arrwait o) s fun t => Waits (State.at s m) t c c.grp
    else if o.fn = 1 ∨ nfld x 55 32 ≤ x % 2 ^ 32 ∨ x.testBit 56 = true then
      Gives (.arrwait o) s fun t => OnlyRegs (State.at s m) t c ∧ StandsAt t c c.nextPc ∧
        t.regs c.key = (s.regs c.key).sset c.hand o.d.toNat (.ofNat 64 x)
    else Gives (.arrwait o) s fun t => Parks (State.at s m) t c (.arrival o.d.toNat (onePiece ps).addr)) ∧
  (∀ b l (s : State) d pa seq sz, ((s.mach.bundle b).lane l).st = .wait (.arrival d pa) seq sz → s.mach.damaged .dev pa 8 = false →
    let x := s.mach.readNat .dev pa 8
    if nfld x 55 32 ≤ x % 2 ^ 32 ∨ x.testBit 56 = true then Wakes (.arrwaitWake b l) s b seq false fun y => y.setS d (.ofNat 64 x)
    else exec (.arrwaitWake b l) s = .next s)

/-- R186 to R191: a home acknowledges an accepted letter whose postmark it holds without applying it, refuses it when its table is full, and otherwise
applies it, enters the postmark of an applied one, and acknowledges its status. A late, fenced or malformed letter has no effect, nor has one of
another package before the ports carry letters (R404). R195 to R197, R203: an integer letter to memory outside every region replaces its element by
the function of the old value and the data, the lesser or the greater in the order of its type for RMIN and RMAX, and an arrival adds its count to an
arrival word, OVER being set beyond the target. R198, R199: a letter into an accumulator region lands its value. R201: a write-once letter fills the
absent units, or counts a conflict and changes nothing. R210: a step tag not in force makes a letter stale, and a letter of the non-secure world for
secure memory is answered 3. R221: meeting letters post, arrive, close and release rounds. The order of a home's tests is the model's reading
(logs 32, 127). -/
def Obligations.LettersAreApplied : Prop :=
  (∀ l age s a m, l.op ≠ 9 → l.op ≠ 10 → Accepted s l age a m →
    let die := homeDie l.tpa.toNat
    let (st, m') := m.applyLetter l
    let after : Mach := if s.mach.marked die l.pm then m.ackTo l 0
      else if s.mach.marksFull die then m.ackTo l 1
      else (if st = 0 then m'.setMark die l.pm (some m'.clk) else m').ackTo l st
    exec (.letterReceive l age) s = .next { s with mach := after }) ∧
  (∀ l age s, l.op ≠ 9 → l.op ≠ 10 → pmPkg l.pm ≠ s.mach.pkg → s.boot.pkgV = false → exec (.letterReceive l age) s = .next s) ∧
  (∀ l age s a m, l.tpkg.toNat = s.mach.pkg → l.op ≠ 9 → l.op ≠ 10 → s.mach.takeCopy l (pmPkg l.pm) age = some (a, m) →
    250 < a ∨ s.mach.fenced (pmPkg l.pm) = true ∨ letterBad l = true →
    ∃ w, exec (.letterReceive l age) s = .next { s with mach := { s.mach with wire := w } }) ∧
  (∀ (m : Mach) (l : Letter), m.bad = [] → l.op = 1 ∨ l.op = 3 ∨ l.op = 4 ∨ l.op = 5 ∨ l.op = 8 →
     let pa := l.tpa.toNat
     let ty := l.ty.toNat
     let w := if l.op = 8 then 8 else regBits ty / 8
     let old := m.readNat .dev pa w
     let x := l.data.toNat % 2 ^ (8 * w)
     if m.inRegion pa w then m.applyPlain l = (2, m)
     else if l.world = false ∧ m.secureRange pa w = true then m.applyPlain l = (3, m)
     else ∃ d, m.applyPlain l = (0, { m with dev := d }) ∧
       (∀ a, a < pa ∨ pa + w ≤ a → Sparse.get emptyByte d a = m.readByte .dev a) ∧
       let new := (Mach.readNat { m with dev := d } .dev pa w)
       (l.op = 1 → new = (old + x) % 2 ^ (8 * w)) ∧
       (l.op = 5 → new = old ||| x) ∧
       (l.op = 3 → ty < 5 → (new = old ∨ new = x) ∧ minMaxKey ty new = min (minMaxKey ty old) (minMaxKey ty x)) ∧
       (l.op = 4 → ty < 5 → (new = old ∨ new = x) ∧ minMaxKey ty new = max (minMaxKey ty old) (minMaxKey ty x)) ∧
       (l.op = 8 → new % 2 ^ 32 = (old + l.data.toNat) % 2 ^ 32 ∧ nfld new 55 32 = nfld old 55 32 ∧ nfld new 63 57 = nfld old 63 57 ∧
         (new.testBit 56 = true ↔ old.testBit 56 = true ∨ nfld old 55 32 < old % 2 ^ 32 + l.data.toNat % 2 ^ 32))) ∧
  (∀ (m : Mach) (l : Letter) (i : Nat) (g : Region), m.bad = [] → l.op = 2 → m.regionAt 1 l.tpa.toNat 16 = some (i, g) →
     (g.owner ≠ none → m.applyPlain l = (2, m)) ∧
     (g.owner = none →
       ((g.secure = true ∨ m.secureRange l.tpa.toNat 16 = true) ∧ l.world = false → m.applyPlain l = (3, m)) ∧
       (regionTakes m l 16 g → g.stepEn = true → g.stepTag ≠ l.step →
         m.applyPlain l = (0, m.modRegion (homeDie l.tpa.toNat) i fun g => { g with stale := satInc g.stale })) ∧
       (regionTakes m l 16 g → (g.stepEn = true → g.stepTag = l.step) →
         ∃ m', m.applyPlain l = (0, m') ∧ Lands m m' g l.tpa.toNat ((fmtOf l.ty.toNat).decode l.data.toNat) l.ush.toNat))) ∧
  (∀ (m : Mach) (l : Letter), l.op = 2 → m.regionAt 1 l.tpa.toNat 16 = none → m.applyPlain l = (2, m)) ∧
  (∀ (m : Mach) (l : Letter) (i : Nat) (g : Region), m.bad = [] → l.op = 6 ∨ l.op = 7 → m.regionAt 2 l.tpa.toNat (onceData l).length = some (i, g) →
     let pa := l.tpa.toNat
     let data := onceData l
     let n := data.length / 8
     let old := fun k => m.readNat .dev (pa + 8 * k) 8
     let new := fun k => leNat ((data.drop (8 * k)).take 8)
     let present := fun k => (m.readNat .dev (presencePlace g (pa + 8 * k)) 1).testBit (presenceBit g (pa + 8 * k))
     ((g.secure = true ∨ m.secureRange pa data.length = true) ∧ l.world = false → m.applyPlain l = (3, m)) ∧
     (((g.secure = true ∨ m.secureRange pa data.length = true) → l.world = true) → l.aof = true → g.arrn ≤ l.aux.toNat →
       m.applyPlain l = (4, m)) ∧
     (regionTakes m l data.length g → g.stepEn = true → g.stepTag ≠ l.step →
       m.applyPlain l = (0, m.modRegion (homeDie pa) i fun g => { g with stale := satInc g.stale })) ∧
     (regionTakes m l data.length g → (g.stepEn = true → g.stepTag = l.step) →
       ((∃ k < n, present k = true ∧ old k ≠ new k) →
         m.applyPlain l = (0, m.modRegion (homeDie pa) i fun g => { g with conflicts := satInc g.conflicts })) ∧
       ((∀ k < n, present k = true → old k = new k) → data.length % 8 = 0 →
         (∀ k < n, ∀ a, a = presencePlace g (pa + 8 * k) → a < pa ∨ pa + data.length ≤ a) →
         let word := pieceAddr g.arr (8 * l.aux.toNat)
         let counts := l.aof = true ∧ ∀ k < n, present k = false
         ∃ m₁, (∀ k < n, m₁.readNat .dev (pa + 8 * k) 8 = new k) ∧
           (∀ k < n, (m₁.readNat .dev (presencePlace g (pa + 8 * k)) 1).testBit (presenceBit g (pa + 8 * k)) = true) ∧
           (∀ a, (a < pa ∨ pa + data.length ≤ a) → (∀ k < n, a ≠ presencePlace g (pa + 8 * k)) → m₁.readByte .dev a = m.readByte .dev a) ∧
           m₁ = { m with dev := m₁.dev } ∧
           (counts → m.applyPlain l = (0, m₁.arrive word 1)) ∧ (¬ counts → m.applyPlain l = (0, m₁))))) ∧
  (∀ (m : Mach) (l : Letter), m.bad = [] → 0x10 ≤ l.op.toNat → l.op.toNat ≤ 0x12 →
     let rc := l.tpa.toNat
     let die := homeDie rc
     let open_ := (m.die die).table.findSome? fun y => y.2.meeting.bind fun g => if g.record = rc then some (y.2, g) else none
     let shape := recField m rc 24 8
     let t := l.rtag.toNat
     let k := l.member.toNat
     let c := recField m rc 40 4
     let d := (c + 2 ^ 32 - t) % 2 ^ 32
     (open_ = none → m.applyMeeting l = (2, m)) ∧
     (∀ r g, open_ = some (r, g) →
       ((r.secure = true ∨ m.secureRange rc 128 = true) ∧ l.world = false → m.applyMeeting l = (3, m)) ∧
       (((r.secure = true ∨ m.secureRange rc 128 = true) → l.world = true) →
         (l.op = 0x12 → m.applyMeeting l = releases m rc (nfld shape 52 40) t) ∧
         (l.op ≠ 0x12 → g.n ≤ k → m.applyMeeting l = (4, m)) ∧
         (l.op ≠ 0x12 → k < g.n →
           ((recField m rc 40 8).testBit 32 = true → m.applyMeeting l = (1, m)) ∧
           ((recField m rc 40 8).testBit 32 = false →
             let late := nfld shape 35 32 < d ∨ ((m.readNat .dev (g.mem + 16 * k + 8) 8).testBit 56 = true ∧ d ≠ 0)
             (2 ^ 31 ≤ d → t = (c + 1) % 2 ^ 32 → m.applyMeeting l = (1, m)) ∧
             (2 ^ 31 ≤ d → t ≠ (c + 1) % 2 ^ 32 → m.applyMeeting l = (0, meetsDead m g k)) ∧
             (d < 2 ^ 31 → late → m.applyMeeting l = (0, meetsDead m g k)) ∧
             (d < 2 ^ 31 → ¬ late →
               let x := m.readNat .dev (g.mem + 16 * k + 8) 8
               let m₁ := if d = 0 ∧ x.testBit 56 = true then m.writeNat .dev (g.mem + 16 * k + 8) 8 (x - 2 ^ 56) else m
               (l.op = 0x11 → sval 128 (m₁.readNat .dev (g.record + 48 + 16 * parityOf m₁ g.record c) 16) + 2 ^ 120 < 2 ^ 127 →
                 0 ≤ sval 128 (m₁.readNat .dev (g.record + 48 + 16 * parityOf m₁ g.record c) 16) →
                 m₁.readNat .dev (g.record + 48 + 16 * parityOf m₁ g.record c) 16
                   = (m₁.writeNat .dev (g.mem + 16 * k) 4 t).readNat .dev (g.record + 48 + 16 * parityOf m₁ g.record c) 16 →
                 parityOf (m₁.writeNat .dev (g.mem + 16 * k) 4 t) g.record c = parityOf m₁ g.record c →
                 m.applyMeeting l = (0, meetingArrives m₁ g l c d (nfld shape 39 36) (nfld shape 28 16))) ∧
               (l.op = 0x10 → ∀ i, i = (if parityOf m₁ rc c = 0 then g.acc0 else g.acc1) →
                 match Sparse.get none (m.die die).regions i with
                 | none => m.applyMeeting l = (2, m₁)
                 | some a =>
                   ((a.limit - a.base) / 16 ≤ l.elem.toNat → m.applyMeeting l = (2, m₁)) ∧
                   (l.elem.toNat < (a.limit - a.base) / 16 → a.stepEn = true → a.stepTag ≠ l.step →
                     m.applyMeeting l = (0, m₁.modRegion die i fun g => { g with stale := satInc g.stale })) ∧
                   (l.elem.toNat < (a.limit - a.base) / 16 → (a.stepEn = true → a.stepTag = l.step) →
                     ∃ m₂, Lands m₁ m₂ a (a.base + 16 * l.elem.toNat) ((fmtOf l.ty.toNat).decode l.data.toNat)
                         (l.ush.toNat + nfld shape 39 36 * d) ∧
                       m.applyMeeting l = (0, meetingPosted m₂ g l c d)))))))))

/-- R190, R206, R210: a request is answered by one read of memory, or with status 3 where it may not read (the model's reading, log 105); a settle
notice removes its postmark, and so does the passing of 200 µs once no copy of the letter can come any more (log 140). -/
def Obligations.RequestsAreAnsweredAndPostmarksLeave : Prop :=
  (∀ l age s a m, l.op = 9 → Accepted s l age a m →
    let n := 2 ^ l.sz.toNat
    let r := replyTo l (s.mach.readNat .dev l.tpa.toNat n)
    (l.world = false → m.secureSpan l.tpa.toNat n = true → exec (.rgetRead l age) s = .next { s with mach := m.ackTo l 3 }) ∧
    (l.world = true ∨ m.secureSpan l.tpa.toNat n = false → s.mach.damaged .dev l.tpa.toNat n = false →
      exec (.rgetRead l age) s = .next { s with mach :=
        if r.tpkg.toNat = s.mach.pkg then { m with wire := m.wire ++ [⟨r, s.mach.clk⟩] } else { m with out := m.out ++ [.letter r] } })) ∧
  (∀ l v, 2 ≤ l.sz.toNat → l.sz.toNat ≤ 4 → let r := replyTo l v
    r.pm = l.pm ∧ r.op = 10 ∧ r.sz = l.sz ∧ r.tpkg.toNat = pmPkg l.pm ∧ r.tpa.toNat = fld l.data 39 0 ∧ r.sp = bitAt l.data 40 ∧
      replyValue r = v % 256 ^ (2 ^ l.sz.toNat)) ∧
  (∀ die pm s, pmPkg pm ≠ s.mach.pkg ∨ s.mach.settles.contains (die, pm) = true → Gives (.settleNoticeReceive die pm) s fun t =>
    t.mach.marked die pm = false ∧ (∀ d pm', d ≠ die ∨ pm' ≠ pm → t.mach.marked d pm' = s.mach.marked d pm') ∧
      t = { s with mach := { s.mach with dies := t.mach.dies, settles := t.mach.settles } }) ∧
  (∀ die pm s x, Sparse.get none (s.mach.die die).marks pm.toNat = some x → x + 200 * Config.usCycles ≤ s.mach.clk →
    (s.mach.mayCome pm = true → exec (.postmarkExpiry die pm) s = .next s) ∧
    (s.mach.mayCome pm = false → Gives (.postmarkExpiry die pm) s fun t => t.mach.marked die pm = false ∧
      (∀ d pm', d ≠ die ∨ pm' ≠ pm → t.mach.marked d pm' = s.mach.marked d pm') ∧ t = { s with mach := { s.mach with dies := t.mach.dies } }))

/-- R188 to R190, R194, R206: at the sender, APPLIED ends the wait for a letter, and the last of an operation's letters completes it; REFUSED asks for
another copy; a failure drops the letter's record and marks the bundle with its cause and address, the mark being ready for report once the operation
completes (that the other letters of the operation are waited for is the model's reading, log 128); 8 µs without an answer bring another copy with the
same postmark, up to 16, then a failure; an owed notice leaves 2 µs after it is owed and ends the record; a reply is written to its slot. -/
def Obligations.SendersFollowTheirLetters : Prop :=
  (∀ pm st s x m, s.mach.sentAt pm = some x → s.mach.takeAck x.letter.tpkg.toNat pm st = some m → x.acked = false →
    (st ≤ 1 → x.letter.op = 9 → exec (.acknowledgementReceive pm st) s = .next { s with mach := m }) ∧
    (st = 0 → x.letter.op ≠ 9 → ∀ key out b, x.sender = .bundle key out → Counts s key out b → ∃ bs,
      exec (.acknowledgementReceive pm st) s = .next { s with mach := { m with
        bundles := bs
        sent := s.mach.sent.map fun y => if y.letter.pm = pm then { y with acked := true, refused := false, timer := s.mach.clk } else y } } ∧
      Rebundled s bs key (answered s pm x.sender out b)) ∧
    (st = 1 → x.letter.op ≠ 9 → exec (.acknowledgementReceive pm st) s = .next { s with mach := { m with
      sent := s.mach.sent.map fun y => if y.letter.pm = pm then { y with refused := true, timer := s.mach.clk } else y } }) ∧
    (2 ≤ st → st ≤ 4 → ∀ key out b, x.sender = .bundle key out → Counts s key out b → ∃ bs,
      exec (.acknowledgementReceive pm st) s = .next { s with mach := { m with
        bundles := bs, sent := sentWithout s pm, spent := spentWith s x } } ∧
      Rebundled s bs key (answered s pm x.sender out (failed b out (0x30 + st) x.va)))) ∧
  (∀ b : Bundle, ∀ out, let ripe := fun k : Mark => if k.id = out ∧ k.ready = false then { k with ready := true, held := b.heldFor k.kind } else k
    (completed b out).marks = b.marks.map ripe ∧ (completed b out).outs = finishOut out b.outs) ∧
  (∀ pm s x, s.mach.sentAt pm = some x → x.acked = false → x.refused = false → x.timer + 8 * Config.usCycles ≤ s.mach.clk → NoneOwed s →
    (x.resends < 16 → exec (.resendTimer pm) s = .next { s with mach := sentAgain s x (x.resends + 1) }) ∧
    (16 ≤ x.resends → ∀ key out b, x.sender = .bundle key out → Counts s key out b → ∃ bs,
      exec (.resendTimer pm) s = .next { s with mach := { s.mach with
        bundles := bs, sent := sentWithout s pm, spent := spentWith s x } } ∧
      Rebundled s bs key (answered s pm x.sender out (failed b out 0x31 x.va)))) ∧
  (∀ pm s x, s.mach.sentAt pm = some x → x.acked = false → x.refused = true → NoneOwed s →
    exec (.refusedRetry pm) s = .next { s with mach := sentAgain s x x.resends }) ∧
  (∀ pm s x, s.mach.sentAt pm = some x → x.acked = true → x.letter.op ≠ 9 → x.last + 4 * Config.usCycles < s.mach.clk →
    max x.timer (x.last + 4 * Config.usCycles) + 2 * Config.usCycles ≤ s.mach.clk →
    exec (.settleNoticeSend pm) s = .next { s with mach :=
      let m : Mach := { s.mach with sent := sentWithout s pm, spent := spentWith s x }
      if x.letter.tpkg.toNat = s.mach.pkg then { m with settles := s.mach.settles ++ [(homeDie x.letter.tpa.toNat, pm)] }
      else { m with out := s.mach.out ++ [.settle x.letter.tpkg.toNat (homeDie x.letter.tpa.toNat) pm] } }) ∧
  (∀ l s x a m sp pa key out b, l.op = 10 → l.tpkg.toNat = s.mach.pkg → s.mach.sentAt l.pm = some x →
    x.letter.tpkg.toNat = s.mach.pkg ∨ s.boot.pkgV = true →
    s.mach.takeCopy l x.letter.tpkg.toNat l.age.toNat = some (a, m) → a ≤ 250 → x.answeredBy l = true → x.slot = some (sp, pa) →
    x.sender = .bundle key out → Counts s key out b →
    Gives (.replyReceive l) s fun t => t.mach.readNat sp pa (2 ^ l.sz.toNat) = replyValue l % 256 ^ (2 ^ l.sz.toNat) ∧
      (∀ sp' k, sp' ≠ sp ∨ k < pa ∨ pa + 2 ^ l.sz.toNat ≤ k → t.mach.readByte sp' k = s.mach.readByte sp' k) ∧
      t.mach.sent = sentWithout s l.pm ∧ Rebundled s t.mach.bundles key (answered s l.pm x.sender out b) ∧
      t = { s with mach := { s.mach with
        sent := t.mach.sent, spent := spentWith s x, wire := m.wire, bundles := t.mach.bundles
        dev := t.mach.dev, host := t.mach.host, scratch := t.mach.scratch } })

namespace Sys2Proof.Claims

/-! ## Meetings, copies, barriers, mailbags, leave (R215 to R250, R322 to R332) -/

/-- The group goes on and nothing but registers of the issuer and one team have changed. -/
def ButTeam (s t : State) (c : Ctx) (tk : Nat) : Prop :=
  MemoryKept s t ∧ OthersKept s t c.key ∧ ThreadsKept s t c.key ∧ StandsAt t c c.nextPc ∧ (∀ k, k ≠ tk → t.mach.team? k = s.mach.team? k) ∧
    t.mach.grids = s.mach.grids ∧ t.mach.desk = s.mach.desk ∧ t.boot = s.boot ∧ (t.mach.bundle c.key).trap = (s.mach.bundle c.key).trap

/-- The letter of MPOST for a lane (R224). -/
def postLetter (c : Ctx) (l : Nat) : Letter :=
  { c.letter with
    op := 0x10, ty := .ofNat 4 (typeOf c.o 4), sz := .ofNat 3 (szOfTy (typeOf c.o 4)), ush := .ofNat 6 (remUsh c.o)
    data := .ofNat 64 (c.elem (typeOf c.o 4) c.o.d.toNat l), rtag := .ofNat 32 c.roundTag, member := .ofNat 12 c.memberNo
    elem := c.v c.o.b.toNat l }

/-- The parity that holds a round, if one does (R226). -/
def holds (m : Mach) (rc t : Nat) : Option Nat :=
  [0, 1].find? fun p => decide (nfld (parityWord m rc p) 63 32 = t ∧ nfld (parityWord m rc p) 31 29 ≠ 0)

/-- STATE of a round (R227): dissolved, that of the parity that holds it, ahead of CUR, or gone. -/
def roundIs (m : Mach) (rc t : Nat) : Nat :=
  if (recField m rc 40 8).testBit 33 then 5
  else match holds m rc t with
    | some p => nfld (parityWord m rc p) 31 29
    | none => if 2 ^ 31 ≤ (recField m rc 40 4 + 2 ^ 32 - t) % 2 ^ 32 then 0 else 4

/-- The round status word (R227): the counts are zero in STATE 0, 4 and 5. -/
def roundStatus (m : Mach) (rc t : Nat) : W64 :=
  let x := if (recField m rc 40 8).testBit 33 then 0 else ((holds m rc t).map (parityWord m rc)).getD 0
  .ofNat 64 (roundIs m rc t * 2 ^ 61 + nfld x 12 0 * 2 ^ 32 + nfld x 28 16 * 2 ^ 16)

/-- A round is done: closed, gone or dissolved (R226). -/
def roundOver (m : Mach) (rc t : Nat) : Prop := roundIs m rc t = 2 ∨ roundIs m rc t = 4 ∨ roundIs m rc t = 5

/-- A meeting opens at record `rc`, its member table of `n` entries at `mem`, in entry i of its die's table, with regions i0 and i1 (R223): the entry
is taken and owns the two regions; CUR is RTAG0 - 1, HELD; the parity of RTAG0 is clearing and the other free with RTAG0 - 1; sums, counts and
reserved fields of the record are zero, L and W one with FN 0; every member's tags are RTAG0 - 1 and its other fields zero; no other byte changes. -/
structure MeetingOpens (c : Ctx) (m m' : Mach) (rc mem n i i0 i1 : Nat) : Prop where
  rest : m' = { m with dev := m'.dev, dies := m'.dies }
  dies : ∀ k, m'.die k = if k = c.die then { m.die k with regions := (m'.die k).regions } else m.die k
  table : ∀ k, Sparse.get none (m'.die c.die).regions k =
    if k = i then some ⟨rc, rc + 128, 3, false, 0, 0, [], [], 0, 0, 0, c.g.world, none, some ⟨rc, mem, n, i0, i1⟩⟩
    else if k = i0 ∨ k = i1 then (Sparse.get none (m.die c.die).regions k).map fun r => { r with owner := some i }
    else Sparse.get none (m.die c.die).regions k
  kept : ∀ a, a < rc + 24 ∨ (rc + 32 ≤ a ∧ a < rc + 40) ∨ rc + 128 ≤ a → a < mem ∨ mem + 16 * n ≤ a → m'.readByte .dev a = m.readByte .dev a
  params : let x := recField m rc 24 8
    recField m' rc 24 8 = if c.o.fn = 0 then x - nfld x 39 32 * 2 ^ 32 + 0x11 * 2 ^ 32 else x
  current : recField m' rc 40 8 = (recField m rc 32 4 + 2 ^ 32 - 1) % 2 ^ 32 + 2 ^ 32
  sums : recField m' rc 48 32 = 0
  opening : recField m' rc 80 8 = recField m rc 32 4 * 2 ^ 32 + 3 * 2 ^ 29
  other : recField m' rc 88 8 = (recField m rc 32 4 + 2 ^ 32 - 1) % 2 ^ 32 * 2 ^ 32
  counts : recField m' rc 96 32 = 0
  members : ∀ k < n, let old := (recField m rc 32 4 + 2 ^ 32 - 1) % 2 ^ 32
    m'.readNat .dev (mem + 16 * k) 16 = old + old * 2 ^ 32 + old * 2 ^ 64

/-- The bundle of a counted operation is resident. -/
def Resident (s : State) (key out : Nat) : Prop := ∃ b, s.mach.bundle? key = some b ∧ b.outs.any (fun y => decide (y.id = out)) = true

/-- The copy that CPY or CPYM queues, with its parameters (R238) and the receivers of a CPYM: the teams of the barrier's last phase, of which those with
too small an allocation are skipped (R249). -/
structure QueuedCopy (c : Ctx) (m : Mach) (multicast : Bool) (d : List Byte) (x : Copy) : Prop where
  ids : x.id = m.nextOp ∧ x.out = m.nextOp ∧ x.key = c.key ∧ x.team = c.tk ∧ x.multicast = multicast ∧ x.desc = d
  place : x.c = c.s c.o.c.toNat
  coords : x.coords = (List.range (cpRank d)).map fun k => BitVec.ofNat 32 ((c.s (c.o.b.toNat + k / 2)).toNat / 2 ^ (32 * (k % 2)))
  tag : x.tag = if bitAt c.o.mods 7 then (c.s c.o.d.toNat).setWidth 32 else c.tm.copySeq + 1
  noRec : x.noRec = (bitAt c.o.mods 7 && bitAt (c.s c.o.d.toNat) 33)
  start : x.st = 0 ∧ x.f = 0 ∧ x.status = 0 ∧ x.fault = 0 ∧ x.started = false ∧ x.arrived = false ∧ x.fid = none
  issuer : x.world = c.g.world ∧ x.asid = c.g.asid ∧ x.stepTag = c.b.regs.stepTag
  recv : x.recv = if multicast then (c.tm.bar (cpBarn d)).last.map (fun tk => (tk, (m.team tk).gen)) else []
  skip : ∀ i, x.skip.testBit i = (x.recv[i]?.any fun r => decide ((m.team r.1).alloc < (c.s c.o.c.toNat).toNat + cpSize d))

/-- Fields of a ring header at a team offset (R247): LOG2N, SLOTS, TAIL and HEAD. -/
def ringWord (m : Mach) (t : Team) (core off k n : Nat) : Nat := m.readNat .scratch (t.phys core off + k) n
def ringLog (m : Mach) (t : Team) (core off : Nat) : Nat := nfld (ringWord m t core off 0 8) 36 32
def ringSlots (m : Mach) (t : Team) (core off : Nat) : Nat := ringWord m t core off 0 4
def ringTail (m : Mach) (t : Team) (core off : Nat) : Nat := ringWord m t core off 8 8
def ringHeadNo (m : Mach) (t : Team) (core off : Nat) : Nat := ringWord m t core off 16 8

/-- The slot at HEAD of a ring: its team offset, whether header and slot lie within the allocation, and whether its record is valid (R247, R248). -/
def headSlotAt (m : Mach) (t : Team) (core off : Nat) : Nat :=
  ringSlots m t core off + 16 * (ringHeadNo m t core off % 2 ^ ringLog m t core off)
def ringReadable (m : Mach) (t : Team) (core off : Nat) : Prop := off + 64 ≤ t.alloc ∧ headSlotAt m t core off + 16 ≤ t.alloc
def recordValid (m : Mach) (t : Team) (core off : Nat) : Prop :=
  nfld (ringWord m t core (headSlotAt m t core off) 8 8) 63 63 = (ringHeadNo m t core off / 2 ^ ringLog m t core off + 1) % 2

/-- The registers and the machine after the record at HEAD is taken: s[D] and s[D + 1] hold it, and HEAD has advanced unless it is only looked at. -/
def recordRegs (m : Mach) (t : Team) (core off d : Nat) (r : Regs) : Regs :=
  (r.setS d (.ofNat 64 (ringWord m t core (headSlotAt m t core off) 0 8))).setS (d + 1) (.ofNat 64 (ringWord m t core (headSlotAt m t core off) 8 8))
def headAdvanced (m : Mach) (t : Team) (core off : Nat) (peek : Bool) : Mach :=
  if peek then m else m.writeNat .scratch (t.phys core off + 16) 8 ((ringHeadNo m t core off + 1) % 2 ^ 64)

/-- What writing a record of two words to a ring makes of the machine, with the PH it gets (R247): nothing where the header is beyond the allocation;
DROPPED rises where the header is not sound or the ring is full; else the slot at TAIL takes the record and TAIL advances. -/
def RecordPlaced (m m' : Mach) (t : Team) (core off lo hi ph : Nat) : Prop :=
  let a := t.phys core off
  let n := ringLog m t core off
  let tail := ringTail m t core off
  let sound := 4 ≤ n ∧ n ≤ 16 ∧ ringSlots m t core off + 16 * 2 ^ n ≤ t.alloc ∧ nfld (ringWord m t core off 0 8) 63 37 = 0 ∧
    ringWord m t core off 32 32 = 0 ∧ (tail + 2 ^ 64 - ringHeadNo m t core off) % 2 ^ 64 < 2 ^ n
  if t.alloc < off + 64 then m' = m ∧ ph = 0
  else if ¬ sound then m' = m.writeNat .scratch (a + 24) 8 ((ringWord m t core off 24 8 + 1) % 2 ^ 64) ∧ ph = 0
  else
    let slot := t.phys core (ringSlots m t core off + 16 * (tail % 2 ^ n))
    ph = (tail / 2 ^ n + 1) % 2 ∧
      m' = ((m.writeNat .scratch (a + 8) 8 ((tail + 1) % 2 ^ 64)).writeNat .scratch slot 8 lo).writeNat .scratch (slot + 8) 8 (hi + ph * 2 ^ 63)

/-! ### The bytes of a copy (R234 to R236, R240 to R242) -/

/-- Dimension k of the element that holds image byte o: index (R234), extent, and byte stride. -/
def boxSize (d : List Byte) (k : Nat) : Nat := fieldAt d (52 + k) 1 + 1
def boxIndex (x : Copy) (o k : Nat) : Int :=
  sval 32 (x.coords.getD k 0).toNat + ((o / cpEsize x.desc / ((List.range k).map (boxSize x.desc)).prod % boxSize x.desc k : Nat) : Int)
def dimStride (d : List Byte) (k : Nat) : Nat := if k = 0 then cpEsize d else 16 * fieldAt d (32 + 4 * k) 4

/-- The memory address of image byte o where its element is in bounds (R234). -/
def copyAddr (x : Copy) (o : Nat) : Option W64 :=
  if ∀ k < cpRank x.desc, 0 ≤ boxIndex x o k ∧ boxIndex x o k < (fieldAt x.desc (16 + 4 * k) 4 : Int) then
    some (.ofInt 64 ((fieldAt x.desc 0 8 : Int)
      + ((List.range (cpRank x.desc)).map fun k => boxIndex x o k * (dimStride x.desc k : Int)).sum + ((o % cpEsize x.desc : Nat) : Int)))
  else none

/-- Swz (R235), for SWZ 0 to 3. -/
def swz (k o : Nat) : Nat :=
  if k = 0 then o
  else
    let u := 2 ^ (k + 1)
    128 * (o / 128) + u * ((o % 128 / u + o / 128) % (128 / u)) + o % u

/-- The team offset of image byte o in the scratchpad (R235), and the fill of an element out of bounds (R236). -/
def imageOff (x : Copy) (o : Nat) : Nat := x.c.toNat + swz (cpSwz x.desc) o
def oobFill (x : Copy) : Byte := if nfld (cpCtl x.desc) 9 8 = 1 then 0xFF else 0

/-- The teams that a copy into the scratchpad fills: its own, or the receivers that are still those counted and not skipped; none that is killed. -/
def filledTeams (m : Mach) (x : Copy) : List (Nat × Team) :=
  let keys := if x.multicast then
      ((List.range x.recv.length).filter fun i => !x.skip.testBit i).filterMap fun i =>
        (x.recv[i]?).bind fun r => if (m.team r.1).gen = r.2 then some r.1 else none
    else [x.team]
  keys.filterMap fun k => (m.team? k).bind fun t => if t.killed then none else some (k, t)

/-- Bytes by place. -/
abbrev Bytes := Space → Nat → Byte

/-- Where an address of a page lies, by the piece that holds the page's first byte. -/
def pageByte (p : Piece) (va : W64) : Nat := p.addr + pageOff va

/-- Image byte o as its source holds it: the scratchpad for DIR 01, else memory, or the fill where it is out of bounds. -/
def sourceByte (m : Mach) (x : Copy) (page : Piece) (mu : Bytes) (o : Nat) : Byte :=
  if cpDir x.desc = 1 then mu .scratch ((m.team x.team).phys (coreOfTeam x.team) (imageOff x o))
  else match copyAddr x o with
    | some va => mu page.space (pageByte page va)
    | none => oobFill x

/-- Where memory that a copy writes lies: the tensor for DIR 01, the dense image at s[C] for DIR 10 (R235); nowhere out of bounds (R236). -/
def destVa (x : Copy) (o : Nat) : Option W64 :=
  (copyAddr x o).map fun va => if cpDir x.desc = 1 then va else x.c + .ofNat 64 o

/-- Image byte o goes to a place. -/
def goesTo (m : Mach) (x : Copy) (page : Piece) (o : Nat) (sp : Space) (a : Nat) : Prop :=
  if cpDir x.desc = 0 then sp = .scratch ∧ ∃ y ∈ filledTeams m x, a = y.2.phys (coreOfTeam y.1) (imageOff x o)
  else ∃ va, destVa x o = some va ∧ sp = page.space ∧ a = pageByte page va

/-- Image bytes from F to F' are moved one after the other, each to its places, and no other byte changes. -/
def BytesMoved (m m' : Mach) (x : Copy) (src dst : Piece) (f f' : Nat) : Prop :=
  ∃ mu : Nat → Bytes, mu f = m.readByte ∧ mu f' = m'.readByte ∧ ∀ o, f ≤ o → o < f' → ∀ sp a,
    (goesTo m x dst o sp a → mu (o + 1) sp a = sourceByte m x src (mu o) o) ∧ (¬ goesTo m x dst o sp a → mu (o + 1) sp a = mu o sp a)

/-- Image byte o lies, where it is in bounds, on the pages reached of the source and of the destination. -/
def onPages (x : Copy) (ks kd o : Nat) : Prop :=
  (cpDir x.desc ≠ 1 → ∀ va, copyAddr x o = some va → pageKey va = ks) ∧ (cpDir x.desc ≠ 0 → ∀ va, destVa x o = some va → pageKey va = kd)

/-- What the engine of a copy acts as, and the machine in which it starts a step: leave for an image over 64 KiB is used (R243). -/
def copyAgent (m : Mach) (x : Copy) : Agent := m.engineAgent x.team x.asid x.world (96 + x.engine)
def copyStarts (m : Mach) (x : Copy) : Mach := if 65536 < cpSize x.desc ∧ x.started = false then m.useLeave x.team else m

/-- The pages of image byte o are reached: of the destination first, then of the source (R240). -/
def PagesReached (m : Mach) (x : Copy) (o : Nat) (src dst : Nat × Piece) (m' : Mach) : Prop :=
  ∃ m1, (if cpDir x.desc = 0 then m1 = m
      else ∃ va, destVa x o = some va ∧ m.reachPage (copyAgent m x) va true .copyDest = (.ok dst, m1)) ∧
    (if cpDir x.desc = 1 then m' = m1
      else ∃ va, copyAddr x o = some va ∧ m1.reachPage (copyAgent m x) va false .local_ = (.ok src, m'))

/-- A job of the engines works on this copy: it waits for no older access of its leader, and has leave where it needs it. -/
def CopyWorks (s : State) (job : Nat) (x : Copy) : Prop :=
  s.mach.copies.find? (fun x => decide (x.id = job ∧ x.st = 1)) = some x ∧ s.mach.issuerBusy x.key x.lane x.id = false ∧
    (cpSize x.desc ≤ 65536 ∨ x.started = true ∨ s.mach.leaveHeld x.team = true)

/-- The copy in a state after a step. -/
def CopyIs (t : State) (job : Nat) (P : Copy → Prop) : Prop := ∃ y ∈ t.mach.copies, y.id = job ∧ P y

/-- The machine with a group parked at barrier k. -/
def atBarrier (s : State) (c : Ctx) (k : Nat) : Mach :=
  s.mach.modBundle c.key fun b => b.modLanes c.grp fun _ x => { x with st := .bar k c.size }

/-- The machine as the phase of a team's barrier k is complete: every lane parked at it goes on, each after its own BAR, and the phase starts anew,
the receivers in order being those of the last phase (R323). -/
def passBar (k : Nat) (x : Lane) : Lane :=
  match x.st with
  | .bar j sz => if j = k then { x with st := .runnable, pc := x.pc + .ofNat 64 sz } else x
  | _ => x
def barReleased (m : Mach) (tk k : Nat) (recv : List Nat) : Mach :=
  ((m.bundlesOf tk).foldl (fun m key => m.modBundle key fun b => { b with lanes := b.lanes.map fun p => (p.1, passBar k p.2) }) m).modTeam tk
    fun t => t.setBar k ⟨0, 0, 0, [], recv⟩

/-- The words of MBWAIT (R327): of a success with count n, of .stat, and whether its condition holds; the mailbag after a success. -/
def mailWord (b : Mailbag) (n : Nat) : W64 := .ofNat 64 (n % b.stages + 2 ^ 4 * (n / b.stages % 2) + 2 ^ 32 * (n % 2 ^ 16))
def mailStat (b : Mailbag) : W64 :=
  .ofNat 64 ((if b.err then 2 ^ 63 else 0) + 2 ^ 48 * ((b.stages - 1) % 16) + 2 ^ 40 * ((b.claim - b.fill).toNat % 32)
    + 2 ^ 32 * ((b.fill - b.take).toNat % 32) + 2 ^ 24 * ((b.take - b.free).toNat % 32))
def mailReady (b : Mailbag) (free : Bool) : Prop := if free then (b.claim - b.free).toNat < b.stages else b.take ≠ b.fill
def mailServed (b : Mailbag) (free : Bool) : Mailbag := if free then { b with claim := b.claim + 1 } else { b with take := b.take + 1 }
def mailNo (b : Mailbag) (free : Bool) : Nat := if free then b.claim.toNat else b.take.toNat

/-- The bundle's mem counter is zero and its loads have returned their data (R324, R328). -/
def Quiet (s : State) (c : Ctx) : Prop := c.b.count 1 = 0 ∧ (s.mach.ops.any fun x => decide (x.key = c.key) && !x.counted) = false

/-- A team holds leave (R332): granted, used within 4,096 cycles, and not given back. -/
def holdsLeave (v : Leave) (clk : Nat) : Prop := v.st = 2 ∧ clk < v.since + 4096 ∧ v.rel = false

/-- The leave of a team that asks for it: asked for where none is held or asked for, and again where it was given back while it is still in use. -/
def leaveAsked (v : Leave) (clk : Nat) : Leave :=
  if v.st = 0 ∨ (v.st = 2 ∧ v.rel = false ∧ v.since + 4096 ≤ clk) then ⟨1, clk, false⟩
  else if v.st = 2 ∧ v.rel = true then ⟨3, clk, false⟩ else v

/-- A group goes on, the machine being `m` beside registers; s[D] gets a value. -/
def Sets (i : Instr) (s : State) (c : Ctx) (m : Mach) (x : W64) : Prop :=
  Gives i s fun t => OnlyRegs (State.at s m) t c ∧ StandsAt t c c.nextPc ∧ t.regs c.key = (s.regs c.key).sset c.hand c.o.d.toNat x

/-- An instruction raises a trap of the class and cause, held by the lanes that take part. -/
def TrapsWith (i : Instr) (s : State) (c : Ctx) (cls cause : Nat) : Prop :=
  exec i s = .next { s with mach := (c.leaveResume s.mach).raise c.q c.run (c.trap cls cause) }

end Sys2Proof.Claims

/-- R218, R219, R224, R225: MPOST sends one letter for each lane that takes part, MARR and MREL one letter once everything older is done, each as one
operation of the remote counter, and nothing else changes. R226, R227, R430: MWAIT and MSTAT write the status of a round, MSTAT also its weight sum as
f64 or a member's entry, to s[D]; MWAIT parks its group while the round is neither closed nor behind, and the group is woken with the status when it
is. R218: a tag word with a non-zero reserved bit raises OPERAND 0x2E. R182, R36: a full counter and the threads' own older accesses hold them. TY and
SZ of the letters of MARR and MREL are the model's reading (log 103). -/
def Obligations.MeetingInstructions : Prop :=
  (∀ e ∈ [(.mpost : Opn → Instr), .marr, .mrel, .mwait, .mstat], ∀ o s r c, Issues (e o) o s r c → fld (c.s (o.a.toNat + 1)) 63 44 ≠ 0 →
    exec (e o) s = .next { s with mach := (c.leaveResume s.mach).raise c.q c.run (c.trap clsOperand 0x2E) }) ∧
  (∀ o s r c, Issues (.mpost o) o s r c → c.tagBad = false → c.act = 0 → WritesRegs (.mpost o) s c id) ∧
  (∀ o s r c ps m, Issues (.mpost o) o s r c → c.tagBad = false → c.act ≠ 0 → PassOne c s (c.recAccess true false) ps m →
    CachesOnly (c.leaveResume s.mach) m ∧ (c.counterFull 4 = true → exec (.mpost o) s = .next s) ∧
    (c.counterFull 4 = false → NoneOwed s → FreshMarks s c (laneList c.act).length →
      Gives (.mpost o) s fun t => Passes (State.at s (sendsLetters m c ((laneList c.act).map fun l =>
        (aimLetter (postLetter c l) s.mach.pkg (onePiece ps), c.recVa, none, [(c.recVa.toNat, 128)])))) t c)) ∧
  (∀ e ∈ [((.marr : Opn → Instr), (0x11 : BitVec 8), true), (.mrel, 0x12, false)], ∀ o s r c ps m, Issues (e.1 o) o s r c → c.tagBad = false →
    PassOne c s (c.recAccess true false) ps m →
    let calm := c.b.count 4 = 0 ∧ c.b.count 1 = 0 ∧ (s.mach.ops.any fun x => decide (x.key = c.key) && !x.counted) = false
    CachesOnly (c.leaveResume s.mach) m ∧ (¬ calm → exec (e.1 o) s = .next s) ∧
    (calm → NoneOwed s → FreshMarks s c 1 →
      Gives (e.1 o) s fun t => Passes (State.at s (sendsLetters m c [(aimLetter { c.letter with
        op := e.2.1, sz := 3, rtag := .ofNat 32 c.roundTag, member := if e.2.2 then .ofNat 12 c.memberNo else 0 } s.mach.pkg (onePiece ps),
        c.recVa, none, [(c.recVa.toNat, 128)])])) t c)) ∧
  (∀ o s r c ps m, Issues (.mwait o) o s r c → c.tagBad = false → PassOne c s (c.recAccess false true) ps m →
    let rc := (onePiece ps).addr
    CachesOnly (c.leaveResume s.mach) m ∧
    (m.mustWait c.key c.grp .dev rc 128 = true → Gives (.mwait o) s fun t => Waits (State.at s m) t c c.grp) ∧
    (m.mustWait c.key c.grp .dev rc 128 = false → o.fn = 1 ∨ roundOver s.mach rc c.roundTag → Gives (.mwait o) s fun t =>
      OnlyRegs (State.at s m) t c ∧ StandsAt t c c.nextPc ∧
        t.regs c.key = (s.regs c.key).sset c.hand o.d.toNat (roundStatus s.mach rc c.roundTag)) ∧
    (m.mustWait c.key c.grp .dev rc 128 = false → ¬ (o.fn = 1 ∨ roundOver s.mach rc c.roundTag) →
      Gives (.mwait o) s fun t => Parks (State.at s m) t c (.meeting o.d.toNat rc (.ofNat 32 c.roundTag)))) ∧
  (∀ b l (s : State) d rc tag seq sz, ((s.mach.bundle b).lane l).st = .wait (.meeting d rc tag) seq sz → s.mach.bad = [] →
    (roundOver s.mach rc tag.toNat → Wakes (.mwaitWake b l) s b seq false fun y => y.setS d (roundStatus s.mach rc tag.toNat)) ∧
    (¬ roundOver s.mach rc tag.toNat → exec (.mwaitWake b l) s = .next s)) ∧
  (∀ o s r c ps m, Issues (.mstat o) o s r c → c.tagBad = false → PassOne c s (c.recAccess false true) ps m →
    let rc := (onePiece ps).addr
    let gives := fun (m : Mach) (x : W64) => Gives (.mstat o) s fun t => OnlyRegs (State.at s m) t c ∧ StandsAt t c c.nextPc ∧
      t.regs c.key = (s.regs c.key).sset c.hand o.d.toNat x
    CachesOnly (c.leaveResume s.mach) m ∧ (m.mustWait c.key c.grp .dev rc 128 = true → exec (.mstat o) s = .next s) ∧
    (m.mustWait c.key c.grp .dev rc 128 = false →
      (o.fn = 0 → gives m (roundStatus s.mach rc c.roundTag)) ∧
      (o.fn = 1 → gives m (.ofNat 64 (match holds s.mach rc c.roundTag with
        | some p => (fmtF64.deliver 0 false (valOfInt false (sval 128 (recField s.mach rc (48 + 16 * p) 16)) (-120))).1
        | none => fmtF64.nanBits))) ∧
      (o.fn = 2 →
        (nfld (recField s.mach rc 24 8) 12 0 ≤ c.memberNo →
          exec (.mstat o) s = .next { s with mach := m.raise c.q c.run (c.trap clsOperand 0x2E) }) ∧
        (c.memberNo < nfld (recField s.mach rc 24 8) 12 0 →
          let read := fun (m : Mach) (a : Nat) => if m.mustWait c.key c.grp .dev a 16 = true then exec (.mstat o) s = .next s
            else gives m (s.mach.read64 .dev (a + 8))
          (∀ i g, m.meetingAt c.die rc = some (i, g) → read m (g.mem + 16 * c.memberNo)) ∧
          (m.meetingAt c.die rc = none → ∀ qs m',
            m.check c.agent ⟨s.mach.read64 .dev (rc + 16) + .ofNat 64 (16 * c.memberNo), 16, 16, true, false, false, false, .local_, .denied 0x24⟩
              = (.ok qs, m') → read m' (onePiece qs).addr)))))

/-- R223: MOPEN opens a meeting where none of the causes of its table applies and answers the entry's index; otherwise it answers the first cause that
applies, in the rule's order, and changes nothing. R228: MCLOSE of an open meeting sets DIS, frees its entry and leaves its regions ordinary; of
another record it answers error 5. Both are held while the mem counter is not zero. R221: a completed clear zeroes the region of the parity that is
clearing and opens its round. -/
def Obligations.MeetingsOpenAndClose : Prop :=
  (∀ e ∈ [(.mopen : Opn → Instr), .mclose], ∀ o s r c ps m, Issues (e o) o s r c → PassOne c s (c.recAccess true true) ps m →
    CachesOnly (c.leaveResume s.mach) m ∧
    (c.b.count 1 ≠ 0 ∨ s.mach.threadBusy c.key c.grp .dev = true → exec (e o) s = .next s)) ∧
  (∀ o s r c ps m, Issues (.mopen o) o s r c → PassOne c s (c.recAccess true true) ps m → c.b.count 1 = 0 →
    s.mach.threadBusy c.key c.grp .dev = false →
    let rc := (onePiece ps).addr
    let d := s.mach.readBytes .dev rc 128
    let n := nfld (fieldAt d 24 8) 12 0
    let done := fun (x : W64) (m' : Mach) => Gives (.mopen o) s fun t => OnlyRegs (State.at s m') t c ∧ StandsAt t c c.nextPc ∧
      t.regs c.key = (s.regs c.key).sset c.hand o.d.toNat x
    let fails := fun code => ∃ m', CachesOnly (c.leaveResume s.mach) m' ∧ done (.ofNat 64 (2 ^ 63 + code)) m'
    (recordBad d = true → fails 3) ∧
    (recordBad d = false →
      (∀ m1, c.localSpan m (fieldAt d 16 8) (16 * n) = (none, m1) → fails 4) ∧
      (∀ qs m1 r0 m2 r1 m3, c.localSpan m (fieldAt d 16 8) (16 * n) = (some qs, m1) → c.accRegion m1 (fieldAt d 0 8) = (r0, m2) →
        c.accRegion m2 (fieldAt d 8 8) = (r1, m3) →
        let mem := (onePiece qs).addr
        (qs.length ≠ 1 → fails 7) ∧
        (qs.length = 1 → r0 = none ∨ r1 = none → fails 5) ∧
        (qs.length = 1 → ∀ i0 x0 i1 x1, r0 = some (i0, x0) → r1 = some (i1, x1) →
          (x0.owner ≠ none ∨ x1.owner ≠ none → fails 8) ∧
          (x0.owner = none → x1.owner = none →
            let alien := (x0.secure = true ∨ x1.secure = true) ∧ c.g.world = false
            (alien → fails 6) ∧
            (¬ alien →
              let unequal := x0.limit - x0.base ≠ x1.limit - x1.base ∨ i0 = i1
              (unequal → fails 3) ∧
              (¬ unequal →
                (m3.inRegion rc 128 = true ∨ m3.inRegion mem (16 * n) = true → fails 2) ∧
                (m3.inRegion rc 128 = false → m3.inRegion mem (16 * n) = false →
                  ((∀ k < 4096, Sparse.get none (s.mach.die c.die).regions k ≠ none) → fails 1) ∧
                  (∀ i < 4096, Sparse.get none (s.mach.die c.die).regions i = none →
                    (∀ k < i, Sparse.get none (s.mach.die c.die).regions k ≠ none) → i0 ≠ i → i1 ≠ i →
                    rc + 128 ≤ mem ∨ mem + 16 * n ≤ rc →
                    ∃ m', MeetingOpens c m3 m' rc mem n i i0 i1 ∧ done (.ofNat 64 i) m'))))))))) ∧
  (∀ o s r c ps m, Issues (.mclose o) o s r c → PassOne c s (c.recAccess true true) ps m → c.b.count 1 = 0 →
    s.mach.threadBusy c.key c.grp .dev = false →
    let rc := (onePiece ps).addr
    let done := fun (x : W64) (m' : Mach) => Gives (.mclose o) s fun t => OnlyRegs (State.at s m') t c ∧ StandsAt t c c.nextPc ∧
      t.regs c.key = (s.regs c.key).sset c.hand o.d.toNat x
    ((∀ y ∈ (s.mach.die c.die).table, ∀ g, y.2.meeting = some g → g.record ≠ rc) → done (.ofNat 64 (2 ^ 63 + 5)) m) ∧
    (∀ i g, m.meetingAt c.die rc = some (i, g) → ∃ m', done 0 m' ∧
      m' = { m with dev := (m.writeNat .dev (rc + 40) 8 (recField m rc 40 4 + (if (recField m rc 40 8).testBit 32 then 2 ^ 32 else 0) + 2 ^ 33)).dev
                    dies := m'.dies } ∧
      (∀ k, m'.die k = if k = c.die then { m.die k with regions := (m'.die k).regions } else m.die k) ∧
      ∀ k, Sparse.get none (m'.die c.die).regions k =
        if k = i then none
        else if k = g.acc0 ∨ k = g.acc1 then (Sparse.get none (m.die c.die).regions k).map fun r => { r with owner := none }
        else Sparse.get none (m.die c.die).regions k)) ∧
  (∀ die idx (s : State) g p r, (Sparse.get none (s.mach.die die).regions idx).bind Region.meeting = some g → p ≤ 1 →
    nfld (parityWord s.mach g.record p) 31 29 = 3 → (∀ q < p, nfld (parityWord s.mach g.record q) 31 29 ≠ 3) →
    Sparse.get none (s.mach.die die).regions (if p = 0 then g.acc0 else g.acc1) = some r →
    let x := parityWord s.mach g.record p
    let inside := fun a => (r.base ≤ a ∧ a < r.limit) ∨ ∃ y ∈ r.aux, y.1 ≤ a ∧ a < y.1 + y.2
    Gives (.meetingClearComplete die idx) s fun t => t = { s with mach := { s.mach with dev := t.mach.dev } } ∧
      recField t.mach g.record 40 8 = nfld x 63 32 ∧
      recField t.mach g.record (80 + 8 * p) 8 = nfld x 63 32 * 2 ^ 32 + 2 ^ 29 + nfld x 28 16 * 2 ^ 16 + nfld x 12 0 ∧
      ∀ a, ¬ (g.record + 40 ≤ a ∧ a < g.record + 48) → ¬ (g.record + 80 + 8 * p ≤ a ∧ a < g.record + 88 + 8 * p) →
        (inside a → t.mach.readByte .dev a = 0) ∧ (¬ inside a → t.mach.readByte .dev a = s.mach.readByte .dev a))

/-- R230, R231, R237 to R239, R243: CPY and CPYM without a leader have no effect; with one, and with every check passed, they queue one copy, as an
operation of the copy counter, and the team's copy sequence number rises. The first check that fails raises its trap; with no entry of the queue free,
or the counter full, they are held, as they are while the leader's older accesses to the record or the ring header are not performed. A queued copy
goes to the engine with the fewest copies in hand, where it works on fewer than 16. -/
def Obligations.CopiesAreQueued : Prop :=
  (∀ e ∈ [((.cpy : Opn → Instr), false), (.cpym, true)], ∀ o s r c, Issues (e.1 o) o s r c →
    (c.leader = none → WritesRegs (e.1 o) s c id) ∧
    (∀ l ps m, c.leader = some l → PassOne c s ⟨c.s o.a.toNat, 64, 64, true, false, false, false, .local_, .allowed⟩ ps m →
      let cw := bitAt o.mods 7
      let d := c.readOwn s.mach l ps
      let ring := ringOf d cw (c.s o.d.toNat)
      let busy := s.mach.mustWait c.key (laneBit l) (onePiece ps).space (onePiece ps).addr 64 = true ∨
        ∃ k, ring = some k ∧ s.mach.mustWait c.key (laneBit l) .scratch (c.tm.phys c.core k) 64 = true
      let queues := fun (m : Mach) (arr : Option W64) (ava : W64) =>
        (c.counterFull 0 = true ∨ m.copyEntry c.core c.tk = none → exec (e.1 o) s = .next s) ∧
        (∀ resv, c.counterFull 0 = false → m.copyEntry c.core c.tk = some resv →
          ∃ x, QueuedCopy c m e.2 d x ∧ x.ring = ring ∧ x.lane = l ∧ x.resv = resv ∧ x.arr = arr ∧ x.arrVa = ava ∧
            Gives (e.1 o) s fun t => Passes (State.at s ({ addOut (m.modTeam c.tk fun t => { t with copySeq := t.copySeq + 1 }) c.key 0 with
              copies := m.copies ++ [x] })) t c)
      CachesOnly (c.leaveResume s.mach) m ∧
      (busy → exec (e.1 o) s = .next s) ∧
      (¬ busy →
        (∀ cls cause, c.recordBad e.2 d = some (cls, cause) →
          exec (e.1 o) s = .next { s with mach := m.raise c.q c.run (c.trap cls cause) }) ∧
        (c.recordBad e.2 d = none →
          (∀ cls cause, c.copyFits s.mach l d ring = some (cls, cause) →
            exec (e.1 o) s = .next { s with mach := m.raise c.q c.run (c.trapWith cls cause [⟨l, cls, cause, 0, 0⟩]) }) ∧
          (c.copyFits s.mach l d ring = none → cw = false ∨ bitAt (c.s o.d.toNat) 32 = false → queues m none 0) ∧
          (c.copyFits s.mach l d ring = none → cw = true → bitAt (c.s o.d.toNat) 32 = true →
            let ava := c.s (o.d.toNat + 1)
            (∀ qs m', m.check c.agent ⟨ava, 8, 8, false, true, false, false, .letter, .denied 0x24⟩ = (.ok qs, m') →
              queues m' (some (.ofNat 64 (((onePiece qs).pkg.getD s.mach.pkg) * 2 ^ 40 + (onePiece qs).addr))) ava) ∧
            (∀ k m', m.check c.agent ⟨ava, 8, 8, false, true, false, false, .letter, .denied 0x24⟩ = (.error k, m') → k ≠ 3 →
              exec (e.1 o) s = .next { s with mach := m'.raise c.q c.run (c.trapWith (classOf k) k [condOf l ava k]) })))))) ∧
  (∀ core (s : State) x, s.mach.copies.find? (fun x => decide (coreOfKey x.key = core ∧ x.st = 0)) = some x →
    ∃ e < 8, (∀ k < 8, s.mach.inHand (dieOfCore core) e ≤ s.mach.inHand (dieOfCore core) k) ∧
      (∀ k < e, s.mach.inHand (dieOfCore core) e < s.mach.inHand (dieOfCore core) k) ∧
      let m : Mach := { s.mach with copies := s.mach.copies.map fun y => if y.id = x.id then { y with st := 1, engine := e } else y }
      let m := if 65536 < cpSize x.desc then m.askLeave x.team else m
      exec (.copyDispatch core) s = if 16 ≤ s.mach.inHand (dieOfCore core) e then .next s else .next { s with mach := m })

/-- R234 to R236, R240, R242: a step of a copy moves the bytes of its image in increasing offset, from F on, to the end of the pages it has reached or of
the image: into the scratchpad at s[C] + Swz, the fill for elements out of bounds; out of it, or from memory to memory, only the elements in bounds;
no other byte changes. It is done with STATUS 1, or 5 where receivers were skipped (R249). A page that is not reached, a meeting's bytes, or an error
of the source stop it at F with STATUS, FAULT and the address of F. R241: a row for another die or package goes out as a letter. R244, R245: a copy
that is done or stopped writes its record, fills its mailbag, posts its event, and its operation completes, a bundle that asked for it being marked. -/
def Obligations.CopiesMoveAndComplete : Prop :=
  (∀ job err (s : State) x, CopyWorks s job x → x.f ≤ cpSize x.desc →
    Gives (.copyPage job err) s fun t => t.mach.bundles = s.mach.bundles ∧ t.boot = s.boot ∧
      CopyIs t job fun y => x.f ≤ y.f ∧ y.f ≤ cpSize x.desc ∧ y.desc = x.desc ∧ (y.st = 1 → x.f < y.f)) ∧
  (∀ job (s : State) x g src dst m, CopyWorks s job x → s.mach.bad = [] → cpDir x.desc ≤ 2 → x.f ≤ g → g < cpSize x.desc →
    (∀ o, x.f ≤ o → o < g → copyAddr x o = none) →
    PagesReached (if cpDir x.desc = 0 then (List.range (g - x.f)).foldl (fun m k =>
      (filledTeams m x).foldl (fun m y => m.writeByte .scratch (y.2.phys (coreOfTeam y.1) (imageOff x (x.f + k))) (oobFill x)) m)
        (copyStarts s.mach x) else copyStarts s.mach x) x g src dst m →
    (cpDir x.desc ≠ 0 → dst.2.pkg = none ∧ (s.mach.team x.team).killed = false ∧
      (dst.2.space = .dev → ∀ a, dst.2.addr ≤ a → a < dst.2.addr + 65536 →
        homeDie a = dieOfCore (coreOfKey x.key) ∧ ¬ touchesMeeting s.mach (homeDie a) a 1)) →
    Gives (.copyPage job false) s fun t => CopyIs t job fun y =>
      x.f < y.f ∧ y.f ≤ cpSize x.desc ∧ y.fault = x.fault ∧ (∀ o, x.f ≤ o → o < y.f → onPages x src.1 dst.1 o) ∧
      (y.f < cpSize x.desc → ¬ onPages x src.1 dst.1 y.f ∧ y.st = 1) ∧
      (y.f = cpSize x.desc → (y.st = 3 ∨ y.st = 4) ∧
        y.status = if x.skip = 0 ∧ (∀ r ∈ x.recv, (s.mach.team r.1).gen = r.2) then 1 else 5) ∧
      BytesMoved s.mach t.mach x src.2 dst.2 x.f y.f) ∧
  (∀ job (s : State) x va, CopyWorks s job x → x.f < cpSize x.desc →
    (∀ k m, cpDir x.desc = 0 → copyAddr x x.f = some va →
      (copyStarts s.mach x).reachPage (copyAgent (copyStarts s.mach x) x) va false .local_ = (.error k, m) →
      Gives (.copyPage job false) s fun t => CopyIs t job fun y => y.f = x.f ∧ y.faultVa = va ∧
        if k = 3 then y.st = 2 ∧ y.fid = some s.mach.desk.fid.toNat
        else (y.st = 3 ∨ y.st = 4) ∧ y.status = (if k = 0x41 then 3 else 2) ∧ y.fault = if k = 0x30 then 0x22 else k) ∧
    (∀ k m, cpDir x.desc = 1 ∨ cpDir x.desc = 2 → destVa x x.f = some va →
      (copyStarts s.mach x).reachPage (copyAgent (copyStarts s.mach x) x) va true .copyDest = (.error k, m) →
      Gives (.copyPage job false) s fun t => CopyIs t job fun y => y.f = x.f ∧ y.faultVa = va ∧
        if k = 3 then y.st = 2 ∧ y.fid = some s.mach.desk.fid.toNat
        else (y.st = 3 ∨ y.st = 4) ∧ y.status = (if k = 0x41 then 3 else 2) ∧ y.fault = k) ∧
    (∀ q m, cpDir x.desc = 0 → copyAddr x x.f = some va →
      (copyStarts s.mach x).reachPage (copyAgent (copyStarts s.mach x) x) va false .local_ = (.ok q, m) →
      Gives (.copyPage job true) s fun t => CopyIs t job fun y =>
        y.f = x.f ∧ y.faultVa = va ∧ (y.st = 3 ∨ y.st = 4) ∧ y.status = 3 ∧ y.fault = 0x40) ∧
    (∀ q m, cpDir x.desc = 1 → destVa x x.f = some va →
      (copyStarts s.mach x).reachPage (copyAgent (copyStarts s.mach x) x) va true .copyDest = (.ok q, m) →
      let a := pageByte q.2 va
      let meets := q.2.space = .dev ∧ q.2.pkg = none ∧ touchesMeeting s.mach (homeDie a) a 1
      let away := q.2.space = .dev ∧ (q.2.pkg.isSome = true ∨ homeDie a ≠ dieOfCore (coreOfKey x.key))
      (meets → Gives (.copyPage job false) s fun t => CopyIs t job fun y =>
        y.f = x.f ∧ y.faultVa = va ∧ (y.st = 3 ∨ y.st = 4) ∧ y.status = 2 ∧ y.fault = 0x26) ∧
      (¬ meets → away → va.toNat % 8 ≠ 0 → Gives (.copyPage job false) s fun t => CopyIs t job fun y =>
        y.f = x.f ∧ y.faultVa = va ∧ (y.st = 3 ∨ y.st = 4) ∧ y.status = 2 ∧ y.fault = 0x12) ∧
      (¬ meets → away → va.toNat % 8 = 0 → ∀ n, 8 ≤ n → n % 8 = 0 → n ≤ 256 - va.toNat % 256 → x.f + n ≤ cpSize x.desc →
        (∀ k < n, destVa x (x.f + k) = some (va + .ofNat 64 k)) →
        (n = 256 - va.toNat % 256 ∨ x.f + n = cpSize x.desc ∨ destVa x (x.f + n) ≠ some (va + .ofNat 64 n)) →
        (q.2.pkg = none → (∀ k < n, ¬ touchesMeeting s.mach (homeDie (a + k)) (a + k) 1) ∧
          ∀ b, q.2.addr ≤ b → b < q.2.addr + 65536 → homeDie b ≠ dieOfCore (coreOfKey x.key)) →
        Gives (.copyPage job false) s fun t => (∀ sp b, t.mach.readByte sp b = s.mach.readByte sp b) ∧
          ∃ y ∈ t.mach.sent, y.sender = .copy x.id x.f ∧ y.va = va ∧ y.letter.op = 7 ∧ y.letter.tpa = .ofNat 40 a ∧
            y.letter.tpkg = .ofNat 14 (q.2.pkg.getD s.mach.pkg) ∧ y.letter.step = x.stepTag ∧ y.letter.data = .ofNat 64 n ∧
            y.letter.world = (x.world && decide (nfld (cpCtl x.desc) 16 16 = 0)) ∧
            y.letter.body = (List.range n).map fun k => sourceByte s.mach x q.2 s.mach.readByte (x.f + k)))) ∧
  (∀ job (s : State) x, s.mach.copies.find? (fun x => decide (x.id = job ∧ x.st = 4)) = some x →
    (s.mach.fillsFirst x = true → exec (.copyCompletionStep job) s = .next s) ∧
    (s.mach.fillsFirst x = false → Resident s x.key x.out →
      let b := s.mach.bundle x.key
      let tm := s.mach.team x.team
      let marks := nfld (cpCtl x.desc) 14 14 = 1 ∧ x.status ≠ 1 ∧ b.live ≠ 0
      let lo := x.f * 2 ^ 24 + (96 + x.engine) * 65536 + x.fault * 256 + x.status
      let hi := x.skip * 2 ^ 32 + x.tag.toNat
      ∃ m ph bs, (match x.ring with
          | some off => if x.noRec = true ∨ tm.killed = true then m = s.mach ∧ ph = 0
              else RecordPlaced s.mach m tm (coreOfTeam x.team) off lo hi ph
          | none => m = s.mach ∧ ph = 0) ∧
        (let m := if nfld (cpCtl x.desc) 17 17 = 1 then m.engineFill x.team (nfld (cpCtl x.desc) 26 24) else m
         let m := if nfld (cpCtl x.desc) 18 18 = 1 then m.postTray (coreOfKey x.key)
            ⟨.ofNat 64 lo, .ofNat 64 (hi + ph * 2 ^ 63), .ofNat 64 (256 * (96 + x.engine) + 1)⟩ else m
         exec (.copyCompletionStep job) s = .next { s with mach := { m with
           copies := s.mach.copies.filter fun y => decide (y.id ≠ job), bundles := bs } }) ∧
        Rebundled s bs x.key (completed (if marks then
          { b with marks := b.marks ++ [⟨x.out, false, clsAsync, clsAsync, x.fault, x.faultVa, 0, false⟩] } else b) x.out)))

/-- R247, R248: CPOLL and CSLEEP take the record of a valid slot, or look at it; where none is valid CPOLL answers zeros and CSLEEP parks; a group that
sleeps takes the record when it comes. A header offset that is not a multiple of 64 raises ALIGN 0x10, a ring beyond the allocation OPERAND 0x27.
Both wait for their threads' own accesses to the scratchpad. -/
def Obligations.RingsAreRead : Prop :=
  (∀ e ∈ [((.cpoll : Opn → Instr), false), (.csleep, true)], ∀ o s r c, Issues (e.1 o) o s r c →
    let off := (c.s o.a.toNat).toNat
    let peek := decide (o.fn = 1)
    let busy := s.mach.threadBusy c.key c.grp .scratch = true
    let valid := recordValid s.mach c.tm c.core off
    (off % 64 ≠ 0 → exec (e.1 o) s = .next { s with mach := (c.leaveResume s.mach).raise c.q c.run (c.trap clsAlign 0x10) }) ∧
    (off % 64 = 0 → busy → if e.2 then Gives (e.1 o) s fun t => Waits s t c c.grp else exec (e.1 o) s = .next s) ∧
    (off % 64 = 0 → ¬ busy → ¬ ringReadable s.mach c.tm c.core off →
      exec (e.1 o) s = .next { s with mach := (c.leaveResume s.mach).raise c.q c.run (c.trap clsOperand 0x27) }) ∧
    (off % 64 = 0 → ¬ busy → ringReadable s.mach c.tm c.core off →
      (valid → Gives (e.1 o) s fun t => OnlyRegs (State.at s (headAdvanced s.mach c.tm c.core off peek)) t c ∧ StandsAt t c c.nextPc ∧
        t.regs c.key = recordRegs s.mach c.tm c.core off o.d.toNat (s.regs c.key)) ∧
      (¬ valid → if e.2 then Gives (e.1 o) s fun t => Parks s t c (.ring peek o.d.toNat off)
        else WritesRegs (e.1 o) s c fun x => (x.setS o.d.toNat 0).setS (o.d.toNat + 1) 0))) ∧
  (∀ b l (s : State) peek d off seq sz, ((s.mach.bundle b).lane l).st = .wait (.ring peek d off) seq sz →
    let tm := s.mach.team (s.mach.bundle b).team
    let core := coreOfKey b
    (¬ ringReadable s.mach tm core off → Wakes (.csleepWake b l) s b seq true id) ∧
    (ringReadable s.mach tm core off → ¬ recordValid s.mach tm core off → exec (.csleepWake b l) s = .next s) ∧
    (ringReadable s.mach tm core off → recordValid s.mach tm core off →
      ∃ bs k, exec (.csleepWake b l) s = .next { s with mach := { headAdvanced s.mach tm core off peek with bundles := bs } } ∧
        Sparse.get none bs b = some k ∧ Woken (s.mach.bundle b) k seq false (recordRegs s.mach tm core off d) ∧
        ∀ j, j ≠ b → Sparse.get none bs j = s.mach.bundle? j))

/-- R323, R325: a BAR that does not misuse its barrier waits for its threads' accesses and parks its group; the last arrival of the phase lets every
parked lane of the team go on, each after its own BAR, and starts the barrier anew, its receivers becoming those of the last phase; in a deterministic
grid the team's store buffers are committed then (R180). A misuse raises ROLE 0x66. R324: BARV waits for its bundle's accesses, counts one arrival at
the barrier that its address names, notes its team as receiver, and answers 0, or the first error of the rule's order; BARV.self answers the address
of a barrier of its own team. All this where no bundle of the team is evicted (R318). -/
def Obligations.Barriers : Prop :=
  (∀ o s r c, Issues (.bar o) o s r c →
    let k := fld o.mods 3 0
    let e := if bitAt o.mods 4 then some (c.s o.b.toNat).toNat else none
    let n := popCount c.grp
    let b := c.tm.bar k
    let bad := match e with
      | some e => e = 0 ∨ 65535 < e ∨ b.mode = 1 ∨ (b.mode = 2 ∧ b.e ≠ e) ∨ e < b.arrivals + n
      | none => b.mode = 2
    let last := match e with
      | some e => b.arrivals + n = e
      | none => (atBarrier s c k).allArrived c.tk k = true
    (bad → TrapsWith (.bar o) s c clsRole 0x66) ∧
    (¬ bad → s.mach.threadsBusy c.key c.grp = true → Gives (.bar o) s fun t => Waits s t c c.grp) ∧
    (¬ bad → s.mach.threadsBusy c.key c.grp = false → s.mach.team? c.tk = some c.tm → c.tm.killed = false → c.key ∈ s.mach.bundlesOf c.tk →
      s.mach.awayFrames c.tk = [] →
      (¬ last → Gives (.bar o) s fun t =>
        let s' := s.but fun m => m.modTeam c.tk fun t =>
          t.setBar k { b with mode := if e.isSome then 2 else 1, e := e.getD 0, arrivals := b.arrivals + n }
        RestKept s' t c ∧ LanesKept s' t c ∧ MemoryKept s t ∧ t.regs c.key = s.regs c.key ∧ t.mach.run? c.q = none ∧
          ∀ l < 32, c.grp.getLsbD l = true → let y := (t.mach.bundle c.key).lane l
            SameThread ((s.mach.bundle c.key).lane l) y ∧ y.st = .bar k c.size ∧ y.pc = c.pc) ∧
      (last → Gives (.bar o) s fun t => t.regs c.key = s.regs c.key ∧ t.mach.run? c.q = none ∧
        (c.g.det = true → MemoryKept (State.at s (s.mach.commitStores c.tk)) t) ∧
        (∀ l < 32, c.grp.getLsbD l = true → let y := (t.mach.bundle c.key).lane l
          y.st = .runnable ∧ y.pc = c.nextPc ∧ (c.g.det = false → SameThread ((s.mach.bundle c.key).lane l) y)) ∧
        (c.g.det = false → MemoryKept s t ∧
          let s' := s.but fun m => barReleased m c.tk k b.recv
          RestKept s' t c ∧ LanesKept s' t c)))) ∧
  (∀ (m : Mach) tk k, m.awayFrames tk = [] → (m.allArrived tk k = true ↔ m.anyFiled tk = false ∧ ∀ key ∈ m.bundlesOf tk,
    ∀ p ∈ (m.bundle key).lanes, p.2.st = .empty ∨ p.2.st = .exited ∨ ∃ sz, p.2.st = .bar k sz)) ∧
  (∀ o s r c, Issues (.barv o) o s r c →
    (¬ Quiet s c → Gives (.barv o) s fun t => Waits s t c (BitVec.allOnes 32)) ∧
    (Quiet s c →
      let a := c.s o.a.toNat
      let tk := (c.die * 96 + fld a 10 4) * 128 + fld a 17 11
      let answers := fun (x : W64) => WritesRegs (.barv o) s c fun y => y.sset c.hand o.d.toNat x
      let far := fld a 10 4 / 8 ≠ c.core % 96 / 8
      let named := fun (tm : Team) => fld a 63 50 = 0 ∧ s.mach.team? tk = some tm ∧ tm.gen.toNat = fld a 49 18 ∧ tm.killed = false
      (far → answers (.ofNat 64 (2 ^ 63 + 2))) ∧
      (¬ far → (∀ tm, ¬ named tm) → answers (.ofNat 64 (2 ^ 63 + 1))) ∧
      (∀ tm, ¬ far → named tm →
        let k := fld a 3 0
        let b := tm.bar k
        let alien := c.g.world = false ∧ (s.mach.gridOf tm).world = true
        let tooMany := b.mode = 2 ∧ b.e < b.arrivals + 1
        let recv := if b.recv.length < 8 then b.recv ++ [c.tk] else b.recv
        (alien → answers (.ofNat 64 (2 ^ 63 + 4))) ∧
        (¬ alien → tooMany → answers (.ofNat 64 (2 ^ 63 + 3))) ∧
        (¬ alien → ¬ tooMany → (b.mode = 1 → s.mach.allArrived tk k = false) → ¬ (b.mode = 2 ∧ b.arrivals + 1 = b.e) →
          Sets (.barv o) s c (s.mach.modTeam tk fun t => t.setBar k
            { b with arrivals := if b.mode = 1 then b.arrivals else b.arrivals + 1, recv := recv }) 0) ∧
        (¬ alien → b.mode = 2 → b.arrivals + 1 = b.e → s.mach.awayFrames tk = [] → (s.mach.gridOf tm).det = false →
          Sets (.barv o) s c (barReleased s.mach tk k recv) 0)))) ∧
  (∀ o s r c, Issues (.barvSelf o) o s r c → WritesRegs (.barvSelf o) s c fun x =>
    x.sset c.hand o.d.toNat (.ofNat 64 (c.tm.gen.toNat * 2 ^ 18 + c.tk % 128 * 2 ^ 11 + c.tk / 128 % 96 * 16 + fld o.mods 3 0)))

/-- R326 to R328: MBWAIT takes or claims a stage that is ready, unless a group waits before it, answers the state of the mailbag with FN 4, answers
failure in its trying forms, and parks otherwise; the group that parked first is served when a stage is ready. MBFILL and MBFREE count one fill, or
one stage free, once their bundle's accesses are done; too many raise ROLE. On a mailbag that is not declared each raises ROLE. -/
def Obligations.Mailbags : Prop :=
  (∀ o s r c, Issues (.mbwait o) o s r c →
    let mb := fld o.mods 2 0
    let free := decide (o.fn.toNat % 2 = 1)
    let b := c.tm.mail mb
    (b.stages = 0 → TrapsWith (.mbwait o) s c clsRole 0x66) ∧
    (b.stages ≠ 0 → o.fn = 4 → WritesRegs (.mbwait o) s c fun x => x.sset c.hand o.d.toNat (mailStat b)) ∧
    (b.stages ≠ 0 → o.fn ≠ 4 → s.mach.team? c.tk = some c.tm →
      let now := mailReady b free ∧ s.mach.mailWaiters c.tk mb free = []
      (now → Gives (.mbwait o) s fun t =>
        OnlyRegs (s.but fun m => m.modTeam c.tk fun t => t.setMail mb (mailServed b free)) t c ∧ StandsAt t c c.nextPc ∧
          t.regs c.key = (s.regs c.key).setS o.d.toNat (mailWord b (mailNo b free))) ∧
      (¬ now → 2 ≤ o.fn.toNat → WritesRegs (.mbwait o) s c fun x => x.sset c.hand o.d.toNat (.ofNat 64 (2 ^ 63))) ∧
      (¬ now → o.fn.toNat < 2 → Gives (.mbwait o) s fun t => Parks s t c (.mailbag free o.d.toNat mb)))) ∧
  (∀ b l (s : State) free d mb seq sz, ((s.mach.bundle b).lane l).st = .wait (.mailbag free d mb) seq sz →
    let tk := (s.mach.bundle b).team
    let x := (s.mach.team tk).mail mb
    let now := mailReady x free ∧ ∀ n ∈ s.mach.mailWaiters tk mb free, seq ≤ n
    (now → ∃ bs k, exec (.mbwaitWake b l) s = .next { s with mach := { s.mach.modTeam tk (fun t => t.setMail mb (mailServed x free)) with bundles := bs } } ∧
      Sparse.get none bs b = some k ∧ Woken (s.mach.bundle b) k seq false (fun y => y.setS d (mailWord x (mailNo x free))) ∧
      ∀ j, j ≠ b → Sparse.get none bs j = s.mach.bundle? j) ∧
    (¬ now → exec (.mbwaitWake b l) s = .next s)) ∧
  (∀ e ∈ [((.mbfill : Opn → Instr), (fun b : Mailbag => decide (b.fill = b.claim)), fun b : Mailbag => { b with fill := b.fill + 1 }),
      (.mbfree, fun b => decide (b.free = b.take), fun b => { b with free := b.free + 1 })], ∀ o s r c, Issues (e.1 o) o s r c →
    let mb := fld o.mods 2 0
    let b := c.tm.mail mb
    (b.stages = 0 → TrapsWith (e.1 o) s c clsRole 0x66) ∧
    (b.stages ≠ 0 → ¬ Quiet s c → exec (e.1 o) s = .next s) ∧
    (b.stages ≠ 0 → Quiet s c → e.2.1 b = true → TrapsWith (e.1 o) s c clsRole 0x66) ∧
    (b.stages ≠ 0 → Quiet s c → e.2.1 b = false → s.mach.team? c.tk = some c.tm →
      Gives (e.1 o) s fun t => Passes (s.but fun m => m.modTeam c.tk fun t => t.setMail mb (e.2.2 b)) t c))

/-- R330, R331, R373: WAITK goes on once its counter is at N or below, and parks before that, or, in a handler, waits at the instruction (the model's
reading, log 15); a group waiting so is woken, or takes the trap of a failed operation of its class. YIELD and YIELD.grp only let their bundle or group
stand last. SLEEP parks for its number of cycles, and the group is woken after them; a number of more than 32 bits raises OPERAND (its cause is the
model's reading, log 54). R331, R332: PWRQ answers whether leave is held and asks for it where none is; PWRQ.rel gives it back, at once or when the last operation that needs it ends; the desk grants the highest class's oldest request while
its share lasts (what one grant takes of it is open, log 101) and the die is not too hot; leave unused for 4,096 cycles, or given back with nothing
running, ends (log 56). -/
def Obligations.WaitsSleepsAndLeave : Prop :=
  (∀ o s r c, Issues (.waitk o) o s r c →
    let k := fld o.mods 2 0
    let n := if 2 ≤ o.len.toNat then min (c.s o.a.toNat).toNat 65535 else o.imm.toNat
    (c.b.count k ≤ n → WritesRegs (.waitk o) s c id) ∧
    (n < c.b.count k → c.hand = true → Gives (.waitk o) s fun t =>
      OnlyRegs (s.but fun m => m.modBundle c.key fun b => { b with hwait := some (k, n) }) t c ∧ t.regs c.key = s.regs c.key ∧
        Scattered t c fun _ => c.pc) ∧
    (n < c.b.count k → c.hand = false → Gives (.waitk o) s fun t => Parks s t c (.counter k n))) ∧
  (∀ b l (s : State) k n seq sz, ((s.mach.bundle b).lane l).st = .wait (.counter k n) seq sz →
    ((s.mach.bundle b).heldMark k = none →
      ((s.mach.bundle b).count k ≤ n → Wakes (.waitkRelease b l) s b seq false id) ∧
      (n < (s.mach.bundle b).count k → exec (.waitkRelease b l) s = .next s)) ∧
    (∀ x, (s.mach.bundle b).heldMark k = some x →
      (s.mach.atBoundary b = false → exec (.waitkRelease b l) s = .next s) ∧
      (s.mach.atBoundary b = true → b % 256 ≠ 128 → ∃ k' t, Woken { s.mach.bundle b with
            marks := dropMark x (s.mach.bundle b).marks, stepped := k'.stepped } k' seq true id ∧
          t.cls = x.trapCls ∧ t.cause = x.cause ∧ t.pc = ((s.mach.bundle b).lane l).pc ∧ t.mask = (s.mach.bundle b).parked seq ∧
          exec (.waitkRelease b l) s = .next { s with mach := (s.mach.modBundle b fun _ => k').takeTrap b t }))) ∧
  (∀ o s r c, Issues (.yield o) o s r c → Gives (.yield o) s fun t => Passes s t c ∧ t.mach.run? c.q = none ∧
    (t.mach.bundle c.key).last = s.mach.clk) ∧
  (∀ o s r c, Issues (.yieldGrp o) o s r c → Gives (.yieldGrp o) s fun t => Passes s t c ∧
    ∀ l < 32, c.grp.getLsbD l = true → ((t.mach.bundle c.key).lane l).last = s.mach.clk) ∧
  (∀ o s r c, Issues (.sleep o) o s r c →
    (2 ^ 32 ≤ (c.s o.a.toNat).toNat → TrapsWith (.sleep o) s c clsOperand 0x63) ∧
    ((c.s o.a.toNat).toNat < 2 ^ 32 → Gives (.sleep o) s fun t => Parks s t c (.sleep (s.mach.clk + (c.s o.a.toNat).toNat)))) ∧
  (∀ b l (s : State) till seq sz, ((s.mach.bundle b).lane l).st = .wait (.sleep till) seq sz →
    if till ≤ s.mach.clk then Wakes (.sleepExpiry b l) s b seq false id else exec (.sleepExpiry b l) s = .next s) ∧
  (∀ o s r c, Issues (.pwrq o) o s r c → s.mach.team? c.tk = some c.tm →
    let asks := s.mach.modTeam c.tk fun t => { t with leave := leaveAsked c.tm.leave s.mach.clk }
    (holdsLeave c.tm.leave s.mach.clk → Sets (.pwrq o) s c asks 1) ∧ (¬ holdsLeave c.tm.leave s.mach.clk → Sets (.pwrq o) s c asks 0)) ∧
  (∀ o s r c, Issues (.pwrqRel o) o s r c → s.mach.team? c.tk = some c.tm →
    (¬ holdsLeave c.tm.leave s.mach.clk → Sets (.pwrqRel o) s c s.mach 0) ∧
    (holdsLeave c.tm.leave s.mach.clk → Sets (.pwrqRel o) s c (s.mach.modTeam c.tk fun t =>
      { t with leave := if s.mach.leaveRuns c.tk then { c.tm.leave with rel := true } else ⟨0, 0, false⟩ }) 0)) ∧
  (∀ who (s : State) d x, d < 4 → x ∈ s.mach.requests d → x.who = who → (∀ k < d, ∀ y ∈ s.mach.requests k, y.who ≠ who) →
    (∀ y ∈ s.mach.requests d, y = x ∨ y.cls < x.cls ∨ (y.cls = x.cls ∧ x.since < y.since)) →
    let cost := (Config.word s.mach.free).toNat
    let m : Mach := { s.mach with free := s.mach.free + 1 }
    let m' := m.modDie d fun k => { k with share := k.share - cost, grants := k.grants + 1 }
    ((s.mach.die d).hold = true ∨ (s.mach.die d).share < cost → exec (.leaveGrant who) s = .next { s with mach := m }) ∧
    ((s.mach.die d).hold = false → cost ≤ (s.mach.die d).share →
      (who < 2 ^ 40 → exec (.leaveGrant who) s = .next { s with mach := m'.modTeam who fun t => { t with leave := ⟨2, s.mach.clk, false⟩ } }) ∧
      (2 ^ 40 ≤ who → exec (.leaveGrant who) s = .next { s with mach := m'.modGrid ((who - 2 ^ 40) / 2 ^ 32) fun g =>
        { g with due := g.due.map fun y => if y.chunk = who % 2 ^ 32 then { y with leave := ⟨2, s.mach.clk, false⟩ } else y } }))) ∧
  (∀ tk (s : State), let v := (s.mach.team tk).leave
    let becomes := fun (v : Leave) => exec (.leaveExpiry tk) s = .next { s with mach := s.mach.modTeam tk fun t => { t with leave := v } }
    let ends := v.st = 2 ∧ ((v.rel = true ∧ s.mach.leaveRuns tk = false) ∨ (v.rel = false ∧ v.since + 4096 ≤ s.mach.clk))
    let again := v.st = 3 ∧ s.mach.leaveRuns tk = false
    (ends → becomes ⟨0, 0, false⟩) ∧ (again → becomes { v with st := 1 }) ∧ (¬ ends → ¬ again → exec (.leaveExpiry tk) s = .next s))

namespace Sys2Proof.Claims

/-! ## Gather and the matrix engine (R251 to R290) -/

/-- A queued matrix instruction without its lookahead windows. -/
def unwindowed (x : MxJob) : MxJob := { x with kind := x.kind.bare }

/-- One instruction more is in the engine queue, after those before it, which keep all but their lookahead windows (R267). -/
def Enqueued (s t : State) (c : Ctx) (counted : Bool) (lanes : Lanes) (k : MxKind) : Prop :=
  ∃ xs, (t.mach.core c.core).mx = xs ++ [⟨s.mach.nextOp, c.key, c.tk, lanes, if counted then some s.mach.nextOp else none, k, 0⟩] ∧
    xs.map unwindowed = (s.mach.core c.core).mx.map unwindowed

/-- The machine with an instruction more in a core's engine queue, as an operation of the matrix counter where it is counted (R182). -/
def engineTakes (m : Mach) (c : Ctx) (counted : Bool) (lanes : Lanes) (k : MxKind) : Mach :=
  (if counted then addOut m c.key 3 else skipId m).modCore c.core fun q =>
    { q with mx := q.mx ++ [⟨m.nextOp, c.key, c.tk, lanes, if counted then some m.nextOp else none, k, 0⟩] }

/-- An instruction goes into the engine queue, the machine being `m` beside, and the group goes on. -/
def Queues (i : Instr) (s : State) (c : Ctx) (m : Mach) (counted : Bool) (lanes : Lanes) (k : MxKind) : Prop :=
  Gives i s fun t => Passes (State.at s (engineTakes m c counted lanes k)) t c ∧ Enqueued s t c counted lanes k

/-- The queue is full, or the counter of a counted instruction (R182, R267); a handler has not saved every tile (R382). -/
def EngineFull (s : State) (c : Ctx) (counted : Bool) : Prop :=
  32 ≤ (s.mach.core c.core).mx.length ∨ (counted = true ∧ c.counterFull 3 = true)
def Unsaved (c : Ctx) : Prop := c.hand = true ∧ ∃ k < c.tm.tiles.length, k ∉ c.b.savedTiles

/-- The operand description that an MXP or MXD leaves for the engine (R273, R277). -/
def mxArgs (c : Ctx) (k : MxBlk) (g regs : Nat) : MxArgs :=
  let x := c.mxLatch k g regs
  ⟨c.g.slot k.fa, c.g.slot k.fb, k.ng, k.ct, k.dt, k.zc, if k.chk = 0 then c.g.chk else if k.chk = 1 then 0 else k.chk,
    k.bswz, k.boff, k.bsoff, k.xoff, x.arun, x.srun⟩

/-- Team offsets and sizes that a lane of LDT reads, in the order of its word's fields (R283). -/
def ldtPlaces (c : Ctx) (l : Nat) : List (Nat × Nat) :=
  let a := c.s c.o.a.toNat
  let b := c.s c.o.b.toNat
  let e := if fld c.o.mods 1 0 = 0 then 8 else 16
  if c.o.fn = 0 then [((a + .ofNat 64 (l % 16) * b + .ofNat 64 (4 * (l / 16))).toNat, 4)]
  else (List.range (32 / e)).map fun q => ((a + .ofNat 64 (l / 16 * (32 / e) + q) * b + .ofNat 64 (l % 16 * (e / 8))).toNat, e / 8)

/-- One f32 element of a lane's registers of ACCMV.wr is a signalling NaN (R50). -/
def wrSignals (c : Ctx) (n l : Nat) : Prop :=
  ∃ i < n, let x := c.v (c.o.a.toNat + i) l
    fld x 30 23 = 255 ∧ fld x 22 0 ≠ 0 ∧ bitAt x 22 = false

/-! ### Groups of the matrix engine (R269 to R272, R278) -/

/-- Element (m, k) of element size e of a run in A layout (R269). -/
def aElement (e : Nat) (run : List W32) (m k : Nat) : Nat :=
  let w := run.getD ((4 * (k * e / 64) + m / 16) * 32 + (m % 16 + 16 * (k * e % 64 / 32))) 0
  w.toNat / 2 ^ (e * (k % (32 / e))) % 2 ^ e

/-- Element (k, n) of an image at a team offset, in groups of G rows, with the swizzle of the block (R270); `base` is where the team's scratchpad
starts. An element of less than a byte is a nibble or a pair of bits of its byte. -/
def bElement (m : Mach) (base : Nat) (x : MxArgs) (off k n : Nat) : Nat :=
  let e := etypeBits (slotEtype x.fb)
  let at_ := off + swz x.bswz (k / x.g * (64 * x.g * e / 8) + n * x.g * e / 8 + k % x.g * e / 8)
  if 8 ≤ e then m.readNat .scratch (base + at_) (e / 8)
  else (m.readByte .scratch (base + at_)).toNat / 2 ^ (k % x.g * e % 8) % 2 ^ e

/-- The value of an element: its code's value times its block scale under SMODE 1, the slot's SCALE under SMODE 2, or 1 (R271). -/
def scaled (slot : BitVec 128) (code scale : Nat) : Val :=
  ((etypeVal (slotEtype slot) code).mul (if slotSmode slot = 1 then e8m0 scale else slotScaleVal slot)).1
def aValue (x : MxArgs) (m k : Nat) : Val :=
  scaled x.fa (aElement (etypeBits (slotEtype x.fa)) x.arun m k) (aElement 8 x.srun m (k / 32))
def bScale (m : Mach) (base : Nat) (x : MxArgs) (k n : Nat) : Nat := (m.readByte .scratch (base + x.bsoff + 64 * (k / 32) + n)).toNat
def bValue (m : Mach) (base : Nat) (x : MxArgs) (off k n : Nat) : Val := scaled x.fb (bElement m base x off k n) (bScale m base x k n)

/-- The terms of group g for element (r, c) of its tile (R272, R278): exact products; of a ternary mode one term for each block of 32. Of an MXD the
groups from NG on are those of dW. -/
def groupTerms (m : Mach) (base : Nat) (x : MxArgs) (mxd : Bool) (g r c : Nat) : List Val :=
  let w := x.g
  let pick := fun (t2 v : Nat) => if t2 = 1 then sval 8 v else if t2 = 3 then -sval 8 v else 0
  let aCodeAt := fun k => aElement (etypeBits (slotEtype x.fa)) x.arun r k
  let bCodeAt := fun k => bElement m base x x.boff k c
  if mxd = true ∧ g < x.ng then (List.range w).map fun i => ((aValue x r (g * w + i)).mul (bValue m base x x.boff c (g * w + i))).1
  else if mxd = true then
    (List.range w).map fun i => ((bValue m base x x.xoff ((g - x.ng) * w + i) r).mul (aValue x ((g - x.ng) * w + i) c)).1
  else if slotEtype x.fa = 9 then (List.range 4).map fun j =>
    let k := 128 * g + 32 * j
    (((valOfInt false ((List.range 32).map fun i => pick (aCodeAt (k + i)) (bCodeAt (k + i))).sum 0).mul
      (e8m0 (aElement 8 x.srun r (k / 32)))).1.mul (slotScaleVal x.fb)).1
  else if slotEtype x.fb = 9 then (List.range 4).map fun j =>
    let k := 128 * g + 32 * j
    (((valOfInt false ((List.range 32).map fun i => pick (bCodeAt (k + i)) (aCodeAt (k + i))).sum 0).mul
      (e8m0 (bScale m base x k c))).1.mul (slotScaleVal x.fa)).1
  else (List.range w).map fun i => ((aValue x r (g * w + i)).mul (bValue m base x x.boff (g * w + i) c)).1

/-- A multiple of 2^q toward zero. -/
def truncated (q : Int) : Val → Int
  | .fin neg m e => let n : Int := if q ≤ e then ((m * 2 ^ (e - q).toNat : Nat) : Int) else ((m / 2 ^ (q - e).toNat : Nat) : Int)
                    if neg then -n else n
  | _ => 0

/-- GroupSum (R272): the ACC40 result of terms and the matrix status bits that it sets: INF 2, NAN 4. -/
structure GroupSums (ts : List Val) (r : Nat × Nat) : Prop where
  nan : (∃ s, Val.nan s ∈ ts) ∨ (Val.inf false ∈ ts ∧ Val.inf true ∈ ts) → r = (fmtAcc40.nanBits, 4)
  inf : ∀ neg, (∀ s, Val.nan s ∉ ts) → Val.inf neg ∈ ts → Val.inf (!neg) ∉ ts → r = (fmtAcc40.sign neg + fmtAcc40.infBits, 2)
  zero : (∀ t ∈ ts, ∃ neg e, t = .fin neg 0 e) → r = (fmtAcc40.sign (ts.all fun t => t matches .fin true _ _), 0)
  sum : ∀ top : Int, (∀ t ∈ ts, ∃ neg m e, t = Val.fin neg m e ∧ (m ≠ 0 → (Nat.log2 m : Int) + e ≤ top)) →
    (∃ neg m e, Val.fin neg m e ∈ ts ∧ m ≠ 0 ∧ (Nat.log2 m : Int) + e = top) →
    let n := (ts.map (truncated (top - 47))).sum
    (n = 0 → r = (0, 0)) ∧
    (n ≠ 0 → let d := fmtAcc40.deliver 0 false (.fin (decide (n < 0)) n.natAbs (top - 47))
      r = (d.1, if d.2 &&& flOF ≠ 0 then 2 else 0))

/-- The tile that a group adds to, and whether it starts from +0 (ZC, in the first group of its tile). -/
def groupTile (a : MxArgs) (mxd : Bool) (g : Nat) : Nat := if mxd = true ∧ a.ng ≤ g then a.dt else a.ct
def groupFirst (a : MxArgs) (mxd : Bool) (g : Nat) : Bool := a.zc && decide (g = if mxd = true ∧ a.ng ≤ g then a.ng else 0)

/-- A reserved T2 code is among those that a group reads (R57). -/
def readsReserved (m : Mach) (base : Nat) (x : MxArgs) (g : Nat) : Prop :=
  (slotEtype x.fa = 9 ∧ ∃ i < 128, ∃ r < 64, aElement 2 x.arun r (128 * g + i) = 2) ∨
    (slotEtype x.fa ≠ 9 ∧ slotEtype x.fb = 9 ∧ ∃ i < 128, ∃ c < 64, bElement m base x x.boff (128 * g + i) c = 2)

/-- The engine's choice of a core is this instruction: of the highest class queued, the oldest; its issuer's earlier accesses are performed (R267,
R268, R282), and its operation is one of its bundle. -/
def Chosen (s : State) (core : Nat) (x : MxJob) : Prop :=
  (∃ xs ys, (s.mach.core core).mx = xs ++ x :: ys ∧
    let cls := fun (y : MxJob) => (s.mach.gridOf (s.mach.team y.team)).cls
    (∀ y ∈ xs, cls y < cls x) ∧ ∀ y ∈ ys, cls y ≤ cls x) ∧
  s.mach.mxWaits x = false ∧ ∀ id, x.out = some id → Resident s x.key id

/-- A queued instruction has left the queue, and its operation has retired, its bundle carrying a mark besides where `marks` gives one. -/
def Finished (s t : State) (core : Nat) (x : MxJob) (marks : List Mark) : Prop :=
  (t.mach.core core).mx = (s.mach.core core).mx.filter (fun y => decide (y.id ≠ x.id)) ∧
    ∀ id, x.out = some id → let b := s.mach.bundle x.key
      { (t.mach.bundle x.key) with regs := b.regs } = completed (if b.live = 0 then b else { b with marks := b.marks ++ marks }) id

/-- The queue goes on with this instruction at its next group. -/
def GroupDone (s t : State) (core : Nat) (x : MxJob) : Prop :=
  (t.mach.core core).mx = (s.mach.core core).mx.map fun y => if y.id = x.id then { y with g := y.g + 1 } else y

/-- Status of a team that is not itself changed by the group: an instruction of it that was begun is pre-empted (R289). -/
def preempted (s : State) (core : Nat) (x : MxJob) (tk : Nat) : Nat :=
  if (s.mach.core core).mx.any fun y => decide (y.id ≠ x.id ∧ 0 < y.g ∧ y.team = tk) then 32 else 0

end Sys2Proof.Claims

/-- R251 to R253, R261: HSET binds a well-formed descriptor to a handle and raises OPERAND for a malformed one; GINV empties the core's fetch cache once
the group's acquires are performed. R256 to R266: GLD through a handle that every lane's element passes leaves one element outstanding for each lane
as an operation of the gather counter; GSC leaves writes, or combinations applied once for each element, or one chunk; NZSCAN packs the indexes of the
non-zero lanes into the lowest lanes that take part and moves its counts on. A handle that is not bound, or does not fit, raises OPERAND 0x29; a full
tracker or counter holds them (R10, R182). -/
def Obligations.GatherUnit : Prop :=
  (∀ o s r c ps m, Issues (.hset o) o s r c →
    PassOne c s ⟨c.s o.a.toNat, 64, 64, true, false, false, false, .local_, .allowed⟩ ps m →
    let busy := (ps.any fun p => s.mach.mustWait c.key c.grp p.space p.addr p.len) = true
    let d := c.readOwn s.mach (lowestLane c.grp) ps
    CachesOnly (c.leaveResume s.mach) m ∧ (busy → exec (.hset o) s = .next s) ∧
    (¬ busy → handleBad d = true → exec (.hset o) s = .next { s with mach := m.raise c.q c.run (c.trap clsOperand 0x27) }) ∧
    (¬ busy → handleBad d = false → Gives (.hset o) s fun t =>
      Passes (State.at s (m.modTeam c.tk fun t => { t with handles := Sparse.put [] t.handles o.d.toNat d })) t c)) ∧
  (∀ o s r c, Issues (.ginv o) o s r c →
    let late := s.mach.ops.any fun x => decide (x.key = c.key) && x.acq && x.parts.any fun p => !p.done && c.grp.getLsbD p.lane
    (late = true → exec (.ginv o) s = .next s) ∧
    (late = false → Gives (.ginv o) s fun t => Passes (s.but fun m => m.modCore c.core fun k => { k with fcache := [] }) t c)) ∧
  (∀ o s r c, Issues (.gld o) o s r c →
    let nz := decide (o.fn = 2)
    let fits := fun (es : Nat) => (Opd.v o.d.toNat (gldRegs nz es) (if nz ∨ es = 8 then 2 else 1)).ok c = true
    (c.tm.handle? o.a.toNat = none → fits 4 → TrapsWith (.gld o) s c clsOperand 0x29) ∧
    (∀ d, c.tm.handle? o.a.toNat = some d →
      (¬ fits (hEsize d) → TrapsWith (.gld o) s c clsOperand 0x63) ∧
      (fits (hEsize d) → nz = true → hFmt d = 0 → TrapsWith (.gld o) s c clsOperand 0x29) ∧
      (fits (hEsize d) → (nz = true → hFmt d ≠ 0) →
        (∀ parts conds m y, c.gldLanes d nz (laneList c.act) (c.leaveResume s.mach) = (parts, conds, m) →
          conds.find? (fun y => decide (y.cause ≠ 0x03)) = some y →
          exec (.gld o) s = .next { s with mach := m.raise c.q c.run (c.trapWith y.cls y.cause conds) }) ∧
        (∀ parts m, c.gldLanes d nz (laneList c.act) (c.leaveResume s.mach) = (parts, [], m) →
          let x : Op := {
            id := m.nextOp, key := c.key, acq := false, rel := false, serial := false, dest := .gather o.d.toNat (hEsize d) nz,
            size := hEsize d, win := c.windows, parts := parts, counted := true, asid := c.g.asid }
          (m.trackerFull c.core parts = true ∨ c.counterFull 2 = true → exec (.gld o) s = .next s) ∧
          (m.trackerFull c.core parts = false → c.counterFull 2 = false → Gives (.gld o) s fun t =>
            Zeroed c (gldRegs nz (hEsize d)) (s.regs c.key) (t.regs c.key) ∧ StandsAt t c c.nextPc ∧
            if parts = [] then OnlyRegs (State.at s (dropOut (addOut m c.key 2) c.key m.nextOp)) t c
            else OnlyRegs (State.at s (addOp (addOut m c.key 2) x)) t c ∧ Queued s t x))))) ∧
  (∀ o s r c, Issues (.gsc o) o s r c →
    let fits := fun (es : Nat) => (Opd.v o.d.toNat ((if o.fn = 2 then 4 else 1) * if es = 8 then 2 else 1) (if es = 8 then 2 else 1)).ok c = true
    (c.tm.handle? o.a.toNat = none → fits 4 → TrapsWith (.gsc o) s c clsOperand 0x29) ∧
    (∀ d, c.tm.handle? o.a.toNat = some d →
      (¬ fits (hEsize d) → TrapsWith (.gsc o) s c clsOperand 0x63) ∧
      (fits (hEsize d) → gscFits o d = false → TrapsWith (.gsc o) s c clsOperand 0x29) ∧
      (fits (hEsize d) → gscFits o d = true → o.fn ≠ 2 →
        (∀ ps conds m y, c.gscCheck d (laneList c.act) (c.leaveResume s.mach) = (ps, conds, m) →
          conds.find? (fun y => decide (y.cause ≠ 0x03)) = some y →
          exec (.gsc o) s = .next { s with mach := m.raise c.q c.run (c.trapWith y.cls y.cause conds) }) ∧
        (∀ ps m, c.gscCheck d (laneList c.act) (c.leaveResume s.mach) = (ps, [], m) →
          let parts := if o.fn = 0 then c.gscWrites (hEsize d) ps else c.gscCombine (hEsize d) [] ps
          let x : Op := {
            id := m.nextOp, key := c.key, acq := false, rel := false, serial := decide (o.fn = 1), dest := .none, size := hEsize d,
            win := [], parts := parts, counted := true, asid := c.g.asid }
          let held := m.trackerFull c.core parts = true ∨ c.counterFull 2 = true ∨
            (ps.any fun x => m.mustWait c.key (laneBit x.1) .dev x.2.1.addr (hEsize d)) = true
          (held → exec (.gsc o) s = .next s) ∧
          (¬ held → Gives (.gsc o) s fun t =>
            if parts = [] then Passes (State.at s (dropOut (addOut m c.key 2) c.key m.nextOp)) t c
            else Passes (State.at s (addOp (addOut m c.key 2) x)) t c ∧ Queued s t x))) ∧
      (fits (hEsize d) → gscFits o d = true → o.fn = 2 →
        let q := fld (c.s o.b.toNat) 31 0
        (hRows d * hCpr d ≤ q → TrapsWith (.gsc o) s c clsOperand 0x29) ∧
        (q < hRows d * hCpr d → ∀ ps qs m m',
          (c.leaveResume s.mach).check c.agent ⟨.ofNat 64 (hPstate d), 16, 16, false, true, false, false, .local_, .denied 0x2A⟩ = (.ok ps, m) →
          m.check c.agent ⟨.ofNat 64 (hOfftab d + 4 * q), 4, 4, false, true, false, false, .local_, .denied 0x2A⟩ = (.ok qs, m') →
          let parts := [part (lowestLane c.grp) (onePiece ps) (.ofNat 64 (hPstate d)) (.pack d q (onePiece qs).addr (c.packElems d q) 0 0 none)]
          let x : Op := {
            id := m'.nextOp, key := c.key, acq := false, rel := false, serial := false, dest := .none, size := 16, win := [],
            parts := parts, counted := true, asid := c.g.asid }
          (m'.trackerFull c.core parts = true ∨ c.counterFull 2 = true → exec (.gsc o) s = .next s) ∧
          (m'.trackerFull c.core parts = false → c.counterFull 2 = false → Gives (.gsc o) s fun t =>
            Passes (State.at s (addOp (addOut m' c.key 2) x)) t c ∧ Queued s t x))))) ∧
  (∀ o s r c, Issues (.nzscan o) o s r c →
    let e := fld (c.s o.b.toNat) 31 0
    let hits := (laneList c.act).filter fun l => nonZero (typeOf o 4) (c.v o.a.toNat l)
    Gives (.nzscan o) s fun t => OnlyRegs s t c ∧ StandsAt t c c.nextPc ∧
      (t.regs c.key).getS o.b.toNat = .ofNat 64 ((fld (c.s o.b.toNat) 63 32 + hits.length) % 2 ^ 32 * 2 ^ 32 + (e + 32) % 2 ^ 32) ∧
      (∀ n, n ≠ o.b.toNat → (t.regs c.key).getS n = (s.regs c.key).getS n) ∧
      (∀ n l, l < 32 → (t.regs c.key).getV n l =
        if n = o.d.toNat ∧ c.act.getLsbD l = true then
          (if placeOf c l < hits.length then .ofNat 32 (e + hits.getD (placeOf c l) 0) else BitVec.allOnes 32)
        else (s.regs c.key).getV n l) ∧
      t.regs c.key = { s.regs c.key with v := (t.regs c.key).v, s := (t.regs c.key).s })

/-- R273 to R279: MXP and MXD without a leader have no effect; with one, and with a block that passes its checks, they take the A operand and enter the
engine queue as one operation of the matrix counter; the base form of MXP takes the default block, the others read theirs from the
scratchpad. The first check of R277 that fails raises its trap; a full queue or counter, or two latches held in the quadrant, hold them; a handler
that has not saved every tile raises ROLE 0x70 (R382). -/
def Obligations.MatrixInstructionsAreQueued : Prop :=
  ∀ e ∈ [((.mxp : Opn → Instr), false), (.mxd, true)], ∀ o s r c, Issues (e.1 o) o s r c →
    (Unsaved c → TrapsWith (e.1 o) s c clsRole 0x70) ∧
    (¬ Unsaved c → c.leader = none → WritesRegs (e.1 o) s c id) ∧
    (∀ l, ¬ Unsaved c → c.leader = some l →
      let off := (c.s o.a.toNat).toNat
      let base := o.len = 0 ∧ e.2 = false
      let leads := fun (cls cause : Nat) => c.trapWith cls cause [⟨l, cls, cause, 0, 0⟩]
      let k := if base then c.mxDefault else mxParse (c.scratchRead s.mach l off 64)
      let ready := base ∨ (off % 64 = 0 ∧ off + 64 ≤ c.tm.alloc ∧ s.mach.mustWait c.key (laneBit l) .scratch (c.tm.phys c.core off) 64 = false)
      (¬ base → off % 64 ≠ 0 → exec (e.1 o) s = .next { s with mach := (c.leaveResume s.mach).raise c.q c.run (leads clsAlign 0x10) }) ∧
      (¬ base → off % 64 = 0 → c.tm.alloc < off + 64 →
        exec (e.1 o) s = .next { s with mach := (c.leaveResume s.mach).raise c.q c.run (leads clsXlate 0x02) }) ∧
      (¬ base → off % 64 = 0 → off + 64 ≤ c.tm.alloc → s.mach.mustWait c.key (laneBit l) .scratch (c.tm.phys c.core off) 64 = true →
        exec (e.1 o) s = .next s) ∧
      (ready → ∀ cls cause, c.mxCheck e.2 k = .error (cls, cause) → exec (e.1 o) s = .next { s with mach :=
        ((c.leaveResume s.mach).raise c.q c.run (if cls = clsOperand then c.trap cls cause else leads cls cause)) }) ∧
      (ready → ∀ g regs, c.mxCheck e.2 k = .ok (g, regs) →
        let reuse := bitAt o.mods 7
        let held := EngineFull s c true ∨ (reuse = true ∧ c.b.latch = none ∧ 2 ≤ s.mach.latches (quadOfKey c.key))
        (held → exec (e.1 o) s = .next s) ∧
        (¬ held → Queues (e.1 o) s c (s.mach.modBundle c.key fun b => { b with latch := if reuse then some (c.mxLatch k g regs) else none })
          true (laneBit l) (if e.2 then .mxd (mxArgs c k g regs) else .mxp (mxArgs c k g regs)))))

/-- R283, R284: LDT leaves each lane's reads of its word's fields outstanding in A layout; a misaligned operand raises ALIGN 0x10, a byte beyond the
allocation XLATE 0x02. UNPK writes each lane's words of its unpacked registers. R285 to R288: ACCMV, MXSAVE, MXLOAD, MXCLR and MXSTAT enter the
engine queue with what they will do, and MXCLR.latch frees the bundle's latch; nothing else changes. An ACCMV that rounds while FPCTL enables an
exception ends its run and its group waits at it (R36; log 62); ACCMV.wr raises invalid for a signalling NaN (R50). -/
def Obligations.LayoutsAndTiles : Prop :=
  (∀ o s r c, Issues (.ldt o) o s r c →
    let al := if o.fn = 0 then 8 else 16
    let odd := c.act ≠ 0 ∧ ((c.s o.a.toNat).toNat % al ≠ 0 ∨ (c.s o.b.toNat).toNat % al ≠ 0)
    let out := (laneList c.act).filter fun l => (ldtPlaces c l).any fun x => decide (c.tm.alloc < x.1 + x.2)
    let parts := (laneList c.act).flatMap fun l => (ldtPlaces c l).map fun x =>
      let p : Piece := ⟨.scratch, c.tm.phys c.core x.1, x.2, none, 0⟩
      part l p (.ofNat 64 (winBase + x.1)) (.read (c.ownBytes l p))
    let x : Op := {
      id := s.mach.nextOp, key := c.key, acq := false, rel := false, serial := false, dest := .ldt o.d.toNat, size := 4,
      win := c.windows, parts := parts, counted := false, asid := c.g.asid }
    (odd → TrapsWith (.ldt o) s c clsAlign 0x10) ∧
    (¬ odd → out ≠ [] → exec (.ldt o) s = .next { s with mach :=
      ((c.leaveResume s.mach).raise c.q c.run (c.trapWith clsXlate 0x02 (out.map fun l => ⟨l, clsXlate, 0x02, 0, 0⟩))) }) ∧
    (¬ odd → out = [] → s.mach.trackerFull c.core parts = true → exec (.ldt o) s = .next s) ∧
    (¬ odd → out = [] → s.mach.trackerFull c.core parts = false → Gives (.ldt o) s fun t =>
      Zeroed c 1 (s.regs c.key) (t.regs c.key) ∧ StandsAt t c c.nextPc ∧
      if parts = [] then OnlyRegs (s.but skipId) t c else OnlyRegs (s.but fun m => addOp (skipId m) x) t c ∧ Queued s t x)) ∧
  (∀ o s r c, Issues (.unpk o) o s r c →
    let n := if o.fn = 0 then 2 else 4
    Gives (.unpk o) s fun t => OnlyRegs s t c ∧ StandsAt t c c.nextPc ∧
      (∀ k l, l < 32 → (t.regs c.key).getV k l =
        if o.d.toNat ≤ k ∧ k < o.d.toNat + n ∧ c.written.getLsbD l = true then
          (if c.act.getLsbD l then .ofNat 32 (c.unpkWord n (k - o.d.toNat) l) else 0)
        else (s.regs c.key).getV k l) ∧
      t.regs c.key = { s.regs c.key with v := (t.regs c.key).v }) ∧
  (∀ e ∈ [((.accmv : Opn → Instr), false), (.mxload, true), (.mxclrLatch, false), (.mxstat, false)], ∀ o s r c, Issues (e.1 o) o s r c →
    Unsaved c → TrapsWith (e.1 o) s c clsRole 0x70) ∧
  (∀ o s r c, Issues (.accmv o) o s r c → ¬ Unsaved c →
    let row := fld (c.s o.b.toNat) 5 0
    let col := fld (c.s o.b.toNat) 13 8
    let n := fld (c.s o.b.toNat) 22 16
    let fn := o.fn.toNat
    let rm := modeOf c.b.regs.fpctl o.rm.toNat + 8 * if bitAt c.b.regs.fpctl 3 then 1 else 0
    let from_ := c.tm.tiles.getD o.a.toNat 0
    (EngineFull s c false → exec (.accmv o) s = .next s) ∧
    (¬ EngineFull s c false →
      (fn = 3 → Queues (.accmv o) s c s.mach false c.grp (.accWrite (c.tm.tiles.getD o.d.toNat 0) c.accElems)) ∧
      (fn = 1 → let iv := ∃ l, c.act.getLsbD l = true ∧ wrSignals c n l
        (¬ iv → Queues (.accmv o) s c s.mach false c.grp (.accWrite (c.tm.tiles.getD o.d.toNat 0) c.accElems)) ∧
        (iv → enabledOf c.b.regs.fpctl flIV = 0 → Gives (.accmv o) s fun t =>
          OnlyRegs (State.at s (engineTakes s.mach c false c.grp (.accWrite (c.tm.tiles.getD o.d.toNat 0) c.accElems))) t c ∧
            StandsAt t c c.nextPc ∧ t.regs c.key = (s.regs c.key).raiseFlags flIV)) ∧
      (fn = 0 ∧ c.b.regs.trapsOn = true → Gives (.accmv o) s fun t =>
        let k : MxKind := .accTrap (typeOf o 4) rm o.d.toNat from_ row col n c.act (if o.zm then c.grp &&& ~~~c.act else 0) c.pc (c.size / 4)
        OnlyRegs (State.at s (engineTakes s.mach c false c.grp k)) t c ∧ t.regs c.key = s.regs c.key ∧ Scattered t c (fun _ => c.pc) ∧
          Enqueued s t c false c.grp k) ∧
      (fn = 2 ∨ (fn = 0 ∧ c.b.regs.trapsOn = false) → Gives (.accmv o) s fun t =>
        let k : MxKind := .accRead fn (typeOf o 4) rm o.d.toNat from_ row col n c.act c.windows
        OnlyRegs (State.at s (engineTakes s.mach c false c.grp k)) t c ∧ StandsAt t c c.nextPc ∧
          Zeroed c (n * if fn = 2 then 2 else 1) (s.regs c.key) (t.regs c.key) ∧ Enqueued s t c false c.grp k))) ∧
  (∀ o s r c ps m, Issues (.mxsave o) o s r c → PassOne c s ⟨c.sea, 20480, 64, false, true, false, false, .local_, .allowed⟩ ps m →
    CachesOnly (c.leaveResume s.mach) m ∧ (EngineFull s c true → exec (.mxsave o) s = .next s) ∧
    (¬ EngineFull s c true → Queues (.mxsave o) s c
      (if c.hand then m.modBundle c.key fun b => { b with savedTiles := o.d.toNat :: b.savedTiles } else m) true c.grp
      (.save (c.tm.tiles.getD o.d.toNat 0) (ps.map fun p => (p.space, p.addr, p.len)) c.g.asid c.sea.toNat))) ∧
  (∀ o s r c ps m, Issues (.mxload o) o s r c → ¬ Unsaved c →
    PassOne c s ⟨c.sea, 20480, 64, true, false, false, false, .local_, .allowed⟩ ps m →
    CachesOnly (c.leaveResume s.mach) m ∧ (EngineFull s c true → exec (.mxload o) s = .next s) ∧
    (¬ EngineFull s c true → Queues (.mxload o) s c m true c.grp
      (.load (c.tm.tiles.getD o.d.toNat 0) (ps.map fun p => (p.space, p.addr, p.len)) c.g.asid c.sea.toNat))) ∧
  (∀ o s r c, Issues (.mxclr o) o s r c →
    (2 ^ c.tm.tiles.length ≤ (c.s o.a.toNat).toNat → TrapsWith (.mxclr o) s c clsOperand 0x63) ∧
    ((c.s o.a.toNat).toNat < 2 ^ c.tm.tiles.length →
      (Unsaved c → TrapsWith (.mxclr o) s c clsRole 0x70) ∧
      (¬ Unsaved c → EngineFull s c true → exec (.mxclr o) s = .next s) ∧
      (¬ Unsaved c → ¬ EngineFull s c true → Queues (.mxclr o) s c s.mach true c.grp
        (.clear (((List.range c.tm.tiles.length).filter fun k => bitAt (c.s o.a.toNat) k).map fun k => c.tm.tiles.getD k 0))))) ∧
  (∀ o s r c, Issues (.mxclrLatch o) o s r c → ¬ Unsaved c →
    Gives (.mxclrLatch o) s fun t => Passes (s.but fun m => m.modBundle c.key fun b => { b with latch := none }) t c) ∧
  (∀ o s r c, Issues (.mxstat o) o s r c → ¬ Unsaved c →
    (EngineFull s c false → exec (.mxstat o) s = .next s) ∧
    (¬ EngineFull s c false → Queues (.mxstat o) s c s.mach false c.grp
      (.stat o.fn.toNat (o.d.toNat + if c.hand then 256 else 0) (if o.fn = 2 then c.s o.a.toNat else 0))))

/-- R268 to R272, R278: the engine goes on with the oldest queued instruction of the highest class; a group of it adds its exact products, by GroupSum, to
every element of its tile and to no other, sets the status bits that its sums and a reserved T2 code give (R57), and the instruction leaves the queue
with its last group; one begun that is passed over is marked PRE. No memory changes. R281: without leave the first group waits for it. R280: after a
soft error the group is computed again and counted; after a second, MM2 is set, and the results are open, or with CHK 11 the instruction stops, its
tile as before the group, and its bundle is marked. R285 to R289: the other queued instructions do their work in their order and leave the queue: an
ACCMV read writes its registers, an ACCMV write its elements, MXSAVE the tile's image, MXLOAD fills the tile from it, MXCLR clears its tiles, MXSTAT
writes the team's status. -/
def Obligations.EngineQueueActs : Prop :=
  (∀ core soft again (s : State) x a mxd, Chosen s core x → x.kind = (if mxd then .mxd a else .mxp a) →
     let tm := s.mach.team x.team
     let base := tm.phys core 0
     let tile := tm.tiles.getD (groupTile a mxd x.g) 0
     let last := x.g + 1 = if mxd then 2 * a.ng else a.ng
     let mism := decide (2 ≤ a.chk) && soft
     let stat := fun (t : State) (bits : Nat) => ∀ tk tm, s.mach.team? tk = some tm → (t.mach.team tk).mstat =
       tm.mstat ||| .ofNat 64 (preempted s core x tk ||| if tk = x.team then bits else 0)
     let rsv := fun (bits : Nat) => bits.testBit 3 = true ↔ readsReserved s.mach base a x.g
     let others := fun (t : State) => MemoryKept s t ∧ t.boot = s.boot ∧ (∀ k, k ≠ core → t.mach.core k = s.mach.core k) ∧
       ∀ k i, k ≠ tile → i < 4096 → (t.mach.core core).accAt k i = (s.mach.core core).accAt k i
     let right := fun (t : State) => ∃ sums : Nat → Nat × Nat,
       (∀ i < 4096, (t.mach.core core).accAt tile i = .ofNat 40 (sums i).1 ∧
         GroupSums ((if groupFirst a mxd x.g then .fin false 0 0 else fmtAcc40.decode ((s.mach.core core).accAt tile i).toNat)
           :: groupTerms s.mach base a mxd x.g (i / 64) (i % 64)) (sums i)) ∧
       (if last then Finished s t core x [] else GroupDone s t core x) ∧
       ∃ bits, stat t bits ∧ rsv bits ∧ (∀ k, k ≠ 3 → bits.testBit k = true ↔ ∃ i < 4096, (sums i).2.testBit k = true)
     (x.g = 0 → s.mach.leaveHeld x.team = false → Gives (.matrixGroup core soft again) s fun t => others t ∧
       (t.mach.core core) = s.mach.core core ∧ t.mach.bundles = s.mach.bundles) ∧
     (x.g ≠ 0 ∨ s.mach.leaveHeld x.team = true →
       (mism = false → Gives (.matrixGroup core soft again) s fun t => others t ∧ right t ∧
         (t.mach.team x.team).reruns = (s.mach.team x.team).reruns) ∧
       (mism = true → (s.mach.team? x.team).isSome = true → Gives (.matrixGroup core soft again) s fun t => others t ∧
         (t.mach.team x.team).reruns = satInc (s.mach.team x.team).reruns ∧
         (again = false → right t ∧ (t.mach.team x.team).mism2 = (s.mach.team x.team).mism2) ∧
         (again = true → (t.mach.team x.team).mism2 = satInc (s.mach.team x.team).mism2 ∧
           (∃ bits, stat t bits ∧ bits.testBit 4 = true ∧ rsv bits) ∧
           (a.chk = 3 → (∀ i < 4096, (t.mach.core core).accAt tile i = (s.mach.core core).accAt tile i) ∧
             Finished s t core x ((x.out.map fun id => (⟨id, false, clsMxchk, clsMxchk, 0x6C, 0, 3, false⟩ : Mark)).toList)) ∧
           (a.chk ≠ 3 → if last then Finished s t core x [] else GroupDone s t core x))))) ∧
  (∀ core (s : State) x, Chosen s core x →
     (∀ fn ty rm d tile row col n ls w, x.kind = .accRead fn ty rm d tile row col n ls w → (s.mach.bundle? x.key).isSome = true →
       Gives (.queuedMatrixInstruction core) s fun t => Finished s t core x [] ∧ MemoryKept s t ∧ OthersKept s t x.key ∧
         let res := (s.mach.core core).accReads tile fn ty rm d row col n ls
         t.regs x.key = (((s.regs x.key).writeAll
           ((res.filter fun y => decide (((s.mach.bundle x.key).lane y.1).st ≠ .exited)).flatMap fun y => y.2.1)).raiseFlags
             (res.foldl (fun f y => f ||| y.2.2) 0))) ∧
     (∀ ty rm d tile row col n ls zero pc isz, x.kind = .accTrap ty rm d tile row col n ls zero pc isz → x.out = none →
       (s.mach.bundle? x.key).isSome = true → (s.mach.bundle x.key).hand = none →
       let res := (s.mach.core core).accReads tile 0 ty rm d row col n ls
       let fl := res.map fun r => (r.1, r.2.2)
       let next := pc + .ofNat 64 (4 * isz)
       (∀ p ∈ fl, enabledOf (s.regs x.key).fpctl p.2 = 0) →
       Gives (.queuedMatrixInstruction core) s fun t => Finished s t core x [] ∧ MemoryKept s t ∧ OthersKept s t x.key ∧
         t.regs x.key = ((s.regs x.key).raiseFlags (orFlags fl)).writeAll
           (((laneList zero).flatMap fun l => (List.range n).map fun i => ((d + i) * 32 + l, 0)) ++ res.flatMap fun r => r.2.1) ∧
         ∀ l < 32, (t.mach.bundle x.key).lane l = let y := (s.mach.bundle x.key).lane l
           if x.lanes.getLsbD l = true ∧ y.pc = pc ∧ y.st = .runnable then { y with pc := next } else y) ∧
     (∀ tile es, x.kind = .accWrite tile es → (∀ e ∈ es, e.1 < 4096) →
       Gives (.queuedMatrixInstruction core) s fun t => Finished s t core x [] ∧ MemoryKept s t ∧
         ∀ k i, i < 4096 → (t.mach.core core).accAt k i =
           if k = tile then ((es.reverse.find? fun e => decide (e.1 = i)).map (·.2)).getD ((s.mach.core core).accAt k i)
           else (s.mach.core core).accAt k i) ∧
     (∀ tile sp a asid va, x.kind = .save tile [(sp, a, 20480)] asid va →
       Gives (.queuedMatrixInstruction core) s fun t => Finished s t core x [] ∧
         (∀ i < 4096, t.mach.readNat sp (a + 5 * i) 5 = ((s.mach.core core).accAt tile i).toNat) ∧
         ∀ sp' k, sp' ≠ sp ∨ k < a ∨ a + 20480 ≤ k → t.mach.readByte sp' k = s.mach.readByte sp' k) ∧
     (∀ tile sp a asid va, x.kind = .load tile [(sp, a, 20480)] asid va → s.mach.damaged sp a 20480 = false →
       Gives (.queuedMatrixInstruction core) s fun t => Finished s t core x [] ∧ MemoryKept s t ∧
         ∀ k i, i < 4096 → (t.mach.core core).accAt k i =
           if k = tile then .ofNat 40 (s.mach.readNat sp (a + 5 * i) 5) else (s.mach.core core).accAt k i) ∧
     (∀ ts, x.kind = .clear ts → Gives (.queuedMatrixInstruction core) s fun t => Finished s t core x [] ∧ MemoryKept s t ∧
       ∀ k i, i < 4096 → (t.mach.core core).accAt k i = if k ∈ ts then 0 else (s.mach.core core).accAt k i) ∧
     (∀ fn d clr, x.kind = .stat fn d clr → (s.mach.bundle? x.key).isSome = true → (s.mach.team? x.team).isSome = true →
       let st := (s.mach.team x.team).mstat ||| .ofNat 64 (preempted s core x x.team)
       let busy := (s.mach.core core).mx.any fun y => decide (y.team = x.team ∧ y.id ≠ x.id)
       Gives (.queuedMatrixInstruction core) s fun t => Finished s t core x [] ∧ MemoryKept s t ∧ OthersKept s t x.key ∧
         t.regs x.key = (s.regs x.key).sset (decide (256 ≤ d)) (d % 256)
           (if fn = 1 then .ofNat 64 ((s.mach.team x.team).reruns.toNat * 2 ^ 32 + (s.mach.team x.team).mism2.toNat)
             else st ||| if busy then 1 else 0) ∧
         (t.mach.team x.team).mstat = if fn = 2 then st &&& ~~~clr else st))

namespace Sys2Proof.Claims

/-! ## The neighbour engine and the control core (R291 to R303, R333 to R351) -/

/-- The issuer's registers and threads, and everything of other issuers, stay; the group goes on. -/
structure GoesOn (s t : State) (c : Ctx) (regs : Regs) : Prop where
  others : OthersKept s t c.key
  threads : ThreadsKept s t c.key
  stands : StandsAt t c c.nextPc
  regs : t.regs c.key = regs
  trapRegs : (t.mach.bundle c.key).trap = (s.mach.bundle c.key).trap

/-- Memory outside one span is as it was. -/
def KeptOutside (s t : State) (sp : Space) (a n : Nat) : Prop :=
  ∀ sp' k, sp' ≠ sp ∨ k < a ∨ a + n ≤ k → t.mach.readByte sp' k = s.mach.readByte sp' k

/-- A job of a die's engine. -/
def IsJob (s : State) (die id : Nat) (j : NbrJob) : Prop := s.mach.jobDie id = some die ∧ s.mach.job? die id = some j

/-- The team of a job is resident and not killed; where byte `off` of the job block lies. -/
def BlockAt (s : State) (j : NbrJob) (off a : Nat) : Prop :=
  ∃ tm, s.mach.team? j.team = some tm ∧ tm.killed = false ∧ a = tm.phys (coreOfTeam j.team) (j.blk + off)

/-- The bytes of the records for one mailbag stage, filled up with filler records (R302). -/
def stageBytes (j : NbrJob) : List Byte :=
  ((j.recs.take (nbStgrec j.job)) ++ List.replicate (nbStgrec j.job - j.recs.length) fillerRecord).flatten

/-- The event that a finished job posts (R303). -/
def jobEvent (j : NbrJob) : Event := ⟨.ofNat 64 j.status, .ofNat 64 (j.count1.toNat + 2 ^ 32 * j.aux.toNat), srcWord 104 2⟩

/-- An active job that waits for no fault record and for no older access of its issuer (R295, R305). -/
def JobActive (s : State) (die id : Nat) (j : NbrJob) : Prop :=
  IsJob s die id j ∧ j.st = 1 ∧ j.fid = none ∧ ((laneList j.lanes).any fun l => s.mach.issuerBusy j.key l j.id) = false

/-- The check of a job's access of `n` bytes (R145, R295): its answer. -/
def jobCheck (s : State) (j : NbrJob) (va : W64) (n : Nat) (w : Bool) : Except Nat (List Piece) × Mach :=
  let g := s.mach.gridOfTeam j.team
  s.mach.check (s.mach.engineAgent j.team g.asid g.world 104) ⟨va, n, 1, !w, w, false, false, .local_, .denied 0x24⟩

/-- The job goes on with an answer; it has ended its work with an outcome, a value that the spec does not state being any; what steps of the
engine leave alone. -/
def Answered (t : State) (die id : Nat) (j : NbrJob) (b : List Byte) : Prop := t.mach.job? die id = some { j with got := j.got ++ [b] }
def JobEnds (t : State) (die id : Nat) (j : NbrJob) (o : NOut) (state cause : Nat) (fva : Option W64) : Prop :=
  ∃ c1 c2 fv cu, t.mach.job? die id = some { j with
      st := 2, state := state, cause := cause, aux := .ofNat 32 o.aux, recs := markLast j.recs
      count1 := c1, count2 := c2, faultVa := fv, cursor := cu } ∧
    (∀ n, o.count1 = some n → c1 = .ofNat 32 n) ∧ (∀ n, o.count2 = some n → c2 = .ofNat 32 n) ∧ (∀ v, fva = some v → fv = v) ∧
    (∀ n, o.cursor = some n → cu = .ofNat 64 n)
structure JobFrame (s t : State) : Prop where
  bundles : t.mach.bundles = s.mach.bundles
  ops : t.mach.ops = s.mach.ops
  runs : t.mach.runs = s.mach.runs
  grids : t.mach.grids = s.mach.grids
  copies : t.mach.copies = s.mach.copies
  sent : t.mach.sent = s.mach.sent
  scratch : t.mach.scratch = s.mach.scratch
  boot : t.boot = s.boot
  regions : ∀ k, (t.mach.die k).regions = (s.mach.die k).regions ∧ (t.mach.die k).marks = (s.mach.die k).marks

/-- A letter of the control core's LOCQ has left, with a postmark and a resend record of its own (R350). -/
def asks (m : Mach) (c : Ctx) (l : Letter) (va : W64) (seq : Nat) : Mach :=
  let l := { l with pm := postmark m.pkg c.die (c.core % 96) (m.core c.core).seq }
  { m.modCore c.core fun k => { k with seq := (k.seq + 1) % 2 ^ 40 } with
    sent := m.sent ++ [⟨l, .locq c.key seq, va, m.clk, m.clk, 0, false, false, none, c.g.asid, [(va.toNat, 16)]⟩]
    wire := m.wire ++ if l.tpkg.toNat = m.pkg then [⟨l, m.clk⟩] else []
    out := m.out ++ if l.tpkg.toNat = m.pkg then [] else [.letter l] }

/-- An event reaches an in-tray, or is counted as dropped while it is full (R340). -/
def noticed (e : Event) (k : Core) : Core :=
  if k.tray.length < 256 then { k with tray := k.tray ++ [e] } else { k with drops := if k.drops = BitVec.allOnes 32 then k.drops else k.drops + 1 }

/-- The control core of the issuer's core, and its registers once it is started (R334). -/
def startRegs (c : Ctx) : Regs :=
  { ((((Regs.reset.setS 0 (c.s (c.o.a.toNat + 1))).setS 1 (c.s (c.o.a.toNat + 2))).setS 2 (c.s (c.o.a.toNat + 3))).setS 3
      (c.s (c.o.a.toNat + 4))) with stepTag := c.b.regs.stepTag }

/-- The machine as EVPOST.start starts the control core at a program counter: its one thread in lane 0, its registers and its in-tray new, and what a
halted program still awaited given up. -/
def started (m : Mach) (c : Ctx) (pc : W64) : Mach :=
  let ck := c.core * 256 + 128
  let m' : Mach := { m with
    ops := m.ops.map fun x => if x.key = ck then { x with dest := .none } else x
    later := m.later.filter fun x => decide (x.key ≠ ck) }
  ((m'.setBundle ck (some { Bundle.start c.tk 0 with
    lanes := [(0, { Lane.none with st := .runnable, pc := pc, tidx := 0xFFFFFFFF })], outs := (m.bundle ck).outs, regs := startRegs c })).setRun
      (c.core * 8 + 4) none).modCore c.core fun k =>
    { k with tray := [], drops := 0, cst := 1, owner := c.tk, hcls := 0, hcause := 0, hpc := 0 }

/-- s[D] to s[D + 2] hold an event (R341). -/
def holdEvent (d : Nat) (e : Event) (r : Regs) : Regs := ((r.setS d e.lo).setS (d + 1) e.hi).setS (d + 2) e.src

/-- The descriptor bytes of a LOCQ: table base, LOG2N, PROBES and SEED (R349), and its first probe's address (R350). -/
def locLog (d : List Byte) : Nat := nfld (fieldAt d 8 8) 4 0
def locFirst (c : Ctx) (d : List Byte) : Nat := locHash ((c.s c.o.d.toNat).setWidth 32) (.ofNat 64 (fieldAt d 16 8)) (locLog d)
def locAddr (c : Ctx) (d : List Byte) : W64 :=
  .ofNat 64 (fieldAt d 0 8) + BitVec.ofNat 64 (16 * (locFirst c d % 2 ^ locLog d))

end Sys2Proof.Claims

/-- R291, R293, R304: NBIN, NPAIR and NPAIR.res check the job block, write 1 to its STATUS and put the job last in the die's queue, after the issuer's
own older accesses to the block (R173, R425); that the store of STATUS is the core's own and is not buffered in a deterministic team is the model's
reading (log 71). A block that is misaligned, out of the allocation or malformed traps, and 64 jobs hold the instruction. NSTAT reads a job's
STATUS, NSTAT.eng the engine's jobs, its active ones and whether leave is held, into s[D]. -/
def Obligations.NeighbourJobsAreQueued : Prop :=
  (∀ e ∈ [((.nbin : Opn → Instr), true, false), (.npair, false, false), (.npairRes, false, true)], ∀ o s r c, Issues (e.1 o) o s r c →
    let off := (c.s o.a.toNat).toNat
    let d := c.scratchRead s.mach (lowestLane c.grp) off 80
    let at_ := c.tm.phys c.core (off + 80)
    let waits := s.mach.mustWait c.key c.grp .scratch (c.tm.phys c.core off) 88
    (off % 128 ≠ 0 → TrapsWith (e.1 o) s c clsAlign 0x10) ∧
    (off % 128 = 0 → c.tm.alloc < off + 128 → TrapsWith (e.1 o) s c clsOperand 0x2C) ∧
    (off % 128 = 0 → off + 128 ≤ c.tm.alloc → waits = true → exec (e.1 o) s = .next s) ∧
    (off % 128 = 0 → off + 128 ≤ c.tm.alloc → waits = false →
      (nbBad c.tm e.2.1 d = true → TrapsWith (e.1 o) s c clsOperand 0x2C) ∧
      (nbBad c.tm e.2.1 d = false → 64 ≤ (s.mach.die c.die).jobs.length → exec (e.1 o) s = .next s) ∧
      (nbBad c.tm e.2.1 d = false → (s.mach.die c.die).jobs.length < 64 → Gives (e.1 o) s fun t =>
        Passes (s.but fun m => ((skipId m).writeNat .scratch at_ 8 1).modDie c.die fun k => { k with
          jobs := k.jobs ++ [newJob s.mach.nextOp c.tk c.key c.grp e.2.1 e.2.2 off d] }) t c ∧
        KeptOutside s t .scratch at_ 8 ∧ t.mach.readNat .scratch at_ 8 = 1))) ∧
  (∀ o s r c, Issues (.nstat o) o s r c →
    let off := (c.s o.a.toNat).toNat
    let waits := s.mach.mustWait c.key c.grp .scratch (c.tm.phys c.core (off + 80)) 8
    (off % 128 ≠ 0 → TrapsWith (.nstat o) s c clsAlign 0x10) ∧
    (off % 128 = 0 → c.tm.alloc < off + 128 → TrapsWith (.nstat o) s c clsOperand 0x2C) ∧
    (off % 128 = 0 → off + 128 ≤ c.tm.alloc → waits = true → exec (.nstat o) s = .next s) ∧
    (off % 128 = 0 → off + 128 ≤ c.tm.alloc → waits = false →
      WritesRegs (.nstat o) s c fun x => x.sset c.hand o.d.toNat (.ofNat 64 (leNat (c.scratchRead s.mach (lowestLane c.grp) (off + 80) 8))))) ∧
  (∀ o s r c, Issues (.nstatEng o) o s r c →
    let js := (s.mach.die c.die).jobs
    let n := js.length + 128 * (js.filter fun j => decide (j.st ≠ 0)).length
    let lv := (s.mach.team c.tk).leave
    (holdsLeave lv s.mach.clk → WritesRegs (.nstatEng o) s c fun x => x.sset c.hand o.d.toNat (.ofNat 64 (n + 1024))) ∧
    (¬ holdsLeave lv s.mach.clk → WritesRegs (.nstatEng o) s c fun x => x.sset c.hand o.d.toNat (.ofNat 64 n)))

/-- R291, R295 to R297, R300 to R303, R305: the oldest job that may start becomes active, of which there are four at most, and its STATUS becomes 2. An
active job makes one access of its work at a time: a read answers the bytes there, a write changes them and no others, and either waits on a fault
record where its page is not present, and ends the job with STATE 8 where a check fails or the resumption failed, and a read that meets an
uncorrectable error ends it with STATE 9. An NBIN clears VALID first; where its box is too small it ends with STATE 4 and the axes. An NPAIR
ends with STATE 11 where the grid's header is not that of a valid grid, and asks for leave where the team holds none. Records go to a stage that may
be claimed and that no parked group waits for, filled up with filler records. A finished job writes its results, STATUS last among them, arrives
at its arrival word, posts its event where it asks for one, and leaves the engine. -/
def Obligations.NeighbourJobsRun : Prop :=
  (∀ job err (s : State) die j, IsJob s die job j → j.st = 0 →
    let js := (s.mach.die die).jobs
    (4 ≤ (js.filter fun y => decide (y.st ≠ 0)).length → exec (.neighbourJobStart job err) s = .next s) ∧
    (∀ a, BlockAt s j 80 a → (js.filter fun y => decide (y.st ≠ 0)).length < 4 →
      js.find? (fun y => decide (y.st = 0) && !((js.takeWhile fun z => decide (z.id ≠ y.id)).any fun z => decide (nbGrid z.job = nbGrid y.job))) = some j →
      Gives (.neighbourJobStart job err) s fun t => t.mach.readNat .scratch a 8 = 2 ∧ KeptOutside s t .scratch a 8 ∧
        t = { s with mach := { s.mach with scratch := t.mach.scratch, dies := t.mach.dies } } ∧
        t.mach.job? die job = some { j with st := 1 } ∧ ∀ k, k ≠ die → t.mach.die k = s.mach.die k)) ∧
  (∀ job err (s : State) die j, JobActive s die job j → s.mach.bad = [] →
    let gives := fun (P : State → Prop) => Gives (.neighbourJobStart job err) s fun t => JobFrame s t ∧ P t
    let stops := fun (o : NOut) (va : W64) (n : Nat) (w : Bool) => ∀ e m, jobCheck s j va n w = (.error e, m) →
      (e = 0x03 → Gives (.neighbourJobStart job err) s fun t => t.mach.bundles = s.mach.bundles ∧
        t.mach.job? die job = some { j with fid := some s.mach.desk.fid.toNat, failVa := some va }) ∧
      (e ≠ 0x03 → gives fun t => JobEnds t die job j o 8 e (some va))
    (∀ o, j.prog.after j.got = .ends o → gives fun t => JobEnds t die job j o o.state o.cause o.faultVa ∧
      match o.last with
      | some (pa, b) => t.mach.readByte .dev pa = b ∧ KeptOutside s t .dev pa 1
      | none => MemoryKept s t) ∧
    (∀ q o k va, j.prog.after j.got = .ask q o k → j.failVa = some va → gives fun t => JobEnds t die job j o 8 0x03 (some va)) ∧
    (j.failVa = none →
      (∀ va n o k, j.prog.after j.got = .ask (.read va n) o k → stops o va n false ∧
        ∀ ps m, jobCheck s j va n false = (.ok ps, m) →
          (err = false → gives fun t => MemoryKept s t ∧
            Answered t die job j (ps.flatMap fun p => s.mach.readBytes p.space p.addr p.len)) ∧
          (err = true → Gives (.neighbourJobStart job err) s fun t => t.mach.bundles = s.mach.bundles ∧ JobEnds t die job j o 9 0x40 (some va))) ∧
      (∀ va bits o k, j.prog.after j.got = .ask (.keep va bits) o k → stops o va 1 true ∧
        ∀ p m, jobCheck s j va 1 true = (.ok [p], m) → p.space = .dev → gives fun t => Answered t die job j [] ∧
          t.mach.readByte .dev p.addr = s.mach.readByte .dev p.addr &&& bits ∧ KeptOutside s t .dev p.addr 1) ∧
      (∀ va bs o k, j.prog.after j.got = .ask (.write va bs) o k → stops o va bs.length true ∧
        ∀ p m, jobCheck s j va bs.length true = (.ok [p], m) → p.space = .dev → p.len = bs.length → gives fun t =>
          Answered t die job j (leBytes 8 p.addr) ∧ t.mach.readBytes .dev p.addr bs.length = bs ∧ KeptOutside s t .dev p.addr bs.length) ∧
      (∀ o k tm, j.prog.after j.got = .ask .leave o k → s.mach.team? j.team = some tm →
        (holdsLeave tm.leave s.mach.clk → gives fun t => MemoryKept s t ∧ Answered t die job j [] ∧
          t.mach.team? j.team = some { tm with leave := { tm.leave with since := s.mach.clk } }) ∧
        (¬ holdsLeave tm.leave s.mach.clk → gives fun t => MemoryKept s t ∧ t.mach.job? die job = some j ∧
          t.mach.team? j.team = some { tm with leave := leaveAsked tm.leave s.mach.clk })) ∧
      (∀ rec o k, j.prog.after j.got = .ask (.stage rec) o k →
        (nbStgrec j.job < j.recs.length → exec (.neighbourJobStart job err) s = .next s) ∧
        (j.recs.length ≤ nbStgrec j.job → gives fun t => MemoryKept s t ∧
          t.mach.job? die job = some { j with recs := j.recs ++ [rec], got := j.got ++ [[]] })))) ∧
  (∀ j : NbrJob, j.bin = true →
    (j.got = [] → ∃ o k, j.prog.after j.got = .ask (.keep (.ofNat 64 (nbGrid j.job)) 0xFE) o k) ∧
    (j.got.length = 1 → boxSmall j.job ≠ 0 → ∃ o, j.prog.after j.got = .ends o ∧ o.state = 4 ∧ o.aux = boxSmall j.job) ∧
    (j.got.length = 1 → boxSmall j.job = 0 → nbNp j.job ≠ 0 →
      ∃ o k, j.prog.after j.got = .ask (.read (.ofNat 64 (nbPos j.job)) 4) o k)) ∧
  (∀ j : NbrJob, j.bin = false → ∀ i ≤ 16, j.got.length = i → (∀ b ∈ j.got, b.length = 4) →
    (i < 16 → ∃ o k, j.prog.after j.got = .ask (.read (.ofNat 64 (nbGrid j.job) + .ofNat 64 (4 * i)) 4) o k) ∧
    (i = 16 → nfld (fieldAt j.got.flatten 0 8) 1 0 ≠ 1 → ∃ o, j.prog.after j.got = .ends o ∧ o.state = 11 ∧ o.count1 = some 0) ∧
    (i = 16 → nfld (fieldAt j.got.flatten 0 8) 1 0 = 1 → ∃ o k, j.prog.after j.got = .ask .leave o k)) ∧
  (∀ job (s : State) die j tm, IsJob s die job j → (j.st = 2 ∨ nbStgrec j.job < j.recs.length) → j.recs ≠ [] →
    s.mach.team? j.team = some tm → tm.killed = false →
    let b := tm.mail (nbMbid j.job)
    let a := tm.phys (coreOfTeam j.team) (nbOut j.job + 32 * nbStgrec j.job * (b.claim.toNat % b.stages))
    (b.canClaim = false ∨ s.mach.mailWaiters j.team (nbMbid j.job) true ≠ [] → exec (.npairStageFill job) s = .next s) ∧
    (b.canClaim = true → s.mach.mailWaiters j.team (nbMbid j.job) true = [] → b.fill ≠ b.claim + 1 →
      Gives (.npairStageFill job) s fun t =>
        t.mach.readBytes .scratch a (stageBytes j).length = stageBytes j ∧ KeptOutside s t .scratch a (stageBytes j).length ∧
        t.mach.team? j.team = some (tm.setMail (nbMbid j.job) { b with claim := b.claim + 1, fill := b.fill + 1 }) ∧
        t.mach.job? die job = some { j with recs := j.recs.drop (nbStgrec j.job) } ∧ t.mach.bundles = s.mach.bundles)) ∧
  (∀ job (s : State) die j a, IsJob s die job j → j.st = 2 → j.recs = [] → j.arrFid = none → nbArr j.job = false ∨ j.arrFail.isSome = true →
    BlockAt s j 0 a → Gives (.neighbourJobComplete job) s fun t =>
      t.mach.readNat .scratch (a + 80) 8 = j.status % 2 ^ 64 ∧ t.mach.readNat .scratch (a + 88) 4 = j.count1.toNat ∧
      t.mach.readNat .scratch (a + 92) 4 = j.aux.toNat ∧ t.mach.readNat .scratch (a + 96) 4 = j.count2.toNat ∧
      t.mach.readNat .scratch (a + 104) 8 = j.faultVa.toNat ∧ t.mach.readNat .scratch (a + 72) 8 = j.cursor.toNat ∧
      (∀ sp k, sp ≠ .scratch ∨ k < a + 72 ∨ (a + 100 ≤ k ∧ k < a + 104) ∨ a + 112 ≤ k → t.mach.readByte sp k = s.mach.readByte sp k) ∧
      t.mach.die die = { s.mach.die die with jobs := (s.mach.die die).jobs.filter fun y => decide (y.id ≠ job) } ∧
      t.mach.bundles = s.mach.bundles ∧
      (let k := s.mach.core (coreOfTeam j.team)
       t.mach.core (coreOfTeam j.team) = if nbEvp j.job = false then k
         else if k.tray.length < 256 then { k with tray := k.tray ++ [jobEvent j] }
         else { k with drops := if k.drops = BitVec.allOnes 32 then k.drops else k.drops + 1 })) ∧
  (∀ job (s : State) die j r m, IsJob s die job j → j.st = 2 → j.recs = [] → j.arrFid = none → nbArr j.job = true → j.arrFail = none →
    s.mach.bad = [] → (s.mach.team? j.team).isSome = true →
    let g := s.mach.gridOfTeam j.team
    s.mach.check (s.mach.engineAgent j.team g.asid g.world 104) ⟨nbArrAddr j.job, 8, 8, false, true, false, false, .local_, .denied 0x24⟩ = (r, m) →
    match r with
    | .ok ps => let pa := (onePiece ps).addr
      let x := s.mach.readNat .dev pa 8
      Gives (.neighbourJobComplete job) s fun t => t.mach.readNat .dev pa 4 = (x + 1) % 2 ^ 32 ∧
        t.mach.readNat .dev (pa + 4) 3 = x / 2 ^ 32 % 2 ^ 24 ∧
        (t.mach.readByte .dev (pa + 7)).getLsbD 0 = (x.testBit 56 || decide (x / 2 ^ 32 % 2 ^ 24 < x % 2 ^ 32 + 1)) ∧
        (∀ k, k < pa ∨ pa + 8 ≤ k → t.mach.readByte .dev k = s.mach.readByte .dev k) ∧ t.mach.job? die job = none
    | .error 0x03 => Gives (.neighbourJobComplete job) s fun t => t.mach.bundles = s.mach.bundles ∧
      t.mach.job? die job = some { j with arrFid := some s.mach.desk.fid.toNat }
    | .error e => Gives (.neighbourJobComplete job) s fun t => JobFrame s t ∧ MemoryKept s t ∧ t.mach.job? die job = some { j with arrFail := some e })

/-- R334, R341 to R343: EVGET takes the oldest event of the in-tray into s[D] to s[D + 2]; where there is none EVGET.poll writes zeros and EVGET parks, to be
woken with the next event. EVPOST appends an event, or answers an error word where the in-tray is full; UNIT of the control core's own posts is open
(log 21). EVPOST.start starts a control core that is not running, with an empty in-tray, and answers an error word for one that runs or an illegal
address; both are held while the bundle has older accesses. .stat, .hpc and .drop answer the status word, the program counter of a halt, and zero, .drop
clearing DROPS. -/
def Obligations.InTrayAndControl : Prop :=
  (∀ o s r c, Issues (.evget o) o s r c →
    match (s.mach.core c.core).tray with
    | e :: rest => Gives (.evget o) s fun t => OnlyRegs (s.but fun m => m.modCore c.core fun k => { k with tray := rest }) t c ∧
        StandsAt t c c.nextPc ∧ t.regs c.key = holdEvent o.d.toNat e (s.regs c.key)
    | [] => if o.fn = 1 then WritesRegs (.evget o) s c (holdEvent o.d.toNat ⟨0, 0, 0⟩)
      else Gives (.evget o) s fun t => Parks s t c (.event o.d.toNat)) ∧
  (∀ core (s : State) d seq sz, ((s.mach.bundle (core * 256 + 128)).lane 0).st = .wait (.event d) seq sz →
    match (s.mach.core core).tray with
    | e :: rest => Gives (.evgetWake core) s fun t => OthersKept s t (core * 256 + 128) ∧ MemoryKept s t ∧
        t.mach.core core = { s.mach.core core with tray := rest } ∧
        Woken (s.mach.bundle (core * 256 + 128)) (t.mach.bundle (core * 256 + 128)) seq false (holdEvent d e) ∧
        t = { s with mach := { s.mach with bundles := t.mach.bundles, cores := t.mach.cores } }
    | [] => exec (.evgetWake core) s = .next s) ∧
  (∀ o s r c, Issues (.evpost o) o s r c →
    let k := s.mach.core c.core
    (¬ Quiet s c → exec (.evpost o) s = .next s) ∧
    (Quiet s c → 256 ≤ k.tray.length → WritesRegs (.evpost o) s c fun x => x.sset c.hand o.d.toNat (.ofNat 64 (2 ^ 63 + 1))) ∧
    (Quiet s c → k.tray.length < 256 → ∃ unit < 256, (c.ctl = false → unit = c.key % 256) ∧ Gives (.evpost o) s fun t =>
      OnlyRegs (s.but fun m => { m.modCore c.core fun k => { k with
          tray := k.tray ++ [⟨c.s o.a.toNat, c.s (o.a.toNat + 1), .ofNat 64 (256 * unit + if c.ctl then 4 else 3)⟩] } with
        free := m.free + if c.ctl then 1 else 0 }) t c ∧
      StandsAt t c c.nextPc ∧ t.regs c.key = (s.regs c.key).sset c.hand o.d.toNat 0)) ∧
  (∀ o s r c, Issues (.evpostStart o) o s r c →
    let pc := c.s o.a.toNat
    (¬ Quiet s c → exec (.evpostStart o) s = .next s) ∧
    (Quiet s c → (s.mach.core c.core).cst = 1 → WritesRegs (.evpostStart o) s c fun x => x.sset c.hand o.d.toNat (.ofNat 64 (2 ^ 63 + 2))) ∧
    (Quiet s c → (s.mach.core c.core).cst ≠ 1 → canonical pc = false ∨ pc.toNat % 4 ≠ 0 →
      WritesRegs (.evpostStart o) s c fun x => x.sset c.hand o.d.toNat (.ofNat 64 (2 ^ 63 + 3))) ∧
    (Quiet s c → (s.mach.core c.core).cst ≠ 1 → canonical pc = true → pc.toNat % 4 = 0 → c.ctl = false →
      Sets (.evpostStart o) s c (started s.mach c pc) 0)) ∧
  (∀ o s r c, Issues (.evpostStat o) o s r c →
    let k := s.mach.core c.core
    WritesRegs (.evpostStat o) s c fun x => x.sset c.hand o.d.toNat
      (.ofNat 64 (k.drops.toNat * 2 ^ 32 + k.tray.length * 2 ^ 16 + k.hcause * 2 ^ 8 + k.hcls * 2 ^ 4 + k.cst))) ∧
  (∀ o s r c, Issues (.evpostHpc o) o s r c →
    WritesRegs (.evpostHpc o) s c fun x => x.sset c.hand o.d.toNat (if (s.mach.core c.core).cst = 2 then (s.mach.core c.core).hpc else 0)) ∧
  (∀ o s r c, Issues (.evpostDrop o) o s r c → Sets (.evpostDrop o) s c (s.mach.modCore c.core fun k => { k with drops := 0 }) 0)

/-- R345, R347, R348: TAPEF leaves four reads of 8 bytes outstanding, as LD's are, and the last of them to return writes the seven registers of the
entry. TDEC leaves one decrement outstanding, which, when it is performed, takes one from a counter that is not zero and returns the old word, posting a
notice where the counter comes to zero and asks for one, and returns the word with bit 63 set, changing nothing, where it is zero. TDISP writes four
registers to the stage that it claims and answers the claim's number, after the control core's own older accesses there, or answers an error word; the
stage is filled once every earlier claim is. -/
def Obligations.TapesAndDispatch : Prop :=
  (∀ o s r c p m, Issues (.tapef o) o s r c → PassOne c s ⟨c.sea, 32, 32, true, false, false, false, .local_, .allowed⟩ [p] m →
    let parts := (List.range 4).map fun k => let q := { p with addr := p.addr + 8 * k, len := 8 }
      part 0 q (c.sea + .ofNat 64 (8 * k)) (.read (c.ownBytes 0 q))
    let x : Op := { id := m.nextOp, key := c.key, acq := false, rel := false, serial := false, dest := .tape o.d.toNat, size := 32
                    win := [], parts := parts, counted := false, asid := c.g.asid }
    CachesOnly (c.leaveResume s.mach) m ∧
    (m.trackerFull c.core parts = true → exec (.tapef o) s = .next s) ∧
    (m.trackerFull c.core parts = false → Gives (.tapef o) s fun t => Passes (State.at s (addOp (skipId m) x)) t c ∧ Queued s t x)) ∧
  (∀ op unit fresh s x p own d b, s.mach.performable op unit = some (x, p) → p.kind = .read own → x.dest = .tape d → x.counted = false →
    s.mach.damaged p.space p.addr p.size = false → (∀ q ∈ x.parts, q.lane = 0) → s.mach.bundle? x.key = some b →
    let parts := withPart x unit p (.ofNat 64 (readValue s p own))
    let ws := tapeWords (leBytes 32 (laneValue parts 0))
    Gives (.loadDataReturn op unit fresh false) s fun t => MemoryKept s t ∧ PartFrame s t x 0 ∧
      (DieScope s x → t.mach.ops = opsAfter s x parts ∧ t.mach.early = []) ∧
      t.mach.bundle? x.key = some { b with
        regs := (if parts.all Part.done then (List.range 7).foldl (fun r k => r.setS (d + k) (ws.getD k 0)) b.regs else b.regs) }) ∧
  (∀ o s r c ps m, Issues (.tdec o) o s r c → PassOne c s ⟨c.sea, 8, 8, false, true, false, false, .local_, .denied 0x24⟩ ps m →
    let parts := [part 0 (onePiece ps) c.sea (.dec (c.core % 96))]
    let x : Op := { id := m.nextOp, key := c.key, acq := true, rel := true, serial := true, dest := .scalar o.d.toNat, size := 8
                    win := [], parts := parts, counted := true, asid := c.g.asid }
    CachesOnly (c.leaveResume s.mach) m ∧
    (m.trackerFull c.core parts = true ∨ c.counterFull 1 = true → exec (.tdec o) s = .next s) ∧
    (m.trackerFull c.core parts = false → c.counterFull 1 = false → Gives (.tdec o) s fun t =>
      Passes (State.at s (addOp (addOut m c.key 1) x)) t c ∧ Queued s t x)) ∧
  (∀ op unit s x p core b, s.mach.performable op unit = some (x, p) → p.kind = .dec core → ByLane x → Owned s x b → p.lane < 32 →
    s.mach.damaged p.space p.addr 8 = false → p.size = 8 →
    let old : W64 := .ofNat 64 (s.mach.readNat p.space p.addr 8)
    let done := fun (v : W64) (t : State) => let parts := withPart x unit p v
      (DieScope s x → t.mach.ops = opsAfter s x parts ∧ t.mach.early = []) ∧ ∃ b', t.mach.bundle? x.key = some b' ∧ AfterPart x p parts b b'
    let k := dieOfCore (coreOfKey x.key) * 96 + fld old 55 48
    let tells := fld old 31 0 = 1 ∧ bitAt old 47 = true ∧ fld old 55 48 ≤ 95
    if fld old 31 0 = 0 then
      Gives (.writePerformed op unit) s fun t => done (old ||| 0x8000000000000000#64) t ∧ MemoryKept s t ∧ PartFrame s t x 0
    else Gives (.writePerformed op unit) s fun t => done old t ∧ t.mach.readNat p.space p.addr 8 = old.toNat - 1 ∧
      KeptOutside s t p.space p.addr 8 ∧
      (tells → PartFrame (s.but fun m => m.modCore k (noticed ⟨p.va, old - 1, .ofNat 64 (256 * core + 5)⟩)) t x 0) ∧
      (¬ tells → PartFrame s t x 0)) ∧
  (∀ o s r c, Issues (.tdisp o) o s r c →
    let w := c.s o.b.toNat
    let answers := fun (n : Nat) => WritesRegs (.tdisp o) s c fun x => x.sset c.hand o.d.toNat (.ofNat 64 (2 ^ 63 + n))
    (fld w 63 35 ≠ 0 ∨ c.dispTarget s.mach = none → answers 2) ∧
    (∀ tk, fld w 63 35 = 0 → c.dispTarget s.mach = some tk →
      let t := s.mach.team tk
      let mb := fld w 34 32
      let b := t.mail mb
      let a := t.phys c.core (fld w 31 0 + 32 * (b.claim.toNat % b.stages))
      (b.stages = 0 → answers 3) ∧
      (b.stages ≠ 0 → t.alloc < fld w 31 0 + 32 * b.stages → answers 4) ∧
      (b.stages ≠ 0 → fld w 31 0 + 32 * b.stages ≤ t.alloc → c.g.world = false → (s.mach.gridOf t).world = true → answers 5) ∧
      (b.stages ≠ 0 → fld w 31 0 + 32 * b.stages ≤ t.alloc → c.g.world = true ∨ (s.mach.gridOf t).world = false →
        (b.canClaim = false → answers 1) ∧
        (b.canClaim = true → c.counterFull 1 = true ∨ s.mach.mustWait c.key c.grp .scratch a 32 = true → exec (.tdisp o) s = .next s) ∧
        (b.canClaim = true → c.counterFull 1 = false → s.mach.mustWait c.key c.grp .scratch a 32 = false → s.mach.team? tk = some t →
          Gives (.tdisp o) s fun t' =>
            OnlyRegs (s.but fun m => ((addOut m c.key 1).writeBytes .scratch a
              ((List.range 4).flatMap fun k => leBytes 8 (c.s (o.a.toNat + k)).toNat)).modTeam tk fun t =>
                { t.setMail mb { b with claim := b.claim + 1 } with disp := t.disp ++ [⟨mb, b.claim.toNat, c.key, s.mach.nextOp⟩] }) t' c ∧
            StandsAt t' c c.nextPc ∧ t'.regs c.key = (s.regs c.key).sset c.hand o.d.toNat (.ofNat 64 b.claim.toNat) ∧
            KeptOutside s t' .scratch a 32 ∧ ∀ k < 4, t'.mach.readNat .scratch (a + 8 * k) 8 = (c.s (o.a.toNat + k)).toNat)))) ∧
  (∀ tk mb (s : State) t d, s.mach.team? tk = some t → t.killed = false → t.disp.find? (fun d => decide (d.mb = mb)) = some d →
    let b := t.mail mb
    let early := 2 ^ 31 ≤ (b.fill - BitVec.ofNat 32 d.n).toNat
    (early ∨ s.mach.issuerBusy d.key 0 d.out = true → exec (.tdispFill tk mb) s = .next s) ∧
    (¬ early → s.mach.issuerBusy d.key 0 d.out = false → Resident s d.key d.out → b.stages ≠ 0 → b.fill ≠ b.claim →
      Gives (.tdispFill tk mb) s fun t' => t' = { s with mach := { s.mach with teams := t'.mach.teams, bundles := t'.mach.bundles } } ∧
        OthersKept s t' d.key ∧ t'.mach.bundle? d.key = (s.mach.bundle? d.key).map (fun b => completed b d.out) ∧
        t'.mach.team? tk = some { t.setMail mb { b with fill := b.fill + 1 } with disp := t.disp.filter fun x => decide (x ≠ d) } ∧
        ∀ k, k ≠ tk → t'.mach.team? k = s.mach.team? k))

/-- R349 to R351: LOCQ waits for the control core's older accesses. It answers status 4 for a malformed descriptor, with LOC open; a location that the core has
cached for the descriptor and the key comes with status 0; otherwise the first entry that the hash names, where it is of this die, ends the search when it
is invalid, with status 2, or holds the key, with its location and status 1, the location then being cached (which entry a full cache gives up is open),
or, with PROBES 1, when it holds another; an entry that a check forbids ends it with status 3 and the cause; where the entry is of another home, one
request asks for it and LOCQ parks. LOCQ.inv empties the core's cache once the control core's acquires are performed. -/
def Obligations.LocationsAreFound : Prop :=
  (∀ o s r c ps m, Issues (.locq o) o s r c → PassOne c s ⟨c.sea, 32, 32, true, false, false, false, .local_, .allowed⟩ ps m →
    let busy := s.mach.threadBusy c.key c.grp .dev || s.mach.threadBusy c.key c.grp .scratch
    let d := c.readOwn s.mach 0 ps
    let key : W32 := (c.s o.d.toNat).setWidth 32
    let desc := descKey (onePiece ps)
    let hit := (s.mach.core c.core).loc.find? fun y => decide (y.1 = desc ∧ y.2.1 = key.toNat)
    let writes := fun (m : Mach) (x y : W64) => Gives (.locq o) s fun t => OnlyRegs (State.at s m) t c ∧ StandsAt t c c.nextPc ∧
      t.regs c.key = ((s.regs c.key).setS o.d.toNat x).setS (o.d.toNat + 1) y
    CachesOnly (c.leaveResume s.mach) m ∧
    (busy = true → exec (.locq o) s = .next s) ∧
    (busy = false → locBad d = true → ∃ x, writes { m with free := m.free + 1 } x 4) ∧
    (∀ y, busy = false → locBad d = false → hit = some y → writes m y.2.2 0) ∧
    (∀ r m', busy = false → locBad d = false → hit = none →
      (skipId m).check c.agent ⟨locAddr c d, 16, 16, true, false, false, false, .letter, .denied 0x24⟩ = (r, m') →
      CachesOnly (skipId m) m' ∧
      (∀ e, r = .error e → writes m' 0 (.ofNat 64 (3 + 256 * e))) ∧
      (∀ qs, r = .ok qs →
        let p := onePiece qs
        let lo := s.mach.read64 .dev p.addr
        let loc := s.mach.read64 .dev (p.addr + 8)
        let near := p.pkg = none ∧ homeDie p.addr = c.die
        (near → bitAt lo 32 = false → writes m' 0 2) ∧
        (near → bitAt lo 32 = true → lo.setWidth 32 ≠ key → nfld (fieldAt d 8 8) 12 8 = 1 → writes m' 0 2) ∧
        (near → bitAt lo 32 = true → lo.setWidth 32 = key →
          ((s.mach.core c.core).loc.length < 1024 →
            writes (m'.modCore c.core fun k => { k with loc := (desc, key.toNat, loc) :: k.loc }) loc 1) ∧
          (1024 ≤ (s.mach.core c.core).loc.length → ∃ y ∈ (s.mach.core c.core).loc,
            writes ({ m' with free := m'.free + 1 }.modCore c.core fun k =>
              { k with loc := (desc, key.toNat, loc) :: k.loc.filter fun z => decide (z ≠ y) }) loc 1)) ∧
        (¬ near → NoneOwed s → FreshMarks s c 1 → Gives (.locq o) s fun t =>
          Parks (State.at s { asks m' c (aimLetter { blankLetter with op := 9, sz := 4, world := c.g.world, step := c.b.regs.stepTag } s.mach.pkg p)
              (locAddr c d) s.mach.nextOp with nextOp := s.mach.nextOp })
            t c (.locq o.d.toNat desc key (.ofNat 64 (fieldAt d 0 8)) (locLog d) (nfld (fieldAt d 8 8) 12 8) (locFirst c d) 0))))) ∧
  (∀ o s r c, Issues (.locqInv o) o s r c →
    let waits := s.mach.ops.any fun x => decide (x.key = c.key) && x.acq
    (waits = true → exec (.locqInv o) s = .next s) ∧
    (waits = false → Gives (.locqInv o) s fun t => Passes (s.but fun m => m.modCore c.core fun k => { k with loc := [] }) t c))

namespace Sys2Proof.Claims

/-! ## Collectives (R353 to R370) -/

/-- The group and the sequence number that s[A] names (R366). -/
def clGroup (c : Ctx) : Nat := fld (c.s c.o.a.toNat) 31 0
def clSeq (c : Ctx) : W32 := .ofNat 32 (fld (c.s c.o.a.toNat) 63 32)

/-- A group answers with no group (R367). -/
def noGroup (g : Group) (k : Nat) (secure : Bool) : Prop := 1023 < k ∨ bitAt g.gctl 63 = false ∨ (secure = false ∧ bitAt g.gctl 62 = true)

/-- SEQ lies within CUR - 16 to CUR + 3 (R367). -/
def nearCur (g : Group) (seq : W32) : Prop := (seq - g.cur + 16).toNat < 20

/-- A group entry after an abort of a sequence number (R364). -/
def abortedGroup (g : Group) (seq : W32) : Group :=
  { g with last := seq, av := true, aborts := if g.aborts = BitVec.allOnes 32 then g.aborts else g.aborts + 1
           cur := if (seq - g.cur).toNat < 4 then seq + 1 else g.cur }

/-- An instance is aborted here for the first time, and no operation waits for it yet. -/
def Fresh (s : State) (group : Nat) (seq : W32) : Prop := ∀ x, s.mach.inst? group seq = some x → x.st ≠ 4 ∧ x.ops = []

/-- The instance is ABORTED with a cause, held while answers are awaited and while CLSTAT reports it; the abort has gone to every tree neighbour but
`src`, and is answered at once where there is none. -/
def Aborted (s t : State) (group : Nat) (seq : W32) (cause : Nat) (src : Option Nat) : Prop :=
  let peer := (s.mach.group group).tree.filter fun p => decide (some p ≠ src)
  (peer ≠ [] ∨ nearCur (s.mach.group group) seq →
      ∃ x, t.mach.inst? group seq = some x ∧ x.st = 4 ∧ x.cause = cause ∧ x.chunks = [] ∧ x.early = [] ∧ x.awaiting = peer) ∧
    t.mach.group group = abortedGroup (s.mach.group group) seq ∧
    (∀ k, k ≠ group → t.mach.group k = s.mach.group k) ∧
    t.mach.out = s.mach.out ++ peer.map (fun p => Sending.abort p group seq cause)
      ++ (match peer, src with | [], some p => [Sending.answer p group seq] | _, _ => []) ∧ MemoryKept s t

/-- An event aborts an instance. -/
def Aborts (i : Instr) (s : State) (group : Nat) (seq : W32) (cause : Nat) : Prop := Gives i s fun t => Aborted s t group seq cause none

/-- A port carries a chunk of an instance: one that has fired on it, or one whose number takes it among the ports of the group (R357, R363). -/
def carries (s : State) (x : Inst) (port : Nat) : Prop :=
  let ps := (s.mach.group x.group).ports
  (∃ c ∈ x.chunks, c.port = port) ∨ (ps ≠ [] ∧ ∃ k < x.nchunk, ps.getD (k % ps.length) 0 = port)

/-- An instance's abort is still held after further aborts of its group. -/
def staysHeld (s : State) (x : Inst) : Prop :=
  (s.mach.group x.group).tree ≠ [] ∨ (nearCur (s.mach.group x.group) x.seq ∧ ∀ y ∈ s.mach.insts, y.group = x.group → y.seq = x.seq)

/-- The total order of IEEE 754 on encodings of w bits, as an integer (R359). -/
def totalOrder (w x : Nat) : Int := if x < 2 ^ (w - 1) then x else 2 ^ (w - 1) - 1 - x

/-- Combine on one element (R359): the exact sum, held at the nearer bound where it leaves the range, or the lesser or greater encoding. -/
def ringCombine (b : Nat) (x y : W64) : W64 :=
  let k := fun (v : W64) => totalOrder (sfmt b).width (v.toNat % 2 ^ (sfmt b).width)
  match nfld b 33 32 with
  | 0 => .ofInt 64 (max (-2 ^ 63) (min (2 ^ 63 - 1) (x.toInt + y.toInt)))
  | 1 => if k y < k x then y else x
  | _ => if k x < k y then y else x

/-- Some sum of two segments leaves the range (R62, R360). -/
def ringSaturates (b : Nat) (xs ys : List W64) : Prop :=
  nfld b 33 32 = 0 ∧ ∃ z ∈ xs.zip ys, z.1.toInt + z.2.toInt < -2 ^ 63 ∨ 2 ^ 63 - 1 < z.1.toInt + z.2.toInt

/-- What is written for an element (R360): N as held for OFMT 10, a minimum or maximum unchanged, the canonical NaN where the segment is marked, else N times
2^E rounded once. -/
def ringOut (b : Nat) (marks : BitVec 4) (v : W64) : Nat :=
  if nfld b 37 36 = 2 then v.toNat
  else if nfld b 33 32 ≠ 0 then v.toNat
  else if marks ≠ 0 then (ofmt b).nanBits
  else ((ofmt b).deliver 0 false (valOfInt false v.toInt (sval 9 (nfld b 46 38)))).1

/-- A segment of a chunk whose destination is one span from `a` on stands in memory, and nothing else has changed (R360, R361). -/
def SegmentWritten (s t : State) (x : Inst) (nmem seg a : Nat) (marks : BitVec 4) (vals : List W64) : Prop :=
  let k0 := seg * x.n / nmem
  let sz := dstSize x.bind
  (∀ i < vals.length, t.mach.readNat .dev (a + (k0 + i) * sz) sz = ringOut x.bind marks (vals.getD i 0) % 256 ^ sz) ∧
    KeptOutside s t .dev (a + k0 * sz) (vals.length * sz)

end Sys2Proof.Claims

/-- R366 to R369: CLSTAT writes the status word of an instance; of a finished one that this package never ran, marks and chunks are open (log 72). CLABORT
answers an error word for no group or a sequence number that is not near, and otherwise 0, the instance being aborted with cause 0x53 and one collective
operation counted until every tree neighbour has answered; with the counter full it is held. CLSTEP sets the bundle's step tag, and
raises OPERAND for a value of more than 16 bits (its cause is the model's reading, log 54); CLSTEP.rd reads it. -/
def Obligations.CollectiveInstructions : Prop :=
  (∀ o s r c, Issues (.clstat o) o s r c →
    let g := s.mach.group (clGroup c)
    let reads := fun (w : W64) => WritesRegs (.clstat o) s c fun x => x.sset c.hand o.d.toNat w
    (noGroup g (clGroup c) c.g.world → reads (.ofNat 64 (5 * 2 ^ 61))) ∧
    (¬ noGroup g (clGroup c) c.g.world → ¬ nearCur g (clSeq c) → reads 0) ∧
    (¬ noGroup g (clGroup c) c.g.world → nearCur g (clSeq c) →
      (∀ x, s.mach.inst? (clGroup c) (clSeq c) = some x →
        reads (.ofNat 64 (x.st * 2 ^ 61 + x.cause * 2 ^ 48 + x.marks.toNat * 2 ^ 44 + x.written))) ∧
      (s.mach.inst? (clGroup c) (clSeq c) = none → (clSeq c - g.cur).toNat < 4 → reads (.ofNat 64 (2 ^ 61))) ∧
      (s.mach.inst? (clGroup c) (clSeq c) = none → 4 ≤ (clSeq c - g.cur).toNat →
        ∃ marks < 16, ∃ n < 2 ^ 32,
          Sets (.clstat o) s c { s.mach with free := s.mach.free + 1 } (.ofNat 64 (3 * 2 ^ 61 + marks * 2 ^ 44 + n))))) ∧
  (∀ o s r c, Issues (.clabort o) o s r c →
    let g := s.mach.group (clGroup c)
    (noGroup g (clGroup c) c.g.world → WritesRegs (.clabort o) s c fun x => x.sset c.hand o.d.toNat (.ofNat 64 (2 ^ 63 + 1))) ∧
    (¬ noGroup g (clGroup c) c.g.world → ¬ nearCur g (clSeq c) →
      WritesRegs (.clabort o) s c fun x => x.sset c.hand o.d.toNat (.ofNat 64 (2 ^ 63 + 2))) ∧
    (¬ noGroup g (clGroup c) c.g.world → nearCur g (clSeq c) → c.counterFull 5 = true → exec (.clabort o) s = .next s) ∧
    (¬ noGroup g (clGroup c) c.g.world → nearCur g (clSeq c) → c.counterFull 5 = false → Fresh s (clGroup c) (clSeq c) →
      Gives (.clabort o) s fun t => GoesOn s t c ((s.regs c.key).sset c.hand o.d.toNat 0) ∧ t.mach.teams = s.mach.teams ∧
        Aborted s t (clGroup c) (clSeq c) 0x53 none ∧
        (t.mach.bundle c.key).outs =
          let outs := (s.mach.bundle c.key).outs ++ [⟨s.mach.nextOp, 5, false⟩]
          if g.tree = [] then finishOut s.mach.nextOp outs else outs)) ∧
  (∀ o s r c, Issues (.clstep o) o s r c →
    (2 ^ 16 ≤ (c.s o.a.toNat).toNat → TrapsWith (.clstep o) s c clsOperand 0x63) ∧
    ((c.s o.a.toNat).toNat < 2 ^ 16 → WritesRegs (.clstep o) s c fun x => { x with stepTag := (c.s o.a.toNat).setWidth 16 })) ∧
  (∀ o s r c, Issues (.clstepRd o) o s r c →
    WritesRegs (.clstepRd o) s c fun x => x.sset c.hand o.d.toNat (x.stepTag.setWidth 64))

/-- R354, R357 to R364, R370: a chunk that is due is discarded for a stale sequence number (one that is aborted counts as stale, the model's reading, as
for segments of old sequences and invalid groups: log 76), held while it may not run, asks for leave, and with leave reads its source and sends segment
RANK to the next member; a source, destination or arrival word that may not be reached aborts the instance. A segment of another ring or a fenced
package has no effect, one that comes before its chunk
fires is kept, one that its chunk does not await aborts the instance, and one that it awaits is acknowledged, combined element by element with the
chunk's own, or taken as it is, and sent on; a complete one is written. A segment awaited too long, the loss of a link that carries the instance,
HOLD and the abort of a neighbour abort instances; the answers of the neighbours and the acknowledgements of the ring's traffic are counted off. -/
def Obligations.CollectivesRun : Prop :=
  (∀ gk chunk (s : State) g d, s.mach.grid? gk = some g → g.due.find? (fun d => decide (d.chunk = chunk)) = some d →
    let group := g.binding.1
    let seq := g.binding.2
    let gr := s.mach.group group
    let b := (g.coll.getD 3 0).toNat
    let n := 64 * nfld b 31 16
    let stale := 4 ≤ (seq - gr.cur).toNat ∨ ∃ x, s.mach.inst? group seq = some x ∧ x.st = 4
    (stale → Gives (.chunkFire gk chunk) s fun t =>
      t.mach.grid? gk = some { g with due := g.due.filter fun d => decide (d.chunk ≠ chunk) } ∧
      t.mach.group group = { gr with stale := if gr.stale = BitVec.allOnes 32 then gr.stale else gr.stale + 1 } ∧
      t = { s with mach := { s.mach with grids := t.mach.grids, groups := t.mach.groups } }) ∧
    (¬ stale → bitAt gr.gctl 61 = true ∨ seq ≠ gr.cur → exec (.chunkFire gk chunk) s = .next s) ∧
    (∀ e m, ¬ stale → bitAt gr.gctl 61 = false → seq = gr.cur → s.mach.bad = [] → Fresh s group seq →
      s.mach.chunkSpans g chunk = (.error e, m) → Aborts (.chunkFire gk chunk) s group seq e) ∧
    (∀ src dst arr m, ¬ stale → bitAt gr.gctl 61 = false → seq = gr.cur → s.mach.bad = [] → s.mach.chunkSpans g chunk = (.ok (src, dst, arr), m) →
      (d.leave.st = 0 → Gives (.chunkFire gk chunk) s fun t => MemoryKept s t ∧ t.mach.bundles = s.mach.bundles ∧ t.mach.out = s.mach.out ∧
        t.mach.grid? gk = some { g with due := g.due.map fun d =>
          if d.chunk = chunk then { d with leave := ⟨1, s.mach.clk, false⟩, die := homeDie ((src.headD (0, 0)).1) } else d }) ∧
      (d.leave.st = 1 → exec (.chunkFire gk chunk) s = .next s) ∧
      (d.leave.st = 2 → 2 ≤ fld gr.gctl 14 0 →
        (∀ x, s.mach.inst? group seq = some x → ∀ e ∈ x.early, e.chunk ≠ chunk ∧ e.chunk < g.chunkShape.2.1) →
        Gives (.chunkFire gk chunk) s fun t => MemoryKept s t ∧ t.mach.bundles = s.mach.bundles ∧
          t.mach.grid? gk = some { g with due := g.due.filter fun d => decide (d.chunk ≠ chunk) } ∧
          ∃ e, t.mach.out = s.mach.out ++ [.segment (fld gr.gring 13 0) e] ∧ e.group = group ∧ e.seq = seq ∧ e.chunk = chunk ∧
            e.seg = fld gr.gctl 29 16 ∧ e.nmem = fld gr.gctl 14 0 ∧ e.complete = false ∧
            let k0 := e.seg * n / e.nmem
            e.vals = ((List.range n).drop k0 |>.take ((e.seg + 1) * n / e.nmem - k0)).map fun k =>
              (placeElem b (s.mach.readNat .dev (pieceAddr src (k * srcSize b)) (srcSize b)) (m.free + k)).1))) ∧
  (∀ b x k, nfld b 33 32 ≠ 0 → placeElem b x k = (.ofNat 64 x, 0)) ∧
  (∀ b x k q, nfld b 33 32 = 0 → placeOn 64 ((sfmt b).decode x) 0 (sval 9 (nfld b 46 38)) = .num q → placeElem b x k = (.ofInt 64 q, 0)) ∧
  (∀ e (s : State), let g := s.mach.group e.group
    (bitAt g.gctl 63 = false ∨ bitAt g.gctl 61 = true ∨ s.mach.fenced (fld g.gring 29 16) = true ∨
      (4 ≤ (e.seq - g.cur).toNat ∧ ∀ x, s.mach.inst? e.group e.seq = some x → x.st ≠ 2) ∨
      (∃ x, s.mach.inst? e.group e.seq = some x ∧ 3 ≤ x.st) → exec (.segmentReceive e) s = .next s) ∧
    (∀ x, bitAt g.gctl 63 = true → bitAt g.gctl 61 = false → s.mach.fenced (fld g.gring 29 16) = false →
      (e.seq - g.cur).toNat < 4 ∨ x.st = 2 → s.mach.inst? e.group e.seq = some x → x.st < 3 →
      (x.chunks.find? (fun c => decide (c.idx = e.chunk)) = none → x.st ≠ 2 ∨ e.chunk < x.nchunk → Gives (.segmentReceive e) s fun t =>
        t.mach.inst? e.group e.seq = some { x with early := x.early ++ [e] } ∧ t = { s with mach := { s.mach with insts := t.mach.insts } }) ∧
      (x.chunks.find? (fun c => decide (c.idx = e.chunk)) = none → x.st = 2 → x.nchunk ≤ e.chunk → x.ops = [] →
        Aborts (.segmentReceive e) s e.group e.seq 0x52) ∧
      (∀ c, x.chunks.find? (fun c => decide (c.idx = e.chunk)) = some c →
        let n := fld g.gctl 14 0
        let own := c.segVals x.n n e.seg
        let awaited := e.nmem = n ∧ e.nchunk = x.nchunk ∧ (e.seg, e.complete) = c.expects (fld g.gctl 29 16) n ∧ e.vals.length = own.length
        let vals := if e.complete then e.vals else (e.vals.zip own).map fun y => ringCombine x.bind y.1 y.2
        let sends := fun (t : State) (whole : Bool) => ∃ f, f.group = e.group ∧ f.seq = e.seq ∧ f.chunk = e.chunk ∧ f.seg = e.seg ∧
          f.nmem = n ∧ f.nchunk = x.nchunk ∧ f.complete = whole ∧ f.vals = vals ∧
          (e.seg < c.marks.length → (e.complete = true → f.marks = e.marks) ∧
            (e.complete = false → ringSaturates x.bind e.vals own → f.marks = e.marks ||| c.marks.getD e.seg 0 ||| 1) ∧
            (e.complete = false → ¬ ringSaturates x.bind e.vals own → f.marks = e.marks ||| c.marks.getD e.seg 0)) ∧
          t.mach.out = s.mach.out ++ [.ringAck (fld g.gring 29 16) e.group e.seq, .segment (fld g.gring 13 0) f]
        (¬ awaited → x.ops = [] → nearCur g e.seq → Gives (.segmentReceive e) s fun t =>
          ∃ y, t.mach.inst? e.group e.seq = some y ∧ y.st = 4 ∧ y.cause = 0x52 ∧ MemoryKept s t) ∧
        (awaited → c.rx + 2 < n → Gives (.segmentReceive e) s fun t => MemoryKept s t ∧ t.mach.bundles = s.mach.bundles ∧ sends t false) ∧
        (∀ a len, awaited → n ≤ c.rx + 2 → c.rx + 1 < 2 * (n - 1) → c.dst = [(a, len)] → e.seg < c.marks.length →
          (e.seg * x.n / n + vals.length) * dstSize x.bind ≤ len → Gives (.segmentReceive e) s fun t => t.mach.bundles = s.mach.bundles ∧
            sends t true ∧ ∃ f, t.mach.out.getLast? = some (.segment (fld g.gring 13 0) f) ∧ SegmentWritten s t x n e.seg a f.marks vals) ∧
        (∀ a len, awaited → n ≤ c.rx + 2 → c.rx + 1 = 2 * (n - 1) → c.dst = [(a, len)] → c.arr = none → x.unacked ≠ 0 →
          e.seg < c.marks.length → (e.seg * x.n / n + vals.length) * dstSize x.bind ≤ len → Gives (.segmentReceive e) s fun t =>
            t.mach.bundles = s.mach.bundles ∧ t.mach.out = s.mach.out ++ [.ringAck (fld g.gring 29 16) e.group e.seq] ∧
            SegmentWritten s t x n e.seg a e.marks vals ∧
            ∃ y, t.mach.inst? e.group e.seq = some y ∧ y.written = x.written + 1 ∧ y.st = x.st ∧
              y.chunks = x.chunks.filter fun d => decide (d.idx ≠ e.chunk))))) ∧
  (∀ group seq chunk (s : State) x c, s.mach.inst? group (.ofNat 32 seq) = some x → x.ops = [] → x.st = 2 → c ∈ x.chunks → c.idx = chunk →
    c.rx < 2 * ((s.mach.group group).nmem - 1) → c.since + (s.mach.group group).timeout < s.mach.clk →
    Aborts (.segmentTimeout group seq chunk) s group (.ofNat 32 seq) 0x50) ∧
  (∀ port (s : State), (∀ x, s.mach.inst? x.group x.seq = some x → x.st = 2 → carries s x port → staysHeld s x →
      Gives (.linkLoss port) s fun t => ∃ y, t.mach.inst? x.group x.seq = some y ∧ y.st = 4 ∧ y.cause = 0x51) ∧
    ((∀ x ∈ s.mach.insts, x.st = 2 → ¬ carries s x port) → exec (.linkLoss port) s = .next s)) ∧
  (∀ group (s : State), s.boot.state = 3 → group < 1024 →
    (Gives (.groupHold group) s fun t => bitAt (t.mach.group group).gctl 61 = true ∧
      ∀ x, s.mach.inst? x.group x.seq = some x → x.group = group → x.st = 2 → staysHeld s x →
        ∃ y, t.mach.inst? x.group x.seq = some y ∧ y.st = 4 ∧ y.cause = 0x55) ∧
    (Gives (.groupHoldClear group) s fun t =>
      t.mach.group group = { s.mach.group group with gctl := (s.mach.group group).gctl &&& ~~~(1#64 <<< 61) } ∧
      (∀ k, k ≠ group → t.mach.group k = s.mach.group k) ∧ t = { s with mach := { s.mach with groups := t.mach.groups } })) ∧
  (∀ group seq cause src (s : State), let g := s.mach.group group
    (s.mach.fenced src = true ∨ bitAt g.gctl 63 = false → exec (.abortReceive group seq cause src) s = .next s) ∧
    (s.mach.fenced src = false → bitAt g.gctl 63 = true → Fresh s group (.ofNat 32 seq) → Gives (.abortReceive group seq cause src) s fun t =>
      Aborted s t group (.ofNat 32 seq) cause (some src)) ∧
    (s.mach.fenced src = false → bitAt g.gctl 63 = true → (∃ x, s.mach.inst? group (.ofNat 32 seq) = some x ∧ x.st = 4) →
      exec (.abortReceive group seq cause src) s =
        .next { s with mach := { s.mach with out := s.mach.out ++ [.answer src group (.ofNat 32 seq)] } })) ∧
  (∀ group seq src (s : State) x, s.mach.inst? group (.ofNat 32 seq) = some x →
    (x.awaiting.contains src = false → exec (.abortAnswer group seq src) s = .next s) ∧
    (x.awaiting.contains src = true → x.ops.Nodup → (∀ y ∈ x.ops, Resident s y.1 y.2) → Gives (.abortAnswer group seq src) s fun t => MemoryKept s t ∧
      ∃ y, t.mach.inst? group (.ofNat 32 seq) = some y ∧ y.st = x.st ∧ y.awaiting = x.awaiting.filter (fun p => decide (p ≠ src)) ∧
        (y.awaiting ≠ [] → t.mach.bundles = s.mach.bundles ∧ t.mach.out = s.mach.out) ∧
        (y.awaiting = [] → y.ops = [] ∧ y.answer = none ∧
          t.mach.out = s.mach.out ++ (x.answer.map fun p => Sending.answer p group (.ofNat 32 seq)).toList))) ∧
  (∀ group seq (s : State) x, s.mach.inst? group (.ofNat 32 seq) = some x →
    Gives (.ringTrafficAcknowledgement group seq) s fun t => t = { s with mach := { s.mach with insts := t.mach.insts, groups := t.mach.groups } } ∧
      let cur := (s.mach.group group).cur
      let done := x.st = 2 ∧ x.written = x.nchunk ∧ x.unacked ≤ 1
      (done → t.mach.group group = { s.mach.group group with cur := cur + 1 } ∧
        ((cur - .ofNat 32 seq).toNat < 16 → t.mach.inst? group (.ofNat 32 seq) = some { x with unacked := 0, st := 3 })) ∧
      (¬ done → t.mach.inst? group (.ofNat 32 seq) = some { x with unacked := x.unacked - 1 } ∧ t.mach.groups = s.mach.groups))

namespace Sys2Proof.Claims

/-! ## Grids, teams, regrouping, eviction (R94 to R97, R306 to R318, R384 to R394) -/

/-- The thread that holds TIDX 0, which LAUNCH acts for (R313). -/
def launchLead (c : Ctx) : Option Nat := (laneList c.grp).find? fun l => decide ((c.b.lane l).tidx = 0)

/-- Where a record launched by a thread comes from (R313, R314). -/
def launchOrigin (c : Ctx) (ps : List Piece) : Origination :=
  let p := ps.getLastD (onePiece ps)
  ⟨if bitAt c.o.mods 3 then fld c.o.mods 2 0 else c.g.pri, c.g.world, 2 ^ c.die, c.g.depth + 1, some c.tm.grid,
    if p.space = .scratch then none else some (p.space, p.addr + p.len - 8)⟩

/-- A 16-bit report word stands where a record asks for it (R312): state and cause. -/
def Reported (t : State) (home : Option (Space × Nat)) (state cause : Nat) : Prop :=
  ∀ pa, home = some (.dev, pa) → t.mach.readNat .dev pa 2 = state + 256 * cause

/-- Where a record of a launch queue comes from (R309). -/
def queueOrigin (q : Queue) : Origination := ⟨fld q.ctl 10 8, bitAt q.ctl 17, 15, 1, none, some (qspace q.host, q.slot + 504)⟩

/-- A run of scratchpad slots that no team of a core holds (R155). -/
def runFree (m : Mach) (core n a : Nat) : Prop := a + n ≤ 768 ∧ ∀ p ∈ m.teamsOn core, ¬ (p.2.scr < a + n ∧ a < p.2.scr + p.2.nscr)

/-- A core has room for a team of a grid (R15, R307, R315, R316, R318): a die of DIEMASK and the grid's world, no evicted work of this priority or a
higher one on the die, in each quadrant slots and granules for its bundles, a run of scratchpad slots, tiles, and a team slot. -/
structure Room (m : Mach) (g : Grid) (core : Nat) : Prop where
  die : g.diemask.testBit (core / 96) = true
  world : (m.core core).world = g.world
  evicted : ∀ f ∈ m.frames, f.die = core / 96 → f.sid = none → ((m.grid? f.grid).getD Grid.none).pri < g.pri
  quadrants : ∀ q < 4, let n := ((List.range ((g.threads + 31) / 32)).filter fun b => decide (b % 4 = q)).length
    n = 0 ∨ (n ≤ ((List.range 32).filter fun i => (m.bundle? (core * 256 + (32 * q + i))).isNone).length ∧
      m.usedGranules core q + n * (g.regs / 16) ≤ 128)
  scratch : (m.freeRun core g.scr).isSome = true
  tiles : g.tiles ≤ ((List.range 16).filter fun t => decide (∀ p ∈ m.teamsOn core, t ∉ p.2.tiles)).length
  team : ∃ i < 128, m.team? (core * 128 + i) = none ∧ ∀ f ∈ m.frames, f.whole = true → f.key ≠ core * 128 + i

/-- A bundle may take an issue slot (R319): nothing holds the whole of it, and it is a running control core, a handler whose WAITK does not wait, or a
bundle with a group that no wait marked W holds. -/
def mayIssue (s : State) (key : Nat) (b : Bundle) : Prop :=
  s.mach.unheld key b = true ∧
    if key % 256 = 128 then (s.mach.core (coreOfKey key)).cst = 1 ∧ b.ready (s.mach.barred key b) ≠ 0
    else (s.mach.team b.team).killed = false ∧ b.pend = none ∧
      if b.hand.isSome = true then ∀ w, b.hwait = some w → b.count w.1 ≤ w.2
      else b.fault = none ∧ b.waiting = false ∧ b.filing = false ∧ b.ready (s.mach.barred key b) ≠ 0

/-- The order of arbitration (R319): handlers, then the classes from 3 down; the bundle that last held the slot longest ago; the lower slot. -/
def classRank (s : State) (key : Nat) (b : Bundle) : Nat :=
  if key % 256 = 128 ∨ b.hand.isSome = true then 0 else 4 - (s.mach.gridOf (s.mach.team b.team)).cls
def issuesBefore (s : State) (k : Nat) (b : Bundle) (k' : Nat) (b' : Bundle) : Prop :=
  classRank s k b < classRank s k' b' ∨ (classRank s k b = classRank s k' b' ∧ (b.last < b'.last ∨ (b.last = b'.last ∧ k < k')))

/-- The bundle that wins an issue slot. -/
def Wins (s : State) (q key : Nat) (b : Bundle) : Prop :=
  s.mach.bundle? key = some b ∧ quadOfKey key = q ∧ mayIssue s key b ∧ ∀ k b', (k, some b') ∈ s.mach.bundles → quadOfKey k = q → mayIssue s k b' →
    (k = key ∧ b' = b) ∨ issuesBefore s key b k b'

/-- The lane whose group runs next (R81, R82): in native mode the group longest since its last run, in legacy mode the lowest program counter; of equals
the lowest lane. -/
def RunsNext (b : Bundle) (barred : Lanes) (legacy : Bool) (l : Nat) : Prop :=
  let rank := fun l => if legacy then (b.lane l).pc.toNat else b.groupLast (b.groupAt (b.lane l).pc)
  (b.ready barred).getLsbD l = true ∧ ∀ k, (b.ready barred).getLsbD k = true → rank l < rank k ∨ (rank l = rank k ∧ l ≤ k)

/-- A bundle as its run opens: what held it is over. -/
def opened (b : Bundle) (g : Lanes) : Bundle :=
  { b with fenced := false, hwait := none, calm := if b.hand.isSome then b.calm else b.calm.filter fun x => decide (x.1 &&& g = 0) }

/-- The frame of a bundle eviction for the bundle at `key` (R317, R389, R390). -/
def EvictedFrame (s : State) (key : Nat) (f : Frame) : Prop :=
  let b := s.mach.bundle key
  let g := s.mach.gridOf (s.mach.team b.team)
  f.whole = false ∧ f.key = b.team ∧ f.sid = none ∧ f.grid = (s.mach.team b.team).grid ∧
    (∃ p, f.parts = [p] ∧ p.bnum = b.bnum ∧ p.addr = f.addr) ∧
    (∃ lo hi, s.mach.pool (dieOfCore (coreOfKey key)) g.world = some (lo, hi) ∧ lo ≤ f.addr ∧ f.addr + f.size ≤ hi) ∧
    ∀ x ∈ s.mach.frames, f.addr + f.size ≤ x.addr ∨ x.addr + x.size ≤ f.addr

end Sys2Proof.Claims

/-- R307, R309 to R314: LAUNCH without the thread of TIDX 0 raises ROLE, at depth 10 NEST, and for a refused record OPERAND; it is held while the bundle has
older accesses (and while translation is not enabled, log 79); otherwise it gives its grid to the dispatchers and answers 0, or an error word where
65,536 grids of threads run. The desk takes the head record of the queue that comes first, noting the heads that it sees as it looks (log 83): its head
advances, and its grid is there, or it is reported as refused. A guard that is met lets a grid go. A grid whose teams and children have retired leaves,
reported as done, or as killed where a team of it was. -/
def Obligations.GridsAreLaunchedAndRetire : Prop :=
  (∀ o s r c, Issues (.launch o) o s r c →
    (launchLead c = none → TrapsWith (.launch o) s c clsRole 0x6F) ∧
    (∀ lead ps m, launchLead c = some lead → PassOne c s ⟨c.s o.a.toNat, 512, 64, true, false, false, false, .local_, .allowed⟩ ps m →
      (c.g.depth = 10 → exec (.launch o) s = .next { s with mach := m.raise c.q c.run (c.trap clsNest 0x69) }) ∧
      (c.g.depth ≠ 10 → ¬ Quiet s c ∨ bitAt s.mach.desk.astbase 0 = false → exec (.launch o) s = .next s) ∧
      (c.g.depth ≠ 10 → Quiet s c → bitAt s.mach.desk.astbase 0 = true →
        (∀ e m', m.accept (c.readOwn m lead ps) (launchOrigin c ps) = (.error e, m') →
          exec (.launch o) s = .next { s with mach := m'.raise c.q c.run (c.trap clsOperand 0x2D) }) ∧
        (∀ g m', m.accept (c.readOwn m lead ps) (launchOrigin c ps) = (.ok g, m') →
          CachesOnly m m' ∧ g.depth = c.g.depth + 1 ∧ g.parent = some c.tm.grid ∧ g.device = true ∧ g.next = 0 ∧ g.retired = 0 ∧
          (65536 ≤ s.mach.deviceGrids → Sets (.launch o) s c m' (.ofNat 64 (2 ^ 63 + 1))) ∧
          (s.mach.deviceGrids < 65536 →
            Sets (.launch o) s c { m'.setGrid s.mach.nextGrid (some g) with nextGrid := s.mach.nextGrid + 1 } 0))))) ∧
  (∀ q (s : State), s.mach.bad = [] →
    let m := s.mach.observe
    let qu := m.queue q
    let open_ := s.boot.state = 3 ∧ s.boot.pkgV = true ∧ bitAt s.mach.desk.astbase 0 = true
    (¬ open_ → exec (.launchRecordTake q) s = .next s) ∧
    (open_ → m.nextQueue ≠ some q → exec (.launchRecordTake q) s = .next { s with mach := m }) ∧
    (open_ → m.nextQueue = some q →
      ∀ a m', (m.setQueue q { qu with head := qu.head + 1, seen := none }).accept (m.headRecord qu) (queueOrigin qu) = (a, m') →
      Gives (.launchRecordTake q) s fun t => t.mach.queue q = { qu with head := qu.head + 1, seen := none } ∧
        (∀ k, k ≠ q → (t.mach.queue k).head = (s.mach.queue k).head) ∧ t.mach.bundles = s.mach.bundles ∧ t.mach.teams = s.mach.teams ∧
        (∀ g, a = .ok g → t.mach.grid? s.mach.nextGrid = some g ∧ t.mach.nextGrid = s.mach.nextGrid + 1 ∧
          ∀ k, k ≠ s.mach.nextGrid → t.mach.grid? k = s.mach.grid? k) ∧
        (∀ e, a = .error e → t.mach.grids = s.mach.grids ∧ (e.2 = none → Reported t (queueOrigin qu).home 2 (e.1 % 256))))) ∧
  (∀ gk (s : State) g, s.mach.grid? gk = some g → s.mach.bad = [] →
    (g.guarded = false ∨ s.mach.guardMet g.guard = false → exec (.guardMet gk) s = .next s) ∧
    (g.guarded = true → s.mach.guardMet g.guard = true →
      (∀ g', s.mach.sized g = some g' → Gives (.guardMet gk) s fun t => t.mach.grid? gk = some { g' with guarded := false } ∧
        t = { s with mach := { s.mach with grids := t.mach.grids } }) ∧
      (s.mach.sized g = none → g.done = none → Gives (.guardMet gk) s fun t => t.mach.grid? gk = none ∧ Reported t g.home 2 5))) ∧
  (∀ gk (s : State) g, s.mach.grid? gk = some g → g.closed = false →
    let finished := g.guarded = false ∧ g.retired = g.gx * g.gy * g.gz ∧ ∀ k c, (k, some c) ∈ s.mach.grids → c.parent = some gk → c.closed = true
    (¬ finished → exec (.gridRetire gk) s = .next s) ∧
    (finished → g.done = none → Gives (.gridRetire gk) s fun t => (g.due = [] → t.mach.grid? gk = none) ∧
      (g.due ≠ [] → t.mach.grid? gk = some { g with closed := true }) ∧ Reported t g.home (if g.anyKilled then 3 else 1) 0 ∧
      (∀ k, k ≠ gk → t.mach.grid? k = s.mach.grid? k) ∧ t.mach.bundles = s.mach.bundles ∧ t.mach.teams = s.mach.teams))

/-- R81, R82, R85, R194, R308, R312, R315, R316, R319, R377: the next team of a grid is placed on the lowest core with room, its bundles starting at the
entry with their arguments (a bundle counting as having run as it is placed, log 86), and waits where no core has room; a bundle that is over frees its
slot, and a team whose last work is over retires and is counted. Where no run holds an issue slot, the best bundle's next group reports a mark or a
step, or opens a run; where one does, nothing happens. -/
def Obligations.TeamsArePlacedAndRun : Prop :=
  (∀ core n a (m : Mach), m.freeRun core n = some a ↔ runFree m core n a ∧ ∀ k < a, ¬ runFree m core n k) ∧
  (∀ gk (s : State) g, s.mach.grid? gk = some g →
    (g.guarded = true ∨ g.gx * g.gy * g.gz ≤ g.next ∨ (∀ core < 384, ¬ Room s.mach g core) → exec (.teamDispatch gk) s = .next s) ∧
    (∀ core < 384, g.guarded = false → g.next < g.gx * g.gy * g.gz → Room s.mach g core → (∀ k < core, ¬ Room s.mach g k) →
      Gives (.teamDispatch gk) s fun t =>
        ∃ tk scr tiles, tk / 128 = core ∧ s.mach.freeTeam core = some tk ∧ s.mach.freeRun core g.scr = some scr ∧
          s.mach.freeTiles core g.tiles = some tiles ∧
        (∃ x, t.mach.team? tk = some x ∧ x.grid = gk ∧ x.idx = g.next ∧ x.gen = (s.mach.core core).gen + 1 ∧ x.scr = scr ∧ x.nscr = g.scr ∧
          x.tiles = tiles ∧ x.bars = [] ∧ x.killed = false ∧ x.leave.st = 0) ∧
        (∀ k, k ≠ tk → t.mach.team? k = s.mach.team? k) ∧
        (∀ p ∈ s.mach.bundleKeys core (List.range ((g.threads + 31) / 32)), s.mach.bundle? p.2 = none ∧
          ∃ b, t.mach.bundle? p.2 = some b ∧ b.team = tk ∧ b.bnum = p.1 ∧
            b.regs = (List.range 4).foldl (fun r k => r.setS k (g.args.getD k 0)) Regs.reset ∧
            ∀ l < 32, b.lane l = if 32 * p.1 + l < g.threads then
                { Lane.none with st := .runnable, pc := g.entry, tidx := 32 * p.1 + l, last := s.mach.clk }
              else Lane.none) ∧
        (∀ k, (∀ p ∈ s.mach.bundleKeys core (List.range ((g.threads + 31) / 32)), p.2 ≠ k) → t.mach.bundle? k = s.mach.bundle? k) ∧
        t.mach.grid? gk = some { g with next := g.next + 1 })) ∧
  (∀ b (s : State) x, b % 256 ≠ 128 → s.mach.bundle? b = some x →
    (s.mach.freeable b x = true → Gives (.bundleFree b) s fun t => t.mach.bundle? b = none) ∧
    (s.mach.freeable b x = false → (∀ p ∈ s.mach.teamsOn (coreOfKey b), s.mach.teamDone p.1 = false) → exec (.bundleFree b) s = .next s)) ∧
  (∀ b (s : State) tk x g, b % 256 ≠ 128 → s.mach.bundle? b = none → s.mach.teamsOn (coreOfKey b) = [(tk, x)] → s.mach.team? tk = some x →
    s.mach.teamDone tk = true → x.disp = [] → s.mach.grid? x.grid = some g → g.coll = [] → Gives (.bundleFree b) s fun t =>
      t.mach.team? tk = none ∧ t.mach.grid? x.grid = some { g with retired := g.retired + 1, anyKilled := g.anyKilled || x.killed } ∧
      MemoryKept s t ∧ t.mach.bundles = s.mach.bundles) ∧
  (∀ q (s : State) r, s.mach.run? q = some r → exec (.runSelect q) s = .next s) ∧
  (∀ q (s : State), (∀ k b, (k, some b) ∈ s.mach.bundles → quadOfKey k = q → ¬ mayIssue s k b) → exec (.runSelect q) s = .next s) ∧
  (∀ q (s : State) key b, s.mach.run? q = none → Wins s q key b →
    let opens := fun (b : Bundle) (g : Lanes) (pc : W64) => Gives (.runSelect q) s fun t => t.mach.run? q = some ⟨key, g, pc, 0⟩ ∧
      t.mach.bundle? key = some (opened b g) ∧ OthersKept s t key ∧ (∀ k, k ≠ q → t.mach.run? k = s.mach.run? k) ∧
      t = { s with mach := { s.mach with bundles := t.mach.bundles, runs := t.mach.runs } }
    (∀ pc, b.hand = some pc → opens b 1#32 pc) ∧
    (∀ l, b.hand = none → RunsNext b (s.mach.barred key b) (s.mach.gridOf (s.mach.team b.team)).legacy l →
      let pc := (b.lane l).pc
      let g := b.groupAt pc
      (∀ k, b.looseMark = some k → key % 256 ≠ 128 → exec (.runSelect q) s = .next { s with mach :=
        ((s.mach.modBundle key fun b => { b with marks := dropMark k b.marks }).takeTrap key (k.boundary pc g)) }) ∧
      (b.looseMark = none → b.stepped &&& g ≠ 0 → bitAt b.trap.dbgctl 0 = true → exec (.runSelect q) s = .next { s with mach :=
        ((s.mach.modBundle key fun b => { b with stepped := b.stepped &&& ~~~g }).takeTrap key (stepTrap pc g b.stepped)) }) ∧
      (b.looseMark = none → b.stepped &&& g = 0 ∨ bitAt b.trap.dbgctl 0 = false → opens { b with stepped := b.stepped &&& ~~~g } g pc)))

/-- R94 to R97, R378: REFORM traps while a rejoin mask holds a lane or the grid has roles, or where a target is misaligned, and otherwise parks its group
with the number of registers kept and each lane's next program counter. The filing of a bundle of one thread puts it, with its registers, in a pigeonhole
of the core, and the slot waits; once the pigeonhole is old enough, the waiting slot takes the thread up as a fresh bundle, its rejoin masks and its
handler's registers zero, which counts as having run then (log 86). -/
def Obligations.ThreadsAreRegrouped : Prop :=
  (∀ o s r c, Issues (.reform o) o s r c →
    let roled := (∃ k < 8, c.b.regs.getJ k ≠ 0) ∨ c.g.roletab ≠ 0
    let odd := ∃ l, c.grp.getLsbD l = true ∧ (c.v2 o.a.toNat l).toNat % 4 ≠ 0
    (roled → TrapsWith (.reform o) s c clsRole 0x67) ∧
    (¬ roled → odd → ∃ x, exec (.reform o) s = .next { s with mach := (c.leaveResume s.mach).raise c.q c.run (c.trapWith clsAlign 0x10 x) }) ∧
    (¬ roled → ¬ odd → Gives (.reform o) s fun t => MemoryKept s t ∧ SystemKept s t c.key ∧ RestKept s t c ∧ LanesKept s t c ∧
      t.regs c.key = s.regs c.key ∧ t.mach.run? c.q = none ∧ ∀ l, c.grp.getLsbD l = true → let x := (s.mach.bundle c.key).lane l
        let y := (t.mach.bundle c.key).lane l
        SameThread x y ∧ y.st = .reform o.mods.toNat (c.v2 o.a.toNat l) ∧ y.pc = c.pc)) ∧
  (∀ key (s : State) b l y carry pc, s.mach.bundle? key = some b → b.lanes = [(l, y)] → l < 32 → y.st = .reform carry pc →
    s.mach.mayFile key b = true → (s.mach.core (coreOfKey key)).holes = [] → Gives (.reformFiling key) s fun t =>
      (t.mach.core (coreOfKey key)).holes = [⟨b.team, pc, s.mach.clk, [b.filed l carry]⟩] ∧ MemoryKept s t ∧ OthersKept s t key ∧
      (t.mach.bundle key).waiting = true ∧ (t.mach.bundle key).filing = false ∧ (t.mach.bundle key).latch = none ∧
      (∀ k, ((t.mach.bundle key).lane k).st = .empty) ∧
      t = { s with mach := { s.mach with bundles := t.mach.bundles, cores := t.mach.cores } }) ∧
  (∀ core (s : State) h x key, (s.mach.core core).holes = [h] → h.thr = [x] → s.mach.waitingSlot h.team = some key →
    let g := s.mach.gridOf (s.mach.team h.team)
    (s.mach.clk < h.born + g.age → exec (.pigeonholeAgeExpiry core) s = .next s) ∧
    (h.born + g.age ≤ s.mach.clk → Gives (.pigeonholeAgeExpiry core) s fun t => (t.mach.core core).holes = [] ∧ MemoryKept s t ∧
      OthersKept s t key ∧ (t.mach.bundle key).waiting = false ∧
      (t.mach.bundle key).lane 0 = { Lane.none with
        st := .runnable, pc := h.pc, lnk := x.lnk, tidx := x.tidx, last := s.mach.clk, sbuf := x.sbuf } ∧
      (t.regs key).s = x.origin.s ∧ (t.regs key).fpctl = x.origin.fpctl ∧ (t.regs key).fpstat = x.origin.fpstat ∧
      (t.regs key).stepTag = x.origin.stepTag ∧ (t.mach.bundle key).trap.tvbase = x.origin.tvbase ∧
      (t.mach.bundle key).trap.dbgctl = x.origin.dbgctl ∧ (∀ k, (t.regs key).getJ k = 0) ∧ (∀ k, (t.regs key).getW k = 0) ∧
      (∀ n, n < x.carry → n < (s.mach.gridOf (s.mach.team (s.mach.bundle key).team)).regs → (t.regs key).getV n 0 = Sparse.get 0 x.v n) ∧
      ∀ k, 0 < k → k < 16 → ((t.regs key).getP k).getLsbD 0 = bitAt x.p k))

/-- R317, R318, R384, R389, R390, R393, R394: eviction has no effect where the team fits; a bundle at rest that it names leaves its slot for a frame in the
pool that overlaps no other, and its team goes on without it. Restoring has no effect for work that has no room, or while older work of the same die has
room: it comes back to the lowest free slot of its quadrant as its frame has it, a whole team with the barriers, mailbags, handles and counts of its
frame, and an invalid frame kills its team. STRESUME lets a halted team come back when there is room, or ends it. -/
def Obligations.WorkIsEvictedAndRestored : Prop :=
  (∀ gk (s : State) g, s.mach.grid? gk = some g →
    (g.guarded = true ∨ g.gx * g.gy * g.gz ≤ g.next ∨ (s.mach.placeFor g).isSome = true → exec (.eviction gk) s = .next s) ∧
    (∀ key b, g.guarded = false → g.next < g.gx * g.gy * g.gz → s.mach.placeFor g = none → s.mach.evictPlan g = some (.bundles [key]) →
      s.mach.bundle? key = some b → (s.mach.team? b.team).isSome = true → s.mach.mayEvict key b = true → (s.mach.saveBundle key).isSome = true →
      Gives (.eviction gk) s fun t => t.mach.bundle? key = none ∧ OthersKept s t key ∧
        t.mach.team? b.team = some { s.mach.team b.team with away := b.bnum :: (s.mach.team b.team).away } ∧
        (∀ k, k ≠ b.team → t.mach.team? k = s.mach.team? k) ∧ t.mach.cores = s.mach.cores ∧ t.mach.grids = s.mach.grids ∧
        ∃ f, t.mach.frames = s.mach.frames ++ [f] ∧ EvictedFrame s key f)) ∧
  (∀ k (s : State) f, s.mach.frames.find? (fun f => decide (f.order = k) && f.sid.isNone) = some f →
    let older := ∃ x ∈ s.mach.frames, x.order < k ∧ x.die = f.die ∧ x.sid = none ∧ s.mach.frameFits x = true
    let dropped := s.mach.frames.filter fun x => decide (x.order ≠ k)
    (s.mach.frameFits f = false ∨ older → exec (.restore k) s = .next s) ∧
    (∀ p, f.whole = false → f.parts = [p] → s.mach.frameFits f = true → ¬ older → (s.mach.team? f.key).isSome = true →
      let tm := s.mach.team f.key
      let g := s.mach.gridOf tm
      let bad := s.mach.bundleBad p.addr p.bnum g tm.alloc false || repeats (s.mach.tidxOf f.key ++ s.mach.frameTidx p.addr)
      (bad = true → Gives (.restore k) s fun t => (t.mach.team f.key).killed = true ∧
        (∀ x ∈ t.mach.frames, x.order ≠ k) ∧ ∀ j, (t.mach.bundle? j).isSome = true → (s.mach.bundle? j).isSome = true) ∧
      (bad = false → s.mach.grid? f.grid = some g → Gives (.restore k) s fun t =>
        ∃ slot, slot / 32 = p.bnum % 4 ∧ s.mach.bundle? (coreOfTeam f.key * 256 + slot) = none ∧
          (∀ j < slot, j / 32 = p.bnum % 4 → (s.mach.bundle? (coreOfTeam f.key * 256 + j)).isSome = true) ∧
          t.mach.bundle? (coreOfTeam f.key * 256 + slot) = some (s.mach.readBundle p.addr g p.b) ∧
          OthersKept s t (coreOfTeam f.key * 256 + slot) ∧
          t.mach.team? f.key = some { tm with away := tm.away.filter fun b => decide (b ≠ p.bnum) } ∧
          (∀ j, j ≠ f.key → t.mach.team? j = s.mach.team? j) ∧
          t = { s with mach := { s.mach with frames := dropped, bundles := t.mach.bundles, teams := t.mach.teams } })) ∧
    (∀ x g scr tiles, f.whole = true → f.team = some x → s.mach.frameFits f = true → ¬ older → s.mach.grid? f.grid = some g →
      s.mach.freeRun (coreOfTeam f.key) g.scr = some scr → s.mach.freeTiles (coreOfTeam f.key) g.tiles = some tiles →
      (s.mach.teamBad f g x.nb = true → x.disp = [] → x.grid = f.grid → g.coll = [] → Gives (.restore k) s fun t =>
        t.mach.team? f.key = none ∧ t.mach.bundles = s.mach.bundles ∧ t.mach.frames = dropped ∧
        t.mach.grid? f.grid = some { g with retired := g.retired + 1, anyKilled := true }) ∧
      (s.mach.teamBad f g x.nb = false → Gives (.restore k) s fun t => t.mach.frames = dropped ∧
        (∀ j, j ≠ f.key → t.mach.team? j = s.mach.team? j) ∧ t.mach.grids = s.mach.grids ∧ t.mach.dies = s.mach.dies ∧
        ∃ y, t.mach.team? f.key = some y ∧ y.grid = x.grid ∧ y.idx = x.idx ∧ y.killed = x.killed ∧ y.away = [] ∧ y.scr = scr ∧ y.tiles = tiles ∧
          (∀ n < 16, y.bar n = s.mach.readBarrier f n) ∧ y.gen = .ofNat 32 (s.mach.readNat .dev (f.addr + 8) 8) ∧
          y.mstat = .ofNat 64 (s.mach.readNat .dev (f.addr + 0x18) 8)))) ∧
  (∀ sid (s : State), (∀ f ∈ s.mach.frames, f.sid ≠ some sid) →
    exec (.stresumeResume sid) s = .next s ∧ exec (.stresumeKill sid) s = .next s) ∧
  (∀ sid (s : State) f, s.mach.frames.find? (fun f => decide (f.sid = some sid)) = some f →
    let freed := s.mach.frames.map fun x => if x.order = f.order then { f with sid := none } else x
    (Mach.frameFits { s.mach with frames := freed } { f with sid := none } = false → Gives (.stresumeResume sid) s fun t =>
      t = { s with mach := { s.mach with frames := freed } }) ∧
    (∀ x g, f.team = some x → x.disp = [] → s.mach.grid? x.grid = some g → g.coll = [] → Gives (.stresumeKill sid) s fun t =>
      t.mach.frames = s.mach.frames.filter (fun y => decide (y.order ≠ f.order)) ∧ MemoryKept s t ∧ t.mach.bundles = s.mach.bundles ∧
      t.mach.grid? x.grid = some { g with retired := g.retired + 1, anyKilled := true }))

namespace Sys2Proof.Claims

/-! ## Traps and handlers (R41, R42, R372 to R386) -/

/-- An instruction reaches its issue, whether or not it is legal there. -/
structure Arrives (i : Instr) (o : Opn) (s : State) (r : Rule) (c : Ctx) : Prop where
  operands : opnOf i = some o
  rule : ruleOf i s.inHandler = some r
  seen : (ctxOf s o).map r.view = some c
  group : c.grp ≠ 0
  ready : s.mach.blocked c.key &&& c.grp = 0

/-- The system word n, where it can be read (R375). -/
def sysValue (b : Bundle) (hand : Bool) (n : Nat) : Option W64 :=
  if n = 0x80 then some b.trap.tvbase
  else if n = 0x81 then some b.trap.dbgctl
  else if hand = false then none
  else if n < 0x80 then some (b.regs.getS n)
  else if n = 0x82 then some b.trap.tpc
  else if n = 0x83 then some b.trap.tstat
  else if n = 0x84 then some b.trap.tmask
  else if n = 0x85 then some b.trap.tcond
  else if n = 0x86 then some b.trap.tinfo
  else none

/-- A value may stand in the system word n (R376). -/
def sysLegal (n : Nat) (x : W64) : Prop :=
  (n = 0x80 → fld x 11 1 = 0 ∧ (fld x 63 55 = 0 ∨ fld x 63 55 = 511)) ∧ (n = 0x81 → fld x 63 1 = 0) ∧ (n = 0x82 → fld x 1 0 = 0)

/-- The lanes of a trap that hold a condition (R374). -/
def holders (x : Trap) : Lanes := laneMask fun l => x.mask.getLsbD l && x.conds.any fun c => decide (c.lane = l) && decide (c.cause ≠ 0 ∨ c.cls ≠ 0)

/-- The cause that TSTAT reports: of the lowest lane that holds a condition, or of the instruction (R376). -/
def shownCause (x : Trap) : Nat := (x.lowest.map Cond.cause).getD x.cause

/-- A bundle stands at its handler for a trap (R373, R376, R382). -/
def InHandler (b b' : Bundle) (x : Trap) : Prop :=
  b'.hand = some (BitVec.ofNat 64 (fld b.trap.tvbase 63 12 * 4096 + 0x100 * x.cls)) ∧ b'.regs = b.regs ∧ b'.outs = b.outs ∧ b'.pend = none ∧
    b'.savedTiles = [] ∧ b'.trap.tpc = x.pc ∧ b'.trap.tmask = x.mask.setWidth 64 ∧ b'.trap.tcond = (holders x).setWidth 64 ∧
    b'.trap.tinfo = .ofNat 64 (x.code + 65536 * x.iter) ∧
    b'.trap.tstat = .ofNat 64 (x.cls + 256 * shownCause x + 65536 * (if x.noins then 1 else 0) + 131072 * (if x.sweep then 1 else 0) + 2 ^ 24 * x.isz) ∧
    b'.trap.tvbase = b.trap.tvbase ∧ b'.trap.dbgctl = b.trap.dbgctl ∧ ∀ l < 32, Sparse.get ⟨0, 0⟩ b'.trap.side l = sideEntry x l

end Sys2Proof.Claims

/-- R41, R42: an instruction that is illegal where it stands raises its trap: ILL before OPERAND before ROLE, the cause in a handler 0x62 for what no
handler may issue; no register of its issuer and no flag of FPSTAT changes, and no memory does where the trap enters a handler. While a result of its
group is outstanding without an open window, an instruction is held and nothing changes (R37). -/
def Obligations.IllegalInstructionsTrap : Prop :=
  (∀ i o s r c x, Arrives i o s r c → r.refuses c = some x →
    Gives i s fun t => t = { s with mach := (c.leaveResume s.mach).raise c.q c.run x } ∧ t.regs c.key = s.regs c.key ∧
      (c.hand = false → bitAt c.b.trap.tvbase 0 = true → MemoryKept s t) ∧ x.pc = c.pc ∧
      ((x.cls = clsIll ∧ (x.cause = 0x60 ∨ x.cause = 0x62)) ∨ (x.cls = clsOperand ∧ x.cause = 0x63) ∨ (x.cls = clsRole ∧ x.cause = 0x65)) ∧
      ((r.form c.o).fits r.opc c.o = false → x.cls = clsIll) ∧
      (c.hand = true → handlerOk r.opc c.o = false → x.cls = clsIll ∧ x.cause = 0x62) ∧
      (c.hand = false ∨ handlerOk r.opc c.o = true → x.cause ≠ 0x62) ∧
      ((r.opds c.o).all (Opd.ok c) = false ∨ r.held c = false → x.cls ≠ clsRole)) ∧
  (∀ i o s r c, opnOf i = some o → ruleOf i s.inHandler = some r → ctxOf s o = some c → s.mach.blocked c.key &&& c.grp ≠ 0 → exec i s = .next s)

/-- R75: SSET takes its condition from FN: equal, not equal, less, not greater, greater, not less; every other FN raises ILL, and a base form compares for
equality. -/
def Obligations.SsetTakesItsConditionFromFn : Prop :=
  (∀ o s r c, Issues (.sset o) o s r c → WritesRegs (.sset o) s c fun x => x.sset c.hand o.d.toNat
    (let lt := fun (a b : W64) => if o.ty = 3 ∧ 2 ≤ o.len.toNat then decide (a.toNat < b.toNat) else decide (a.toInt < b.toInt)
     let a := c.s o.a.toNat
     let holds := match o.fn.toNat with
       | 0 => decide (a = c.sB)
       | 1 => decide (a ≠ c.sB)
       | 2 => lt a c.sB
       | 3 => lt a c.sB || decide (a = c.sB)
       | 4 => lt c.sB a
       | _ => lt c.sB a || decide (a = c.sB)
     if holds then 1 else 0)) ∧
  (∀ o s r c, Arrives (.sset o) o s r c → 6 ≤ o.fn.toNat → exec (.sset o) s =
    .next { s with mach := (c.leaveResume s.mach).raise c.q c.run (c.trap clsIll (if c.hand = true ∧ o.pre = true then 0x62 else 0x60)) }) ∧
  (∀ o, (Instr.sset o).wf = true → o.len.toNat < 2 → o.fn = 0)

/-- R338, R373, R380, R381, R388: a trap outside a handler enters the handler at TVBASE.BASE + 0x100 times its class, with the trap words written and the
registers kept, at once or when the bundle's register writes are done; the trapping lanes stand at TPC, others of the group after the instruction. With
TVBASE.EN 0, and in a handler, it kills the team and posts a stop record; the control core halts. TRAP raises SOFT in the lanes whose guard holds and
does nothing without one, BKPT raises DEBUG in every lane. -/
def Obligations.TrapsAreTaken : Prop :=
  (∀ (m : Mach) q (run : Run) (b : Bundle) (x : Trap), m.bundle? run.key = some b → run.key % 256 ≠ 128 → b.hand = none → bitAt b.trap.tvbase 0 = true →
    let t := m.raise q run x
    (∃ b', t.bundle? run.key = some b' ∧ b'.regs = b.regs ∧ (∀ l, b'.lane l =
        if run.grp.getLsbD l = true then
          { b.lane l with pc := if x.mask.getLsbD l = true then x.pc else x.pc + BitVec.ofNat 64 (4 * x.isz), last := m.clk }
        else b.lane l) ∧
      (m.writing run.key = false → InHandler b b' x) ∧ (m.writing run.key = true → b'.pend = some x ∧ b'.hand = none ∧ b'.trap = b.trap)) ∧
    t.run? q = none ∧ (∀ j, j ≠ q → t.run? j = m.run? j) ∧ (∀ k, k ≠ run.key → t.bundle? k = m.bundle? k) ∧ ∀ sp a, t.readByte sp a = m.readByte sp a) ∧
  (∀ (m : Mach) q (run : Run) (b : Bundle) (x : Trap) tm, m.bundle? run.key = some b → run.key % 256 ≠ 128 → m.team? b.team = some tm →
    b.hand.isSome = true ∨ bitAt b.trap.tvbase 0 = false →
    let t := m.raise q run x
    (∃ t', t.team? b.team = some t' ∧ t'.killed = true ∧ t'.bars = [] ∧ t'.mails = [] ∧
      ∀ k ∈ m.bundlesOf b.team, ∀ l, ((t.bundle k).lane l).st = .empty ∨ ((t.bundle k).lane l).st = .exited) ∧
    ((m.core (coreOfTeam b.team)).mx = [] → bitAt m.desk.stqbase 1 = false → ∀ sp a, t.readByte sp a = m.readByte sp a) ∧
    ((m.core (coreOfTeam b.team)).mx = [] → bitAt m.desk.stqbase 1 = true → m.desk.stqwait = [] →
      (m.desk.stqtail - m.desk.stqhead).toNat < 2 ^ fld m.desk.stqsize 4 0 → bitAt m.desk.stqbase 0 = false ∨ m.linkUp = true →
      let sp := if bitAt m.desk.stqbase 0 then Space.host else Space.dev
      let at_ := fld m.desk.stqbase 63 12 * 4096 + 32 * (m.desk.stqtail.toNat % 2 ^ fld m.desk.stqsize 4 0)
      t.desk.stqtail = m.desk.stqtail + 1 ∧ t.read64 sp at_ = x.pc ∧
      t.read64 sp (at_ + 8) = .ofNat 64 ((if b.hand.isSome then 2 else 1) + 16 * x.cls + 256 * shownCause x + 2 ^ 16 * b.bnum +
        2 ^ 24 * (run.key / 256 % 96) + 2 ^ 32 * (run.key / 256 / 96) + 2 ^ 40 * (m.gridOf (m.team b.team)).asid) ∧
      t.read64 sp (at_ + 24) = .ofNat 64 (if b.hand.isSome then 2 ^ 32 * fld b.trap.tstat 3 0 else 0))) ∧
  (∀ (m : Mach) q (run : Run) (x : Trap), run.key % 256 = 128 →
    let k := (m.raise q run x).core (run.key / 256)
    k = { m.core (run.key / 256) with cst := 2, hcls := x.cls, hcause := shownCause x, hpc := x.pc } ∧
      (m.raise q run x).run? (run.key / 256 * 8 + 4) = none ∧ ((m.raise q run x).bundle run.key).regs = (m.bundle run.key).regs ∧
      (∀ j, j ≠ run.key → (m.raise q run x).bundle? j = m.bundle? j) ∧ ∀ sp a, (m.raise q run x).readByte sp a = m.readByte sp a) ∧
  (∀ key (s : State) b, s.mach.bundle? key = some b →
    (b.pend = none → exec (.trapEntry key) s = .next s) ∧
    (∀ x, b.pend = some x → bitAt b.trap.tvbase 0 = true →
      (s.mach.writing key = true → exec (.trapEntry key) s = .next s) ∧
      (s.mach.writing key = false → Gives (.trapEntry key) s fun t => t = { s with mach := { s.mach with bundles := t.mach.bundles } } ∧
        OthersKept s t key ∧ ∃ b', t.mach.bundle? key = some b' ∧ InHandler b b' x ∧ b'.lanes = b.lanes)) ∧
    (∀ x, b.pend = some x → bitAt b.trap.tvbase 0 = false → (s.mach.team? b.team).isSome = true → Gives (.trapEntry key) s fun t =>
      (t.mach.team b.team).killed = true)) ∧
  (∀ o s r c, Issues (.trap o) o s r c →
    let ls := laneMask fun l => c.grp.getLsbD l && guardHolds c l
    (ls = 0 → WritesRegs (.trap o) s c id) ∧
    (ls ≠ 0 → ∃ x : Trap, exec (.trap o) s = .next { s with mach := (c.leaveResume s.mach).raise c.q c.run x } ∧ x.cls = clsSoft ∧ x.cause = 0x6D ∧
      x.pc = c.pc ∧ x.code = o.imm.toNat ∧ x.mask = c.grp ∧ x.conds.map Cond.lane = laneList ls)) ∧
  (∀ o s r c, Issues (.bkpt o) o s r c →
    ∃ x : Trap, exec (.bkpt o) s = .next { s with mach := (c.leaveResume s.mach).raise c.q c.run x } ∧ x.cls = clsDebug ∧ x.cause = 0x6E ∧
      x.pc = c.pc ∧ x.code = o.imm.toNat ∧ x.mask = c.grp ∧ x.conds.map Cond.lane = laneList c.grp)

/-- R375, R376, R384 to R386: SWRP reads and writes the system words, raising ILL for a value that may not stand there, and reads the side buffer. TRET ends
the handler: the lanes killed end, those retried stand at TPC, and the others after the instruction. HALT traps while the stop queue is disabled; otherwise,
once nothing of the team is in progress (what that takes is the model's reading, log 96), it saves the team in a frame with the next halt identifier. -/
def Obligations.HandlersAndHalt : Prop :=
  (∀ o s r c, Issues (.swrpRd o) o s r c → ∃ x, sysValue c.b c.hand o.mods.toNat = some x ∧
    WritesRegs (.swrpRd o) s c fun y => y.sset c.hand o.d.toNat x) ∧
  (∀ o s r c, Issues (.swrpWr o) o s r c →
    let n := o.mods.toNat
    let x := c.s o.d.toNat
    (¬ sysLegal n x → TrapsWith (.swrpWr o) s c clsIll 0x60) ∧
    (sysLegal n x → Gives (.swrpWr o) s fun t => StandsAt t c c.nextPc ∧
      OnlyRegs (s.but fun m => m.modBundle c.key fun b => { b with trap := { b.trap with
        tvbase := if n = 0x80 then x else b.trap.tvbase, dbgctl := if n = 0x81 then x else b.trap.dbgctl,
        tpc := if n = 0x82 then x else b.trap.tpc } }) t c ∧
      t.regs c.key = (if n < 0x80 then (s.regs c.key).setS n x else s.regs c.key) ∧
      (t.mach.bundle c.key).stepped = (if c.hand = false ∧ c.ctl = false ∧ bitAt (t.mach.bundle c.key).trap.dbgctl 0 = true then c.b.stepped ||| c.grp
        else c.b.stepped) ∧
      (n = 0x82 → (t.mach.bundle c.key).resume = none))) ∧
  (∀ o s r c, Issues (.swrpSb o) o s r c → WritesRegs (.swrpSb o) s c fun x =>
    let e := Sparse.get ⟨0, 0⟩ c.b.trap.side ((c.s o.a.toNat).toNat % 32)
    (x.setW o.d.toNat e.addr).setW (o.d.toNat + 1) e.info) ∧
  (∀ o s r c, Issues (.tret o) o s r c →
    let b := s.mach.bundle c.key
    let g := b.trap.tmask.setWidth 32 &&& b.live
    let kill := (c.s o.b.toNat).setWidth 32 &&& g
    let retry := (c.s o.a.toNat).setWidth 32 &&& g &&& ~~~kill
    let after := if bitAt b.trap.tstat 16 then b.trap.tpc else b.trap.tpc + BitVec.ofNat 64 (4 * fld b.trap.tstat 27 24)
    (kill = 0 → Gives (.tret o) s fun t => OthersKept s t c.key ∧ t.mach.run? c.q = none ∧
      t = { s with mach := { s.mach with bundles := t.mach.bundles, runs := t.mach.runs } } ∧
      t.mach.bundle c.key = { b with
        lanes := (t.mach.bundle c.key).lanes, hand := none, hwait := none, last := s.mach.clk,
        resume := if bitAt b.trap.tstat 17 = true ∧ b.resume.isSome = true ∧ retry ≠ 0 then some (b.trap.tpc, fld b.trap.tinfo 27 16, retry) else none } ∧
      ∀ l < 32, (t.mach.bundle c.key).lane l =
        if retry.getLsbD l then { b.lane l with pc := b.trap.tpc } else if g.getLsbD l then { b.lane l with pc := after } else b.lane l) ∧
    (kill ≠ 0 → (∀ l, g.getLsbD l = true → (b.lane l).st = .runnable) → Gives (.tret o) s fun t => (t.mach.bundle c.key).hand = none ∧ t.mach.run? c.q = none ∧
      (∀ l < 32, kill.getLsbD l = true → ((t.mach.bundle c.key).lane l).st = .exited) ∧
      ∀ l < 32, retry.getLsbD l = true → ((t.mach.bundle c.key).lane l).pc = b.trap.tpc)) ∧
  (∀ o s r c, Issues (.halt o) o s r c → c.b.count 1 = 0 →
    (bitAt s.mach.desk.stqbase 1 = false → TrapsWith (.halt o) s c clsDebug 0x72) ∧
    (let m := (c.step (c.leaveResume s.mach)).closeRun c.q c.run c.nextPc
     bitAt s.mach.desk.stqbase 1 = true →
      (m.maySaveTeam c.tk (fun k b => m.settled k b || (m.heldAtHalt k b).isSome) = false → exec (.halt o) s = .next s) ∧
      (m.maySaveTeam c.tk (fun k b => m.settled k b || (m.heldAtHalt k b).isSome) = true →
        (m.passHalts c.tk).saveTeam c.tk (some s.mach.desk.sid) = none → exec (.halt o) s = .next s) ∧
      (∀ a m', m.maySaveTeam c.tk (fun k b => m.settled k b || (m.heldAtHalt k b).isSome) = true →
        (m.passHalts c.tk).saveTeam c.tk (some s.mach.desk.sid) = some (a, m') →
        Gives (.halt o) s fun t => t.mach.team? c.tk = none ∧ (∀ k ∈ s.mach.bundlesOf c.tk, t.mach.bundle? k = none) ∧
          t.mach.desk.sid = s.mach.desk.sid + 1 ∧
          ∃ f ∈ t.mach.frames, f.whole = true ∧ f.key = c.tk ∧ f.addr = a ∧ f.sid = some s.mach.desk.sid ∧ f.grid = c.tm.grid)))

namespace Sys2Proof.Claims

/-! ## The host, boot and power (R165 to R169, R309, R353, R370, R395 to R409) -/

/-- The package is READY (R402). -/
def Ready (s : State) : Prop := s.boot.state = 3

/-- Only the boot and power registers have changed. -/
def BootOnly (s t : State) (b : Boot) : Prop := t = { s with boot := b }

/-- The invalidation in progress drops a leaf translation or a table entry of a space for the addresses from lo up to hi (R166). -/
def PageDropped (d : Desk) (asid lo hi : Nat) : Prop :=
  let code := fld d.tlbinvc 11 8
  let n := if code = 0 then 0x10000 else if code = 1 then 0x200000 else 0x40000000
  let at_ := d.tlbinva.toNat / n * n
  code = 4 ∨ asid = fld d.tlbinvc 7 0 ∧ (code = 3 ∨ code ≤ 2 ∧ lo < at_ + n ∧ at_ < hi)

/-- It drops the range entries of a space. -/
def RangeDropped (d : Desk) (asid : Nat) : Prop :=
  fld d.tlbinvc 11 8 = 4 ∨ asid = fld d.tlbinvc 7 0 ∧ (fld d.tlbinvc 11 8 = 3 ∨ fld d.tlbinvc 11 8 = 5)

/-- A bundle after a fault has been resumed (R168). -/
def resumed (fid : W32) (b : Bundle) : Bundle := if (b.fault.map Prod.fst) = some fid then { b with fault := none } else b

end Sys2Proof.Claims

/-- R165 to R169, R309, R354, R370, R387, R396, R397, R404, R405: while the package is READY, FQRESUME lets every bundle and neighbour job go on that waits
for the fault, or, failing it, makes the bundle trap; TLBINVC starts one invalidation at a time, which drops the entries of every cache that its code
names once no access uses them (which caches serve which unit: log 117); the fence table and the package number are written, the number once; the
mailbox's commands end with a report or a key, whose digest the report holds. A register write of another size, or misaligned, or before READY outside
the mailbox, has no effect; writes of the registers named read back with their legal bits; stop records that wait when the queue is disabled are
dropped. -/
def Obligations.HostRegistersAreWritten : Prop :=
  (∀ v (s : State), (¬ Ready s → exec (.fqresume v) s = .next s ∧ exec (.tlbinvc v) s = .next s) ∧
    (Ready s → bitAt v 32 = false → Gives (.fqresume v) s fun t => (s.mach.frames = [] → MemoryKept s t) ∧
      (∀ k, t.mach.bundle? k = (s.mach.bundle? k).map (resumed (v.setWidth 32))) ∧
      ∀ d < 4, ∀ j ∈ (t.mach.die d).jobs, j.fid ≠ some (fld v 31 0)) ∧
    (∀ k b x, Ready s → bitAt v 32 = true → s.mach.bundles = [(k, some b)] → b.fault = some (v.setWidth 32, x) → s.mach.frames = [] →
      s.mach.copies = [] → (∀ d < 4, (s.mach.die d).jobs = []) →
      exec (.fqresume v) s = .next { s with mach := (s.mach.modBundle k fun b => { b with fault := none }).takeTrap k x }) ∧
    (Ready s → bitAt s.mach.desk.tlbinvc 63 = true ∨ 6 ≤ fld v 11 8 → exec (.tlbinvc v) s = .next s) ∧
    (Ready s → bitAt s.mach.desk.tlbinvc 63 = false → fld v 11 8 < 6 → Gives (.tlbinvc v) s fun t =>
      t = { s with mach := { s.mach with desk := { s.mach.desk with tlbinvc := t.mach.desk.tlbinvc } } } ∧
      bitAt t.mach.desk.tlbinvc 63 = true ∧ fld t.mach.desk.tlbinvc 11 0 = fld v 11 0)) ∧
  (∀ s : State, let d := s.mach.desk
    (bitAt d.tlbinvc 63 = false ∨ s.mach.invBusy = true → exec .tlbinvComplete s = .next s) ∧
    (∀ x ∈ s.mach.ops, ∀ p ∈ x.parts, p.done = false → PageDropped d x.asid p.va.toNat (p.va.toNat + max 1 p.size) ∨ RangeDropped d x.asid →
      s.mach.invBusy = true) ∧
    (bitAt d.tlbinvc 63 = true → s.mach.invBusy = false → Gives .tlbinvComplete s fun t =>
      bitAt t.mach.desk.tlbinvc 63 = false ∧ fld t.mach.desk.tlbinvc 11 0 = fld d.tlbinvc 11 0 ∧
      t = { s with mach := { s.mach with
        cores := t.mach.cores, dies := t.mach.dies, desk := { d with tlbinvc := t.mach.desk.tlbinvc } } } ∧
      (∀ k, t.mach.core k = { s.mach.core k with tlb := (t.mach.core k).tlb, rcache := (t.mach.core k).rcache }) ∧
      (∀ k x, x ∈ (t.mach.core k).tlb ↔ x ∈ (s.mach.core k).tlb ∧ ¬ PageDropped d x.asid x.lo x.hi) ∧
      (∀ k x, x ∈ (t.mach.core k).rcache ↔ x ∈ (s.mach.core k).rcache ∧ ¬ RangeDropped d x.asid) ∧
      (∀ k, t.mach.die k = { s.mach.die k with tlb2 := (t.mach.die k).tlb2, wcache := (t.mach.die k).wcache }) ∧
      (∀ k x, x ∈ (t.mach.die k).tlb2 ↔ x ∈ (s.mach.die k).tlb2 ∧ ¬ PageDropped d x.asid x.lo x.hi) ∧
      ∀ k x, x ∈ (t.mach.die k).wcache ↔ x ∈ (s.mach.die k).wcache ∧ ¬ PageDropped d x.asid x.lo x.hi)) ∧
  (∀ f v (s : State), Ready s → f < 256 → Gives (.fenceTableWrite f v) s fun t => Sparse.get 0 t.mach.fence f = v &&& 0x8000000000003FFF#64 ∧
    (∀ k, k ≠ f → Sparse.get 0 t.mach.fence k = Sparse.get 0 s.mach.fence k) ∧
    (bitAt v 63 = true → ∀ d < 4, ∀ p ∈ (t.mach.die d).marks, p.1 / 2 ^ 50 ≠ fld v 13 0) ∧
    t = { s with mach := { s.mach with fence := t.mach.fence, dies := t.mach.dies } }) ∧
  (∀ v (s : State), (Ready s → s.boot.pkgV = false → exec (.pkgidWrite v) s =
      .next { s with boot := { s.boot with pkgV := true }, mach := { s.mach with pkg := fld v 13 0 } }) ∧
    (¬ Ready s ∨ s.boot.pkgV = true → exec (.pkgidWrite v) s = .next s)) ∧
  (∀ s : State, (s.boot.mbBusy = true → s.boot.mbCode = 1 → Gives .mbcmdReport s fun t => t.boot.mbBusy = false ∧
      leNat (t.boot.report.take 8) = 1 ∧ leNat ((t.boot.report.drop 8).take 8) = s.boot.svn.toNat ∧
      (s.boot.nonce.length = 32 → (t.boot.report.drop 16).take 32 = s.boot.nonce ∧ t.boot.report.length = 4883 ∧
        (t.boot.report.drop 176).take 64 = digestBytes publicKey) ∧
      BootOnly { s with mach := t.mach } t { s.boot with mbBusy := false, report := t.boot.report } ∧ t.mach = { s.mach with free := t.mach.free }) ∧
    (s.boot.mbBusy = true → s.boot.mbCode = 2 → Gives .mbcmdPubkey s fun t => t.boot.report.length = 2592 ∧ t.boot.report = publicKey ∧
      BootOnly s t { s.boot with mbBusy := false, report := t.boot.report }) ∧
    (s.boot.mbBusy = false → exec .mbcmdReport s = .next s ∧ exec .mbcmdPubkey s = .next s)) ∧
  (∀ off size v (s : State), (size ≠ 8 ∨ off % 8 ≠ 0 ∨ (¬ Ready s ∧ (off < 0x300000 ∨ 0x400000 ≤ off)) →
      exec (.registerWrite off size v) s = .next s) ∧
    (Ready s → Gives (.registerWrite 0x200000 8 v) s fun t => BootOnly s t { s.boot with
      pwrlim := if 1000 ≤ fld v 12 0 ∧ fld v 12 0 ≤ 4200 then fld v 12 0 else 4200 }) ∧
    (Ready s → Gives (.registerWrite 0x2030 8 v) s fun t => t.readReg 0x2030 8 = v) ∧
    (Ready s → bitAt v 1 = false → s.mach.desk.fqwait = [] → s.mach.desk.elwait = [] → Gives (.registerWrite 0x100 8 v) s fun t =>
      MemoryKept s t ∧ t.readReg 0x100 8 = v &&& 0xFFFFFFFFFFFFF003#64 ∧ t.mach.desk.stqwait = []) ∧
    (Ready s → ∀ k < 64, Gives (.registerWrite (0x1000 + 32 * k) 8 v) s fun t => t.readReg (0x1000 + 32 * k) 8 = v &&& 0xFFFFFFFFFFFFF001#64 ∧
      (∀ j, j ≠ k → t.mach.queue j = s.mach.queue j)) ∧
    (Ready s → ∀ k < 64, Gives (.registerWrite (0x1008 + 32 * k) 8 v) s fun t => fld (t.readReg (0x1008 + 32 * k) 8) 4 0 =
        (if 1 ≤ fld v 4 0 ∧ fld v 4 0 ≤ 12 then fld v 4 0 else 4) ∧ fld (t.readReg (0x1008 + 32 * k) 8) 10 8 = fld v 10 8 ∧
      bitAt (t.readReg (0x1008 + 32 * k) 8) 17 = bitAt (s.mach.queue k).ctl 17) ∧
    (Ready s → ∀ k < 1024, bitAt (s.mach.group k).gctl 63 = true → bitAt (s.mach.group k).gctl 61 = false → ∀ r, 1 ≤ r → r < 8 →
      Gives (.registerWrite (0x140000 + 64 * k + 8 * r) 8 v) s fun t => t.mach.group k = s.mach.group k) ∧
    (Ready s → ∀ k < 1024, bitAt (s.mach.group k).gctl 63 = false → Gives (.registerWrite (0x140018 + 64 * k) 8 v) s fun t =>
      t.mach.group k = { s.mach.group k with cur := v.setWidth 32 }) ∧
    (s.boot.state ≠ 0 → s.boot.mbBusy = false → Gives (.registerWrite 0x300008 8 v) s fun t =>
      (fld v 7 0 = 1 ∨ fld v 7 0 = 2 → t.boot = { s.boot with mbBusy := true, mbCode := fld v 7 0, mbErr := t.boot.mbErr }) ∧
      (fld v 7 0 ≠ 1 → fld v 7 0 ≠ 2 → t.boot = { s.boot with mbCode := fld v 7 0, mbErr := true })))

/-- R398, R399, R402 to R409: CXL.mem reaches device memory outside the secure ranges, is turned away from those with the count of violations, and reads all
ones before READY. Losing the host link happens once. Package reset leaves memory as it was (the model's reading, log 22), and the boot ROM starts, which
takes no image below the fused counter, goes on to the firmware or fails with its cause, as the firmware goes on to READY or fails. Once in 10 us power
is divided among the desks by the requests that wait, with PWRNOW; HOLD follows a die's sensor, and at 115 degrees the clocks stop. -/
def Obligations.HostMemoryBootAndPower : Prop :=
  (∀ addr data (s : State), Ready s → s.mach.linkUp = true → 1 ≤ data.length → addr % 64 + data.length ≤ 64 → addr + data.length ≤ devTop →
    (s.mach.secureRange addr data.length = false → Gives (.cxlMemWrite addr data) s fun t =>
      t.mach.readBytes .dev addr data.length = data ∧ KeptOutside s t .dev addr data.length ∧ t.mach.out = s.mach.out ++ [.wrote] ∧ t.boot = s.boot ∧
      t.mach.bundles = s.mach.bundles) ∧
    (s.mach.secureRange addr data.length = true → exec (.cxlMemWrite addr data) s = .next { s with
      boot := { s.boot with secviol := if s.boot.secviol = BitVec.allOnes 32 then s.boot.secviol else s.boot.secviol + 1 }
      mach := { s.mach with out := s.mach.out ++ [.wrote] } })) ∧
  (∀ addr n (s : State), s.mach.linkUp = true → 1 ≤ n → addr % 64 + n ≤ 64 → addr + n ≤ devTop →
    let answers := fun (d : List Byte) (b : Boot) =>
      exec (.cxlMemRead addr n) s = .next { s with boot := b, mach := { s.mach with out := s.mach.out ++ [.data d] } }
    (Ready s → s.mach.secureRange addr n = false → s.mach.bad = [] → answers (s.mach.readBytes .dev addr n) s.boot) ∧
    (Ready s → s.mach.secureRange addr n = true → answers (List.replicate n 0)
      { s.boot with secviol := if s.boot.secviol = BitVec.allOnes 32 then s.boot.secviol else s.boot.secviol + 1 }) ∧
    (s.boot.state < 3 → answers (List.replicate n 0xFF) s.boot)) ∧
  (∀ s : State, (s.mach.linkUp = false → exec .hostLinkDown s = .next s) ∧
    (s.mach.linkUp = true → Gives .hostLinkDown s fun t => t.mach.linkUp = false ∧ t.boot = s.boot ∧ t.mach.bundles = s.mach.bundles ∧
      (bitAt s.mach.desk.elbase 0 = false → MemoryKept s t))) ∧
  (∀ s : State, Gives .packageReset s fun t => t.boot = { State.reset.boot with fuse := s.boot.fuse } ∧
    MemoryKept s { t with mach := { t.mach with scratch := s.mach.scratch } } ∧ t.mach.bundles = [] ∧ t.mach.teams = [] ∧ t.mach.grids = [] ∧
    t.mach.runs = [] ∧ t.mach.pkg = 0 ∧ t.mach.clk = 0 ∧ t.mach.desk = State.reset.mach.desk ∧ t.mach.bad = s.mach.bad ∧ t.agenda = s.agenda) ∧
  (∀ fail svn (s : State), let f := s.boot.fuse
    (s.boot.state = 0 → exec (.bootRom fail svn) s = .next { s with boot := { s.boot with state := 1 } }) ∧
    (s.boot.state = 1 → fail = 0 → f.toNat ≤ svn.toNat → exec (.bootRom fail svn) s = .next { s with boot := { s.boot with state := 2, svn := svn } }) ∧
    (s.boot.state = 1 → fail = 1 ∨ fail = 2 ∨ fail = 3 ∧ svn.toNat < f.toNat →
      exec (.bootRom fail svn) s = .next { s with boot := { s.boot with state := 4, cause := fail } }) ∧
    (2 ≤ s.boot.state ∨ fail = 0 ∧ s.boot.state = 1 ∧ svn.toNat < f.toNat → exec (.bootRom fail svn) s = .next s)) ∧
  (∀ w (s : State), (s.boot.state ≠ 2 → exec (.bootFirmware 0 w) s = .next s) ∧ (s.boot.state = 2 →
    (exec (.bootFirmware 4 w) s = .next { s with boot := { s.boot with state := 4, cause := 4 } }) ∧
    (worldsOk w = true → Gives (.bootFirmware 0 w) s fun t => t.boot = { s.boot with state := 3, worlds := w, memActive := true } ∧
      t.mach.ranges = w.ranges ∧ (∀ k ∈ w.cores, (t.mach.core k).world = true) ∧
      (∀ k, k ∉ w.cores → (t.mach.core k).world = (s.mach.core k).world) ∧
      (∀ k ∈ w.queues, bitAt (t.mach.queue k).ctl 17 = true) ∧ (∀ k ∈ w.groups, bitAt (t.mach.group k).gctl 62 = true) ∧
      (∀ r ∈ w.ranges, ∀ a, r.1 ≤ a → a < r.2 → t.mach.readByte .dev a = 0) ∧
      ∀ p ∈ w.pools, ∀ a, p.1 * 65536 ≤ a → a < (p.1 + p.2) * 65536 → t.mach.readByte .dev a = 0))) ∧
  (∀ watts (s : State), let period := 10 * Config.usCycles
    (s.mach.clk / period ≤ s.boot.divided / period → exec (.powerDivision watts) s = .next s) ∧
    (s.boot.divided / period < s.mach.clk / period → Gives (.powerDivision watts) s fun t =>
      t = { s with
        boot := { s.boot with pwrnow := watts % 8192, divided := s.mach.clk }, mach := { s.mach with free := t.mach.free, dies := t.mach.dies } } ∧
      (∀ d, t.mach.die d = { s.mach.die d with share := (t.mach.die d).share }) ∧
      ∃ room ≤ s.boot.pwrlim,
        let queued := fun d => (s.mach.requests d).length
        let total := queued 0 + queued 1 + queued 2 + queued 3
        ∀ d < 4, (total ≠ 0 → (t.mach.die d).share = room * queued d / total) ∧ (t.mach.die d).share ≤ room)) ∧
  (∀ die temp (s : State), die < 4 →
    let shut := fun i => Gives i s fun t => t.boot = { s.boot with stopped := true } ∧ t.mach.linkUp = false ∧
      (t.mach.die die).hold = true ∧ t.mach.bundles = s.mach.bundles
    (105 ≤ temp → temp < 115 → Gives (.thermalHold die temp) s fun t =>
      t.mach.die die = { s.mach.die die with temp := temp, hold := true } ∧ t = { s with mach := { s.mach with dies := t.mach.dies } }) ∧
    (temp < 105 → Gives (.thermalHoldClear die temp) s fun t => t.mach.die die = { s.mach.die die with temp := temp, hold := false } ∧
      t = { s with mach := { s.mach with dies := t.mach.dies } }) ∧
    (temp < 105 → exec (.thermalHold die temp) s = .next s) ∧ (105 ≤ temp → exec (.thermalHoldClear die temp) s = .next s) ∧
    (115 ≤ temp → shut (.thermalHold die temp) ∧ shut (.thermalShutdown die temp)) ∧ (temp < 115 → exec (.thermalShutdown die temp) s = .next s)) ∧
  (∀ s : State, s.boot.stopped = true → s.nextTurn.1.move ≠ .event .packageReset → step s = .fault .clocksStopped)

namespace Sys2Proof.Claims

/-! ## The machine as a whole -/

/-- The words that an instruction's fetch gives from a program counter on, its prefix word first if it has one, with the blocks they came from, and
the machine after it. -/
def Fetches (c : Ctx) (m : Mach) (words : List W32) (got : List (Nat × List Byte × Nat)) (m' : Mach) : Prop :=
  ∃ w g m₁, c.fetchWord m c.pc [] = (.ok (w, g), m₁) ∧
    ((fld w 28 21 ≠ 0xFF ∧ ∃ ws, words = w :: ws ∧
        c.fetchTail (1 + tailWords w) (tailWords w) (c.pc + 4) m₁ g [] = (.ok (ws, got), m')) ∨
      (fld w 28 21 = 0xFF ∧ ∃ w₁ g₁ m₂ ws, c.fetchWord m₁ (c.pc + 4) g = (.ok (w₁, g₁), m₂) ∧ words = w :: w₁ :: ws ∧
        c.fetchTail (2 + tailWords w₁) (tailWords w₁) (c.pc + 8) m₂ g₁ [] = (.ok (ws, got), m')))

/-- Words of the spec's tables of encodings with what they stand for. -/
def encodedWords : List (Nat × Nat × Instr) :=
  let z := Opn.zero
  [(32, 0x08620205, .ffma { z with d := 8, a := 4, b := 5 }),
   (96, 0x406D222202, .st { z with e := true, len := 1, mods := 10, d := 8, a := 4, imm := 0x40 }),
   (32, 0x17014100, .launch { z with d := 5, a := 2 }),
   (32, 0x37200000, .bar { z with e := true }),
   (32, 0x17250006, .bar { z with mods := 18, b := 6 }),
   (32, 0x17414480, .barv { z with d := 5, a := 9 }),
   (96, 0x00E000000000000097402003, .barvSelf { z with len := 2, fn := 1, mods := 3, d := 7 }),
   (32, 0x17610800, .mbwait { z with d := 4, mods := 1 }),
   (32, 0x17C8000C, .waitk { z with mods := 2, imm := 3 }),
   (32, 0x18000180, .sleep { z with a := 3 }),
   (32, 0x18218000, .pwrq { z with d := 6 }),
   (32, 0x1B040042, .trap { z with mp := 2, imm := 0x42 }),
   (32, 0x1B242800, .tret { z with a := 4, b := 5 }),
   (32, 0x3B600000, .halt { z with e := true }),
   (32, 0x1B80C083, .swrpRd { z with d := 3, mods := 0x83 }),
   (32, 0x1B816080, .swrpWr { z with fn := 1, d := 5, mods := 0x80 }),
   (96, 0x00C00800000000009B804000, .swrpSb { z with len := 2, fn := 2, d := 6, a := 2 }),
   (32, 0x0F01A202, .radd { z with mods := 10, d := 6, a := 4 }),
   (32, 0x2E200000, .ifence { z with e := true })]

end Sys2Proof.Claims

/-- R21, R36, R37, R86, R184: in a turn of an issue slot, time passes and the run there fetches the words at its program counter, and where they decode to
an instruction the step is that instruction's; words that are no instruction raise ILL, as does an instruction of old and new blocks (0x61); a first
word that cannot be fetched traps every lane of the group. A word fetched is that of memory or of an older block that the bundle or its core holds, and
of memory where none is held. In a turn of an event the step is the event's. That time and the choice of turns come from an agenda is the model's
(log 1). -/
def Obligations.StepRunsTheDecodedInstruction : Prop :=
  (∀ (s : State) n q rest, s.boot.stopped = false → s.agenda = ⟨n, .issue q⟩ :: rest →
    let s₁ : State := { s with agenda := rest, focus := q, mach := { s.mach with clk := s.mach.clk + max n 1 } }
    let ills := fun (c : Ctx) cause => ∃ (m : Mach) (isz : Nat), step s = .next { s₁ with
      mach := m.raise c.q c.run (({ c with size := 4 * isz } : Ctx).trap clsIll cause) }
    (ctxOf s₁ Opn.zero = none → step s = .next s₁) ∧
    (∀ c e m', ctxOf s₁ Opn.zero = some c → c.grp ≠ 0 → e ≠ 3 →
      s₁.mach.check c.agent ⟨c.pc, 4, 4, false, false, true, false, .fetch, .allowed⟩ = (.error e, m') →
      ∃ x, step s = .next { s₁ with mach := m'.raise c.q c.run x } ∧ x.cls = classOf e ∧ x.cause = e ∧ x.pc = c.pc ∧ x.isz = 0 ∧
        x.conds.map Cond.lane = laneList c.grp) ∧
    (∀ c ws got m', ctxOf s₁ Opn.zero = some c → Fetches c s₁.mach ws got m' →
      (∀ i m'', decodeWords ws = .ok i → m'.mixed got = (false, m'') → step s = exec i { s₁ with mach := m'' }) ∧
      (∀ i m'', decodeWords ws = .ok i → m'.mixed got = (true, m'') → ills c 0x61) ∧
      (∀ e m'', decodeWords ws = .error e → m'.mixed got = (false, m'') →
        ills c (if c.hand = true ∧ handlerOpc (fld (ws.headD 0) 28 21) = false then 0x62 else 0x60)))) ∧
  (∀ (c : Ctx) (m m₁ : Mach) va ps, m.check c.agent ⟨va, 4, 4, false, false, true, false, .fetch, .allowed⟩ = (.ok ps, m₁) →
    let p := onePiece ps
    let held := [Sparse.get [] (m₁.bundle c.key).blocks (blockKey p.space p.addr), Sparse.get [] (m₁.core (coreOfKey c.key)).icache (blockKey p.space p.addr)]
    p.addr % 64 ≤ 60 → m₁.bad = [] →
    ∃ bs got m₂, c.fetchWord m va [] = (.ok (.ofNat 32 (leNat ((bs.drop (p.addr % 64)).take 4)), got), m₂) ∧
      (bs = m₁.readBytes p.space (p.addr / 64 * 64) 64 ∨ bs ∈ held) ∧
      ((∀ x ∈ held, x = []) → leNat ((bs.drop (p.addr % 64)).take 4) = m₁.readNat p.space p.addr 4)) ∧
  (∀ (m : Mach) (got : List (Nat × List Byte × Nat)), (∀ x ∈ got, x.2.2 ≠ 2) → m.mixed got = (false, m)) ∧
  (∀ (s : State) n i rest, s.boot.stopped = false → s.agenda = ⟨n, .event i⟩ :: rest → opnOf i = none →
    step s = exec i { s with agenda := rest, mach := { s.mach with clk := s.mach.clk + max n 1 } })

/-- Decoding the encoding of a well-formed instruction gives it back. -/
def Obligations.DecodeOfEncode : Prop :=
  ∀ i o, opnOf i = some o → i.wf = true → decodeWords (encode i) = .ok i

/-- Words of the spec's examples decode to what they stand for. -/
def Obligations.ExampleWordsDecode : Prop := ∀ e ∈ encodedWords, decodeTableWord e.1 e.2.1 = some e.2.2

/-- R165, R309, R387, R400, R402, R404, R405, R408: right after reset the package is in RESET, before the boot ROM, with no package number, PWRLIM is 4200, the
queues hold their default sizes, nothing is resident, and the legal values of the boot registers and the canonical form of the memories hold. That
memory reads as zero, registers without a reset value of the spec's are zero and no fused counter is set is the model's choice (log 3). -/
def Obligations.ResetValues : Prop :=
  let s := State.reset
  s.boot.state = 0 ∧ s.boot.cause = 0 ∧ s.boot.pkgV = false ∧ s.mach.pkg = 0 ∧ s.boot.mbBusy = false ∧ s.boot.mbErr = false ∧
    s.boot.pwrlim = 4200 ∧ s.boot.stopped = false ∧ s.boot.secviol = 0 ∧ s.boot.memActive = false ∧ s.boot.fuse = 0 ∧
    (∀ k, (s.mach.queue k).ctl = 4 ∧ (s.mach.queue k).base = 0 ∧ (s.mach.queue k).tail = 0 ∧ (s.mach.queue k).head = 0) ∧
    s.mach.desk.fqsize = 6 ∧ s.mach.desk.stqsize = 6 ∧ s.mach.desk.elsize = 6 ∧ s.mach.desk.astbase = 0 ∧ s.mach.desk.tlbinvc = 0 ∧
    (∀ k, s.mach.bundle? k = none) ∧ (∀ k, s.mach.team? k = none) ∧ (∀ k, s.mach.grid? k = none) ∧ (∀ q, s.mach.run? q = none) ∧
    (∀ k, (s.mach.core k).cst = 0 ∧ (s.mach.core k).tray = [] ∧ (s.mach.core k).drops = 0 ∧ (s.mach.core k).tlb = [] ∧ (s.mach.core k).rcache = []) ∧
    (∀ k, (s.mach.die k).tlb2 = [] ∧ (s.mach.die k).regions = [] ∧ (s.mach.die k).marks = []) ∧
    (∀ k, (s.mach.group k).gctl = 0) ∧ (∀ sp a, s.mach.readByte sp a = 0) ∧ s.MemInv ∧ s.BootInv

/-- R402 to R405, R408: every step keeps the boot, identity and power registers at legal values: a state of R402 with a CAUSE in FAILED alone, a package
number only in READY, a busy mailbox only for a command, PWRLIM and PWRNOW within their ranges. Every step keeps the canonical form of the three
memories, which is the model's own. -/
def Obligations.StepsKeepTheInvariants : Prop :=
  (∀ s t : State, s.BootInv → step s = .next t → t.BootInv) ∧ (∀ s t : State, s.MemInv → step s = .next t → t.MemInv)
end

