-- ==== Sys2Proof/Laws/Memory.lean ====
section
/-! SUPPORT. Laws of the sparse store and of the memories kept in it: reading after a write, and that every memory operation keeps the
canonical form. -/

namespace Sys2Proof

/-! ## The sparse store -/

section Store

variable {α : Type} (d : α)

theorem Sparse.get_erase (m : Sparse α) (i j : Nat) : Sparse.get d (Sparse.erase m i) j = if j = i then d else Sparse.get d m j := by
  induction m with
  | nil => simp [Sparse.erase, Sparse.get]
  | cons p r ih =>
    obtain ⟨k, w⟩ := p
    by_cases h : i = k
    · simp only [Sparse.erase, if_pos h, ih, Sparse.get]
      by_cases g : j = k <;> simp_all
    · simp only [Sparse.erase, if_neg h, Sparse.get, ih]
      by_cases g : j = k
      · simp [g, Ne.symm h]
      · simp [g]

theorem Sparse.get_insert (m : Sparse α) (i j : Nat) (v : α) :
    Sparse.get d (Sparse.insert m i v) j = if j = i then v else Sparse.get d m j := by
  induction m with
  | nil => simp [Sparse.insert, Sparse.get]
  | cons p r ih =>
    obtain ⟨k, w⟩ := p
    simp only [Sparse.insert, Sparse.get]
    split
    · simp [Sparse.get]
    · by_cases h : i = k
      · subst h
        by_cases g : j = i <;> simp [Sparse.get, g]
      · simp only [if_neg h, Sparse.get, ih]
        by_cases g : j = k
        · simp [g, Ne.symm h]
        · simp [g]

variable [DecidableEq α]

/-- Reading after a write. -/
theorem Sparse.get_put (m : Sparse α) (i j : Nat) (v : α) :
    Sparse.get d (Sparse.put d m i v) j = if j = i then v else Sparse.get d m j := by
  unfold Sparse.put
  split
  · next h => rw [Sparse.get_erase, h]
  · exact Sparse.get_insert d m i j v

@[simp] theorem Sparse.get_put_same (m : Sparse α) (i : Nat) (v : α) : Sparse.get d (Sparse.put d m i v) i = v := by
  simp [Sparse.get_put]

theorem Sparse.get_put_ne (m : Sparse α) {i j : Nat} (v : α) (h : j ≠ i) :
    Sparse.get d (Sparse.put d m i v) j = Sparse.get d m j := by
  simp [Sparse.get_put, h]

theorem Sparse.wfFrom_mono {m : Sparse α} {a b : Nat} (h : a ≤ b) (hw : Sparse.wfFrom d b m = true) : Sparse.wfFrom d a m = true := by
  cases m with
  | nil => rfl
  | cons p r =>
    obtain ⟨k, w⟩ := p
    simp only [Sparse.wfFrom, Bool.and_eq_true, decide_eq_true_eq] at hw ⊢
    exact ⟨⟨by omega, hw.1.2⟩, hw.2⟩

theorem Sparse.wfFrom_erase {m : Sparse α} {a : Nat} (i : Nat) (hw : Sparse.wfFrom d a m = true) :
    Sparse.wfFrom d a (Sparse.erase m i) = true := by
  induction m generalizing a with
  | nil => rfl
  | cons p r ih =>
    obtain ⟨k, w⟩ := p
    simp only [Sparse.wfFrom, Bool.and_eq_true, decide_eq_true_eq] at hw
    simp only [Sparse.erase]
    split
    · exact Sparse.wfFrom_mono d (by omega) (ih hw.2)
    · simp only [Sparse.wfFrom, Bool.and_eq_true, decide_eq_true_eq]
      exact ⟨hw.1, ih hw.2⟩

theorem Sparse.wfFrom_insert {m : Sparse α} {a i : Nat} {v : α} (hi : a ≤ i) (hv : v ≠ d) (hw : Sparse.wfFrom d a m = true) :
    Sparse.wfFrom d a (Sparse.insert m i v) = true := by
  induction m generalizing a with
  | nil => simp [Sparse.insert, Sparse.wfFrom, hi, hv]
  | cons p r ih =>
    obtain ⟨k, w⟩ := p
    simp only [Sparse.wfFrom, Bool.and_eq_true, decide_eq_true_eq] at hw
    simp only [Sparse.insert]
    split
    · simp only [Sparse.wfFrom, Bool.and_eq_true, decide_eq_true_eq]
      exact ⟨⟨hi, hv⟩, ⟨by omega, hw.1.2⟩, hw.2⟩
    · split
      · simp only [Sparse.wfFrom, Bool.and_eq_true, decide_eq_true_eq]
        exact ⟨⟨hi, hv⟩, by simp_all⟩
      · simp only [Sparse.wfFrom, Bool.and_eq_true, decide_eq_true_eq]
        exact ⟨hw.1, ih (by omega) hw.2⟩

/-- A write keeps the canonical form. -/
theorem Sparse.wf_put {m : Sparse α} (i : Nat) (v : α) (hw : Sparse.wf d m = true) : Sparse.wf d (Sparse.put d m i v) = true := by
  unfold Sparse.put
  split
  · exact Sparse.wfFrom_erase d i hw
  · next h => exact Sparse.wfFrom_insert d (Nat.zero_le i) h hw

end Store

namespace Machine

/-! ## One byte -/

theorem readByte_writeByte (m : Mach) (sp sp' : Space) (a a' : Nat) (b : Byte) :
    (m.writeByte sp a b).readByte sp' a' = if sp' = sp ∧ a' = a then b else m.readByte sp' a' := by
  cases sp <;> cases sp' <;> simp [Mach.writeByte, Mach.readByte, Mach.mem, Sparse.get_put]

theorem writeByte_wf (m : Mach) (sp : Space) (a : Nat) (b : Byte) (h : m.memWf = true) : (m.writeByte sp a b).memWf = true := by
  simp only [Mach.memWf, Memory.wf, Bool.and_eq_true] at h ⊢
  cases sp
  · exact ⟨⟨Sparse.wf_put _ _ _ h.1.1, h.1.2⟩, h.2⟩
  · exact ⟨⟨h.1.1, Sparse.wf_put _ _ _ h.1.2⟩, h.2⟩
  · exact ⟨h.1, Sparse.wf_put _ _ _ h.2⟩

/-! ## Many bytes -/

theorem writeCells_wf (cs : List (Nat × Byte)) (m : Mach) (sp : Space) (h : m.memWf = true) : (m.writeCells sp cs).memWf = true := by
  induction cs generalizing m with
  | nil => exact h
  | cons c r ih => exact ih _ (writeByte_wf m sp c.1 c.2 h)

theorem writeBytes_wf (m : Mach) (sp : Space) (a : Nat) (bs : List Byte) (h : m.memWf = true) : (m.writeBytes sp a bs).memWf = true :=
  writeCells_wf _ m sp h

theorem writeNat_wf (m : Mach) (sp : Space) (a n v : Nat) (h : m.memWf = true) : (m.writeNat sp a n v).memWf = true :=
  writeBytes_wf m sp a _ h

/-- A byte that no cell names, or that lies in another space, is left alone. -/
theorem readByte_writeCells_other (cs : List (Nat × Byte)) (m : Mach) (sp sp' : Space) (a : Nat)
    (h : sp' ≠ sp ∨ ∀ c ∈ cs, c.1 ≠ a) : (m.writeCells sp cs).readByte sp' a = m.readByte sp' a := by
  induction cs generalizing m with
  | nil => rfl
  | cons c r ih =>
    obtain ⟨k, b⟩ := c
    have h' : sp' ≠ sp ∨ ∀ c ∈ r, c.1 ≠ a := h.imp id fun g c hc => g c (List.mem_cons_of_mem _ hc)
    show ((m.writeByte sp k b).writeCells sp r).readByte sp' a = _
    rw [ih _ h', readByte_writeByte, if_neg]
    rintro ⟨rfl, rfl⟩
    exact h.elim (fun g => g rfl) fun g => g (a, b) List.mem_cons_self rfl

theorem cellsAt_bounds (bs : List Byte) (a : Nat) : ∀ c ∈ cellsAt a bs, a ≤ c.1 ∧ c.1 < a + bs.length := by
  induction bs generalizing a with
  | nil => simp [cellsAt]
  | cons b r ih =>
    intro c hc
    rcases List.mem_cons.mp hc with rfl | hc
    · simp
    · have := ih (a + 1) c hc
      simp only [List.length_cons]
      omega

/-- A write of bytes leaves every byte outside them alone. -/
theorem readByte_writeBytes_other (m : Mach) (sp sp' : Space) (a a' : Nat) (bs : List Byte)
    (h : sp' ≠ sp ∨ a' < a ∨ a + bs.length ≤ a') : (m.writeBytes sp a bs).readByte sp' a' = m.readByte sp' a' := by
  refine readByte_writeCells_other _ m sp sp' a' (h.imp id fun h c hc => ?_)
  have := cellsAt_bounds bs a c hc
  omega

/-- A write of bytes reads back. -/
theorem readByte_writeBytes_same (bs : List Byte) (m : Mach) (sp : Space) (a k : Nat) (h : k < bs.length) :
    (m.writeBytes sp a bs).readByte sp (a + k) = bs[k] := by
  induction bs generalizing m a k with
  | nil => simp at h
  | cons b r ih =>
    show ((m.writeByte sp a b).writeBytes sp (a + 1) r).readByte sp (a + k) = _
    cases k with
    | zero =>
      rw [readByte_writeBytes_other _ _ _ _ _ _ (Or.inr (Or.inl (by omega))), readByte_writeByte]
      simp
    | succ n =>
      have := ih (m.writeByte sp a b) (a + 1) n (by simpa using h)
      rw [show a + (n + 1) = a + 1 + n by omega, this]
      simp

theorem leBytes_length (n v : Nat) : (leBytes n v).length = n := by
  induction n generalizing v with
  | zero => rfl
  | succ n ih => simp [leBytes, ih]

theorem leNat_leBytes (n v : Nat) : leNat (leBytes n v) = v % 256 ^ n := by
  induction n generalizing v with
  | zero => simp [leBytes, leNat, Nat.mod_one]
  | succ n ih =>
    have e : 256 ^ (n + 1) = 2 ^ 8 * 256 ^ n := (Nat.pow_succ ..).trans (Nat.mul_comm _ _)
    rw [leBytes, leNat, ih, BitVec.toNat_ofNat, e, Nat.mod_mul]
    all_goals rfl

theorem readBytes_writeBytes_same (m : Mach) (sp : Space) (a : Nat) (bs : List Byte) :
    (m.writeBytes sp a bs).readBytes sp a bs.length = bs := by
  apply List.ext_getElem
  · simp [Mach.readBytes]
  · intro i h₁ h₂
    simp only [Mach.readBytes, List.getElem_map, List.getElem_range]
    exact readByte_writeBytes_same bs m sp a i h₂

/-- A number written reads back (R2). -/
theorem readNat_writeNat_same (m : Mach) (sp : Space) (a n v : Nat) : (m.writeNat sp a n v).readNat sp a n = v % 256 ^ n := by
  have h := readBytes_writeBytes_same m sp a (leBytes n v)
  rw [leBytes_length] at h
  simp only [Mach.readNat, Mach.writeNat, h, leNat_leBytes]

end Machine

end Sys2Proof
end

