-- ==== Sys2Proof/Laws/State.lean ====
section
/-! SUPPORT. One lemma per field for each update of the state's records, so that no later proof unfolds an update. -/

namespace Sys2Proof.Machine

/-! ## Mach.setCore -/

@[simp] theorem Mach.setCore_clk (m : Mach) (k : Nat) (x : Core) : (m.setCore k x).clk = m.clk := rfl
@[simp] theorem Mach.setCore_pkg (m : Mach) (k : Nat) (x : Core) : (m.setCore k x).pkg = m.pkg := rfl
@[simp] theorem Mach.setCore_free (m : Mach) (k : Nat) (x : Core) : (m.setCore k x).free = m.free := rfl
@[simp] theorem Mach.setCore_nextOp (m : Mach) (k : Nat) (x : Core) : (m.setCore k x).nextOp = m.nextOp := rfl
@[simp] theorem Mach.setCore_dev (m : Mach) (k : Nat) (x : Core) : (m.setCore k x).dev = m.dev := rfl
@[simp] theorem Mach.setCore_host (m : Mach) (k : Nat) (x : Core) : (m.setCore k x).host = m.host := rfl
@[simp] theorem Mach.setCore_scratch (m : Mach) (k : Nat) (x : Core) : (m.setCore k x).scratch = m.scratch := rfl
@[simp] theorem Mach.setCore_linkUp (m : Mach) (k : Nat) (x : Core) : (m.setCore k x).linkUp = m.linkUp := rfl
@[simp] theorem Mach.setCore_desk (m : Mach) (k : Nat) (x : Core) : (m.setCore k x).desk = m.desk := rfl
@[simp] theorem Mach.setCore_queues (m : Mach) (k : Nat) (x : Core) : (m.setCore k x).queues = m.queues := rfl
@[simp] theorem Mach.setCore_grids (m : Mach) (k : Nat) (x : Core) : (m.setCore k x).grids = m.grids := rfl
@[simp] theorem Mach.setCore_nextGrid (m : Mach) (k : Nat) (x : Core) : (m.setCore k x).nextGrid = m.nextGrid := rfl
@[simp] theorem Mach.setCore_teams (m : Mach) (k : Nat) (x : Core) : (m.setCore k x).teams = m.teams := rfl
@[simp] theorem Mach.setCore_bundles (m : Mach) (k : Nat) (x : Core) : (m.setCore k x).bundles = m.bundles := rfl
@[simp] theorem Mach.setCore_runs (m : Mach) (k : Nat) (x : Core) : (m.setCore k x).runs = m.runs := rfl
@[simp] theorem Mach.setCore_dies (m : Mach) (k : Nat) (x : Core) : (m.setCore k x).dies = m.dies := rfl
@[simp] theorem Mach.setCore_ops (m : Mach) (k : Nat) (x : Core) : (m.setCore k x).ops = m.ops := rfl
@[simp] theorem Mach.setCore_later (m : Mach) (k : Nat) (x : Core) : (m.setCore k x).later = m.later := rfl
@[simp] theorem Mach.setCore_early (m : Mach) (k : Nat) (x : Core) : (m.setCore k x).early = m.early := rfl
@[simp] theorem Mach.setCore_copies (m : Mach) (k : Nat) (x : Core) : (m.setCore k x).copies = m.copies := rfl
@[simp] theorem Mach.setCore_sent (m : Mach) (k : Nat) (x : Core) : (m.setCore k x).sent = m.sent := rfl
@[simp] theorem Mach.setCore_spent (m : Mach) (k : Nat) (x : Core) : (m.setCore k x).spent = m.spent := rfl
@[simp] theorem Mach.setCore_wire (m : Mach) (k : Nat) (x : Core) : (m.setCore k x).wire = m.wire := rfl
@[simp] theorem Mach.setCore_acks (m : Mach) (k : Nat) (x : Core) : (m.setCore k x).acks = m.acks := rfl
@[simp] theorem Mach.setCore_settles (m : Mach) (k : Nat) (x : Core) : (m.setCore k x).settles = m.settles := rfl
@[simp] theorem Mach.setCore_out (m : Mach) (k : Nat) (x : Core) : (m.setCore k x).out = m.out := rfl
@[simp] theorem Mach.setCore_frames (m : Mach) (k : Nat) (x : Core) : (m.setCore k x).frames = m.frames := rfl
@[simp] theorem Mach.setCore_groups (m : Mach) (k : Nat) (x : Core) : (m.setCore k x).groups = m.groups := rfl
@[simp] theorem Mach.setCore_insts (m : Mach) (k : Nat) (x : Core) : (m.setCore k x).insts = m.insts := rfl
@[simp] theorem Mach.setCore_fence (m : Mach) (k : Nat) (x : Core) : (m.setCore k x).fence = m.fence := rfl
@[simp] theorem Mach.setCore_ranges (m : Mach) (k : Nat) (x : Core) : (m.setCore k x).ranges = m.ranges := rfl
@[simp] theorem Mach.setCore_bad (m : Mach) (k : Nat) (x : Core) : (m.setCore k x).bad = m.bad := rfl

/-! ## Mach.setDie -/

@[simp] theorem Mach.setDie_clk (m : Mach) (k : Nat) (x : Die) : (m.setDie k x).clk = m.clk := rfl
@[simp] theorem Mach.setDie_pkg (m : Mach) (k : Nat) (x : Die) : (m.setDie k x).pkg = m.pkg := rfl
@[simp] theorem Mach.setDie_free (m : Mach) (k : Nat) (x : Die) : (m.setDie k x).free = m.free := rfl
@[simp] theorem Mach.setDie_nextOp (m : Mach) (k : Nat) (x : Die) : (m.setDie k x).nextOp = m.nextOp := rfl
@[simp] theorem Mach.setDie_dev (m : Mach) (k : Nat) (x : Die) : (m.setDie k x).dev = m.dev := rfl
@[simp] theorem Mach.setDie_host (m : Mach) (k : Nat) (x : Die) : (m.setDie k x).host = m.host := rfl
@[simp] theorem Mach.setDie_scratch (m : Mach) (k : Nat) (x : Die) : (m.setDie k x).scratch = m.scratch := rfl
@[simp] theorem Mach.setDie_linkUp (m : Mach) (k : Nat) (x : Die) : (m.setDie k x).linkUp = m.linkUp := rfl
@[simp] theorem Mach.setDie_desk (m : Mach) (k : Nat) (x : Die) : (m.setDie k x).desk = m.desk := rfl
@[simp] theorem Mach.setDie_queues (m : Mach) (k : Nat) (x : Die) : (m.setDie k x).queues = m.queues := rfl
@[simp] theorem Mach.setDie_grids (m : Mach) (k : Nat) (x : Die) : (m.setDie k x).grids = m.grids := rfl
@[simp] theorem Mach.setDie_nextGrid (m : Mach) (k : Nat) (x : Die) : (m.setDie k x).nextGrid = m.nextGrid := rfl
@[simp] theorem Mach.setDie_teams (m : Mach) (k : Nat) (x : Die) : (m.setDie k x).teams = m.teams := rfl
@[simp] theorem Mach.setDie_bundles (m : Mach) (k : Nat) (x : Die) : (m.setDie k x).bundles = m.bundles := rfl
@[simp] theorem Mach.setDie_runs (m : Mach) (k : Nat) (x : Die) : (m.setDie k x).runs = m.runs := rfl
@[simp] theorem Mach.setDie_cores (m : Mach) (k : Nat) (x : Die) : (m.setDie k x).cores = m.cores := rfl
@[simp] theorem Mach.setDie_ops (m : Mach) (k : Nat) (x : Die) : (m.setDie k x).ops = m.ops := rfl
@[simp] theorem Mach.setDie_later (m : Mach) (k : Nat) (x : Die) : (m.setDie k x).later = m.later := rfl
@[simp] theorem Mach.setDie_early (m : Mach) (k : Nat) (x : Die) : (m.setDie k x).early = m.early := rfl
@[simp] theorem Mach.setDie_copies (m : Mach) (k : Nat) (x : Die) : (m.setDie k x).copies = m.copies := rfl
@[simp] theorem Mach.setDie_sent (m : Mach) (k : Nat) (x : Die) : (m.setDie k x).sent = m.sent := rfl
@[simp] theorem Mach.setDie_spent (m : Mach) (k : Nat) (x : Die) : (m.setDie k x).spent = m.spent := rfl
@[simp] theorem Mach.setDie_wire (m : Mach) (k : Nat) (x : Die) : (m.setDie k x).wire = m.wire := rfl
@[simp] theorem Mach.setDie_acks (m : Mach) (k : Nat) (x : Die) : (m.setDie k x).acks = m.acks := rfl
@[simp] theorem Mach.setDie_settles (m : Mach) (k : Nat) (x : Die) : (m.setDie k x).settles = m.settles := rfl
@[simp] theorem Mach.setDie_out (m : Mach) (k : Nat) (x : Die) : (m.setDie k x).out = m.out := rfl
@[simp] theorem Mach.setDie_frames (m : Mach) (k : Nat) (x : Die) : (m.setDie k x).frames = m.frames := rfl
@[simp] theorem Mach.setDie_groups (m : Mach) (k : Nat) (x : Die) : (m.setDie k x).groups = m.groups := rfl
@[simp] theorem Mach.setDie_insts (m : Mach) (k : Nat) (x : Die) : (m.setDie k x).insts = m.insts := rfl
@[simp] theorem Mach.setDie_fence (m : Mach) (k : Nat) (x : Die) : (m.setDie k x).fence = m.fence := rfl
@[simp] theorem Mach.setDie_ranges (m : Mach) (k : Nat) (x : Die) : (m.setDie k x).ranges = m.ranges := rfl
@[simp] theorem Mach.setDie_bad (m : Mach) (k : Nat) (x : Die) : (m.setDie k x).bad = m.bad := rfl

/-! ## Mach.setBundle -/

@[simp] theorem Mach.setBundle_clk (m : Mach) (k : Nat) (x : Option Bundle) : (m.setBundle k x).clk = m.clk := rfl
@[simp] theorem Mach.setBundle_pkg (m : Mach) (k : Nat) (x : Option Bundle) : (m.setBundle k x).pkg = m.pkg := rfl
@[simp] theorem Mach.setBundle_free (m : Mach) (k : Nat) (x : Option Bundle) : (m.setBundle k x).free = m.free := rfl
@[simp] theorem Mach.setBundle_nextOp (m : Mach) (k : Nat) (x : Option Bundle) : (m.setBundle k x).nextOp = m.nextOp := rfl
@[simp] theorem Mach.setBundle_dev (m : Mach) (k : Nat) (x : Option Bundle) : (m.setBundle k x).dev = m.dev := rfl
@[simp] theorem Mach.setBundle_host (m : Mach) (k : Nat) (x : Option Bundle) : (m.setBundle k x).host = m.host := rfl
@[simp] theorem Mach.setBundle_scratch (m : Mach) (k : Nat) (x : Option Bundle) : (m.setBundle k x).scratch = m.scratch := rfl
@[simp] theorem Mach.setBundle_linkUp (m : Mach) (k : Nat) (x : Option Bundle) : (m.setBundle k x).linkUp = m.linkUp := rfl
@[simp] theorem Mach.setBundle_desk (m : Mach) (k : Nat) (x : Option Bundle) : (m.setBundle k x).desk = m.desk := rfl
@[simp] theorem Mach.setBundle_queues (m : Mach) (k : Nat) (x : Option Bundle) : (m.setBundle k x).queues = m.queues := rfl
@[simp] theorem Mach.setBundle_grids (m : Mach) (k : Nat) (x : Option Bundle) : (m.setBundle k x).grids = m.grids := rfl
@[simp] theorem Mach.setBundle_nextGrid (m : Mach) (k : Nat) (x : Option Bundle) : (m.setBundle k x).nextGrid = m.nextGrid := rfl
@[simp] theorem Mach.setBundle_teams (m : Mach) (k : Nat) (x : Option Bundle) : (m.setBundle k x).teams = m.teams := rfl
@[simp] theorem Mach.setBundle_runs (m : Mach) (k : Nat) (x : Option Bundle) : (m.setBundle k x).runs = m.runs := rfl
@[simp] theorem Mach.setBundle_cores (m : Mach) (k : Nat) (x : Option Bundle) : (m.setBundle k x).cores = m.cores := rfl
@[simp] theorem Mach.setBundle_dies (m : Mach) (k : Nat) (x : Option Bundle) : (m.setBundle k x).dies = m.dies := rfl
@[simp] theorem Mach.setBundle_ops (m : Mach) (k : Nat) (x : Option Bundle) : (m.setBundle k x).ops = m.ops := rfl
@[simp] theorem Mach.setBundle_later (m : Mach) (k : Nat) (x : Option Bundle) : (m.setBundle k x).later = m.later := rfl
@[simp] theorem Mach.setBundle_early (m : Mach) (k : Nat) (x : Option Bundle) : (m.setBundle k x).early = m.early := rfl
@[simp] theorem Mach.setBundle_copies (m : Mach) (k : Nat) (x : Option Bundle) : (m.setBundle k x).copies = m.copies := rfl
@[simp] theorem Mach.setBundle_sent (m : Mach) (k : Nat) (x : Option Bundle) : (m.setBundle k x).sent = m.sent := rfl
@[simp] theorem Mach.setBundle_spent (m : Mach) (k : Nat) (x : Option Bundle) : (m.setBundle k x).spent = m.spent := rfl
@[simp] theorem Mach.setBundle_wire (m : Mach) (k : Nat) (x : Option Bundle) : (m.setBundle k x).wire = m.wire := rfl
@[simp] theorem Mach.setBundle_acks (m : Mach) (k : Nat) (x : Option Bundle) : (m.setBundle k x).acks = m.acks := rfl
@[simp] theorem Mach.setBundle_settles (m : Mach) (k : Nat) (x : Option Bundle) : (m.setBundle k x).settles = m.settles := rfl
@[simp] theorem Mach.setBundle_out (m : Mach) (k : Nat) (x : Option Bundle) : (m.setBundle k x).out = m.out := rfl
@[simp] theorem Mach.setBundle_frames (m : Mach) (k : Nat) (x : Option Bundle) : (m.setBundle k x).frames = m.frames := rfl
@[simp] theorem Mach.setBundle_groups (m : Mach) (k : Nat) (x : Option Bundle) : (m.setBundle k x).groups = m.groups := rfl
@[simp] theorem Mach.setBundle_insts (m : Mach) (k : Nat) (x : Option Bundle) : (m.setBundle k x).insts = m.insts := rfl
@[simp] theorem Mach.setBundle_fence (m : Mach) (k : Nat) (x : Option Bundle) : (m.setBundle k x).fence = m.fence := rfl
@[simp] theorem Mach.setBundle_ranges (m : Mach) (k : Nat) (x : Option Bundle) : (m.setBundle k x).ranges = m.ranges := rfl
@[simp] theorem Mach.setBundle_bad (m : Mach) (k : Nat) (x : Option Bundle) : (m.setBundle k x).bad = m.bad := rfl

/-! ## Mach.setTeam -/

@[simp] theorem Mach.setTeam_clk (m : Mach) (k : Nat) (x : Option Team) : (m.setTeam k x).clk = m.clk := rfl
@[simp] theorem Mach.setTeam_pkg (m : Mach) (k : Nat) (x : Option Team) : (m.setTeam k x).pkg = m.pkg := rfl
@[simp] theorem Mach.setTeam_free (m : Mach) (k : Nat) (x : Option Team) : (m.setTeam k x).free = m.free := rfl
@[simp] theorem Mach.setTeam_nextOp (m : Mach) (k : Nat) (x : Option Team) : (m.setTeam k x).nextOp = m.nextOp := rfl
@[simp] theorem Mach.setTeam_dev (m : Mach) (k : Nat) (x : Option Team) : (m.setTeam k x).dev = m.dev := rfl
@[simp] theorem Mach.setTeam_host (m : Mach) (k : Nat) (x : Option Team) : (m.setTeam k x).host = m.host := rfl
@[simp] theorem Mach.setTeam_scratch (m : Mach) (k : Nat) (x : Option Team) : (m.setTeam k x).scratch = m.scratch := rfl
@[simp] theorem Mach.setTeam_linkUp (m : Mach) (k : Nat) (x : Option Team) : (m.setTeam k x).linkUp = m.linkUp := rfl
@[simp] theorem Mach.setTeam_desk (m : Mach) (k : Nat) (x : Option Team) : (m.setTeam k x).desk = m.desk := rfl
@[simp] theorem Mach.setTeam_queues (m : Mach) (k : Nat) (x : Option Team) : (m.setTeam k x).queues = m.queues := rfl
@[simp] theorem Mach.setTeam_grids (m : Mach) (k : Nat) (x : Option Team) : (m.setTeam k x).grids = m.grids := rfl
@[simp] theorem Mach.setTeam_nextGrid (m : Mach) (k : Nat) (x : Option Team) : (m.setTeam k x).nextGrid = m.nextGrid := rfl
@[simp] theorem Mach.setTeam_bundles (m : Mach) (k : Nat) (x : Option Team) : (m.setTeam k x).bundles = m.bundles := rfl
@[simp] theorem Mach.setTeam_runs (m : Mach) (k : Nat) (x : Option Team) : (m.setTeam k x).runs = m.runs := rfl
@[simp] theorem Mach.setTeam_cores (m : Mach) (k : Nat) (x : Option Team) : (m.setTeam k x).cores = m.cores := rfl
@[simp] theorem Mach.setTeam_dies (m : Mach) (k : Nat) (x : Option Team) : (m.setTeam k x).dies = m.dies := rfl
@[simp] theorem Mach.setTeam_ops (m : Mach) (k : Nat) (x : Option Team) : (m.setTeam k x).ops = m.ops := rfl
@[simp] theorem Mach.setTeam_later (m : Mach) (k : Nat) (x : Option Team) : (m.setTeam k x).later = m.later := rfl
@[simp] theorem Mach.setTeam_early (m : Mach) (k : Nat) (x : Option Team) : (m.setTeam k x).early = m.early := rfl
@[simp] theorem Mach.setTeam_copies (m : Mach) (k : Nat) (x : Option Team) : (m.setTeam k x).copies = m.copies := rfl
@[simp] theorem Mach.setTeam_sent (m : Mach) (k : Nat) (x : Option Team) : (m.setTeam k x).sent = m.sent := rfl
@[simp] theorem Mach.setTeam_spent (m : Mach) (k : Nat) (x : Option Team) : (m.setTeam k x).spent = m.spent := rfl
@[simp] theorem Mach.setTeam_wire (m : Mach) (k : Nat) (x : Option Team) : (m.setTeam k x).wire = m.wire := rfl
@[simp] theorem Mach.setTeam_acks (m : Mach) (k : Nat) (x : Option Team) : (m.setTeam k x).acks = m.acks := rfl
@[simp] theorem Mach.setTeam_settles (m : Mach) (k : Nat) (x : Option Team) : (m.setTeam k x).settles = m.settles := rfl
@[simp] theorem Mach.setTeam_out (m : Mach) (k : Nat) (x : Option Team) : (m.setTeam k x).out = m.out := rfl
@[simp] theorem Mach.setTeam_frames (m : Mach) (k : Nat) (x : Option Team) : (m.setTeam k x).frames = m.frames := rfl
@[simp] theorem Mach.setTeam_groups (m : Mach) (k : Nat) (x : Option Team) : (m.setTeam k x).groups = m.groups := rfl
@[simp] theorem Mach.setTeam_insts (m : Mach) (k : Nat) (x : Option Team) : (m.setTeam k x).insts = m.insts := rfl
@[simp] theorem Mach.setTeam_fence (m : Mach) (k : Nat) (x : Option Team) : (m.setTeam k x).fence = m.fence := rfl
@[simp] theorem Mach.setTeam_ranges (m : Mach) (k : Nat) (x : Option Team) : (m.setTeam k x).ranges = m.ranges := rfl
@[simp] theorem Mach.setTeam_bad (m : Mach) (k : Nat) (x : Option Team) : (m.setTeam k x).bad = m.bad := rfl

/-! ## Mach.setGrid -/

@[simp] theorem Mach.setGrid_clk (m : Mach) (k : Nat) (x : Option Grid) : (m.setGrid k x).clk = m.clk := rfl
@[simp] theorem Mach.setGrid_pkg (m : Mach) (k : Nat) (x : Option Grid) : (m.setGrid k x).pkg = m.pkg := rfl
@[simp] theorem Mach.setGrid_free (m : Mach) (k : Nat) (x : Option Grid) : (m.setGrid k x).free = m.free := rfl
@[simp] theorem Mach.setGrid_nextOp (m : Mach) (k : Nat) (x : Option Grid) : (m.setGrid k x).nextOp = m.nextOp := rfl
@[simp] theorem Mach.setGrid_dev (m : Mach) (k : Nat) (x : Option Grid) : (m.setGrid k x).dev = m.dev := rfl
@[simp] theorem Mach.setGrid_host (m : Mach) (k : Nat) (x : Option Grid) : (m.setGrid k x).host = m.host := rfl
@[simp] theorem Mach.setGrid_scratch (m : Mach) (k : Nat) (x : Option Grid) : (m.setGrid k x).scratch = m.scratch := rfl
@[simp] theorem Mach.setGrid_linkUp (m : Mach) (k : Nat) (x : Option Grid) : (m.setGrid k x).linkUp = m.linkUp := rfl
@[simp] theorem Mach.setGrid_desk (m : Mach) (k : Nat) (x : Option Grid) : (m.setGrid k x).desk = m.desk := rfl
@[simp] theorem Mach.setGrid_queues (m : Mach) (k : Nat) (x : Option Grid) : (m.setGrid k x).queues = m.queues := rfl
@[simp] theorem Mach.setGrid_nextGrid (m : Mach) (k : Nat) (x : Option Grid) : (m.setGrid k x).nextGrid = m.nextGrid := rfl
@[simp] theorem Mach.setGrid_teams (m : Mach) (k : Nat) (x : Option Grid) : (m.setGrid k x).teams = m.teams := rfl
@[simp] theorem Mach.setGrid_bundles (m : Mach) (k : Nat) (x : Option Grid) : (m.setGrid k x).bundles = m.bundles := rfl
@[simp] theorem Mach.setGrid_runs (m : Mach) (k : Nat) (x : Option Grid) : (m.setGrid k x).runs = m.runs := rfl
@[simp] theorem Mach.setGrid_cores (m : Mach) (k : Nat) (x : Option Grid) : (m.setGrid k x).cores = m.cores := rfl
@[simp] theorem Mach.setGrid_dies (m : Mach) (k : Nat) (x : Option Grid) : (m.setGrid k x).dies = m.dies := rfl
@[simp] theorem Mach.setGrid_ops (m : Mach) (k : Nat) (x : Option Grid) : (m.setGrid k x).ops = m.ops := rfl
@[simp] theorem Mach.setGrid_later (m : Mach) (k : Nat) (x : Option Grid) : (m.setGrid k x).later = m.later := rfl
@[simp] theorem Mach.setGrid_early (m : Mach) (k : Nat) (x : Option Grid) : (m.setGrid k x).early = m.early := rfl
@[simp] theorem Mach.setGrid_copies (m : Mach) (k : Nat) (x : Option Grid) : (m.setGrid k x).copies = m.copies := rfl
@[simp] theorem Mach.setGrid_sent (m : Mach) (k : Nat) (x : Option Grid) : (m.setGrid k x).sent = m.sent := rfl
@[simp] theorem Mach.setGrid_spent (m : Mach) (k : Nat) (x : Option Grid) : (m.setGrid k x).spent = m.spent := rfl
@[simp] theorem Mach.setGrid_wire (m : Mach) (k : Nat) (x : Option Grid) : (m.setGrid k x).wire = m.wire := rfl
@[simp] theorem Mach.setGrid_acks (m : Mach) (k : Nat) (x : Option Grid) : (m.setGrid k x).acks = m.acks := rfl
@[simp] theorem Mach.setGrid_settles (m : Mach) (k : Nat) (x : Option Grid) : (m.setGrid k x).settles = m.settles := rfl
@[simp] theorem Mach.setGrid_out (m : Mach) (k : Nat) (x : Option Grid) : (m.setGrid k x).out = m.out := rfl
@[simp] theorem Mach.setGrid_frames (m : Mach) (k : Nat) (x : Option Grid) : (m.setGrid k x).frames = m.frames := rfl
@[simp] theorem Mach.setGrid_groups (m : Mach) (k : Nat) (x : Option Grid) : (m.setGrid k x).groups = m.groups := rfl
@[simp] theorem Mach.setGrid_insts (m : Mach) (k : Nat) (x : Option Grid) : (m.setGrid k x).insts = m.insts := rfl
@[simp] theorem Mach.setGrid_fence (m : Mach) (k : Nat) (x : Option Grid) : (m.setGrid k x).fence = m.fence := rfl
@[simp] theorem Mach.setGrid_ranges (m : Mach) (k : Nat) (x : Option Grid) : (m.setGrid k x).ranges = m.ranges := rfl
@[simp] theorem Mach.setGrid_bad (m : Mach) (k : Nat) (x : Option Grid) : (m.setGrid k x).bad = m.bad := rfl

/-! ## Mach.setRun -/

@[simp] theorem Mach.setRun_clk (m : Mach) (q : Nat) (x : Option Run) : (m.setRun q x).clk = m.clk := rfl
@[simp] theorem Mach.setRun_pkg (m : Mach) (q : Nat) (x : Option Run) : (m.setRun q x).pkg = m.pkg := rfl
@[simp] theorem Mach.setRun_free (m : Mach) (q : Nat) (x : Option Run) : (m.setRun q x).free = m.free := rfl
@[simp] theorem Mach.setRun_nextOp (m : Mach) (q : Nat) (x : Option Run) : (m.setRun q x).nextOp = m.nextOp := rfl
@[simp] theorem Mach.setRun_dev (m : Mach) (q : Nat) (x : Option Run) : (m.setRun q x).dev = m.dev := rfl
@[simp] theorem Mach.setRun_host (m : Mach) (q : Nat) (x : Option Run) : (m.setRun q x).host = m.host := rfl
@[simp] theorem Mach.setRun_scratch (m : Mach) (q : Nat) (x : Option Run) : (m.setRun q x).scratch = m.scratch := rfl
@[simp] theorem Mach.setRun_linkUp (m : Mach) (q : Nat) (x : Option Run) : (m.setRun q x).linkUp = m.linkUp := rfl
@[simp] theorem Mach.setRun_desk (m : Mach) (q : Nat) (x : Option Run) : (m.setRun q x).desk = m.desk := rfl
@[simp] theorem Mach.setRun_queues (m : Mach) (q : Nat) (x : Option Run) : (m.setRun q x).queues = m.queues := rfl
@[simp] theorem Mach.setRun_grids (m : Mach) (q : Nat) (x : Option Run) : (m.setRun q x).grids = m.grids := rfl
@[simp] theorem Mach.setRun_nextGrid (m : Mach) (q : Nat) (x : Option Run) : (m.setRun q x).nextGrid = m.nextGrid := rfl
@[simp] theorem Mach.setRun_teams (m : Mach) (q : Nat) (x : Option Run) : (m.setRun q x).teams = m.teams := rfl
@[simp] theorem Mach.setRun_bundles (m : Mach) (q : Nat) (x : Option Run) : (m.setRun q x).bundles = m.bundles := rfl
@[simp] theorem Mach.setRun_cores (m : Mach) (q : Nat) (x : Option Run) : (m.setRun q x).cores = m.cores := rfl
@[simp] theorem Mach.setRun_dies (m : Mach) (q : Nat) (x : Option Run) : (m.setRun q x).dies = m.dies := rfl
@[simp] theorem Mach.setRun_ops (m : Mach) (q : Nat) (x : Option Run) : (m.setRun q x).ops = m.ops := rfl
@[simp] theorem Mach.setRun_later (m : Mach) (q : Nat) (x : Option Run) : (m.setRun q x).later = m.later := rfl
@[simp] theorem Mach.setRun_early (m : Mach) (q : Nat) (x : Option Run) : (m.setRun q x).early = m.early := rfl
@[simp] theorem Mach.setRun_copies (m : Mach) (q : Nat) (x : Option Run) : (m.setRun q x).copies = m.copies := rfl
@[simp] theorem Mach.setRun_sent (m : Mach) (q : Nat) (x : Option Run) : (m.setRun q x).sent = m.sent := rfl
@[simp] theorem Mach.setRun_spent (m : Mach) (q : Nat) (x : Option Run) : (m.setRun q x).spent = m.spent := rfl
@[simp] theorem Mach.setRun_wire (m : Mach) (q : Nat) (x : Option Run) : (m.setRun q x).wire = m.wire := rfl
@[simp] theorem Mach.setRun_acks (m : Mach) (q : Nat) (x : Option Run) : (m.setRun q x).acks = m.acks := rfl
@[simp] theorem Mach.setRun_settles (m : Mach) (q : Nat) (x : Option Run) : (m.setRun q x).settles = m.settles := rfl
@[simp] theorem Mach.setRun_out (m : Mach) (q : Nat) (x : Option Run) : (m.setRun q x).out = m.out := rfl
@[simp] theorem Mach.setRun_frames (m : Mach) (q : Nat) (x : Option Run) : (m.setRun q x).frames = m.frames := rfl
@[simp] theorem Mach.setRun_groups (m : Mach) (q : Nat) (x : Option Run) : (m.setRun q x).groups = m.groups := rfl
@[simp] theorem Mach.setRun_insts (m : Mach) (q : Nat) (x : Option Run) : (m.setRun q x).insts = m.insts := rfl
@[simp] theorem Mach.setRun_fence (m : Mach) (q : Nat) (x : Option Run) : (m.setRun q x).fence = m.fence := rfl
@[simp] theorem Mach.setRun_ranges (m : Mach) (q : Nat) (x : Option Run) : (m.setRun q x).ranges = m.ranges := rfl
@[simp] theorem Mach.setRun_bad (m : Mach) (q : Nat) (x : Option Run) : (m.setRun q x).bad = m.bad := rfl

/-! ## Mach.setQueue -/

@[simp] theorem Mach.setQueue_clk (m : Mach) (q : Nat) (x : Queue) : (m.setQueue q x).clk = m.clk := rfl
@[simp] theorem Mach.setQueue_pkg (m : Mach) (q : Nat) (x : Queue) : (m.setQueue q x).pkg = m.pkg := rfl
@[simp] theorem Mach.setQueue_free (m : Mach) (q : Nat) (x : Queue) : (m.setQueue q x).free = m.free := rfl
@[simp] theorem Mach.setQueue_nextOp (m : Mach) (q : Nat) (x : Queue) : (m.setQueue q x).nextOp = m.nextOp := rfl
@[simp] theorem Mach.setQueue_dev (m : Mach) (q : Nat) (x : Queue) : (m.setQueue q x).dev = m.dev := rfl
@[simp] theorem Mach.setQueue_host (m : Mach) (q : Nat) (x : Queue) : (m.setQueue q x).host = m.host := rfl
@[simp] theorem Mach.setQueue_scratch (m : Mach) (q : Nat) (x : Queue) : (m.setQueue q x).scratch = m.scratch := rfl
@[simp] theorem Mach.setQueue_linkUp (m : Mach) (q : Nat) (x : Queue) : (m.setQueue q x).linkUp = m.linkUp := rfl
@[simp] theorem Mach.setQueue_desk (m : Mach) (q : Nat) (x : Queue) : (m.setQueue q x).desk = m.desk := rfl
@[simp] theorem Mach.setQueue_grids (m : Mach) (q : Nat) (x : Queue) : (m.setQueue q x).grids = m.grids := rfl
@[simp] theorem Mach.setQueue_nextGrid (m : Mach) (q : Nat) (x : Queue) : (m.setQueue q x).nextGrid = m.nextGrid := rfl
@[simp] theorem Mach.setQueue_teams (m : Mach) (q : Nat) (x : Queue) : (m.setQueue q x).teams = m.teams := rfl
@[simp] theorem Mach.setQueue_bundles (m : Mach) (q : Nat) (x : Queue) : (m.setQueue q x).bundles = m.bundles := rfl
@[simp] theorem Mach.setQueue_runs (m : Mach) (q : Nat) (x : Queue) : (m.setQueue q x).runs = m.runs := rfl
@[simp] theorem Mach.setQueue_cores (m : Mach) (q : Nat) (x : Queue) : (m.setQueue q x).cores = m.cores := rfl
@[simp] theorem Mach.setQueue_dies (m : Mach) (q : Nat) (x : Queue) : (m.setQueue q x).dies = m.dies := rfl
@[simp] theorem Mach.setQueue_ops (m : Mach) (q : Nat) (x : Queue) : (m.setQueue q x).ops = m.ops := rfl
@[simp] theorem Mach.setQueue_later (m : Mach) (q : Nat) (x : Queue) : (m.setQueue q x).later = m.later := rfl
@[simp] theorem Mach.setQueue_early (m : Mach) (q : Nat) (x : Queue) : (m.setQueue q x).early = m.early := rfl
@[simp] theorem Mach.setQueue_copies (m : Mach) (q : Nat) (x : Queue) : (m.setQueue q x).copies = m.copies := rfl
@[simp] theorem Mach.setQueue_sent (m : Mach) (q : Nat) (x : Queue) : (m.setQueue q x).sent = m.sent := rfl
@[simp] theorem Mach.setQueue_spent (m : Mach) (q : Nat) (x : Queue) : (m.setQueue q x).spent = m.spent := rfl
@[simp] theorem Mach.setQueue_wire (m : Mach) (q : Nat) (x : Queue) : (m.setQueue q x).wire = m.wire := rfl
@[simp] theorem Mach.setQueue_acks (m : Mach) (q : Nat) (x : Queue) : (m.setQueue q x).acks = m.acks := rfl
@[simp] theorem Mach.setQueue_settles (m : Mach) (q : Nat) (x : Queue) : (m.setQueue q x).settles = m.settles := rfl
@[simp] theorem Mach.setQueue_out (m : Mach) (q : Nat) (x : Queue) : (m.setQueue q x).out = m.out := rfl
@[simp] theorem Mach.setQueue_frames (m : Mach) (q : Nat) (x : Queue) : (m.setQueue q x).frames = m.frames := rfl
@[simp] theorem Mach.setQueue_groups (m : Mach) (q : Nat) (x : Queue) : (m.setQueue q x).groups = m.groups := rfl
@[simp] theorem Mach.setQueue_insts (m : Mach) (q : Nat) (x : Queue) : (m.setQueue q x).insts = m.insts := rfl
@[simp] theorem Mach.setQueue_fence (m : Mach) (q : Nat) (x : Queue) : (m.setQueue q x).fence = m.fence := rfl
@[simp] theorem Mach.setQueue_ranges (m : Mach) (q : Nat) (x : Queue) : (m.setQueue q x).ranges = m.ranges := rfl
@[simp] theorem Mach.setQueue_bad (m : Mach) (q : Nat) (x : Queue) : (m.setQueue q x).bad = m.bad := rfl

/-! ## Mach.setGroup -/

@[simp] theorem Mach.setGroup_clk (m : Mach) (g : Nat) (x : Group) : (m.setGroup g x).clk = m.clk := rfl
@[simp] theorem Mach.setGroup_pkg (m : Mach) (g : Nat) (x : Group) : (m.setGroup g x).pkg = m.pkg := rfl
@[simp] theorem Mach.setGroup_free (m : Mach) (g : Nat) (x : Group) : (m.setGroup g x).free = m.free := rfl
@[simp] theorem Mach.setGroup_nextOp (m : Mach) (g : Nat) (x : Group) : (m.setGroup g x).nextOp = m.nextOp := rfl
@[simp] theorem Mach.setGroup_dev (m : Mach) (g : Nat) (x : Group) : (m.setGroup g x).dev = m.dev := rfl
@[simp] theorem Mach.setGroup_host (m : Mach) (g : Nat) (x : Group) : (m.setGroup g x).host = m.host := rfl
@[simp] theorem Mach.setGroup_scratch (m : Mach) (g : Nat) (x : Group) : (m.setGroup g x).scratch = m.scratch := rfl
@[simp] theorem Mach.setGroup_linkUp (m : Mach) (g : Nat) (x : Group) : (m.setGroup g x).linkUp = m.linkUp := rfl
@[simp] theorem Mach.setGroup_desk (m : Mach) (g : Nat) (x : Group) : (m.setGroup g x).desk = m.desk := rfl
@[simp] theorem Mach.setGroup_queues (m : Mach) (g : Nat) (x : Group) : (m.setGroup g x).queues = m.queues := rfl
@[simp] theorem Mach.setGroup_grids (m : Mach) (g : Nat) (x : Group) : (m.setGroup g x).grids = m.grids := rfl
@[simp] theorem Mach.setGroup_nextGrid (m : Mach) (g : Nat) (x : Group) : (m.setGroup g x).nextGrid = m.nextGrid := rfl
@[simp] theorem Mach.setGroup_teams (m : Mach) (g : Nat) (x : Group) : (m.setGroup g x).teams = m.teams := rfl
@[simp] theorem Mach.setGroup_bundles (m : Mach) (g : Nat) (x : Group) : (m.setGroup g x).bundles = m.bundles := rfl
@[simp] theorem Mach.setGroup_runs (m : Mach) (g : Nat) (x : Group) : (m.setGroup g x).runs = m.runs := rfl
@[simp] theorem Mach.setGroup_cores (m : Mach) (g : Nat) (x : Group) : (m.setGroup g x).cores = m.cores := rfl
@[simp] theorem Mach.setGroup_dies (m : Mach) (g : Nat) (x : Group) : (m.setGroup g x).dies = m.dies := rfl
@[simp] theorem Mach.setGroup_ops (m : Mach) (g : Nat) (x : Group) : (m.setGroup g x).ops = m.ops := rfl
@[simp] theorem Mach.setGroup_later (m : Mach) (g : Nat) (x : Group) : (m.setGroup g x).later = m.later := rfl
@[simp] theorem Mach.setGroup_early (m : Mach) (g : Nat) (x : Group) : (m.setGroup g x).early = m.early := rfl
@[simp] theorem Mach.setGroup_copies (m : Mach) (g : Nat) (x : Group) : (m.setGroup g x).copies = m.copies := rfl
@[simp] theorem Mach.setGroup_sent (m : Mach) (g : Nat) (x : Group) : (m.setGroup g x).sent = m.sent := rfl
@[simp] theorem Mach.setGroup_spent (m : Mach) (g : Nat) (x : Group) : (m.setGroup g x).spent = m.spent := rfl
@[simp] theorem Mach.setGroup_wire (m : Mach) (g : Nat) (x : Group) : (m.setGroup g x).wire = m.wire := rfl
@[simp] theorem Mach.setGroup_acks (m : Mach) (g : Nat) (x : Group) : (m.setGroup g x).acks = m.acks := rfl
@[simp] theorem Mach.setGroup_settles (m : Mach) (g : Nat) (x : Group) : (m.setGroup g x).settles = m.settles := rfl
@[simp] theorem Mach.setGroup_out (m : Mach) (g : Nat) (x : Group) : (m.setGroup g x).out = m.out := rfl
@[simp] theorem Mach.setGroup_frames (m : Mach) (g : Nat) (x : Group) : (m.setGroup g x).frames = m.frames := rfl
@[simp] theorem Mach.setGroup_insts (m : Mach) (g : Nat) (x : Group) : (m.setGroup g x).insts = m.insts := rfl
@[simp] theorem Mach.setGroup_fence (m : Mach) (g : Nat) (x : Group) : (m.setGroup g x).fence = m.fence := rfl
@[simp] theorem Mach.setGroup_ranges (m : Mach) (g : Nat) (x : Group) : (m.setGroup g x).ranges = m.ranges := rfl
@[simp] theorem Mach.setGroup_bad (m : Mach) (g : Nat) (x : Group) : (m.setGroup g x).bad = m.bad := rfl

/-! ## Mach.modCore -/

@[simp] theorem Mach.modCore_clk (m : Mach) (k : Nat) (x : Core → Core) : (m.modCore k x).clk = m.clk := rfl
@[simp] theorem Mach.modCore_pkg (m : Mach) (k : Nat) (x : Core → Core) : (m.modCore k x).pkg = m.pkg := rfl
@[simp] theorem Mach.modCore_free (m : Mach) (k : Nat) (x : Core → Core) : (m.modCore k x).free = m.free := rfl
@[simp] theorem Mach.modCore_nextOp (m : Mach) (k : Nat) (x : Core → Core) : (m.modCore k x).nextOp = m.nextOp := rfl
@[simp] theorem Mach.modCore_dev (m : Mach) (k : Nat) (x : Core → Core) : (m.modCore k x).dev = m.dev := rfl
@[simp] theorem Mach.modCore_host (m : Mach) (k : Nat) (x : Core → Core) : (m.modCore k x).host = m.host := rfl
@[simp] theorem Mach.modCore_scratch (m : Mach) (k : Nat) (x : Core → Core) : (m.modCore k x).scratch = m.scratch := rfl
@[simp] theorem Mach.modCore_linkUp (m : Mach) (k : Nat) (x : Core → Core) : (m.modCore k x).linkUp = m.linkUp := rfl
@[simp] theorem Mach.modCore_desk (m : Mach) (k : Nat) (x : Core → Core) : (m.modCore k x).desk = m.desk := rfl
@[simp] theorem Mach.modCore_queues (m : Mach) (k : Nat) (x : Core → Core) : (m.modCore k x).queues = m.queues := rfl
@[simp] theorem Mach.modCore_grids (m : Mach) (k : Nat) (x : Core → Core) : (m.modCore k x).grids = m.grids := rfl
@[simp] theorem Mach.modCore_nextGrid (m : Mach) (k : Nat) (x : Core → Core) : (m.modCore k x).nextGrid = m.nextGrid := rfl
@[simp] theorem Mach.modCore_teams (m : Mach) (k : Nat) (x : Core → Core) : (m.modCore k x).teams = m.teams := rfl
@[simp] theorem Mach.modCore_bundles (m : Mach) (k : Nat) (x : Core → Core) : (m.modCore k x).bundles = m.bundles := rfl
@[simp] theorem Mach.modCore_runs (m : Mach) (k : Nat) (x : Core → Core) : (m.modCore k x).runs = m.runs := rfl
@[simp] theorem Mach.modCore_dies (m : Mach) (k : Nat) (x : Core → Core) : (m.modCore k x).dies = m.dies := rfl
@[simp] theorem Mach.modCore_ops (m : Mach) (k : Nat) (x : Core → Core) : (m.modCore k x).ops = m.ops := rfl
@[simp] theorem Mach.modCore_later (m : Mach) (k : Nat) (x : Core → Core) : (m.modCore k x).later = m.later := rfl
@[simp] theorem Mach.modCore_early (m : Mach) (k : Nat) (x : Core → Core) : (m.modCore k x).early = m.early := rfl
@[simp] theorem Mach.modCore_copies (m : Mach) (k : Nat) (x : Core → Core) : (m.modCore k x).copies = m.copies := rfl
@[simp] theorem Mach.modCore_sent (m : Mach) (k : Nat) (x : Core → Core) : (m.modCore k x).sent = m.sent := rfl
@[simp] theorem Mach.modCore_spent (m : Mach) (k : Nat) (x : Core → Core) : (m.modCore k x).spent = m.spent := rfl
@[simp] theorem Mach.modCore_wire (m : Mach) (k : Nat) (x : Core → Core) : (m.modCore k x).wire = m.wire := rfl
@[simp] theorem Mach.modCore_acks (m : Mach) (k : Nat) (x : Core → Core) : (m.modCore k x).acks = m.acks := rfl
@[simp] theorem Mach.modCore_settles (m : Mach) (k : Nat) (x : Core → Core) : (m.modCore k x).settles = m.settles := rfl
@[simp] theorem Mach.modCore_out (m : Mach) (k : Nat) (x : Core → Core) : (m.modCore k x).out = m.out := rfl
@[simp] theorem Mach.modCore_frames (m : Mach) (k : Nat) (x : Core → Core) : (m.modCore k x).frames = m.frames := rfl
@[simp] theorem Mach.modCore_groups (m : Mach) (k : Nat) (x : Core → Core) : (m.modCore k x).groups = m.groups := rfl
@[simp] theorem Mach.modCore_insts (m : Mach) (k : Nat) (x : Core → Core) : (m.modCore k x).insts = m.insts := rfl
@[simp] theorem Mach.modCore_fence (m : Mach) (k : Nat) (x : Core → Core) : (m.modCore k x).fence = m.fence := rfl
@[simp] theorem Mach.modCore_ranges (m : Mach) (k : Nat) (x : Core → Core) : (m.modCore k x).ranges = m.ranges := rfl
@[simp] theorem Mach.modCore_bad (m : Mach) (k : Nat) (x : Core → Core) : (m.modCore k x).bad = m.bad := rfl

/-! ## Mach.modDie -/

@[simp] theorem Mach.modDie_clk (m : Mach) (k : Nat) (x : Die → Die) : (m.modDie k x).clk = m.clk := rfl
@[simp] theorem Mach.modDie_pkg (m : Mach) (k : Nat) (x : Die → Die) : (m.modDie k x).pkg = m.pkg := rfl
@[simp] theorem Mach.modDie_free (m : Mach) (k : Nat) (x : Die → Die) : (m.modDie k x).free = m.free := rfl
@[simp] theorem Mach.modDie_nextOp (m : Mach) (k : Nat) (x : Die → Die) : (m.modDie k x).nextOp = m.nextOp := rfl
@[simp] theorem Mach.modDie_dev (m : Mach) (k : Nat) (x : Die → Die) : (m.modDie k x).dev = m.dev := rfl
@[simp] theorem Mach.modDie_host (m : Mach) (k : Nat) (x : Die → Die) : (m.modDie k x).host = m.host := rfl
@[simp] theorem Mach.modDie_scratch (m : Mach) (k : Nat) (x : Die → Die) : (m.modDie k x).scratch = m.scratch := rfl
@[simp] theorem Mach.modDie_linkUp (m : Mach) (k : Nat) (x : Die → Die) : (m.modDie k x).linkUp = m.linkUp := rfl
@[simp] theorem Mach.modDie_desk (m : Mach) (k : Nat) (x : Die → Die) : (m.modDie k x).desk = m.desk := rfl
@[simp] theorem Mach.modDie_queues (m : Mach) (k : Nat) (x : Die → Die) : (m.modDie k x).queues = m.queues := rfl
@[simp] theorem Mach.modDie_grids (m : Mach) (k : Nat) (x : Die → Die) : (m.modDie k x).grids = m.grids := rfl
@[simp] theorem Mach.modDie_nextGrid (m : Mach) (k : Nat) (x : Die → Die) : (m.modDie k x).nextGrid = m.nextGrid := rfl
@[simp] theorem Mach.modDie_teams (m : Mach) (k : Nat) (x : Die → Die) : (m.modDie k x).teams = m.teams := rfl
@[simp] theorem Mach.modDie_bundles (m : Mach) (k : Nat) (x : Die → Die) : (m.modDie k x).bundles = m.bundles := rfl
@[simp] theorem Mach.modDie_runs (m : Mach) (k : Nat) (x : Die → Die) : (m.modDie k x).runs = m.runs := rfl
@[simp] theorem Mach.modDie_cores (m : Mach) (k : Nat) (x : Die → Die) : (m.modDie k x).cores = m.cores := rfl
@[simp] theorem Mach.modDie_ops (m : Mach) (k : Nat) (x : Die → Die) : (m.modDie k x).ops = m.ops := rfl
@[simp] theorem Mach.modDie_later (m : Mach) (k : Nat) (x : Die → Die) : (m.modDie k x).later = m.later := rfl
@[simp] theorem Mach.modDie_early (m : Mach) (k : Nat) (x : Die → Die) : (m.modDie k x).early = m.early := rfl
@[simp] theorem Mach.modDie_copies (m : Mach) (k : Nat) (x : Die → Die) : (m.modDie k x).copies = m.copies := rfl
@[simp] theorem Mach.modDie_sent (m : Mach) (k : Nat) (x : Die → Die) : (m.modDie k x).sent = m.sent := rfl
@[simp] theorem Mach.modDie_spent (m : Mach) (k : Nat) (x : Die → Die) : (m.modDie k x).spent = m.spent := rfl
@[simp] theorem Mach.modDie_wire (m : Mach) (k : Nat) (x : Die → Die) : (m.modDie k x).wire = m.wire := rfl
@[simp] theorem Mach.modDie_acks (m : Mach) (k : Nat) (x : Die → Die) : (m.modDie k x).acks = m.acks := rfl
@[simp] theorem Mach.modDie_settles (m : Mach) (k : Nat) (x : Die → Die) : (m.modDie k x).settles = m.settles := rfl
@[simp] theorem Mach.modDie_out (m : Mach) (k : Nat) (x : Die → Die) : (m.modDie k x).out = m.out := rfl
@[simp] theorem Mach.modDie_frames (m : Mach) (k : Nat) (x : Die → Die) : (m.modDie k x).frames = m.frames := rfl
@[simp] theorem Mach.modDie_groups (m : Mach) (k : Nat) (x : Die → Die) : (m.modDie k x).groups = m.groups := rfl
@[simp] theorem Mach.modDie_insts (m : Mach) (k : Nat) (x : Die → Die) : (m.modDie k x).insts = m.insts := rfl
@[simp] theorem Mach.modDie_fence (m : Mach) (k : Nat) (x : Die → Die) : (m.modDie k x).fence = m.fence := rfl
@[simp] theorem Mach.modDie_ranges (m : Mach) (k : Nat) (x : Die → Die) : (m.modDie k x).ranges = m.ranges := rfl
@[simp] theorem Mach.modDie_bad (m : Mach) (k : Nat) (x : Die → Die) : (m.modDie k x).bad = m.bad := rfl

/-! ## Mach.modBundle -/

@[simp] theorem Mach.modBundle_clk (m : Mach) (k : Nat) (x : Bundle → Bundle) : (m.modBundle k x).clk = m.clk := by unfold Mach.modBundle; split <;> rfl
@[simp] theorem Mach.modBundle_pkg (m : Mach) (k : Nat) (x : Bundle → Bundle) : (m.modBundle k x).pkg = m.pkg := by unfold Mach.modBundle; split <;> rfl
@[simp] theorem Mach.modBundle_free (m : Mach) (k : Nat) (x : Bundle → Bundle) : (m.modBundle k x).free = m.free := by unfold Mach.modBundle; split <;> rfl
@[simp] theorem Mach.modBundle_nextOp (m : Mach) (k : Nat) (x : Bundle → Bundle) : (m.modBundle k x).nextOp = m.nextOp := by unfold Mach.modBundle; split <;> rfl
@[simp] theorem Mach.modBundle_dev (m : Mach) (k : Nat) (x : Bundle → Bundle) : (m.modBundle k x).dev = m.dev := by unfold Mach.modBundle; split <;> rfl
@[simp] theorem Mach.modBundle_host (m : Mach) (k : Nat) (x : Bundle → Bundle) : (m.modBundle k x).host = m.host := by unfold Mach.modBundle; split <;> rfl
@[simp] theorem Mach.modBundle_scratch (m : Mach) (k : Nat) (x : Bundle → Bundle) : (m.modBundle k x).scratch = m.scratch := by unfold Mach.modBundle; split <;> rfl
@[simp] theorem Mach.modBundle_linkUp (m : Mach) (k : Nat) (x : Bundle → Bundle) : (m.modBundle k x).linkUp = m.linkUp := by unfold Mach.modBundle; split <;> rfl
@[simp] theorem Mach.modBundle_desk (m : Mach) (k : Nat) (x : Bundle → Bundle) : (m.modBundle k x).desk = m.desk := by unfold Mach.modBundle; split <;> rfl
@[simp] theorem Mach.modBundle_queues (m : Mach) (k : Nat) (x : Bundle → Bundle) : (m.modBundle k x).queues = m.queues := by unfold Mach.modBundle; split <;> rfl
@[simp] theorem Mach.modBundle_grids (m : Mach) (k : Nat) (x : Bundle → Bundle) : (m.modBundle k x).grids = m.grids := by unfold Mach.modBundle; split <;> rfl
@[simp] theorem Mach.modBundle_nextGrid (m : Mach) (k : Nat) (x : Bundle → Bundle) : (m.modBundle k x).nextGrid = m.nextGrid := by unfold Mach.modBundle; split <;> rfl
@[simp] theorem Mach.modBundle_teams (m : Mach) (k : Nat) (x : Bundle → Bundle) : (m.modBundle k x).teams = m.teams := by unfold Mach.modBundle; split <;> rfl
@[simp] theorem Mach.modBundle_runs (m : Mach) (k : Nat) (x : Bundle → Bundle) : (m.modBundle k x).runs = m.runs := by unfold Mach.modBundle; split <;> rfl
@[simp] theorem Mach.modBundle_cores (m : Mach) (k : Nat) (x : Bundle → Bundle) : (m.modBundle k x).cores = m.cores := by unfold Mach.modBundle; split <;> rfl
@[simp] theorem Mach.modBundle_dies (m : Mach) (k : Nat) (x : Bundle → Bundle) : (m.modBundle k x).dies = m.dies := by unfold Mach.modBundle; split <;> rfl
@[simp] theorem Mach.modBundle_ops (m : Mach) (k : Nat) (x : Bundle → Bundle) : (m.modBundle k x).ops = m.ops := by unfold Mach.modBundle; split <;> rfl
@[simp] theorem Mach.modBundle_later (m : Mach) (k : Nat) (x : Bundle → Bundle) : (m.modBundle k x).later = m.later := by unfold Mach.modBundle; split <;> rfl
@[simp] theorem Mach.modBundle_early (m : Mach) (k : Nat) (x : Bundle → Bundle) : (m.modBundle k x).early = m.early := by unfold Mach.modBundle; split <;> rfl
@[simp] theorem Mach.modBundle_copies (m : Mach) (k : Nat) (x : Bundle → Bundle) : (m.modBundle k x).copies = m.copies := by unfold Mach.modBundle; split <;> rfl
@[simp] theorem Mach.modBundle_sent (m : Mach) (k : Nat) (x : Bundle → Bundle) : (m.modBundle k x).sent = m.sent := by unfold Mach.modBundle; split <;> rfl
@[simp] theorem Mach.modBundle_spent (m : Mach) (k : Nat) (x : Bundle → Bundle) : (m.modBundle k x).spent = m.spent := by unfold Mach.modBundle; split <;> rfl
@[simp] theorem Mach.modBundle_wire (m : Mach) (k : Nat) (x : Bundle → Bundle) : (m.modBundle k x).wire = m.wire := by unfold Mach.modBundle; split <;> rfl
@[simp] theorem Mach.modBundle_acks (m : Mach) (k : Nat) (x : Bundle → Bundle) : (m.modBundle k x).acks = m.acks := by unfold Mach.modBundle; split <;> rfl
@[simp] theorem Mach.modBundle_settles (m : Mach) (k : Nat) (x : Bundle → Bundle) : (m.modBundle k x).settles = m.settles := by unfold Mach.modBundle; split <;> rfl
@[simp] theorem Mach.modBundle_out (m : Mach) (k : Nat) (x : Bundle → Bundle) : (m.modBundle k x).out = m.out := by unfold Mach.modBundle; split <;> rfl
@[simp] theorem Mach.modBundle_frames (m : Mach) (k : Nat) (x : Bundle → Bundle) : (m.modBundle k x).frames = m.frames := by unfold Mach.modBundle; split <;> rfl
@[simp] theorem Mach.modBundle_groups (m : Mach) (k : Nat) (x : Bundle → Bundle) : (m.modBundle k x).groups = m.groups := by unfold Mach.modBundle; split <;> rfl
@[simp] theorem Mach.modBundle_insts (m : Mach) (k : Nat) (x : Bundle → Bundle) : (m.modBundle k x).insts = m.insts := by unfold Mach.modBundle; split <;> rfl
@[simp] theorem Mach.modBundle_fence (m : Mach) (k : Nat) (x : Bundle → Bundle) : (m.modBundle k x).fence = m.fence := by unfold Mach.modBundle; split <;> rfl
@[simp] theorem Mach.modBundle_ranges (m : Mach) (k : Nat) (x : Bundle → Bundle) : (m.modBundle k x).ranges = m.ranges := by unfold Mach.modBundle; split <;> rfl
@[simp] theorem Mach.modBundle_bad (m : Mach) (k : Nat) (x : Bundle → Bundle) : (m.modBundle k x).bad = m.bad := by unfold Mach.modBundle; split <;> rfl

/-! ## Mach.modTeam -/

@[simp] theorem Mach.modTeam_clk (m : Mach) (k : Nat) (x : Team → Team) : (m.modTeam k x).clk = m.clk := by unfold Mach.modTeam; split <;> rfl
@[simp] theorem Mach.modTeam_pkg (m : Mach) (k : Nat) (x : Team → Team) : (m.modTeam k x).pkg = m.pkg := by unfold Mach.modTeam; split <;> rfl
@[simp] theorem Mach.modTeam_free (m : Mach) (k : Nat) (x : Team → Team) : (m.modTeam k x).free = m.free := by unfold Mach.modTeam; split <;> rfl
@[simp] theorem Mach.modTeam_nextOp (m : Mach) (k : Nat) (x : Team → Team) : (m.modTeam k x).nextOp = m.nextOp := by unfold Mach.modTeam; split <;> rfl
@[simp] theorem Mach.modTeam_dev (m : Mach) (k : Nat) (x : Team → Team) : (m.modTeam k x).dev = m.dev := by unfold Mach.modTeam; split <;> rfl
@[simp] theorem Mach.modTeam_host (m : Mach) (k : Nat) (x : Team → Team) : (m.modTeam k x).host = m.host := by unfold Mach.modTeam; split <;> rfl
@[simp] theorem Mach.modTeam_scratch (m : Mach) (k : Nat) (x : Team → Team) : (m.modTeam k x).scratch = m.scratch := by unfold Mach.modTeam; split <;> rfl
@[simp] theorem Mach.modTeam_linkUp (m : Mach) (k : Nat) (x : Team → Team) : (m.modTeam k x).linkUp = m.linkUp := by unfold Mach.modTeam; split <;> rfl
@[simp] theorem Mach.modTeam_desk (m : Mach) (k : Nat) (x : Team → Team) : (m.modTeam k x).desk = m.desk := by unfold Mach.modTeam; split <;> rfl
@[simp] theorem Mach.modTeam_queues (m : Mach) (k : Nat) (x : Team → Team) : (m.modTeam k x).queues = m.queues := by unfold Mach.modTeam; split <;> rfl
@[simp] theorem Mach.modTeam_grids (m : Mach) (k : Nat) (x : Team → Team) : (m.modTeam k x).grids = m.grids := by unfold Mach.modTeam; split <;> rfl
@[simp] theorem Mach.modTeam_nextGrid (m : Mach) (k : Nat) (x : Team → Team) : (m.modTeam k x).nextGrid = m.nextGrid := by unfold Mach.modTeam; split <;> rfl
@[simp] theorem Mach.modTeam_bundles (m : Mach) (k : Nat) (x : Team → Team) : (m.modTeam k x).bundles = m.bundles := by unfold Mach.modTeam; split <;> rfl
@[simp] theorem Mach.modTeam_runs (m : Mach) (k : Nat) (x : Team → Team) : (m.modTeam k x).runs = m.runs := by unfold Mach.modTeam; split <;> rfl
@[simp] theorem Mach.modTeam_cores (m : Mach) (k : Nat) (x : Team → Team) : (m.modTeam k x).cores = m.cores := by unfold Mach.modTeam; split <;> rfl
@[simp] theorem Mach.modTeam_dies (m : Mach) (k : Nat) (x : Team → Team) : (m.modTeam k x).dies = m.dies := by unfold Mach.modTeam; split <;> rfl
@[simp] theorem Mach.modTeam_ops (m : Mach) (k : Nat) (x : Team → Team) : (m.modTeam k x).ops = m.ops := by unfold Mach.modTeam; split <;> rfl
@[simp] theorem Mach.modTeam_later (m : Mach) (k : Nat) (x : Team → Team) : (m.modTeam k x).later = m.later := by unfold Mach.modTeam; split <;> rfl
@[simp] theorem Mach.modTeam_early (m : Mach) (k : Nat) (x : Team → Team) : (m.modTeam k x).early = m.early := by unfold Mach.modTeam; split <;> rfl
@[simp] theorem Mach.modTeam_copies (m : Mach) (k : Nat) (x : Team → Team) : (m.modTeam k x).copies = m.copies := by unfold Mach.modTeam; split <;> rfl
@[simp] theorem Mach.modTeam_sent (m : Mach) (k : Nat) (x : Team → Team) : (m.modTeam k x).sent = m.sent := by unfold Mach.modTeam; split <;> rfl
@[simp] theorem Mach.modTeam_spent (m : Mach) (k : Nat) (x : Team → Team) : (m.modTeam k x).spent = m.spent := by unfold Mach.modTeam; split <;> rfl
@[simp] theorem Mach.modTeam_wire (m : Mach) (k : Nat) (x : Team → Team) : (m.modTeam k x).wire = m.wire := by unfold Mach.modTeam; split <;> rfl
@[simp] theorem Mach.modTeam_acks (m : Mach) (k : Nat) (x : Team → Team) : (m.modTeam k x).acks = m.acks := by unfold Mach.modTeam; split <;> rfl
@[simp] theorem Mach.modTeam_settles (m : Mach) (k : Nat) (x : Team → Team) : (m.modTeam k x).settles = m.settles := by unfold Mach.modTeam; split <;> rfl
@[simp] theorem Mach.modTeam_out (m : Mach) (k : Nat) (x : Team → Team) : (m.modTeam k x).out = m.out := by unfold Mach.modTeam; split <;> rfl
@[simp] theorem Mach.modTeam_frames (m : Mach) (k : Nat) (x : Team → Team) : (m.modTeam k x).frames = m.frames := by unfold Mach.modTeam; split <;> rfl
@[simp] theorem Mach.modTeam_groups (m : Mach) (k : Nat) (x : Team → Team) : (m.modTeam k x).groups = m.groups := by unfold Mach.modTeam; split <;> rfl
@[simp] theorem Mach.modTeam_insts (m : Mach) (k : Nat) (x : Team → Team) : (m.modTeam k x).insts = m.insts := by unfold Mach.modTeam; split <;> rfl
@[simp] theorem Mach.modTeam_fence (m : Mach) (k : Nat) (x : Team → Team) : (m.modTeam k x).fence = m.fence := by unfold Mach.modTeam; split <;> rfl
@[simp] theorem Mach.modTeam_ranges (m : Mach) (k : Nat) (x : Team → Team) : (m.modTeam k x).ranges = m.ranges := by unfold Mach.modTeam; split <;> rfl
@[simp] theorem Mach.modTeam_bad (m : Mach) (k : Nat) (x : Team → Team) : (m.modTeam k x).bad = m.bad := by unfold Mach.modTeam; split <;> rfl

/-! ## Mach.modGrid -/

@[simp] theorem Mach.modGrid_clk (m : Mach) (k : Nat) (x : Grid → Grid) : (m.modGrid k x).clk = m.clk := by unfold Mach.modGrid; split <;> rfl
@[simp] theorem Mach.modGrid_pkg (m : Mach) (k : Nat) (x : Grid → Grid) : (m.modGrid k x).pkg = m.pkg := by unfold Mach.modGrid; split <;> rfl
@[simp] theorem Mach.modGrid_free (m : Mach) (k : Nat) (x : Grid → Grid) : (m.modGrid k x).free = m.free := by unfold Mach.modGrid; split <;> rfl
@[simp] theorem Mach.modGrid_nextOp (m : Mach) (k : Nat) (x : Grid → Grid) : (m.modGrid k x).nextOp = m.nextOp := by unfold Mach.modGrid; split <;> rfl
@[simp] theorem Mach.modGrid_dev (m : Mach) (k : Nat) (x : Grid → Grid) : (m.modGrid k x).dev = m.dev := by unfold Mach.modGrid; split <;> rfl
@[simp] theorem Mach.modGrid_host (m : Mach) (k : Nat) (x : Grid → Grid) : (m.modGrid k x).host = m.host := by unfold Mach.modGrid; split <;> rfl
@[simp] theorem Mach.modGrid_scratch (m : Mach) (k : Nat) (x : Grid → Grid) : (m.modGrid k x).scratch = m.scratch := by unfold Mach.modGrid; split <;> rfl
@[simp] theorem Mach.modGrid_linkUp (m : Mach) (k : Nat) (x : Grid → Grid) : (m.modGrid k x).linkUp = m.linkUp := by unfold Mach.modGrid; split <;> rfl
@[simp] theorem Mach.modGrid_desk (m : Mach) (k : Nat) (x : Grid → Grid) : (m.modGrid k x).desk = m.desk := by unfold Mach.modGrid; split <;> rfl
@[simp] theorem Mach.modGrid_queues (m : Mach) (k : Nat) (x : Grid → Grid) : (m.modGrid k x).queues = m.queues := by unfold Mach.modGrid; split <;> rfl
@[simp] theorem Mach.modGrid_nextGrid (m : Mach) (k : Nat) (x : Grid → Grid) : (m.modGrid k x).nextGrid = m.nextGrid := by unfold Mach.modGrid; split <;> rfl
@[simp] theorem Mach.modGrid_teams (m : Mach) (k : Nat) (x : Grid → Grid) : (m.modGrid k x).teams = m.teams := by unfold Mach.modGrid; split <;> rfl
@[simp] theorem Mach.modGrid_bundles (m : Mach) (k : Nat) (x : Grid → Grid) : (m.modGrid k x).bundles = m.bundles := by unfold Mach.modGrid; split <;> rfl
@[simp] theorem Mach.modGrid_runs (m : Mach) (k : Nat) (x : Grid → Grid) : (m.modGrid k x).runs = m.runs := by unfold Mach.modGrid; split <;> rfl
@[simp] theorem Mach.modGrid_cores (m : Mach) (k : Nat) (x : Grid → Grid) : (m.modGrid k x).cores = m.cores := by unfold Mach.modGrid; split <;> rfl
@[simp] theorem Mach.modGrid_dies (m : Mach) (k : Nat) (x : Grid → Grid) : (m.modGrid k x).dies = m.dies := by unfold Mach.modGrid; split <;> rfl
@[simp] theorem Mach.modGrid_ops (m : Mach) (k : Nat) (x : Grid → Grid) : (m.modGrid k x).ops = m.ops := by unfold Mach.modGrid; split <;> rfl
@[simp] theorem Mach.modGrid_later (m : Mach) (k : Nat) (x : Grid → Grid) : (m.modGrid k x).later = m.later := by unfold Mach.modGrid; split <;> rfl
@[simp] theorem Mach.modGrid_early (m : Mach) (k : Nat) (x : Grid → Grid) : (m.modGrid k x).early = m.early := by unfold Mach.modGrid; split <;> rfl
@[simp] theorem Mach.modGrid_copies (m : Mach) (k : Nat) (x : Grid → Grid) : (m.modGrid k x).copies = m.copies := by unfold Mach.modGrid; split <;> rfl
@[simp] theorem Mach.modGrid_sent (m : Mach) (k : Nat) (x : Grid → Grid) : (m.modGrid k x).sent = m.sent := by unfold Mach.modGrid; split <;> rfl
@[simp] theorem Mach.modGrid_spent (m : Mach) (k : Nat) (x : Grid → Grid) : (m.modGrid k x).spent = m.spent := by unfold Mach.modGrid; split <;> rfl
@[simp] theorem Mach.modGrid_wire (m : Mach) (k : Nat) (x : Grid → Grid) : (m.modGrid k x).wire = m.wire := by unfold Mach.modGrid; split <;> rfl
@[simp] theorem Mach.modGrid_acks (m : Mach) (k : Nat) (x : Grid → Grid) : (m.modGrid k x).acks = m.acks := by unfold Mach.modGrid; split <;> rfl
@[simp] theorem Mach.modGrid_settles (m : Mach) (k : Nat) (x : Grid → Grid) : (m.modGrid k x).settles = m.settles := by unfold Mach.modGrid; split <;> rfl
@[simp] theorem Mach.modGrid_out (m : Mach) (k : Nat) (x : Grid → Grid) : (m.modGrid k x).out = m.out := by unfold Mach.modGrid; split <;> rfl
@[simp] theorem Mach.modGrid_frames (m : Mach) (k : Nat) (x : Grid → Grid) : (m.modGrid k x).frames = m.frames := by unfold Mach.modGrid; split <;> rfl
@[simp] theorem Mach.modGrid_groups (m : Mach) (k : Nat) (x : Grid → Grid) : (m.modGrid k x).groups = m.groups := by unfold Mach.modGrid; split <;> rfl
@[simp] theorem Mach.modGrid_insts (m : Mach) (k : Nat) (x : Grid → Grid) : (m.modGrid k x).insts = m.insts := by unfold Mach.modGrid; split <;> rfl
@[simp] theorem Mach.modGrid_fence (m : Mach) (k : Nat) (x : Grid → Grid) : (m.modGrid k x).fence = m.fence := by unfold Mach.modGrid; split <;> rfl
@[simp] theorem Mach.modGrid_ranges (m : Mach) (k : Nat) (x : Grid → Grid) : (m.modGrid k x).ranges = m.ranges := by unfold Mach.modGrid; split <;> rfl
@[simp] theorem Mach.modGrid_bad (m : Mach) (k : Nat) (x : Grid → Grid) : (m.modGrid k x).bad = m.bad := by unfold Mach.modGrid; split <;> rfl

/-! ## Mach.writeByte -/

@[simp] theorem Mach.writeByte_clk (m : Mach) (sp : Space) (a : Nat) (b : Byte) : (m.writeByte sp a b).clk = m.clk := by cases sp <;> rfl
@[simp] theorem Mach.writeByte_pkg (m : Mach) (sp : Space) (a : Nat) (b : Byte) : (m.writeByte sp a b).pkg = m.pkg := by cases sp <;> rfl
@[simp] theorem Mach.writeByte_free (m : Mach) (sp : Space) (a : Nat) (b : Byte) : (m.writeByte sp a b).free = m.free := by cases sp <;> rfl
@[simp] theorem Mach.writeByte_nextOp (m : Mach) (sp : Space) (a : Nat) (b : Byte) : (m.writeByte sp a b).nextOp = m.nextOp := by cases sp <;> rfl
@[simp] theorem Mach.writeByte_linkUp (m : Mach) (sp : Space) (a : Nat) (b : Byte) : (m.writeByte sp a b).linkUp = m.linkUp := by cases sp <;> rfl
@[simp] theorem Mach.writeByte_desk (m : Mach) (sp : Space) (a : Nat) (b : Byte) : (m.writeByte sp a b).desk = m.desk := by cases sp <;> rfl
@[simp] theorem Mach.writeByte_queues (m : Mach) (sp : Space) (a : Nat) (b : Byte) : (m.writeByte sp a b).queues = m.queues := by cases sp <;> rfl
@[simp] theorem Mach.writeByte_grids (m : Mach) (sp : Space) (a : Nat) (b : Byte) : (m.writeByte sp a b).grids = m.grids := by cases sp <;> rfl
@[simp] theorem Mach.writeByte_nextGrid (m : Mach) (sp : Space) (a : Nat) (b : Byte) : (m.writeByte sp a b).nextGrid = m.nextGrid := by cases sp <;> rfl
@[simp] theorem Mach.writeByte_teams (m : Mach) (sp : Space) (a : Nat) (b : Byte) : (m.writeByte sp a b).teams = m.teams := by cases sp <;> rfl
@[simp] theorem Mach.writeByte_bundles (m : Mach) (sp : Space) (a : Nat) (b : Byte) : (m.writeByte sp a b).bundles = m.bundles := by cases sp <;> rfl
@[simp] theorem Mach.writeByte_runs (m : Mach) (sp : Space) (a : Nat) (b : Byte) : (m.writeByte sp a b).runs = m.runs := by cases sp <;> rfl
@[simp] theorem Mach.writeByte_cores (m : Mach) (sp : Space) (a : Nat) (b : Byte) : (m.writeByte sp a b).cores = m.cores := by cases sp <;> rfl
@[simp] theorem Mach.writeByte_dies (m : Mach) (sp : Space) (a : Nat) (b : Byte) : (m.writeByte sp a b).dies = m.dies := by cases sp <;> rfl
@[simp] theorem Mach.writeByte_ops (m : Mach) (sp : Space) (a : Nat) (b : Byte) : (m.writeByte sp a b).ops = m.ops := by cases sp <;> rfl
@[simp] theorem Mach.writeByte_later (m : Mach) (sp : Space) (a : Nat) (b : Byte) : (m.writeByte sp a b).later = m.later := by cases sp <;> rfl
@[simp] theorem Mach.writeByte_early (m : Mach) (sp : Space) (a : Nat) (b : Byte) : (m.writeByte sp a b).early = m.early := by cases sp <;> rfl
@[simp] theorem Mach.writeByte_copies (m : Mach) (sp : Space) (a : Nat) (b : Byte) : (m.writeByte sp a b).copies = m.copies := by cases sp <;> rfl
@[simp] theorem Mach.writeByte_sent (m : Mach) (sp : Space) (a : Nat) (b : Byte) : (m.writeByte sp a b).sent = m.sent := by cases sp <;> rfl
@[simp] theorem Mach.writeByte_spent (m : Mach) (sp : Space) (a : Nat) (b : Byte) : (m.writeByte sp a b).spent = m.spent := by cases sp <;> rfl
@[simp] theorem Mach.writeByte_wire (m : Mach) (sp : Space) (a : Nat) (b : Byte) : (m.writeByte sp a b).wire = m.wire := by cases sp <;> rfl
@[simp] theorem Mach.writeByte_acks (m : Mach) (sp : Space) (a : Nat) (b : Byte) : (m.writeByte sp a b).acks = m.acks := by cases sp <;> rfl
@[simp] theorem Mach.writeByte_settles (m : Mach) (sp : Space) (a : Nat) (b : Byte) : (m.writeByte sp a b).settles = m.settles := by cases sp <;> rfl
@[simp] theorem Mach.writeByte_out (m : Mach) (sp : Space) (a : Nat) (b : Byte) : (m.writeByte sp a b).out = m.out := by cases sp <;> rfl
@[simp] theorem Mach.writeByte_frames (m : Mach) (sp : Space) (a : Nat) (b : Byte) : (m.writeByte sp a b).frames = m.frames := by cases sp <;> rfl
@[simp] theorem Mach.writeByte_groups (m : Mach) (sp : Space) (a : Nat) (b : Byte) : (m.writeByte sp a b).groups = m.groups := by cases sp <;> rfl
@[simp] theorem Mach.writeByte_insts (m : Mach) (sp : Space) (a : Nat) (b : Byte) : (m.writeByte sp a b).insts = m.insts := by cases sp <;> rfl
@[simp] theorem Mach.writeByte_fence (m : Mach) (sp : Space) (a : Nat) (b : Byte) : (m.writeByte sp a b).fence = m.fence := by cases sp <;> rfl
@[simp] theorem Mach.writeByte_ranges (m : Mach) (sp : Space) (a : Nat) (b : Byte) : (m.writeByte sp a b).ranges = m.ranges := by cases sp <;> rfl
@[simp] theorem Mach.writeByte_bad (m : Mach) (sp : Space) (a : Nat) (b : Byte) : (m.writeByte sp a b).bad = m.bad := by cases sp <;> rfl

/-! ## Mach.writeCells -/

@[simp] theorem Mach.writeCells_clk (cs : List (Nat × Byte)) (m : Mach) (sp : Space) : (m.writeCells sp cs).clk = m.clk := by
  induction cs generalizing m with
  | nil => rfl
  | cons c r ih => exact (ih (m.writeByte sp c.1 c.2)).trans (Mach.writeByte_clk m sp c.1 c.2)
@[simp] theorem Mach.writeCells_pkg (cs : List (Nat × Byte)) (m : Mach) (sp : Space) : (m.writeCells sp cs).pkg = m.pkg := by
  induction cs generalizing m with
  | nil => rfl
  | cons c r ih => exact (ih (m.writeByte sp c.1 c.2)).trans (Mach.writeByte_pkg m sp c.1 c.2)
@[simp] theorem Mach.writeCells_free (cs : List (Nat × Byte)) (m : Mach) (sp : Space) : (m.writeCells sp cs).free = m.free := by
  induction cs generalizing m with
  | nil => rfl
  | cons c r ih => exact (ih (m.writeByte sp c.1 c.2)).trans (Mach.writeByte_free m sp c.1 c.2)
@[simp] theorem Mach.writeCells_nextOp (cs : List (Nat × Byte)) (m : Mach) (sp : Space) : (m.writeCells sp cs).nextOp = m.nextOp := by
  induction cs generalizing m with
  | nil => rfl
  | cons c r ih => exact (ih (m.writeByte sp c.1 c.2)).trans (Mach.writeByte_nextOp m sp c.1 c.2)
@[simp] theorem Mach.writeCells_linkUp (cs : List (Nat × Byte)) (m : Mach) (sp : Space) : (m.writeCells sp cs).linkUp = m.linkUp := by
  induction cs generalizing m with
  | nil => rfl
  | cons c r ih => exact (ih (m.writeByte sp c.1 c.2)).trans (Mach.writeByte_linkUp m sp c.1 c.2)
@[simp] theorem Mach.writeCells_desk (cs : List (Nat × Byte)) (m : Mach) (sp : Space) : (m.writeCells sp cs).desk = m.desk := by
  induction cs generalizing m with
  | nil => rfl
  | cons c r ih => exact (ih (m.writeByte sp c.1 c.2)).trans (Mach.writeByte_desk m sp c.1 c.2)
@[simp] theorem Mach.writeCells_queues (cs : List (Nat × Byte)) (m : Mach) (sp : Space) : (m.writeCells sp cs).queues = m.queues := by
  induction cs generalizing m with
  | nil => rfl
  | cons c r ih => exact (ih (m.writeByte sp c.1 c.2)).trans (Mach.writeByte_queues m sp c.1 c.2)
@[simp] theorem Mach.writeCells_grids (cs : List (Nat × Byte)) (m : Mach) (sp : Space) : (m.writeCells sp cs).grids = m.grids := by
  induction cs generalizing m with
  | nil => rfl
  | cons c r ih => exact (ih (m.writeByte sp c.1 c.2)).trans (Mach.writeByte_grids m sp c.1 c.2)
@[simp] theorem Mach.writeCells_nextGrid (cs : List (Nat × Byte)) (m : Mach) (sp : Space) : (m.writeCells sp cs).nextGrid = m.nextGrid := by
  induction cs generalizing m with
  | nil => rfl
  | cons c r ih => exact (ih (m.writeByte sp c.1 c.2)).trans (Mach.writeByte_nextGrid m sp c.1 c.2)
@[simp] theorem Mach.writeCells_teams (cs : List (Nat × Byte)) (m : Mach) (sp : Space) : (m.writeCells sp cs).teams = m.teams := by
  induction cs generalizing m with
  | nil => rfl
  | cons c r ih => exact (ih (m.writeByte sp c.1 c.2)).trans (Mach.writeByte_teams m sp c.1 c.2)
@[simp] theorem Mach.writeCells_bundles (cs : List (Nat × Byte)) (m : Mach) (sp : Space) : (m.writeCells sp cs).bundles = m.bundles := by
  induction cs generalizing m with
  | nil => rfl
  | cons c r ih => exact (ih (m.writeByte sp c.1 c.2)).trans (Mach.writeByte_bundles m sp c.1 c.2)
@[simp] theorem Mach.writeCells_runs (cs : List (Nat × Byte)) (m : Mach) (sp : Space) : (m.writeCells sp cs).runs = m.runs := by
  induction cs generalizing m with
  | nil => rfl
  | cons c r ih => exact (ih (m.writeByte sp c.1 c.2)).trans (Mach.writeByte_runs m sp c.1 c.2)
@[simp] theorem Mach.writeCells_cores (cs : List (Nat × Byte)) (m : Mach) (sp : Space) : (m.writeCells sp cs).cores = m.cores := by
  induction cs generalizing m with
  | nil => rfl
  | cons c r ih => exact (ih (m.writeByte sp c.1 c.2)).trans (Mach.writeByte_cores m sp c.1 c.2)
@[simp] theorem Mach.writeCells_dies (cs : List (Nat × Byte)) (m : Mach) (sp : Space) : (m.writeCells sp cs).dies = m.dies := by
  induction cs generalizing m with
  | nil => rfl
  | cons c r ih => exact (ih (m.writeByte sp c.1 c.2)).trans (Mach.writeByte_dies m sp c.1 c.2)
@[simp] theorem Mach.writeCells_ops (cs : List (Nat × Byte)) (m : Mach) (sp : Space) : (m.writeCells sp cs).ops = m.ops := by
  induction cs generalizing m with
  | nil => rfl
  | cons c r ih => exact (ih (m.writeByte sp c.1 c.2)).trans (Mach.writeByte_ops m sp c.1 c.2)
@[simp] theorem Mach.writeCells_later (cs : List (Nat × Byte)) (m : Mach) (sp : Space) : (m.writeCells sp cs).later = m.later := by
  induction cs generalizing m with
  | nil => rfl
  | cons c r ih => exact (ih (m.writeByte sp c.1 c.2)).trans (Mach.writeByte_later m sp c.1 c.2)
@[simp] theorem Mach.writeCells_early (cs : List (Nat × Byte)) (m : Mach) (sp : Space) : (m.writeCells sp cs).early = m.early := by
  induction cs generalizing m with
  | nil => rfl
  | cons c r ih => exact (ih (m.writeByte sp c.1 c.2)).trans (Mach.writeByte_early m sp c.1 c.2)
@[simp] theorem Mach.writeCells_copies (cs : List (Nat × Byte)) (m : Mach) (sp : Space) : (m.writeCells sp cs).copies = m.copies := by
  induction cs generalizing m with
  | nil => rfl
  | cons c r ih => exact (ih (m.writeByte sp c.1 c.2)).trans (Mach.writeByte_copies m sp c.1 c.2)
@[simp] theorem Mach.writeCells_sent (cs : List (Nat × Byte)) (m : Mach) (sp : Space) : (m.writeCells sp cs).sent = m.sent := by
  induction cs generalizing m with
  | nil => rfl
  | cons c r ih => exact (ih (m.writeByte sp c.1 c.2)).trans (Mach.writeByte_sent m sp c.1 c.2)
@[simp] theorem Mach.writeCells_spent (cs : List (Nat × Byte)) (m : Mach) (sp : Space) : (m.writeCells sp cs).spent = m.spent := by
  induction cs generalizing m with
  | nil => rfl
  | cons c r ih => exact (ih (m.writeByte sp c.1 c.2)).trans (Mach.writeByte_spent m sp c.1 c.2)
@[simp] theorem Mach.writeCells_wire (cs : List (Nat × Byte)) (m : Mach) (sp : Space) : (m.writeCells sp cs).wire = m.wire := by
  induction cs generalizing m with
  | nil => rfl
  | cons c r ih => exact (ih (m.writeByte sp c.1 c.2)).trans (Mach.writeByte_wire m sp c.1 c.2)
@[simp] theorem Mach.writeCells_acks (cs : List (Nat × Byte)) (m : Mach) (sp : Space) : (m.writeCells sp cs).acks = m.acks := by
  induction cs generalizing m with
  | nil => rfl
  | cons c r ih => exact (ih (m.writeByte sp c.1 c.2)).trans (Mach.writeByte_acks m sp c.1 c.2)
@[simp] theorem Mach.writeCells_settles (cs : List (Nat × Byte)) (m : Mach) (sp : Space) : (m.writeCells sp cs).settles = m.settles := by
  induction cs generalizing m with
  | nil => rfl
  | cons c r ih => exact (ih (m.writeByte sp c.1 c.2)).trans (Mach.writeByte_settles m sp c.1 c.2)
@[simp] theorem Mach.writeCells_out (cs : List (Nat × Byte)) (m : Mach) (sp : Space) : (m.writeCells sp cs).out = m.out := by
  induction cs generalizing m with
  | nil => rfl
  | cons c r ih => exact (ih (m.writeByte sp c.1 c.2)).trans (Mach.writeByte_out m sp c.1 c.2)
@[simp] theorem Mach.writeCells_frames (cs : List (Nat × Byte)) (m : Mach) (sp : Space) : (m.writeCells sp cs).frames = m.frames := by
  induction cs generalizing m with
  | nil => rfl
  | cons c r ih => exact (ih (m.writeByte sp c.1 c.2)).trans (Mach.writeByte_frames m sp c.1 c.2)
@[simp] theorem Mach.writeCells_groups (cs : List (Nat × Byte)) (m : Mach) (sp : Space) : (m.writeCells sp cs).groups = m.groups := by
  induction cs generalizing m with
  | nil => rfl
  | cons c r ih => exact (ih (m.writeByte sp c.1 c.2)).trans (Mach.writeByte_groups m sp c.1 c.2)
@[simp] theorem Mach.writeCells_insts (cs : List (Nat × Byte)) (m : Mach) (sp : Space) : (m.writeCells sp cs).insts = m.insts := by
  induction cs generalizing m with
  | nil => rfl
  | cons c r ih => exact (ih (m.writeByte sp c.1 c.2)).trans (Mach.writeByte_insts m sp c.1 c.2)
@[simp] theorem Mach.writeCells_fence (cs : List (Nat × Byte)) (m : Mach) (sp : Space) : (m.writeCells sp cs).fence = m.fence := by
  induction cs generalizing m with
  | nil => rfl
  | cons c r ih => exact (ih (m.writeByte sp c.1 c.2)).trans (Mach.writeByte_fence m sp c.1 c.2)
@[simp] theorem Mach.writeCells_ranges (cs : List (Nat × Byte)) (m : Mach) (sp : Space) : (m.writeCells sp cs).ranges = m.ranges := by
  induction cs generalizing m with
  | nil => rfl
  | cons c r ih => exact (ih (m.writeByte sp c.1 c.2)).trans (Mach.writeByte_ranges m sp c.1 c.2)
@[simp] theorem Mach.writeCells_bad (cs : List (Nat × Byte)) (m : Mach) (sp : Space) : (m.writeCells sp cs).bad = m.bad := by
  induction cs generalizing m with
  | nil => rfl
  | cons c r ih => exact (ih (m.writeByte sp c.1 c.2)).trans (Mach.writeByte_bad m sp c.1 c.2)

/-! ## Bundle updates -/

@[simp] theorem Bundle.setLane_team (b : Bundle) (l : Nat) (x : Lane) : (b.setLane l x).team = b.team := rfl
@[simp] theorem Bundle.setLane_bnum (b : Bundle) (l : Nat) (x : Lane) : (b.setLane l x).bnum = b.bnum := rfl
@[simp] theorem Bundle.setLane_regs (b : Bundle) (l : Nat) (x : Lane) : (b.setLane l x).regs = b.regs := rfl
@[simp] theorem Bundle.setLane_trap (b : Bundle) (l : Nat) (x : Lane) : (b.setLane l x).trap = b.trap := rfl
@[simp] theorem Bundle.setLane_hand (b : Bundle) (l : Nat) (x : Lane) : (b.setLane l x).hand = b.hand := rfl
@[simp] theorem Bundle.setLane_savedTiles (b : Bundle) (l : Nat) (x : Lane) : (b.setLane l x).savedTiles = b.savedTiles := rfl
@[simp] theorem Bundle.setLane_outs (b : Bundle) (l : Nat) (x : Lane) : (b.setLane l x).outs = b.outs := rfl
@[simp] theorem Bundle.setLane_marks (b : Bundle) (l : Nat) (x : Lane) : (b.setLane l x).marks = b.marks := rfl
@[simp] theorem Bundle.setLane_latch (b : Bundle) (l : Nat) (x : Lane) : (b.setLane l x).latch = b.latch := rfl
@[simp] theorem Bundle.setLane_last (b : Bundle) (l : Nat) (x : Lane) : (b.setLane l x).last = b.last := rfl
@[simp] theorem Bundle.setLane_stepped (b : Bundle) (l : Nat) (x : Lane) : (b.setLane l x).stepped = b.stepped := rfl
@[simp] theorem Bundle.setLane_pend (b : Bundle) (l : Nat) (x : Lane) : (b.setLane l x).pend = b.pend := rfl
@[simp] theorem Bundle.setLane_fault (b : Bundle) (l : Nat) (x : Lane) : (b.setLane l x).fault = b.fault := rfl
@[simp] theorem Bundle.setLane_resume (b : Bundle) (l : Nat) (x : Lane) : (b.setLane l x).resume = b.resume := rfl
@[simp] theorem Bundle.setLane_fenced (b : Bundle) (l : Nat) (x : Lane) : (b.setLane l x).fenced = b.fenced := rfl
@[simp] theorem Bundle.setLane_held (b : Bundle) (l : Nat) (x : Lane) : (b.setLane l x).held = b.held := rfl
@[simp] theorem Bundle.setLane_waiting (b : Bundle) (l : Nat) (x : Lane) : (b.setLane l x).waiting = b.waiting := rfl
@[simp] theorem Bundle.setLane_filing (b : Bundle) (l : Nat) (x : Lane) : (b.setLane l x).filing = b.filing := rfl
@[simp] theorem Bundle.setLane_blocks (b : Bundle) (l : Nat) (x : Lane) : (b.setLane l x).blocks = b.blocks := rfl
@[simp] theorem Bundle.setLane_sweep (b : Bundle) (l : Nat) (x : Lane) : (b.setLane l x).sweep = b.sweep := rfl
@[simp] theorem Bundle.setLane_hwait (b : Bundle) (l : Nat) (x : Lane) : (b.setLane l x).hwait = b.hwait := rfl
@[simp] theorem Bundle.setLane_calm (b : Bundle) (l : Nat) (x : Lane) : (b.setLane l x).calm = b.calm := rfl
@[simp] theorem Bundle.modRegs_team (b : Bundle) (x : Regs → Regs) : (b.modRegs x).team = b.team := rfl
@[simp] theorem Bundle.modRegs_bnum (b : Bundle) (x : Regs → Regs) : (b.modRegs x).bnum = b.bnum := rfl
@[simp] theorem Bundle.modRegs_lanes (b : Bundle) (x : Regs → Regs) : (b.modRegs x).lanes = b.lanes := rfl
@[simp] theorem Bundle.modRegs_trap (b : Bundle) (x : Regs → Regs) : (b.modRegs x).trap = b.trap := rfl
@[simp] theorem Bundle.modRegs_hand (b : Bundle) (x : Regs → Regs) : (b.modRegs x).hand = b.hand := rfl
@[simp] theorem Bundle.modRegs_savedTiles (b : Bundle) (x : Regs → Regs) : (b.modRegs x).savedTiles = b.savedTiles := rfl
@[simp] theorem Bundle.modRegs_outs (b : Bundle) (x : Regs → Regs) : (b.modRegs x).outs = b.outs := rfl
@[simp] theorem Bundle.modRegs_marks (b : Bundle) (x : Regs → Regs) : (b.modRegs x).marks = b.marks := rfl
@[simp] theorem Bundle.modRegs_latch (b : Bundle) (x : Regs → Regs) : (b.modRegs x).latch = b.latch := rfl
@[simp] theorem Bundle.modRegs_last (b : Bundle) (x : Regs → Regs) : (b.modRegs x).last = b.last := rfl
@[simp] theorem Bundle.modRegs_stepped (b : Bundle) (x : Regs → Regs) : (b.modRegs x).stepped = b.stepped := rfl
@[simp] theorem Bundle.modRegs_pend (b : Bundle) (x : Regs → Regs) : (b.modRegs x).pend = b.pend := rfl
@[simp] theorem Bundle.modRegs_fault (b : Bundle) (x : Regs → Regs) : (b.modRegs x).fault = b.fault := rfl
@[simp] theorem Bundle.modRegs_resume (b : Bundle) (x : Regs → Regs) : (b.modRegs x).resume = b.resume := rfl
@[simp] theorem Bundle.modRegs_fenced (b : Bundle) (x : Regs → Regs) : (b.modRegs x).fenced = b.fenced := rfl
@[simp] theorem Bundle.modRegs_held (b : Bundle) (x : Regs → Regs) : (b.modRegs x).held = b.held := rfl
@[simp] theorem Bundle.modRegs_waiting (b : Bundle) (x : Regs → Regs) : (b.modRegs x).waiting = b.waiting := rfl
@[simp] theorem Bundle.modRegs_filing (b : Bundle) (x : Regs → Regs) : (b.modRegs x).filing = b.filing := rfl
@[simp] theorem Bundle.modRegs_blocks (b : Bundle) (x : Regs → Regs) : (b.modRegs x).blocks = b.blocks := rfl
@[simp] theorem Bundle.modRegs_sweep (b : Bundle) (x : Regs → Regs) : (b.modRegs x).sweep = b.sweep := rfl
@[simp] theorem Bundle.modRegs_hwait (b : Bundle) (x : Regs → Regs) : (b.modRegs x).hwait = b.hwait := rfl
@[simp] theorem Bundle.modRegs_calm (b : Bundle) (x : Regs → Regs) : (b.modRegs x).calm = b.calm := rfl
@[simp] theorem Bundle.modRegs_regs (b : Bundle) (x : Regs → Regs) : (b.modRegs x).regs = x b.regs := rfl

/-! ## Register updates -/

@[simp] theorem Regs.setV_s (r : Regs) (n l : Nat) (x : W32) : (r.setV n l x).s = r.s := rfl
@[simp] theorem Regs.setV_p (r : Regs) (n l : Nat) (x : W32) : (r.setV n l x).p = r.p := rfl
@[simp] theorem Regs.setV_j (r : Regs) (n l : Nat) (x : W32) : (r.setV n l x).j = r.j := rfl
@[simp] theorem Regs.setV_w (r : Regs) (n l : Nat) (x : W32) : (r.setV n l x).w = r.w := rfl
@[simp] theorem Regs.setV_fpctl (r : Regs) (n l : Nat) (x : W32) : (r.setV n l x).fpctl = r.fpctl := rfl
@[simp] theorem Regs.setV_fpstat (r : Regs) (n l : Nat) (x : W32) : (r.setV n l x).fpstat = r.fpstat := rfl
@[simp] theorem Regs.setV_stepTag (r : Regs) (n l : Nat) (x : W32) : (r.setV n l x).stepTag = r.stepTag := rfl
@[simp] theorem Regs.setS_v (r : Regs) (n : Nat) (x : W64) : (r.setS n x).v = r.v := rfl
@[simp] theorem Regs.setS_p (r : Regs) (n : Nat) (x : W64) : (r.setS n x).p = r.p := rfl
@[simp] theorem Regs.setS_j (r : Regs) (n : Nat) (x : W64) : (r.setS n x).j = r.j := rfl
@[simp] theorem Regs.setS_w (r : Regs) (n : Nat) (x : W64) : (r.setS n x).w = r.w := rfl
@[simp] theorem Regs.setS_fpctl (r : Regs) (n : Nat) (x : W64) : (r.setS n x).fpctl = r.fpctl := rfl
@[simp] theorem Regs.setS_fpstat (r : Regs) (n : Nat) (x : W64) : (r.setS n x).fpstat = r.fpstat := rfl
@[simp] theorem Regs.setS_stepTag (r : Regs) (n : Nat) (x : W64) : (r.setS n x).stepTag = r.stepTag := rfl
@[simp] theorem Regs.setW_v (r : Regs) (n : Nat) (x : W64) : (r.setW n x).v = r.v := rfl
@[simp] theorem Regs.setW_s (r : Regs) (n : Nat) (x : W64) : (r.setW n x).s = r.s := rfl
@[simp] theorem Regs.setW_p (r : Regs) (n : Nat) (x : W64) : (r.setW n x).p = r.p := rfl
@[simp] theorem Regs.setW_j (r : Regs) (n : Nat) (x : W64) : (r.setW n x).j = r.j := rfl
@[simp] theorem Regs.setW_fpctl (r : Regs) (n : Nat) (x : W64) : (r.setW n x).fpctl = r.fpctl := rfl
@[simp] theorem Regs.setW_fpstat (r : Regs) (n : Nat) (x : W64) : (r.setW n x).fpstat = r.fpstat := rfl
@[simp] theorem Regs.setW_stepTag (r : Regs) (n : Nat) (x : W64) : (r.setW n x).stepTag = r.stepTag := rfl
@[simp] theorem Regs.setJ_v (r : Regs) (n : Nat) (x : Lanes) : (r.setJ n x).v = r.v := rfl
@[simp] theorem Regs.setJ_s (r : Regs) (n : Nat) (x : Lanes) : (r.setJ n x).s = r.s := rfl
@[simp] theorem Regs.setJ_p (r : Regs) (n : Nat) (x : Lanes) : (r.setJ n x).p = r.p := rfl
@[simp] theorem Regs.setJ_w (r : Regs) (n : Nat) (x : Lanes) : (r.setJ n x).w = r.w := rfl
@[simp] theorem Regs.setJ_fpctl (r : Regs) (n : Nat) (x : Lanes) : (r.setJ n x).fpctl = r.fpctl := rfl
@[simp] theorem Regs.setJ_fpstat (r : Regs) (n : Nat) (x : Lanes) : (r.setJ n x).fpstat = r.fpstat := rfl
@[simp] theorem Regs.setJ_stepTag (r : Regs) (n : Nat) (x : Lanes) : (r.setJ n x).stepTag = r.stepTag := rfl
@[simp] theorem Regs.setP_v (r : Regs) (n : Nat) (x : Lanes) : (r.setP n x).v = r.v := by unfold Regs.setP; split <;> rfl
@[simp] theorem Regs.setP_s (r : Regs) (n : Nat) (x : Lanes) : (r.setP n x).s = r.s := by unfold Regs.setP; split <;> rfl
@[simp] theorem Regs.setP_j (r : Regs) (n : Nat) (x : Lanes) : (r.setP n x).j = r.j := by unfold Regs.setP; split <;> rfl
@[simp] theorem Regs.setP_w (r : Regs) (n : Nat) (x : Lanes) : (r.setP n x).w = r.w := by unfold Regs.setP; split <;> rfl
@[simp] theorem Regs.setP_fpctl (r : Regs) (n : Nat) (x : Lanes) : (r.setP n x).fpctl = r.fpctl := by unfold Regs.setP; split <;> rfl
@[simp] theorem Regs.setP_fpstat (r : Regs) (n : Nat) (x : Lanes) : (r.setP n x).fpstat = r.fpstat := by unfold Regs.setP; split <;> rfl
@[simp] theorem Regs.setP_stepTag (r : Regs) (n : Nat) (x : Lanes) : (r.setP n x).stepTag = r.stepTag := by unfold Regs.setP; split <;> rfl

/-! ## Looking up what was written -/

@[simp] theorem Mach.core_setCore (m : Mach) (k k' : Nat) (x : Core) : (m.setCore k x).core k' = if k' = k then x else m.core k' :=
  Sparse.get_put _ _ _ _ _
@[simp] theorem Mach.die_setDie (m : Mach) (k k' : Nat) (x : Die) : (m.setDie k x).die k' = if k' = k then x else m.die k' :=
  Sparse.get_put _ _ _ _ _
@[simp] theorem Mach.bundle_setBundle (m : Mach) (k k' : Nat) (x : Option Bundle) :
    (m.setBundle k x).bundle? k' = if k' = k then x else m.bundle? k' := Sparse.get_put _ _ _ _ _
@[simp] theorem Mach.team_setTeam (m : Mach) (k k' : Nat) (x : Option Team) :
    (m.setTeam k x).team? k' = if k' = k then x else m.team? k' := Sparse.get_put _ _ _ _ _
@[simp] theorem Mach.grid_setGrid (m : Mach) (k k' : Nat) (x : Option Grid) :
    (m.setGrid k x).grid? k' = if k' = k then x else m.grid? k' := Sparse.get_put _ _ _ _ _
@[simp] theorem Mach.run_setRun (m : Mach) (q q' : Nat) (x : Option Run) :
    (m.setRun q x).run? q' = if q' = q then x else m.run? q' := Sparse.get_put _ _ _ _ _
@[simp] theorem Mach.queue_setQueue (m : Mach) (q q' : Nat) (x : Queue) :
    (m.setQueue q x).queue q' = if q' = q then x else m.queue q' := Sparse.get_put _ _ _ _ _
@[simp] theorem Mach.group_setGroup (m : Mach) (g g' : Nat) (x : Group) :
    (m.setGroup g x).group g' = if g' = g then x else m.group g' := Sparse.get_put _ _ _ _ _

/-- A slot in use is changed, an empty one stays empty, the others are left alone. -/
@[simp] theorem Mach.bundle_modBundle (m : Mach) (k k' : Nat) (f : Bundle → Bundle) :
    (m.modBundle k f).bundle? k' = if k' = k then (m.bundle? k).map f else m.bundle? k' := by
  unfold Mach.modBundle
  cases h : m.bundle? k with
  | none => by_cases e : k' = k <;> simp [e, h]
  | some b => simp

@[simp] theorem Mach.team_modTeam (m : Mach) (k k' : Nat) (f : Team → Team) :
    (m.modTeam k f).team? k' = if k' = k then (m.team? k).map f else m.team? k' := by
  unfold Mach.modTeam
  cases h : m.team? k with
  | none => by_cases e : k' = k <;> simp [e, h]
  | some b => simp

@[simp] theorem Mach.grid_modGrid (m : Mach) (k k' : Nat) (f : Grid → Grid) :
    (m.modGrid k f).grid? k' = if k' = k then (m.grid? k).map f else m.grid? k' := by
  unfold Mach.modGrid
  cases h : m.grid? k with
  | none => by_cases e : k' = k <;> simp [e, h]
  | some b => simp

@[simp] theorem Mach.core_modCore (m : Mach) (k k' : Nat) (f : Core → Core) :
    (m.modCore k f).core k' = if k' = k then f (m.core k) else m.core k' := Mach.core_setCore _ _ _ _
@[simp] theorem Mach.die_modDie (m : Mach) (k k' : Nat) (f : Die → Die) :
    (m.modDie k f).die k' = if k' = k then f (m.die k) else m.die k' := Mach.die_setDie _ _ _ _

@[simp] theorem Bundle.lane_setLane (b : Bundle) (l l' : Nat) (x : Lane) :
    (b.setLane l x).lane l' = if l' = l then x else b.lane l' := Sparse.get_put _ _ _ _ _

/-! ## Look-ups that depend on one field -/

theorem Mach.bundle_congr {m n : Mach} (h : m.bundles = n.bundles) (k : Nat) : m.bundle? k = n.bundle? k := by
  simp only [Mach.bundle?, h]
theorem Mach.run_congr {m n : Mach} (h : m.runs = n.runs) (q : Nat) : m.run? q = n.run? q := by simp only [Mach.run?, h]
theorem Mach.core_congr {m n : Mach} (h : m.cores = n.cores) (k : Nat) : m.core k = n.core k := by simp only [Mach.core, h]
theorem Mach.readByte_congr {m n : Mach} (h₁ : m.dev = n.dev) (h₂ : m.host = n.host) (h₃ : m.scratch = n.scratch) (sp : Space) (a : Nat) :
    m.readByte sp a = n.readByte sp a := by cases sp <;> simp only [Mach.readByte, Mach.mem, h₁, h₂, h₃]
theorem Mach.bundle_of_some {m : Mach} {k : Nat} {b : Bundle} (h : m.bundle? k = some b) : m.bundle k = b := by
  simp [Mach.bundle, h]


end Sys2Proof.Machine
end

