-- ==== Sys2Proof/Laws/Issue.lean ====
section
/-! SUPPORT. What issuing an instruction can do, said once: each outcome of a meaning, what the bookkeeping after it leaves alone, and
where its group then stands. -/

namespace Sys2Proof.Machine

/-! ## The issuer in focus -/

/-- What the issuer in focus is, read off the state. -/
theorem ctxOf_spec {s : State} {o : Opn} {c : Ctx} (h : ctxOf s o = some c) :
    s.mach.run? s.focus = some c.run ∧ s.mach.bundle? c.key = some c.b ∧ c.run.key = c.key ∧ c.q = s.focus ∧ c.run.grp = c.grp
      ∧ c.act = c.grp ∧ c.o = o ∧ c.pc = c.run.pc ∧ c.hand = c.b.hand.isSome ∧ c.swp = false ∧ c.tk = c.b.team
      ∧ c.tm = s.mach.team c.b.team ∧ c.g = s.mach.gridOf c.tm ∧ c.core = coreOfKey c.key ∧ c.die = dieOfCore c.core
      ∧ c.ctl = decide (c.key % 256 = 128) ∧ c.size = 4 * sizeWords o := by
  unfold ctxOf at h
  split at h
  · cases h
  · next r hr =>
    split at h
    · cases h
    · next b hb =>
      cases h
      exact ⟨hr, hb, rfl, rfl, rfl, rfl, rfl, rfl, rfl, rfl, rfl, rfl, rfl, rfl, rfl, rfl, rfl⟩

theorem view_fields (r : Rule) (c : Ctx) :
    (r.view c).q = c.q ∧ (r.view c).key = c.key ∧ (r.view c).b = c.b ∧ (r.view c).run = c.run ∧ (r.view c).grp = c.grp
      ∧ (r.view c).o = c.o ∧ (r.view c).pc = c.pc ∧ (r.view c).hand = c.hand ∧ (r.view c).ctl = c.ctl ∧ (r.view c).size = c.size
      ∧ (r.view c).tm = c.tm ∧ (r.view c).g = c.g ∧ (r.view c).core = c.core ∧ (r.view c).die = c.die ∧ (r.view c).tk = c.tk :=
  ⟨rfl, rfl, rfl, rfl, rfl, rfl, rfl, rfl, rfl, rfl, rfl, rfl, rfl, rfl, rfl⟩

/-- What `Issues` says of the issuer. -/
theorem Issues.spec {i : Instr} {o : Opn} {s : State} {r : Rule} {c : Ctx} (h : Issues i o s r c) :
    s.mach.run? s.focus = some c.run ∧ s.mach.bundle? c.key = some c.b ∧ c.run.key = c.key ∧ c.q = s.focus ∧ c.run.grp = c.grp
      ∧ c.o = o ∧ c.pc = c.run.pc ∧ c.hand = c.b.hand.isSome := by
  obtain ⟨c0, h0, rfl⟩ := Option.map_eq_some_iff.mp h.seen
  have := ctxOf_spec h0
  exact ⟨this.1, this.2.1, this.2.2.1, this.2.2.2.1, this.2.2.2.2.1, this.2.2.2.2.2.2.1, this.2.2.2.2.2.2.2.1, this.2.2.2.2.2.2.2.2.1⟩

theorem leaveResume_nextOp (c : Ctx) (m : Mach) : (c.leaveResume m).nextOp = m.nextOp := by
  unfold Ctx.leaveResume
  split
  · split <;> simp
  · rfl

/-! ## The outcomes of issue -/

/-- Where an issuer is in focus, issue answers a next state that differs in the machine alone. -/
theorem issue_next (r : Rule) (o : Opn) (s : State) (body : Ctx → Mach → Res) (h : (ctxOf s o).isSome = true) :
    ∃ m, issue r o s body = .next { s with mach := m } := by
  unfold issue
  split
  · next e => simp [e] at h
  · split
    · exact ⟨_, rfl⟩
    · dsimp only
      split
      · exact ⟨_, rfl⟩
      · split <;> exact ⟨_, rfl⟩

/-- The meaning decides what issue answers. -/
theorem Issues.issue_eq {i : Instr} {o : Opn} {s : State} {r : Rule} {c : Ctx} (h : Issues i o s r c) (body : Ctx → Mach → Res) :
    issue r o s body =
      match body c (c.leaveResume s.mach) with
      | .done m' => .next { s with mach := r.finish c s.mach.nextOp m' }
      | .goto m' pcs => .next { s with mach := r.finishGoto c s.mach.nextOp m' pcs }
      | .closed m' => .next { s with mach := m' }
      | .trap m' t => .next { s with mach := m'.raise c.q c.run t }
      | .hold => .next s
      | .wait m' ls => .next { s with mach := c.waitFor m' ls } := by
  obtain ⟨c0, h0, rfl⟩ := Option.map_eq_some_iff.mp h.seen
  have hr : s.mach.blocked c0.key &&& c0.grp = 0 := h.ready
  have hl : r.refuses (r.view c0) = none := h.legal
  have hv : (r.view c0).leaveResume s.mach = c0.leaveResume s.mach := rfl
  rw [hv]
  unfold issue
  rw [h0]
  simp only [hr, ne_eq, not_true_eq_false, if_false, hl]
  rw [← leaveResume_nextOp c0 s.mach]
  all_goals rfl

theorem Issues.done {i : Instr} {o : Opn} {s : State} {r : Rule} {c : Ctx} (h : Issues i o s r c) {body : Ctx → Mach → Res} {m' : Mach}
    (hb : body c (c.leaveResume s.mach) = .done m') : issue r o s body = .next { s with mach := r.finish c s.mach.nextOp m' } := by
  rw [h.issue_eq, hb]

theorem Issues.goto {i : Instr} {o : Opn} {s : State} {r : Rule} {c : Ctx} (h : Issues i o s r c) {body : Ctx → Mach → Res} {m' : Mach}
    {pcs : List (Nat × W64)} (hb : body c (c.leaveResume s.mach) = .goto m' pcs) :
    issue r o s body = .next { s with mach := r.finishGoto c s.mach.nextOp m' pcs } := by
  rw [h.issue_eq, hb]

theorem Issues.closed {i : Instr} {o : Opn} {s : State} {r : Rule} {c : Ctx} (h : Issues i o s r c) {body : Ctx → Mach → Res} {m' : Mach}
    (hb : body c (c.leaveResume s.mach) = .closed m') : issue r o s body = .next { s with mach := m' } := by
  rw [h.issue_eq, hb]

theorem Issues.traps {i : Instr} {o : Opn} {s : State} {r : Rule} {c : Ctx} (h : Issues i o s r c) {body : Ctx → Mach → Res} {m' : Mach}
    {t : Trap} (hb : body c (c.leaveResume s.mach) = .trap m' t) :
    issue r o s body = .next { s with mach := m'.raise c.q c.run t } := by
  rw [h.issue_eq, hb]

/-! ## What the bookkeeping after an instruction leaves alone -/

/-- A bundle apart from registers, whose threads, other lanes and counters are as they were. -/
structure IssuerKept (b b' : Bundle) (grp : Lanes) : Prop where
  rest : b' = { b with lanes := b'.lanes, hand := b'.hand, last := b'.last, stepped := b'.stepped, resume := b'.resume }
  hand : b'.hand.isSome = b.hand.isSome
  threads : ∀ l, (b'.lane l).st = (b.lane l).st ∧ (b'.lane l).tidx = (b.lane l).tidx ∧ (b'.lane l).lnk = (b.lane l).lnk
    ∧ (b'.lane l).sbuf = (b.lane l).sbuf
  lanes : ∀ l, grp.getLsbD l = false → b'.lane l = b.lane l

theorem IssuerKept.refl (b : Bundle) (grp : Lanes) : IssuerKept b b grp :=
  ⟨rfl, rfl, fun _ => ⟨rfl, rfl, rfl, rfl⟩, fun _ _ => rfl⟩

theorem IssuerKept.trans {b₁ b₂ b₃ : Bundle} {grp : Lanes} (h : IssuerKept b₁ b₂ grp) (g : IssuerKept b₂ b₃ grp) : IssuerKept b₁ b₃ grp where
  rest := by
    have e := g.rest
    rw [h.rest] at e
    exact e
  hand := g.hand.trans h.hand
  threads l :=
    have x := h.threads l
    have y := g.threads l
    ⟨y.1.trans x.1, y.2.1.trans x.2.1, y.2.2.1.trans x.2.2.1, y.2.2.2.trans x.2.2.2⟩
  lanes l e := (g.lanes l e).trans (h.lanes l e)

theorem IssuerKept.regs {b b' : Bundle} {grp : Lanes} (h : IssuerKept b b' grp) : b'.regs = b.regs := by rw [h.rest]
theorem IssuerKept.trap {b b' : Bundle} {grp : Lanes} (h : IssuerKept b b' grp) : b'.trap = b.trap := by rw [h.rest]

/-- What the bookkeeping of R36 and R37 leaves alone: all but runs, lookahead windows, and where the group of `c` stands. -/
structure Untouched (m m' : Mach) (c : Ctx) : Prop where
  machine : m' = { m with bundles := m'.bundles, runs := m'.runs, cores := m'.cores, ops := m'.ops, later := m'.later }
  others : ∀ k, k ≠ c.key → m'.bundle? k = m.bundle? k
  issuer : ∀ b, m.bundle? c.key = some b → ∃ b', m'.bundle? c.key = some b' ∧ IssuerKept b b' c.grp
  runs : ∀ q, q ≠ c.q → m'.run? q = m.run? q
  cores : ∀ k, (m'.core k).bare = (m.core k).bare
  ops : m'.ops.map Op.bare = m.ops.map Op.bare
  later : m'.later.map Later.bare = m.later.map Later.bare

theorem Untouched.refl (m : Mach) (c : Ctx) : Untouched m m c :=
  ⟨rfl, fun _ _ => rfl, fun b h => ⟨b, h, .refl b _⟩, fun _ _ => rfl, fun _ => rfl, rfl, rfl⟩

theorem Untouched.trans {m₁ m₂ m₃ : Mach} {c : Ctx} (h : Untouched m₁ m₂ c) (g : Untouched m₂ m₃ c) : Untouched m₁ m₃ c where
  machine := by
    have e := g.machine
    rw [h.machine] at e
    exact e
  others k hk := (g.others k hk).trans (h.others k hk)
  issuer b hb := by
    obtain ⟨b₂, e₂, k₂⟩ := h.issuer b hb
    obtain ⟨b₃, e₃, k₃⟩ := g.issuer b₂ e₂
    exact ⟨b₃, e₃, k₂.trans k₃⟩
  runs q hq := (g.runs q hq).trans (h.runs q hq)
  cores k := (g.cores k).trans (h.cores k)
  ops := g.ops.trans h.ops
  later := g.later.trans h.later

theorem Untouched.dev {m m' : Mach} {c : Ctx} (h : Untouched m m' c) : m'.dev = m.dev := by rw [h.machine]
theorem Untouched.host {m m' : Mach} {c : Ctx} (h : Untouched m m' c) : m'.host = m.host := by rw [h.machine]
theorem Untouched.scratch {m m' : Mach} {c : Ctx} (h : Untouched m m' c) : m'.scratch = m.scratch := by rw [h.machine]
theorem Untouched.teams {m m' : Mach} {c : Ctx} (h : Untouched m m' c) : m'.teams = m.teams := by rw [h.machine]
theorem Untouched.grids {m m' : Mach} {c : Ctx} (h : Untouched m m' c) : m'.grids = m.grids := by rw [h.machine]
theorem Untouched.desk {m m' : Mach} {c : Ctx} (h : Untouched m m' c) : m'.desk = m.desk := by rw [h.machine]
theorem Untouched.acc {m m' : Mach} {c : Ctx} (h : Untouched m m' c) (k : Nat) : (m'.core k).acc = (m.core k).acc :=
  show (m'.core k).bare.acc = (m.core k).bare.acc by rw [h.cores k]

theorem stepMxWin_bare (ls : Lanes) (close : Bool) (k : MxKind) : (stepMxWin ls close k).bare = k.bare := by cases k <;> rfl

theorem stepWindows_untouched (m : Mach) (c : Ctx) (since : Nat) (ls : Lanes) (close : Bool) :
    Untouched m (m.stepWindows c.key since ls close) c := by
  have ho : (m.ops.map fun x => if x.key = c.key ∧ x.id < since then { x with win := stepWin ls close x.win } else x).map Op.bare
      = m.ops.map Op.bare := by
    rw [List.map_map]
    exact List.map_congr_left fun x _ => by by_cases h : x.key = c.key ∧ x.id < since <;> simp [h, Op.bare]
  have hl : (m.later.map fun x => if x.key = c.key ∧ x.id < since then { x with win := stepWin ls close x.win } else x).map Later.bare
      = m.later.map Later.bare := by
    rw [List.map_map]
    exact List.map_congr_left fun x _ => by by_cases h : x.key = c.key ∧ x.id < since <;> simp [h, Later.bare]
  unfold Mach.stepWindows
  dsimp only
  split
  · exact ⟨rfl, fun _ _ => rfl, fun b h => ⟨b, h, .refl b _⟩, fun _ _ => rfl, fun _ => rfl, ho, hl⟩
  · refine ⟨rfl, fun _ _ => rfl, fun b h => ⟨b, h, .refl b _⟩, fun _ _ => rfl, fun k => ?_, ho, hl⟩
    rw [Mach.core_modCore]
    split
    · next e =>
      rw [e]
      show Core.bare { m.core (coreOfKey c.key) with mx := _ } = _
      simp only [Core.bare, List.map_map]
      congr 1
      exact List.map_congr_left fun x _ => by
        by_cases h : x.key = c.key ∧ x.id < since <;> simp [h, stepMxWin_bare]
    · rfl

/-- A change of the issuer's bundle that keeps registers, trap state, counters, threads and other lanes. -/
theorem modBundle_untouched (m : Mach) (c : Ctx) (f : Bundle → Bundle) (h : ∀ b, IssuerKept b (f b) c.grp) :
    Untouched m (m.modBundle c.key f) c where
  machine := by
    unfold Mach.modBundle
    split <;> rfl
  others k hk := by simp [hk]
  issuer b hb := ⟨f b, by simp [hb], h b⟩
  runs q _ := by rw [Mach.run_congr (Mach.modBundle_runs m c.key f)]
  cores k := by rw [Mach.core_congr (Mach.modBundle_cores m c.key f)]
  ops := by simp
  later := by simp

theorem setRun_untouched (m : Mach) (c : Ctx) (x : Option Run) : Untouched m (m.setRun c.q x) c :=
  ⟨rfl, fun _ _ => rfl, fun b h => ⟨b, h, .refl b _⟩, fun q hq => by simp [hq], fun _ => rfl, rfl, rfl⟩

/-- A fold of lane updates: each lane is updated once if it is listed, and else left alone. -/
theorem lane_foldl_modLane (f : Nat → Lane → Lane) (ls : List Nat) (hn : ls.Nodup) (b : Bundle) (l : Nat) :
    (ls.foldl (fun b l => b.modLane f l) b).lane l = if l ∈ ls then f l (b.lane l) else b.lane l := by
  induction ls generalizing b with
  | nil => simp
  | cons k r ih =>
    have hk := List.nodup_cons.mp hn
    rw [List.foldl_cons, ih hk.2]
    simp only [Bundle.modLane, Bundle.lane_setLane, List.mem_cons]
    by_cases e : l = k
    · subst e
      simp [hk.1]
    · simp [e]

theorem laneList_nodup (ls : Lanes) : (laneList ls).Nodup := List.nodup_range.sublist List.filter_sublist

theorem mem_laneList (ls : Lanes) (l : Nat) : l ∈ laneList ls ↔ ls.getLsbD l = true := by
  simp only [laneList, List.mem_filter, List.mem_range, and_iff_right_iff_imp]
  intro h
  exact BitVec.lt_of_getLsbD h

/-- Lanes of a mask are updated, the others are left alone. -/
@[simp] theorem lane_modLanes (b : Bundle) (ls : Lanes) (f : Nat → Lane → Lane) (l : Nat) :
    (b.modLanes ls f).lane l = if ls.getLsbD l = true then f l (b.lane l) else b.lane l := by
  unfold Bundle.modLanes
  rw [lane_foldl_modLane f _ (laneList_nodup ls) b l]
  simp only [mem_laneList]

theorem foldl_modLane_only (f : Nat → Lane → Lane) (ls : List Nat) (b : Bundle) :
    (ls.foldl (fun b l => b.modLane f l) b) = { b with lanes := (ls.foldl (fun b l => b.modLane f l) b).lanes } := by
  induction ls generalizing b with
  | nil => rfl
  | cons k r ih => exact ih (b.modLane f k)

/-- An update of lanes changes nothing else of a bundle. -/
theorem modLanes_only (b : Bundle) (ls : Lanes) (f : Nat → Lane → Lane) :
    b.modLanes ls f = { b with lanes := (b.modLanes ls f).lanes } := foldl_modLane_only f (laneList ls) b

@[simp] theorem modLanes_regs (b : Bundle) (ls : Lanes) (f : Nat → Lane → Lane) : (b.modLanes ls f).regs = b.regs := by rw [modLanes_only]
@[simp] theorem modLanes_trap (b : Bundle) (ls : Lanes) (f : Nat → Lane → Lane) : (b.modLanes ls f).trap = b.trap := by rw [modLanes_only]
@[simp] theorem modLanes_hand (b : Bundle) (ls : Lanes) (f : Nat → Lane → Lane) : (b.modLanes ls f).hand = b.hand := by rw [modLanes_only]
@[simp] theorem modLanes_outs (b : Bundle) (ls : Lanes) (f : Nat → Lane → Lane) : (b.modLanes ls f).outs = b.outs := by rw [modLanes_only]
@[simp] theorem modLanes_marks (b : Bundle) (ls : Lanes) (f : Nat → Lane → Lane) : (b.modLanes ls f).marks = b.marks := by rw [modLanes_only]

/-- New program counters for the lanes of a group. -/
theorem pcs_kept (b : Bundle) (grp : Lanes) (f : Nat → Lane → W64) (t : Nat) :
    IssuerKept b { b.modLanes grp (fun l x => { x with pc := f l x, last := t }) with last := t } grp where
  rest := by
    rw [modLanes_only]
  hand := by simp
  threads l := by
    have e : Bundle.lane { b.modLanes grp (fun l x => { x with pc := f l x, last := t }) with last := t } l
        = (b.modLanes grp fun l x => { x with pc := f l x, last := t }).lane l := rfl
    rw [e, lane_modLanes]
    split <;> exact ⟨rfl, rfl, rfl, rfl⟩
  lanes l hl := by
    have e : Bundle.lane { b.modLanes grp (fun l x => { x with pc := f l x, last := t }) with last := t } l
        = (b.modLanes grp fun l x => { x with pc := f l x, last := t }).lane l := rfl
    rw [e, lane_modLanes, if_neg (by simp [hl])]

theorem closeRun_untouched (m : Mach) (c : Ctx) (r : Run) (pc : W64) (hk : r.key = c.key) (hg : r.grp = c.grp) :
    Untouched m (m.closeRun c.q r pc) c := by
  refine (setRun_untouched m c none).trans ?_
  unfold Mach.closeRun
  rw [hk]
  refine modBundle_untouched _ c _ fun b => ?_
  rw [hg]
  split
  · next h => exact ⟨rfl, by simp [h], fun _ => ⟨rfl, rfl, rfl, rfl⟩, fun _ _ => rfl⟩
  · exact pcs_kept b c.grp (fun _ _ => pc) _

theorem step_untouched (c : Ctx) (m : Mach) : Untouched m (c.step m) c := by
  unfold Ctx.step
  split
  · exact .refl m c
  · refine modBundle_untouched m c _ fun b => ?_
    split
    · exact ⟨rfl, rfl, fun _ => ⟨rfl, rfl, rfl, rfl⟩, fun _ _ => rfl⟩
    · exact .refl b _

/-- After an instruction whose group goes on, nothing but runs, program counters, lookahead windows and step state has changed. -/
theorem finish_untouched (r : Rule) (c : Ctx) (since : Nat) (m : Mach) (hk : c.run.key = c.key) (hg : c.run.grp = c.grp) :
    Untouched m (r.finish c since m) c := by
  have hs := (stepWindows_untouched m c since c.grp (markC r.opc)).trans (step_untouched c _)
  unfold Rule.finish
  dsimp only
  split
  · exact hs.trans (closeRun_untouched _ c { c.run with pc := c.nextPc } c.nextPc hk hg)
  · exact hs.trans (setRun_untouched _ c _)

theorem leaveResume_untouched (c : Ctx) (m : Mach) : Untouched m (c.leaveResume m) c := by
  unfold Ctx.leaveResume
  split
  · split
    · exact .refl m c
    · exact modBundle_untouched m c _ fun b => ⟨rfl, rfl, fun _ => ⟨rfl, rfl, rfl, rfl⟩, fun _ _ => rfl⟩
  · exact .refl m c

/-- After an instruction that sends its lanes elsewhere, the same holds. -/
theorem finishGoto_untouched (r : Rule) (c : Ctx) (since : Nat) (m : Mach) (pcs : List (Nat × W64)) (hp : pcs ≠ [] ∨ c.hand = false) :
    Untouched m (r.finishGoto c since m pcs) c := by
  have hs := (stepWindows_untouched m c since c.grp (markC r.opc)).trans (step_untouched c _)
  unfold Rule.finishGoto
  refine hs.trans ((setRun_untouched _ c none).trans (modBundle_untouched _ c _ fun b => ?_))
  split
  · next hh =>
    refine ⟨rfl, ?_, fun _ => ⟨rfl, rfl, rfl, rfl⟩, fun _ _ => rfl⟩
    have hp : pcs ≠ [] := hp.resolve_right (by simp [hh])
    cases pcs with
    | nil => exact absurd rfl hp
    | cons p ps => cases b.hand <;> rfl
  · exact pcs_kept b c.grp (fun l x => ((pcs.find? fun p => decide (p.1 = l)).map (·.2)).getD x.pc) _

/-- An instruction marked W that waits ends its run and stays where it is. -/
theorem Issues.waits {i : Instr} {o : Opn} {s : State} {r : Rule} {c : Ctx} (h : Issues i o s r c) {body : Ctx → Mach → Res} {m' : Mach}
    {ls : Lanes} (hb : body c (c.leaveResume s.mach) = .wait m' ls) : issue r o s body = .next { s with mach := c.waitFor m' ls } := by
  rw [h.issue_eq, hb]

end Sys2Proof.Machine
end

