-- ==== Sys2Proof/Laws/PerInstr.lean ====
section
/-! SUPPORT. A law of every instruction as syntax, one lemma for each constructor of Instr: a well-formed instruction that has operands has an
assigned opcode with its length (R39, R40), which is not the prefix's, and its operands stand for it. -/

namespace Sys2Proof.Laws.Opcode

/-- A well-formed instruction's opcode is assigned with its length (R39), is not that of a prefix word (R32), and stands for it with its
operands. -/
def Statement (i : Instr) : Prop :=
  i.wf = true → ∀ o, opnOf i = some o → opcOf i ≠ 0xFF ∧ (∃ ls, lensOf (opcOf i) = some ls ∧ o.len.toNat ∈ ls) ∧ instrOf (opcOf i) o = some i

theorem of_wf (i : Instr) : Statement i := by
  intro h o ho
  simp only [Instr.wf, ho, Opn.wf, Bool.and_eq_true, decide_eq_true_eq] at h
  have hl : o.len.toNat ∈ (lensOf (opcOf i)).getD [] := by simpa [lenOk] using h.1.1.1.1.1.1
  cases hs : lensOf (opcOf i) with
  | none => simp [hs] at hl
  | some ls => exact ⟨fun hc => by simp [hc, lensOf] at hs, ⟨ls, rfl, by simpa [hs] using hl⟩, h.2⟩

theorem nop (o : Opn) : Statement (.nop o) := of_wf _
theorem bra (o : Opn) : Statement (.bra o) := of_wf _
theorem brx (o : Opn) : Statement (.brx o) := of_wf _
theorem call (o : Opn) : Statement (.call o) := of_wf _
theorem ret (o : Opn) : Statement (.ret o) := of_wf _
theorem exit (o : Opn) : Statement (.exit o) := of_wf _
theorem jenrol (o : Opn) : Statement (.jenrol o) := of_wf _
theorem jwait (o : Opn) : Statement (.jwait o) := of_wf _
theorem jmov (o : Opn) : Statement (.jmov o) := of_wf _
theorem reform (o : Opn) : Statement (.reform o) := of_wf _
theorem matchKeys (o : Opn) : Statement (.matchKeys o) := of_wf _
theorem compact (o : Opn) : Statement (.compact o) := of_wf _
theorem sadd (o : Opn) : Statement (.sadd o) := of_wf _
theorem ssub (o : Opn) : Statement (.ssub o) := of_wf _
theorem smul (o : Opn) : Statement (.smul o) := of_wf _
theorem smulh (o : Opn) : Statement (.smulh o) := of_wf _
theorem sand (o : Opn) : Statement (.sand o) := of_wf _
theorem sor (o : Opn) : Statement (.sor o) := of_wf _
theorem sxor (o : Opn) : Statement (.sxor o) := of_wf _
theorem sshl (o : Opn) : Statement (.sshl o) := of_wf _
theorem sshr (o : Opn) : Statement (.sshr o) := of_wf _
theorem ssar (o : Opn) : Statement (.ssar o) := of_wf _
theorem smin (o : Opn) : Statement (.smin o) := of_wf _
theorem smax (o : Opn) : Statement (.smax o) := of_wf _
theorem sset (o : Opn) : Statement (.sset o) := of_wf _
theorem ssel (o : Opn) : Statement (.ssel o) := of_wf _
theorem sli (o : Opn) : Statement (.sli o) := of_wf _
theorem smov (o : Opn) : Statement (.smov o) := of_wf _
theorem srd (o : Opn) : Statement (.srd o) := of_wf _
theorem swr (o : Opn) : Statement (.swr o) := of_wf _
theorem plog (o : Opn) : Statement (.plog o) := of_wf _
theorem vadd (o : Opn) : Statement (.vadd o) := of_wf _
theorem vsub (o : Opn) : Statement (.vsub o) := of_wf _
theorem vmul (o : Opn) : Statement (.vmul o) := of_wf _
theorem vmulh (o : Opn) : Statement (.vmulh o) := of_wf _
theorem vmad (o : Opn) : Statement (.vmad o) := of_wf _
theorem vand (o : Opn) : Statement (.vand o) := of_wf _
theorem vor (o : Opn) : Statement (.vor o) := of_wf _
theorem vxor (o : Opn) : Statement (.vxor o) := of_wf _
theorem vshl (o : Opn) : Statement (.vshl o) := of_wf _
theorem vshr (o : Opn) : Statement (.vshr o) := of_wf _
theorem vsar (o : Opn) : Statement (.vsar o) := of_wf _
theorem vmin (o : Opn) : Statement (.vmin o) := of_wf _
theorem vmax (o : Opn) : Statement (.vmax o) := of_wf _
theorem vabs (o : Opn) : Statement (.vabs o) := of_wf _
theorem vcmp (o : Opn) : Statement (.vcmp o) := of_wf _
theorem vsel (o : Opn) : Statement (.vsel o) := of_wf _
theorem vmov (o : Opn) : Statement (.vmov o) := of_wf _
theorem vpopc (o : Opn) : Statement (.vpopc o) := of_wf _
theorem vclz (o : Opn) : Statement (.vclz o) := of_wf _
theorem vbrev (o : Opn) : Statement (.vbrev o) := of_wf _
theorem vbfe (o : Opn) : Statement (.vbfe o) := of_wf _
theorem vbfi (o : Opn) : Statement (.vbfi o) := of_wf _
theorem vmix3 (o : Opn) : Statement (.vmix3 o) := of_wf _
theorem vcvt (o : Opn) : Statement (.vcvt o) := of_wf _
theorem vadds (o : Opn) : Statement (.vadds o) := of_wf _
theorem vsubs (o : Opn) : Statement (.vsubs o) := of_wf _
theorem vli (o : Opn) : Statement (.vli o) := of_wf _
theorem sweep (opc : BitVec 8) (o : Opn) : Statement (.sweep opc o) := of_wf _
theorem fadd (o : Opn) : Statement (.fadd o) := of_wf _
theorem fsub (o : Opn) : Statement (.fsub o) := of_wf _
theorem fmul (o : Opn) : Statement (.fmul o) := of_wf _
theorem ffma (o : Opn) : Statement (.ffma o) := of_wf _
theorem fmin (o : Opn) : Statement (.fmin o) := of_wf _
theorem fmax (o : Opn) : Statement (.fmax o) := of_wf _
theorem fcmp (o : Opn) : Statement (.fcmp o) := of_wf _
theorem fclass (o : Opn) : Statement (.fclass o) := of_wf _
theorem frint (o : Opn) : Statement (.frint o) := of_wf _
theorem fcvt (o : Opn) : Statement (.fcvt o) := of_wf _
theorem fcvtBlk (o : Opn) : Statement (.fcvtBlk o) := of_wf _
theorem fcvtDec (o : Opn) : Statement (.fcvtDec o) := of_wf _
theorem icvt (o : Opn) : Statement (.icvt o) := of_wf _
theorem fcvti (o : Opn) : Statement (.fcvti o) := of_wf _
theorem fscale (o : Opn) : Statement (.fscale o) := of_wf _
theorem fexpn (o : Opn) : Statement (.fexpn o) := of_wf _
theorem fexpf (o : Opn) : Statement (.fexpf o) := of_wf _
theorem flog2 (o : Opn) : Statement (.flog2 o) := of_wf _
theorem frcp (o : Opn) : Statement (.frcp o) := of_wf _
theorem frsq (o : Opn) : Statement (.frsq o) := of_wf _
theorem fsqrt (o : Opn) : Statement (.fsqrt o) := of_wf _
theorem fsin (o : Opn) : Statement (.fsin o) := of_wf _
theorem fcos (o : Opn) : Statement (.fcos o) := of_wf _
theorem ftanh (o : Opn) : Statement (.ftanh o) := of_wf _
theorem fsgn (o : Opn) : Statement (.fsgn o) := of_wf _
theorem fkey (o : Opn) : Statement (.fkey o) := of_wf _
theorem xshf (o : Opn) : Statement (.xshf o) := of_wf _
theorem xrot (o : Opn) : Statement (.xrot o) := of_wf _
theorem xbcst (o : Opn) : Statement (.xbcst o) := of_wf _
theorem xbal (o : Opn) : Statement (.xbal o) := of_wf _
theorem xbcnt (o : Opn) : Statement (.xbcnt o) := of_wf _
theorem xred (o : Opn) : Statement (.xred o) := of_wf _
theorem xscan (o : Opn) : Statement (.xscan o) := of_wf _
theorem xmov (o : Opn) : Statement (.xmov o) := of_wf _
theorem ld (o : Opn) : Statement (.ld o) := of_wf _
theorem st (o : Opn) : Statement (.st o) := of_wf _
theorem lda (o : Opn) : Statement (.lda o) := of_wf _
theorem stl (o : Opn) : Statement (.stl o) := of_wf _
theorem atom (o : Opn) : Statement (.atom o) := of_wf _
theorem loadDataReturn (op unit : Nat) (fresh err : Bool) : Statement (.loadDataReturn op unit fresh err) := of_wf _
theorem vectorResultWrite (op : Nat) : Statement (.vectorResultWrite op) := of_wf _
theorem writePerformed (op unit : Nat) : Statement (.writePerformed op unit) := of_wf _
theorem fence (o : Opn) : Statement (.fence o) := of_wf _
theorem tagl (o : Opn) : Statement (.tagl o) := of_wf _
theorem tagi (o : Opn) : Statement (.tagi o) := of_wf _
theorem tagx (o : Opn) : Statement (.tagx o) := of_wf _
theorem ifence (o : Opn) : Statement (.ifence o) := of_wf _
theorem prf (o : Opn) : Statement (.prf o) := of_wf _
theorem radd (o : Opn) : Statement (.radd o) := of_wf _
theorem rmin (o : Opn) : Statement (.rmin o) := of_wf _
theorem rmax (o : Opn) : Statement (.rmax o) := of_wf _
theorem ror (o : Opn) : Statement (.ror o) := of_wf _
theorem ronce (o : Opn) : Statement (.ronce o) := of_wf _
theorem ronceRow (o : Opn) : Statement (.ronceRow o) := of_wf _
theorem rarr (o : Opn) : Statement (.rarr o) := of_wf _
theorem rget (o : Opn) : Statement (.rget o) := of_wf _
theorem accrd (o : Opn) : Statement (.accrd o) := of_wf _
theorem accdef (o : Opn) : Statement (.accdef o) := of_wf _
theorem accdefFree (o : Opn) : Statement (.accdefFree o) := of_wf _
theorem accdefStep (o : Opn) : Statement (.accdefStep o) := of_wf _
theorem accdefQuery (o : Opn) : Statement (.accdefQuery o) := of_wf _
theorem arrwait (o : Opn) : Statement (.arrwait o) := of_wf _
theorem arrwaitWake (b l : Nat) : Statement (.arrwaitWake b l) := of_wf _
theorem letterReceive (l : Letter) (age : Nat) : Statement (.letterReceive l age) := of_wf _
theorem meetingClearComplete (die idx : Nat) : Statement (.meetingClearComplete die idx) := of_wf _
theorem rgetRead (l : Letter) (age : Nat) : Statement (.rgetRead l age) := of_wf _
theorem replyReceive (l : Letter) : Statement (.replyReceive l) := of_wf _
theorem acknowledgementReceive (pm : W64) (status : Nat) : Statement (.acknowledgementReceive pm status) := of_wf _
theorem resendTimer (pm : W64) : Statement (.resendTimer pm) := of_wf _
theorem refusedRetry (pm : W64) : Statement (.refusedRetry pm) := of_wf _
theorem settleNoticeSend (pm : W64) : Statement (.settleNoticeSend pm) := of_wf _
theorem settleNoticeReceive (die : Nat) (pm : W64) : Statement (.settleNoticeReceive die pm) := of_wf _
theorem postmarkExpiry (die : Nat) (pm : W64) : Statement (.postmarkExpiry die pm) := of_wf _
theorem mopen (o : Opn) : Statement (.mopen o) := of_wf _
theorem mpost (o : Opn) : Statement (.mpost o) := of_wf _
theorem marr (o : Opn) : Statement (.marr o) := of_wf _
theorem mwait (o : Opn) : Statement (.mwait o) := of_wf _
theorem mwaitWake (b l : Nat) : Statement (.mwaitWake b l) := of_wf _
theorem mstat (o : Opn) : Statement (.mstat o) := of_wf _
theorem mrel (o : Opn) : Statement (.mrel o) := of_wf _
theorem mclose (o : Opn) : Statement (.mclose o) := of_wf _
theorem cpy (o : Opn) : Statement (.cpy o) := of_wf _
theorem cpym (o : Opn) : Statement (.cpym o) := of_wf _
theorem copyDispatch (core : Nat) : Statement (.copyDispatch core) := of_wf _
theorem leaveGrant (team : Nat) : Statement (.leaveGrant team) := of_wf _
theorem leaveExpiry (team : Nat) : Statement (.leaveExpiry team) := of_wf _
theorem copyPage (job : Nat) (err : Bool) : Statement (.copyPage job err) := of_wf _
theorem copyCompletionStep (job : Nat) : Statement (.copyCompletionStep job) := of_wf _
theorem cpoll (o : Opn) : Statement (.cpoll o) := of_wf _
theorem csleep (o : Opn) : Statement (.csleep o) := of_wf _
theorem csleepWake (b l : Nat) : Statement (.csleepWake b l) := of_wf _
theorem gld (o : Opn) : Statement (.gld o) := of_wf _
theorem gsc (o : Opn) : Statement (.gsc o) := of_wf _
theorem nzscan (o : Opn) : Statement (.nzscan o) := of_wf _
theorem hset (o : Opn) : Statement (.hset o) := of_wf _
theorem ginv (o : Opn) : Statement (.ginv o) := of_wf _
theorem mxp (o : Opn) : Statement (.mxp o) := of_wf _
theorem mxd (o : Opn) : Statement (.mxd o) := of_wf _
theorem matrixGroup (core : Nat) (soft again : Bool) : Statement (.matrixGroup core soft again) := of_wf _
theorem ldt (o : Opn) : Statement (.ldt o) := of_wf _
theorem unpk (o : Opn) : Statement (.unpk o) := of_wf _
theorem accmv (o : Opn) : Statement (.accmv o) := of_wf _
theorem mxsave (o : Opn) : Statement (.mxsave o) := of_wf _
theorem mxload (o : Opn) : Statement (.mxload o) := of_wf _
theorem mxclr (o : Opn) : Statement (.mxclr o) := of_wf _
theorem mxclrLatch (o : Opn) : Statement (.mxclrLatch o) := of_wf _
theorem mxstat (o : Opn) : Statement (.mxstat o) := of_wf _
theorem nbin (o : Opn) : Statement (.nbin o) := of_wf _
theorem npair (o : Opn) : Statement (.npair o) := of_wf _
theorem npairRes (o : Opn) : Statement (.npairRes o) := of_wf _
theorem nstat (o : Opn) : Statement (.nstat o) := of_wf _
theorem nstatEng (o : Opn) : Statement (.nstatEng o) := of_wf _
theorem neighbourJobStart (job : Nat) (err : Bool) : Statement (.neighbourJobStart job err) := of_wf _
theorem npairStageFill (job : Nat) : Statement (.npairStageFill job) := of_wf _
theorem neighbourJobComplete (job : Nat) : Statement (.neighbourJobComplete job) := of_wf _
theorem launch (o : Opn) : Statement (.launch o) := of_wf _
theorem bar (o : Opn) : Statement (.bar o) := of_wf _
theorem barv (o : Opn) : Statement (.barv o) := of_wf _
theorem barvSelf (o : Opn) : Statement (.barvSelf o) := of_wf _
theorem mbwait (o : Opn) : Statement (.mbwait o) := of_wf _
theorem mbwaitWake (b l : Nat) : Statement (.mbwaitWake b l) := of_wf _
theorem mbfill (o : Opn) : Statement (.mbfill o) := of_wf _
theorem mbfree (o : Opn) : Statement (.mbfree o) := of_wf _
theorem waitk (o : Opn) : Statement (.waitk o) := of_wf _
theorem waitkRelease (b l : Nat) : Statement (.waitkRelease b l) := of_wf _
theorem yield (o : Opn) : Statement (.yield o) := of_wf _
theorem yieldGrp (o : Opn) : Statement (.yieldGrp o) := of_wf _
theorem sleep (o : Opn) : Statement (.sleep o) := of_wf _
theorem sleepExpiry (b l : Nat) : Statement (.sleepExpiry b l) := of_wf _
theorem pwrq (o : Opn) : Statement (.pwrq o) := of_wf _
theorem pwrqRel (o : Opn) : Statement (.pwrqRel o) := of_wf _
theorem evget (o : Opn) : Statement (.evget o) := of_wf _
theorem evgetWake (core : Nat) : Statement (.evgetWake core) := of_wf _
theorem evpost (o : Opn) : Statement (.evpost o) := of_wf _
theorem evpostStart (o : Opn) : Statement (.evpostStart o) := of_wf _
theorem evpostStat (o : Opn) : Statement (.evpostStat o) := of_wf _
theorem evpostHpc (o : Opn) : Statement (.evpostHpc o) := of_wf _
theorem evpostDrop (o : Opn) : Statement (.evpostDrop o) := of_wf _
theorem tapef (o : Opn) : Statement (.tapef o) := of_wf _
theorem tdec (o : Opn) : Statement (.tdec o) := of_wf _
theorem tdisp (o : Opn) : Statement (.tdisp o) := of_wf _
theorem tdispFill (team mb : Nat) : Statement (.tdispFill team mb) := of_wf _
theorem locq (o : Opn) : Statement (.locq o) := of_wf _
theorem locqInv (o : Opn) : Statement (.locqInv o) := of_wf _
theorem clstat (o : Opn) : Statement (.clstat o) := of_wf _
theorem clabort (o : Opn) : Statement (.clabort o) := of_wf _
theorem clstep (o : Opn) : Statement (.clstep o) := of_wf _
theorem clstepRd (o : Opn) : Statement (.clstepRd o) := of_wf _
theorem trap (o : Opn) : Statement (.trap o) := of_wf _
theorem tret (o : Opn) : Statement (.tret o) := of_wf _
theorem bkpt (o : Opn) : Statement (.bkpt o) := of_wf _
theorem halt (o : Opn) : Statement (.halt o) := of_wf _
theorem swrpRd (o : Opn) : Statement (.swrpRd o) := of_wf _
theorem swrpWr (o : Opn) : Statement (.swrpWr o) := of_wf _
theorem swrpSb (o : Opn) : Statement (.swrpSb o) := of_wf _
theorem runSelect (q : Nat) : Statement (.runSelect q) := of_wf _
theorem trapEntry (b : Nat) : Statement (.trapEntry b) := of_wf _
theorem reformFiling (b : Nat) : Statement (.reformFiling b) := of_wf _
theorem pigeonholeAgeExpiry (core : Nat) : Statement (.pigeonholeAgeExpiry core) := of_wf _
theorem bundleFree (b : Nat) : Statement (.bundleFree b) := of_wf _
theorem launchRecordTake (q : Nat) : Statement (.launchRecordTake q) := of_wf _
theorem guardMet (grid : Nat) : Statement (.guardMet grid) := of_wf _
theorem teamDispatch (grid : Nat) : Statement (.teamDispatch grid) := of_wf _
theorem eviction (grid : Nat) : Statement (.eviction grid) := of_wf _
theorem restore (k : Nat) : Statement (.restore k) := of_wf _
theorem gridRetire (grid : Nat) : Statement (.gridRetire grid) := of_wf _
theorem chunkFire (grid chunk : Nat) : Statement (.chunkFire grid chunk) := of_wf _
theorem segmentReceive (seg : Segment) : Statement (.segmentReceive seg) := of_wf _
theorem segmentTimeout (group seq chunk : Nat) : Statement (.segmentTimeout group seq chunk) := of_wf _
theorem linkLoss (port : Nat) : Statement (.linkLoss port) := of_wf _
theorem abortReceive (group seq cause src : Nat) : Statement (.abortReceive group seq cause src) := of_wf _
theorem fqresume (v : W64) : Statement (.fqresume v) := of_wf _
theorem tlbinvc (v : W64) : Statement (.tlbinvc v) := of_wf _
theorem tlbinvComplete : Statement (.tlbinvComplete) := of_wf _
theorem stresumeResume (sid : W32) : Statement (.stresumeResume sid) := of_wf _
theorem stresumeKill (sid : W32) : Statement (.stresumeKill sid) := of_wf _
theorem groupHold (group : Nat) : Statement (.groupHold group) := of_wf _
theorem fenceTableWrite (f : Nat) (v : W64) : Statement (.fenceTableWrite f v) := of_wf _
theorem pkgidWrite (v : W64) : Statement (.pkgidWrite v) := of_wf _
theorem mbcmdReport : Statement (.mbcmdReport) := of_wf _
theorem mbcmdPubkey : Statement (.mbcmdPubkey) := of_wf _
theorem registerWrite (off size : Nat) (v : W64) : Statement (.registerWrite off size v) := of_wf _
theorem cxlMemWrite (addr : Nat) (data : List Byte) : Statement (.cxlMemWrite addr data) := of_wf _
theorem cxlMemRead (addr n : Nat) : Statement (.cxlMemRead addr n) := of_wf _
theorem hostLinkDown : Statement (.hostLinkDown) := of_wf _
theorem packageReset : Statement (.packageReset) := of_wf _
theorem bootRom (fail : Nat) (svn : W32) : Statement (.bootRom fail svn) := of_wf _
theorem bootFirmware (fail : Nat) (w : Worlds) : Statement (.bootFirmware fail w) := of_wf _
theorem powerDivision (watts : Nat) : Statement (.powerDivision watts) := of_wf _
theorem thermalHold (die temp : Nat) : Statement (.thermalHold die temp) := of_wf _
theorem thermalShutdown (die temp : Nat) : Statement (.thermalShutdown die temp) := of_wf _
theorem queuedMatrixInstruction (core : Nat) : Statement (.queuedMatrixInstruction core) := of_wf _
theorem thermalHoldClear (die temp : Nat) : Statement (.thermalHoldClear die temp) := of_wf _
theorem groupHoldClear (group : Nat) : Statement (.groupHoldClear group) := of_wf _
theorem abortAnswer (group seq src : Nat) : Statement (.abortAnswer group seq src) := of_wf _
theorem ringTrafficAcknowledgement (group seq : Nat) : Statement (.ringTrafficAcknowledgement group seq) := of_wf _

end Sys2Proof.Laws.Opcode
end

