-- ==== Sys2Proof/Laws/Registers.lean ====
section
/-! SUPPORT. Reading registers after writing them, what a write over the lanes of a mask does, and what an instruction whose meaning only
writes registers has done. -/

namespace Sys2Proof.Machine

/-! ## One register -/

@[simp] theorem Regs.getS_setS (r : Regs) (n n' : Nat) (x : W64) : (r.setS n x).getS n' = if n' = n then x else r.getS n' :=
  Sparse.get_put _ _ _ _ _
@[simp] theorem Regs.getW_setW (r : Regs) (n n' : Nat) (x : W64) : (r.setW n x).getW n' = if n' = n then x else r.getW n' :=
  Sparse.get_put _ _ _ _ _
@[simp] theorem Regs.getJ_setJ (r : Regs) (n n' : Nat) (x : Lanes) : (r.setJ n x).getJ n' = if n' = n then x else r.getJ n' :=
  Sparse.get_put _ _ _ _ _

/-- Predicate 0 discards writes (R14). -/
theorem Regs.getP_setP (r : Regs) (n n' : Nat) (x : Lanes) : (r.setP n x).getP n' = if n' = n ∧ n ≠ 0 then x else r.getP n' := by
  unfold Regs.setP Regs.getP
  by_cases h : n = 0
  · simp [h]
  · by_cases h' : n' = 0
    · have : ¬n' = n := fun e => h (e ▸ h')
      simp [h, h', Ne.symm h]
    · simp [h, h', Sparse.get_put]

/-- Registers of a lane below 32 are told apart by number and lane. -/
theorem Regs.getV_setV (r : Regs) (n l n' l' : Nat) (x : W32) (h : l < 32) (h' : l' < 32) :
    (r.setV n l x).getV n' l' = if n' = n ∧ l' = l then x else r.getV n' l' := by
  unfold Regs.setV Regs.getV
  rw [Sparse.get_put]
  by_cases e : n' = n ∧ l' = l
  · rw [if_pos e, if_pos (by rw [e.1, e.2])]
  · rw [if_neg e, if_neg]
    intro g
    exact e ⟨by omega, by omega⟩

theorem Regs.sget_sset (r : Regs) (hand : Bool) (n n' : Nat) (x : W64) :
    (r.sset hand n x).sget hand n' = if n' = n then x else r.sget hand n' := by
  cases hand
  · exact Regs.getS_setS r n n' x
  · exact Regs.getW_setW r n n' x

/-! ## Writes over lanes -/

theorem getV_foldl_setV (ls : List Nat) (d : Nat) (f : Nat → W32) (r : Regs) (n l : Nat) (hl : l < 32) (hs : ∀ k ∈ ls, k < 32) :
    (ls.foldl (fun r k => r.setV d k (f k)) r).getV n l = if n = d ∧ l ∈ ls then f l else r.getV n l := by
  induction ls generalizing r with
  | nil => simp
  | cons k t ih =>
    have hk : k < 32 := hs k List.mem_cons_self
    rw [List.foldl_cons, ih _ fun x hx => hs x (List.mem_cons_of_mem _ hx), Regs.getV_setV r d k n l (f k) hk hl]
    by_cases e : n = d
    · by_cases m : l ∈ t
      · simp [e, m]
      · by_cases g : l = k
        · simp [e, g]
        · simp [e, m, g]
    · simp [e]

theorem laneList_lt (ls : Lanes) : ∀ k ∈ laneList ls, k < 32 := by
  intro k hk
  exact BitVec.lt_of_getLsbD ((mem_laneList ls k).mp hk)

/-- A write in the lanes that an instruction writes: its value where the lane takes part, zero where ZM clears it (R30). -/
theorem getV_putV (c : Ctx) (d : Nat) (f : Nat → W32) (r : Regs) (n l : Nat) (hl : l < 32) :
    (c.putV d f r).getV n l =
      if n = d ∧ c.written.getLsbD l = true then (if c.act.getLsbD l = true then f l else 0) else r.getV n l := by
  unfold Ctx.putV
  rw [getV_foldl_setV (laneList c.written) d (fun l => if c.act.getLsbD l = true then f l else 0) r n l hl (laneList_lt _)]
  simp only [mem_laneList]

theorem putV_frame (c : Ctx) (d : Nat) (f : Nat → W32) (r : Regs) : c.putV d f r = { r with v := (c.putV d f r).v } := by
  unfold Ctx.putV
  generalize laneList c.written = ls
  induction ls generalizing r with
  | nil => rfl
  | cons k t ih => exact ih _

/-- Writing a list of register words changes vector registers alone. -/
theorem writeAll_frame (ws : List (Nat × W32)) (r : Regs) : r.writeAll ws = { r with v := (r.writeAll ws).v } := by
  unfold Regs.writeAll
  induction ws generalizing r with
  | nil => rfl
  | cons k t ih => exact ih _

/-! ## Results of the vector instructions -/

theorem writeAll_append (r : Regs) (xs ys : List (Nat × W32)) : r.writeAll (xs ++ ys) = (r.writeAll xs).writeAll ys := by
  simp [Regs.writeAll]

theorem getV_writeAll_regWrites (ty d k x n l : Nat) (r : Regs) (hk : k < 32) (hl : l < 32) :
    (r.writeAll (regWrites ty d k x)).getV n l =
      if n = d ∧ l = k then BitVec.ofNat 32 x
      else if wideTy ty = true ∧ n = d + 1 ∧ l = k then BitVec.ofNat 32 (x / 2 ^ 32) else r.getV n l := by
  unfold regWrites
  by_cases h : wideTy ty = true
  · simp only [h, if_true, true_and]
    show ((r.setV d k _).setV (d + 1) k _).getV n l = _
    rw [Regs.getV_setV _ _ _ _ _ _ hk hl, Regs.getV_setV _ _ _ _ _ _ hk hl]
    by_cases e : n = d ∧ l = k
    · simp [e.1, e.2]
    · by_cases g : n = d + 1 ∧ l = k
      · simp [g.1, g.2]
      · simp only [if_neg g, if_neg e]
  · simp only [h, Bool.false_eq_true, if_false, false_and]
    exact Regs.getV_setV _ _ _ _ _ _ hk hl

/-- One result for each lane of a list. -/
theorem getV_writeAll_lanes (ty d : Nat) (g : Nat → Nat) (ls : List Nat) (r : Regs) (n l : Nat) (hl : l < 32) (hs : ∀ k ∈ ls, k < 32) :
    (r.writeAll (ls.flatMap fun k => regWrites ty d k (g k))).getV n l =
      if n = d ∧ l ∈ ls then BitVec.ofNat 32 (g l)
      else if wideTy ty = true ∧ n = d + 1 ∧ l ∈ ls then BitVec.ofNat 32 (g l / 2 ^ 32) else r.getV n l := by
  induction ls generalizing r with
  | nil => simp [Regs.writeAll]
  | cons k t ih =>
    rw [List.flatMap_cons, writeAll_append, ih _ fun x hx => hs x (List.mem_cons_of_mem _ hx),
      getV_writeAll_regWrites ty d k (g k) n l r (hs k List.mem_cons_self) hl]
    by_cases m : l ∈ t
    · by_cases e : n = d
      · simp [m, e]
      · by_cases w : wideTy ty = true ∧ n = d + 1
        · simp [m, w.1, w.2]
        · have : ¬(wideTy ty = true ∧ n = d + 1 ∧ l = k) := fun x => w ⟨x.1, x.2.1⟩
          have w' : ¬(wideTy ty = true ∧ n = d + 1 ∧ l ∈ t) := fun x => w ⟨x.1, x.2.1⟩
          have w'' : ¬(wideTy ty = true ∧ n = d + 1 ∧ l ∈ k :: t) := fun x => w ⟨x.1, x.2.1⟩
          simp only [e, false_and, if_false, w', this, w'']
    · by_cases e : l = k
      · subst e
        simp [m]
      · simp [m, e]

/-- The results of an instruction, and the zeros of its masked lanes, are one element write over the lanes written. -/
theorem elemWrite_allWrites (c : Ctx) (ty : Nat) (f : Nat → Nat × Nat) (r : Regs) (h : c.act &&& ~~~c.written = 0) :
    ElemWrite r (r.writeAll (c.allWrites ty ((laneList c.act).map fun l => (l, f l)))) ty c.o.d.toNat c.written
      fun l => if c.act.getLsbD l = true then (f l).1 else 0 := by
  refine ⟨fun n l hl => ?_, writeAll_frame _ r⟩
  have e : c.allWrites ty ((laneList c.act).map fun l => (l, f l))
      = (laneList c.act).flatMap (fun l => regWrites ty c.o.d.toNat l (f l).1)
        ++ (laneList (c.written &&& ~~~c.act)).flatMap fun l => regWrites ty c.o.d.toNat l ((fun _ => 0) l) := by
    simp [Ctx.allWrites, List.flatMap_map]
  have hb : ∀ l, c.act.getLsbD l = true → c.written.getLsbD l = true := by
    intro l ha
    have := congrArg (fun x => x.getLsbD l) h
    have hl : l < 32 := BitVec.lt_of_getLsbD ha
    simpa [ha, hl] using this
  rw [e, writeAll_append, getV_writeAll_lanes ty _ (fun _ => 0) _ _ n l hl (laneList_lt _),
    getV_writeAll_lanes ty _ (fun l => (f l).1) _ r n l hl (laneList_lt _)]
  simp only [mem_laneList]
  have hw : (c.written &&& ~~~c.act).getLsbD l = (c.written.getLsbD l && !c.act.getLsbD l) := by simp [hl]
  rw [hw]
  cases ha : c.act.getLsbD l
  · cases hw' : c.written.getLsbD l <;> simp
  · simp [hb l ha]

/-- The lanes that take part are written, whatever the mask (R30). -/
theorem Issues.written_covers {i : Instr} {o : Opn} {s : State} {r : Rule} {c : Ctx} (h : Issues i o s r c) : c.act &&& ~~~c.written = 0 := by
  obtain ⟨c0, h0, rfl⟩ := Option.map_eq_some_iff.mp h.seen
  have hs := ctxOf_spec h0
  have ha : (r.view c0).act &&& ~~~(r.view c0).grp = 0 := by
    show (if 1 ≤ (r.form c0.o).mask ∧ c0.hand = false then c0.grp &&& maskLanes c0.b.regs c0.o else c0.act) &&& ~~~c0.grp = 0
    split
    · apply BitVec.eq_of_getLsbD_eq
      intro i hi
      simp only [BitVec.getLsbD_and, BitVec.getLsbD_not]
      cases c0.grp.getLsbD i <;> simp
    · rw [hs.2.2.2.2.2.1]
      simp
  unfold Ctx.written
  split
  · exact ha
  · simp

/-! ## Instructions that only write registers -/

/-- Untouched, with the registers of the issuer mapped, is what `OnlyRegs` asks for. -/
theorem onlyRegs_of {s t : State} {c : Ctx} {m' : Mach} {b b₂ : Bundle} (hb : s.mach.bundle? c.key = some b)
    (hm : Untouched s.mach m' c) (hm' : m'.bundle? c.key = some b₂) (f : Regs → Regs)
    (ht : Untouched (m'.modBundle c.key fun x => x.modRegs f) t.mach c)
    (hw : t.boot = s.boot ∧ t.agenda = s.agenda ∧ t.focus = s.focus) : OnlyRegs s t c ∧ t.regs c.key = f (s.regs c.key) := by
  obtain ⟨b', e, k⟩ := hm.issuer b hb
  obtain rfl : b' = b₂ := Option.some_inj.mp (e.symm.trans hm')
  have hx : (m'.modBundle c.key fun x => x.modRegs f).bundle? c.key = some (b'.modRegs f) := by simp [hm']
  obtain ⟨b₃, e₃, k₃⟩ := ht.issuer _ hx
  have s1 := Mach.bundle_of_some hb
  have s3 := Mach.bundle_of_some e₃
  have hn : b₃.regs = f b.regs := by
    rw [k₃.regs]
    exact congrArg f k.regs
  have others : ∀ q, q ≠ c.key → t.mach.bundle? q = s.mach.bundle? q := fun q hq => by
    rw [ht.others q hq, Mach.bundle_modBundle, if_neg hq, hm.others q hq]
  have threads : ∀ l, (b₃.lane l).st = (b.lane l).st ∧ (b₃.lane l).tidx = (b.lane l).tidx ∧ (b₃.lane l).lnk = (b.lane l).lnk
      ∧ (b₃.lane l).sbuf = (b.lane l).sbuf := fun l =>
    have x := k.threads l
    have y := k₃.threads l
    ⟨y.1.trans x.1, y.2.1.trans x.2.1, y.2.2.1.trans x.2.2.1, y.2.2.2.trans x.2.2.2⟩
  have cores : ∀ q, (t.mach.core q).bare = (s.mach.core q).bare := fun q => by
    rw [ht.cores q, Mach.core_congr (Mach.modBundle_cores m' c.key _) q, hm.cores q]
  refine ⟨⟨fun sp a => ?_, others, ⟨?_, ?_, fun q => ?_, ?_, ?_, ?_, hw.1⟩, fun l => ?_, ⟨?_, others, fun q hq => ?_, cores, ?_, ?_,
    ?_, hw⟩, fun l hl => ?_⟩, ?_⟩
  · exact Mach.readByte_congr (ht.dev.trans (by simp [hm.dev])) (ht.host.trans (by simp [hm.host])) (ht.scratch.trans (by simp [hm.scratch])) sp a
  · rw [s1, s3, k₃.trap]
    exact k.trap
  · rw [s1, s3, k₃.hand]
    exact k.hand
  · show (t.mach.core q).bare.acc = (s.mach.core q).bare.acc
    rw [cores q]
  · rw [ht.teams, Mach.modBundle_teams, hm.teams]
  · rw [ht.grids, Mach.modBundle_grids, hm.grids]
  · rw [ht.desk, Mach.modBundle_desk, hm.desk]
  · simp only [s1, s3]
    exact threads l
  · have e1 := ht.machine
    have e2 : m'.modBundle c.key (fun x => x.modRegs f) = { m' with bundles := (m'.modBundle c.key fun x => x.modRegs f).bundles } := by
      unfold Mach.modBundle
      split <;> rfl
    rw [e2, hm.machine] at e1
    exact e1
  · rw [ht.runs q hq, Mach.run_congr (Mach.modBundle_runs m' c.key _), hm.runs q hq]
  · rw [ht.ops, Mach.modBundle_ops, hm.ops]
  · rw [ht.later, Mach.modBundle_later, hm.later]
  · simp only [s1, s3]
    have x := k.rest
    have y := k₃.rest
    rw [show b'.modRegs f = { b' with regs := f b'.regs } from rfl, x] at y
    rw [y]
  · rw [s1, s3, k₃.lanes l hl]
    exact k.lanes l hl
  · simp only [State.regs, s1, s3]
    exact hn

/-! ## Where the group then stands -/

/-- After the bookkeeping of an instruction that goes on, the group stands past it. -/
theorem standsAt_finish (r : Rule) (c : Ctx) (since : Nat) (m : Mach) (s : State) {b : Bundle} (hb : m.bundle? c.key = some b)
    (hh : b.hand.isSome = c.hand) (hk : c.run.key = c.key) (hg : c.run.grp = c.grp) :
    StandsAt { s with mach := r.finish c since m } c c.nextPc := by
  have hs := (stepWindows_untouched m c since c.grp (markC r.opc)).trans (step_untouched c _)
  obtain ⟨b', e, k⟩ := hs.issuer b hb
  have d := k.hand
  unfold Rule.finish
  dsimp only
  split
  · refine Or.inr ⟨by simp [Mach.closeRun, Mach.run_congr (Mach.modBundle_runs _ _ _)], ?_⟩
    simp only [Mach.closeRun, hk]
    generalize c.step (m.stepWindows c.key since c.grp (markC r.opc)) = m' at e ⊢
    have e' : (m'.setRun c.q none).bundle? c.key = some b' := e
    split
    · next g =>
      rw [Mach.bundle, Mach.bundle_modBundle, if_pos rfl, e', Option.map_some, Option.getD_some, if_pos (by rw [d, hh, g])]
    · next g =>
      intro l hl
      rw [Mach.bundle, Mach.bundle_modBundle, if_pos rfl, e', Option.map_some, Option.getD_some, if_neg (by rw [d, hh]; exact g)]
      show (Bundle.lane (b'.modLanes _ _) l).pc = _
      rw [lane_modLanes, if_pos (by rw [hg]; exact hl)]
  · refine Or.inl ?_
    simp

/-- What is so after an instruction whose meaning ends in a register change. -/
theorem Issues.regs_done {i : Instr} {o : Opn} {s : State} {r : Rule} {c : Ctx} (h : Issues i o s r c) (f : Regs → Regs) {t : State}
    (ht : t = { s with mach := r.finish c s.mach.nextOp (c.modRegs (c.leaveResume s.mach) f) }) :
    OnlyRegs s t c ∧ StandsAt t c c.nextPc ∧ t.regs c.key = f (s.regs c.key) := by
  obtain ⟨_, hb, hk, _, hg, _, _, hh⟩ := h.spec
  have hm := leaveResume_untouched c s.mach
  obtain ⟨b₂, e₂, k₂⟩ := hm.issuer _ hb
  have d₂ := k₂.hand
  have hx : (c.modRegs (c.leaveResume s.mach) f).bundle? c.key = some (b₂.modRegs f) := by simp [Ctx.modRegs, e₂]
  have hf := finish_untouched r c s.mach.nextOp (c.modRegs (c.leaveResume s.mach) f) hk hg
  have := onlyRegs_of (t := t) hb hm e₂ f (by rw [ht]; exact hf) (by rw [ht]; exact ⟨rfl, rfl, rfl⟩)
  refine ⟨this.1, ?_, this.2⟩
  rw [ht]
  exact standsAt_finish r c _ _ s hx (d₂.trans hh.symm) hk hg

/-- An instruction whose meaning is a change of registers completes with that change and no other. -/
theorem Issues.writesRegs {i : Instr} {o : Opn} {s : State} {r : Rule} {c : Ctx} (h : Issues i o s r c) {body : Ctx → Mach → Res}
    {f : Regs → Regs} (he : exec i s = issue r o s body) (hb : ∀ m, body c m = .done (c.modRegs m f)) : WritesRegs i s c f :=
  ⟨_, he.trans (h.done (hb _)), h.regs_done f rfl⟩

/-! ## Instructions that send their lanes elsewhere -/

theorem find_laneMap (ls : List Nat) (tgt : Nat → W64) (l : Nat) (h : l ∈ ls) :
    (ls.map fun k => (k, tgt k)).find? (fun p => decide (p.1 = l)) = some (l, tgt l) := by
  induction ls with
  | nil => simp at h
  | cons k t ih =>
    by_cases e : k = l
    · simp [e]
    · have : l ∈ t := (List.mem_cons.mp h).resolve_left (Ne.symm e)
      simpa [e] using ih this

/-- After the bookkeeping of an instruction that transfers, every lane of the group stands where the list sends it. -/
theorem scattered_finishGoto (r : Rule) (c : Ctx) (since : Nat) (m : Mach) (s : State) (tgt : Nat → W64) {b : Bundle}
    (hb : m.bundle? c.key = some b) (hh : b.hand.isSome = c.hand) (hne : c.grp ≠ 0) :
    Scattered { s with mach := r.finishGoto c since m ((laneList c.grp).map fun l => (l, tgt l)) } c tgt := by
  have hs := (stepWindows_untouched m c since c.grp (markC r.opc)).trans (step_untouched c _)
  obtain ⟨b', e, k⟩ := hs.issuer b hb
  have d := k.hand
  unfold Rule.finishGoto
  dsimp only
  generalize c.step (m.stepWindows c.key since c.grp (markC r.opc)) = m' at e ⊢
  have e' : (m'.setRun c.q none).bundle? c.key = some b' := e
  refine ⟨by simp [Mach.run_congr (Mach.modBundle_runs _ _ _)], ?_⟩
  split
  · next g =>
    rw [Mach.bundle, Mach.bundle_modBundle, if_pos rfl, e', Option.map_some, Option.getD_some]
    have d' : b'.hand.isSome = true := by rw [d, hh, g]
    rw [if_pos d']
    cases hl : laneList c.grp with
    | nil =>
      refine absurd ?_ hne
      apply BitVec.eq_of_getLsbD_eq
      intro i hi
      have : i ∉ laneList c.grp := by rw [hl]; simp
      rw [mem_laneList] at this
      simpa using this
    | cons k t => simp [lowestLane, hl]
  · next g =>
    intro l hl
    rw [Mach.bundle, Mach.bundle_modBundle, if_pos rfl, e', Option.map_some, Option.getD_some]
    show (Bundle.lane (b'.modLanes _ _) l).pc = _
    rw [lane_modLanes, if_pos hl, find_laneMap _ _ _ ((mem_laneList _ _).mpr hl)]
    rfl

/-- An instruction whose meaning sends its lanes elsewhere, changing registers on the way, completes so. -/
theorem Issues.regs_goto {i : Instr} {o : Opn} {s : State} {r : Rule} {c : Ctx} (h : Issues i o s r c) {body : Ctx → Mach → Res}
    {f : Regs → Regs} {tgt : Nat → W64} (he : exec i s = issue r o s body)
    (hb : ∀ m, body c m = .goto (c.modRegs m f) ((laneList c.grp).map fun l => (l, tgt l))) :
    Gives i s fun t => OnlyRegs s t c ∧ Scattered t c tgt ∧ t.regs c.key = f (s.regs c.key) := by
  have hne := h.group
  obtain ⟨_, hbb, hk, _, hg, _, _, hh⟩ := h.spec
  have hm := leaveResume_untouched c s.mach
  obtain ⟨b₂, e₂, k₂⟩ := hm.issuer _ hbb
  have d₂ := k₂.hand
  have hx : (c.modRegs (c.leaveResume s.mach) f).bundle? c.key = some (b₂.modRegs f) := by simp [Ctx.modRegs, e₂]
  have hp : ((laneList c.grp).map fun l => (l, tgt l)) ≠ [] ∨ c.hand = false := by
    refine Or.inl fun e => hne ?_
    apply BitVec.eq_of_getLsbD_eq
    intro i hi
    have : i ∉ laneList c.grp := by rw [List.map_eq_nil_iff.mp e]; simp
    rw [mem_laneList] at this
    simpa using this
  have hf := finishGoto_untouched r c s.mach.nextOp (c.modRegs (c.leaveResume s.mach) f) _ hp
  refine ⟨_, he.trans (h.goto (hb _)), ?_⟩
  have hs := scattered_finishGoto r c s.mach.nextOp _ s tgt hx (d₂.trans hh.symm) hne
  generalize r.finishGoto c s.mach.nextOp (c.modRegs (c.leaveResume s.mach) f) ((laneList c.grp).map fun l => (l, tgt l)) = X at hf hs ⊢
  have := onlyRegs_of (t := { s with mach := X }) hbb hm e₂ f hf ⟨rfl, rfl, rfl⟩
  exact ⟨this.1, hs, this.2⟩

end Sys2Proof.Machine
end

