-- ==== Sys2Proof/Laws/Spans.lean ====
section
/-! SUPPORT. Clearing a span of device memory: what it reads as afterwards, and that it keeps the canonical form. -/

namespace Sys2Proof

/-- Entries left out by a test leave the canonical form. -/
theorem Sparse.wfFrom_filter {α : Type} [DecidableEq α] (d : α) (f : Nat × α → Bool) {m : Sparse α} {a : Nat}
    (h : Sparse.wfFrom d a m = true) : Sparse.wfFrom d a (m.filter f) = true := by
  induction m generalizing a with
  | nil => rfl
  | cons p r ih =>
    obtain ⟨k, v⟩ := p
    simp only [Sparse.wfFrom, Bool.and_eq_true, decide_eq_true_eq] at h
    cases hf : f (k, v)
    · rw [List.filter_cons_of_neg (by simp [hf])]
      exact Sparse.wfFrom_mono d (by omega) (ih h.2)
    · rw [List.filter_cons_of_pos hf]
      simp only [Sparse.wfFrom, Bool.and_eq_true, decide_eq_true_eq]
      exact ⟨h.1, ih h.2⟩

/-- A key that the test keeps reads as before, and one that it leaves out as the default. -/
theorem Sparse.get_filter_key {α : Type} (d : α) (f : Nat → Bool) (m : Sparse α) (i : Nat) :
    Sparse.get d (m.filter fun p => f p.1) i = if f i then Sparse.get d m i else d := by
  induction m with
  | nil => simp [Sparse.get]
  | cons p r ih =>
    obtain ⟨k, v⟩ := p
    cases hf : f k
    · rw [List.filter_cons_of_neg (by simp [hf]), ih]
      by_cases hi : i = k
      · subst hi; simp [hf]
      · simp [Sparse.get, hi]
    · rw [List.filter_cons_of_pos (by simpa using hf)]
      by_cases hi : i = k
      · subst hi; simp [Sparse.get, hf]
      · simp [Sparse.get, hi, ih]

namespace Machine

theorem zeroSpan_wf (m : Mach) (a n : Nat) (h : m.memWf = true) : (m.zeroSpan a n).memWf = true := by
  simp only [Mach.memWf, Memory.wf, Bool.and_eq_true] at h ⊢
  exact ⟨⟨Sparse.wfFrom_filter _ _ h.1.1, h.1.2⟩, h.2⟩

theorem readByte_zeroSpan (m : Mach) (a n : Nat) (sp : Space) (x : Nat) :
    (m.zeroSpan a n).readByte sp x = if sp = .dev ∧ a ≤ x ∧ x < a + n then emptyByte else m.readByte sp x := by
  cases sp
  · have h := Sparse.get_filter_key emptyByte (fun k => decide (k < a ∨ a + n ≤ k)) m.dev x
    simp only [Mach.zeroSpan, Mach.readByte, Mach.mem, h, decide_eq_true_eq, true_and]
    split <;> split <;> first | rfl | omega
  · simp [Mach.zeroSpan, Mach.readByte, Mach.mem]
  · simp [Mach.zeroSpan, Mach.readByte, Mach.mem]

end Machine

end Sys2Proof
end

