-- ==== Sys2Proof/Tests/Slice0.lean ====
section
/-! SUPPORT. Tests of the model, with expected results from the spec, and for each claim with premises a concrete state and operands that
meet them all together (`wit_`). -/

open Sys2Proof Sys2Proof.Machine Sys2Proof.Claims

set_option Elab.async false

namespace Sys2Proof.Tests

/-! ## Small states -/

/-- The premises of a claim about an instruction: it issues and meets no trap of R41, and `P` holds of what it sees. -/
def meets (i : Instr) (s : State) (P : Ctx → Bool) : Bool :=
  match opnOf i with
  | none => false
  | some o =>
    match ruleOf i s.inHandler with
    | none => false
    | some r =>
      match (ctxOf s o).map r.view with
      | none => false
      | some c => decide (c.grp ≠ 0) && decide (s.mach.blocked c.key &&& c.grp = 0) && (r.refuses c).isNone && P c

/-- A witness by evaluation is a witness of the claims' premise. -/
theorem issues_of_meets {i : Instr} {s : State} {P : Ctx → Bool} (h : meets i s P = true) :
    ∃ o r c, Issues i o s r c ∧ P c = true := by
  unfold meets at h
  split at h
  · cases h
  · split at h
    · cases h
    · split at h
      · cases h
      · rename_i ho _ r hr _ c hc
        simp only [Bool.and_eq_true, decide_eq_true_eq, Option.isNone_iff_eq_none] at h
        exact ⟨_, r, c, ⟨ho, hr, hc, h.1.1.1, h.1.1.2, h.1.2⟩, h.2⟩

/-- Where no exception is enabled, no lane traps (R65). -/
theorem noTrap_of_fpctl {c : Ctx} (h : c.b.regs.fpctl = 0) (fl : Nat → Nat) : NoTrap c fl := by
  intro l _
  simp [h, enabledOf, fld]

def z : Opn := Opn.zero

/-- One team of one bundle of 32 threads, its run in focus at 0x10000 (log 8). -/
def s0 : State := State.reset.withFetchWord 32 0

def inB (f : Bundle → Bundle) (s : State) : State := { s with mach := s.mach.modBundle 0 f }
def inR (f : Regs → Regs) : State → State := inB fun b => b.modRegs f
def inL (l : Nat) (f : Lane → Lane) : State → State := inB fun b => { b with lanes := Sparse.put Lane.none b.lanes l (f (b.lane l)) }
def inT (f : Team → Team) (s : State) : State := { s with mach := s.mach.modTeam 0 f }
def inG (f : Grid → Grid) (s : State) : State := { s with mach := s.mach.modGrid 0 f }
def inC (f : Core → Core) (s : State) : State := { s with mach := s.mach.modCore 0 f }
def sreg (n : Nat) (x : W64) : State → State := inR fun r => r.setS n x
def grp (g : Lanes) (s : State) : State := { s with mach := s.mach.setRun 0 (some ⟨0, g, BitVec.ofNat 64 placeVa, 0⟩) }
/-- Device memory; the byte at virtual address 0x10000 + k lies at 0x100000 + k. -/
def mem (pa w x : Nat) (s : State) : State := { s with mach := s.mach.writeNat .dev pa w x }
/-- Team scratchpad of team 0. -/
def scr (off w x : Nat) (s : State) : State := { s with mach := s.mach.writeNat .scratch off w x }

/-- In a handler (R373), and on the control core (R333). -/
def sH : State := inB (fun b => { b with hand := some 0x10000 }) s0 |> grp 1
def sK : State :=
  { s0 with mach :=
    ((s0.mach.setBundle 128 (some { Bundle.start 0 128 with
      lanes := [(0, { Lane.none with st := .runnable, pc := 0x10000, tidx := 0xFFFFFFFF })] })).setRun 0
        (some ⟨128, 1#32, 0x10000, 0⟩)).modCore 0 fun k => { k with cst := 1, owner := 0 } }

/-- The state after an instruction or an event. -/
def after (i : Instr) (s : State) : State := match exec i s with | .next t => t | _ => s

def plainIssue (i : Instr) (s : State) : Bool := meets i s fun _ => true

/-! ## Witnesses: vector and scalar units -/

/-- Operands for vector instructions: base forms of three registers and of one, and extended forms. -/
def tries : List Opn :=
  [{ z with d := 8, a := 4, b := 6 }, { z with d := 8, a := 4 }, { z with d := 8, b := 4 }, { z with len := 2, d := 8, a := 4, b := 6, c := 2, ty := 0 },
   { z with len := 2, d := 8, a := 4, ty := 4 }, { z with len := 2, d := 8, a := 4, ty := 4, b := 6 },
   { z with len := 2, d := 8, a := 4, mods := 5 }, { z with len := 2, d := 8, a := 4, mods := 37, b := 6 }]

theorem wit_VectorOpsWriteEveryLane :
    (vectorOps.all fun e => tries.any fun o => meets (e.1 o) s0 fun c => decide (c.b.regs.fpctl = 0)) = true := by decide +kernel

theorem wit_VectorOps_lookahead :
    meets (.frcp { z with len := 2, d := 8, a := 4, ty := 4, la := 3 }) s0 (fun c =>
      decide (c.b.regs.fpctl = 0 ∧ c.la true ≠ 0)) = true := by decide +kernel

theorem wit_ScalarUnitComputes :
    ((scalarResults.all fun e => plainIssue (e.1 { z with d := 3, a := 4, b := 5 }) s0) &&
      plainIssue (.ssel { z with d := 3, a := 4, b := 5 }) s0 && plainIssue (.sli { z with d := 3, b := 0x7F }) s0) = true := by decide +kernel

theorem wit_SpecialRegistersAreMoved :
    ((List.range 5).all (fun n => plainIssue (.smov { z with len := 2, fn := .ofNat 8 n, d := if n = 4 then 0 else 4, a := if n = 3 then 0 else 6, b := if n = 1 then 2 else 0 }) s0) &&
      (List.range 19).all (fun n => plainIssue (.srd { z with d := 4, b := .ofNat 11 n }) s0) &&
      meets (.swr { z with a := 4, b := 17 }) s0 (fun c => decide (fld (c.s 4) 63 13 = 0 ∧ fld (c.s 4) 7 5 = 0 ∧ fld (c.s 4) 2 0 ≤ 4)) &&
      plainIssue (.swr { z with a := 4, b := 18 }) s0) = true := by decide +kernel

theorem wit_PredicatesAreWritten :
    ((plainIssue (.plog { z with d := 1, a := 2, b := 3 }) s0) && plainIssue (.plog { z with len := 2, fn := 1, d := 1, a := 2 }) s0 &&
      plainIssue (.vcmp { z with d := 1, a := 4, b := 6 }) s0 &&
      meets (.fcmp { z with d := 1, a := 4, b := 6 }) s0 fun c => decide (c.b.regs.fpctl = 0)) = true := by decide +kernel

theorem wit_CrossLaneResults :
    (plainIssue (.xshf { z with d := 8, a := 4, b := 6 }) s0 && plainIssue (.xshf { z with len := 2, fn := 1, mods := 3, d := 8, a := 4 }) s0 &&
      plainIssue (.xrot { z with d := 8, a := 4, b := 6 }) s0 && plainIssue (.xbcst { z with d := 8, a := 4, b := 6 }) s0 &&
      (List.range 4).all (fun n => plainIssue (.xbal { z with len := 2, fn := .ofNat 8 n, d := 4, a := 3 }) s0)) = true := by decide +kernel

theorem wit_SelectReduceScanMove :
    (plainIssue (.xbcnt { z with d := 3, a := 4, b := 6 }) s0 && meets (.xred { z with d := 8, a := 4 }) s0 (fun c => decide (c.b.regs.fpctl = 0)) &&
      meets (.xscan { z with d := 8, a := 4 }) s0 (fun c => decide (c.b.regs.fpctl = 0)) &&
      (List.range 6).all (fun n => plainIssue (.xmov { z with len := 2, fn := .ofNat 8 n, d := 4, a := 2, b := if n < 4 then 1 else 0 }) sH)) = true := by
  decide +kernel

/-! ## Witnesses: control -/

def lanes (P : Nat → Bool) : Bool := (List.range 32).all P

theorem wit_BranchesTransfer :
    (plainIssue (.nop z) s0 && plainIssue (.bra { z with imm := 8 }) s0 && plainIssue (.call { z with imm := 8 }) s0 &&
      (List.range 4).all (fun n => meets (.brx { z with len := 2, fn := .ofNat 8 n, a := 4, b := if n = 1 ∨ n = 2 then 5 else 0 }) (sreg 5 1 s0)
        fun c => lanes fun l => decide ((brxTarget c l).toNat % 4 = 0)) &&
      [4, 5].all (fun n => meets (.brx { z with len := 2, fn := .ofNat 8 n, a := 4 }) s0 fun c => lanes fun l => decide ((brxTarget c l).toNat % 4 = 0)) &&
      meets (.ret z) s0 fun c => lanes fun l => decide ((retTarget c l).toNat % 4 = 0)) = true := by decide +kernel

theorem wit_BranchesTransfer_misaligned :
    (meets (.brx { z with len := 2, a := 4 }) (sreg 4 2 s0) (fun c => brxTakes c && decide (c.grp.getLsbD 0 = true ∧ (brxTarget c 0).toNat % 4 ≠ 0)) &&
      meets (.ret z) (inL 3 (fun x => { x with lnk := 2 }) s0) fun c =>
        decide (c.grp.getLsbD 3 = true ∧ guardHolds c 3 = true ∧ (retTarget c 3).toNat % 4 ≠ 0)) = true := by decide +kernel

theorem wit_ExitEndsThreads :
    (meets (.exit z) s0 (fun c => decide (c.g.det = false) && (List.range 16).all fun k => decide ((c.tm.bar k).mode ≠ 1)) &&
      meets (.exit z) sK fun c => c.ctl && decide ((sK.mach.core c.core).cst = 1 ∧ c.b.outs = []) &&
        lanes fun l => !c.b.live.getLsbD l || ends c l) = true := by decide +kernel

/-- Lane 5 is parked at mask 1; the others are in the run. -/
def sJoin : State := inL 5 (fun x => { x with st := .join 1 4 }) (grp 0xFFFFFFDF s0)

theorem wit_RejoinMasks :
    (plainIssue (.jenrol { z with d := 1 }) s0 &&
      meets (.jwait { z with d := 1 }) (inG (fun g => { g with legacy := true }) s0) (fun c => c.g.legacy) &&
      meets (.jwait { z with d := 1 }) sJoin (fun c => !c.g.legacy) &&
      plainIssue (.jmov { z with len := 2, fn := 1, d := 4, a := 1 }) s0 &&
      meets (.jmov { z with len := 2, fn := 2, d := 1, a := 4 }) s0 (fun c => lanes fun l => !atJoin c.b 1 l) &&
      meets (.jmov { z with d := 2, a := 1 }) s0 (fun c => lanes fun l => !atJoin c.b 2 l) &&
      meets (.jmov { z with d := 1, a := 2 }) sJoin (fun c => atJoin c.b 1 5)) = true := by decide +kernel

theorem wit_LanesAreSelectedAndPacked :
    (plainIssue (.vsel { z with len := 2, d := 8, a := 4, b := 6, c := 2 }) s0 && plainIssue (.vli { z with d := 8, b := 0x7F }) s0 &&
      [0, 1].all (fun n => plainIssue (.matchKeys { z with len := 2, fn := n, d := 8, a := 4 }) s0) &&
      [0, 1].all (fun n => plainIssue (.compact { z with len := 2, fn := n, d := 8, a := 4, b := 6 }) s0)) = true := by decide +kernel

/-- VADD as a sweep of `n` iterations over the first bytes of the scratchpad. -/
def sweepOf (n : Nat) : Opn := { z with len := 3, xf := 1, d := 8, a := 8, b := 8, imm := .ofNat 64 (n * 2 ^ 52) }

theorem wit_SweepWritesItsElements :
    (plainIssue (.sweep 0x20 (sweepOf 0)) s0 && (sweepElem 0x20).isSome &&
      meets (.sweep 0x20 (sweepOf 1)) s0 fun c => decide (sweepCount c.o = 1 ∧ c.sweepFrom = 0) &&
        decide (c.sweepConds vruleAdd 4 = [])) = true := by decide +kernel

/-- Format slot 1 holds a descriptor of ETYPE 4 with block scales of 32. -/
def sSlot : State := inG (fun g => { g with slots := [0, BitVec.ofNat 128 (4 + 256 + 5 * 4096 + 65536)] }) s0

theorem wit_BlockConversionsWriteLanes :
    (meets (.fcvtBlk { z with len := 2, d := 8, a := 4, b := 1, fn := 1, mods := 4 }) sSlot (fun c => decide (c.b.regs.fpctl = 0) &&
        (c.slotTrap 1 fun x => decide (4 ≤ slotEtype x ∧ slotEtype x ≤ 6 ∧ slotSmode x = 1)).isNone) &&
      meets (.fcvtDec { z with len := 2, fn := 2, d := 8, a := 4, b := 1, ty := 4 }) sSlot fun c => decide (c.b.regs.fpctl = 0) &&
        (c.slotTrap 1 fun x => decide (4 ≤ slotEtype x ∧ slotEtype x ≤ 8)).isNone) = true := by decide +kernel

theorem wit_DelayedResultsAreWritten :
    ((after (.frcp { z with len := 2, d := 8, a := 4, ty := 4, la := 3 }) s0).mach.later.any fun y => decide (y.id = 0 ∧ y.lanes ≠ 0)) = true := by
  decide +kernel

/-! ## Witnesses: memory -/

/-- The accesses of the lanes pass their checks; so does the one access of an instruction. -/
def passes (s : State) (acc : Ctx → Nat → Access) (c : Ctx) : Bool :=
  s.mach.bad.isEmpty && match c.checkLanes (acc c) (laneList c.act) (c.leaveResume s.mach) with
    | (_ :: _, [], _) => true
    | _ => false
def passesOne (s : State) (a : Ctx → Access) (c : Ctx) : Bool :=
  s.mach.bad.isEmpty && (match (c.leaveResume s.mach).check c.agent (a c) with | (.ok _, _) => true | _ => false)
def piece (s : State) (a : Ctx → Access) (c : Ctx) : Piece :=
  match (c.leaveResume s.mach).check c.agent (a c) with | (.ok ps, _) => onePiece ps | _ => onePiece []
/-- The tracker has room for the parts of 32 lanes, and no counter is full. -/
def roomy (s : State) (c : Ctx) : Bool := decide (s.mach.tracked c.core + 64 ≤ 8192) && (List.range 6).all fun k => !c.counterFull k

/-- Lanes 0 and 1 are in the run; s2 points into the team's page. -/
def sM : State := sreg 2 0x10400 (grp 3 s0)
/-- LD.w, ST.w, ATOM operands: v8, [s2]. -/
def oM : Opn := { z with d := 8, a := 2, mods := 10 }
/-- A page without a translation: its table entry is not valid. -/
def sPage : State := sreg 2 0x50000 (mem 0 8 0x2001 sM)
/-- Deterministic mode, and s2 in the scratchpad window; and the same with a full buffer. -/
def sDet : State := sreg 2 (BitVec.ofNat 64 winBase) (inG (fun g => { g with det := true }) sM)
def sFull : State := inL 1 (fun x => { x with sbuf := List.replicate 32 ⟨0, [0]⟩ }) sDet

theorem wit_StoresAreOutstandingOrBuffered :
    ([(.st : Opn → Instr), .stl].all fun e =>
      meets (e oM) sM (fun c => passes sM (fun c => c.plain (memSize c.o) false true false) c && roomy sM c && !c.buffers) &&
      meets (e oM) sDet (fun c => passes sDet (fun c => c.plain (memSize c.o) false true false) c && roomy sDet c && c.buffers) &&
      meets (e oM) sFull (fun c => passes sFull (fun c => c.plain (memSize c.o) false true false) c && c.buffers &&
        decide (32 ≤ (c.b.lane 1).sbuf.length ∧ c.act.getLsbD 1 = true))) = true := by decide +kernel

theorem wit_LoadsAndAtomicsAreOutstanding :
    ([(.ld : Opn → Instr), .lda].all (fun e => meets (e oM) sM fun c => passes sM (fun c => c.plain (memSize c.o) true false false) c && roomy sM c) &&
      meets (.atom oM) sM fun c => passes sM (fun c => c.plain (memSize c.o) true true true) c && roomy sM c) = true := by decide +kernel

/-- A load, a store and an atomic are outstanding. -/
def sLd : State := after (.ld oM) sM
def sSt : State := after (.st oM) sM
def sAt : State := after (.atom oM) sM

/-- The part of an operation that may be performed satisfies `P`, and its owner is resident and counts it. -/
def performs (s : State) (op unit : Nat) (P : Op → Part → Bool) : Bool :=
  match s.mach.performable op unit with
  | some (x, p) => P x p && decide (p.lane < 32) && !s.mach.damaged p.space p.addr p.size &&
      match s.mach.bundle? x.key with
      | some b => !x.counted || b.outs.any fun y => decide (y.id = x.id)
      | none => false
  | none => false

theorem wit_AccessesArePerformed :
    (performs sLd 0 0 (fun _ p => match p.kind with | .read _ => true | _ => false) &&
      performs sSt 0 0 (fun x p => decide (x.dest = .none) && match p.kind with | .write _ => true | _ => false) &&
      performs sAt 0 0 (fun _ p => match p.kind with | .rmw _ _ _ _ => true | _ => false)) = true := by decide +kernel

theorem wit_FailedAccessesTrapOrWait :
    ([((.ld : Opn → Instr), true), (.lda, true), (.st, false), (.stl, false)].all fun e =>
      meets (e.1 oM) (sreg 2 0x10401 sM) (fun c =>
        (c.checkLanes (c.plain (memSize c.o) e.2 (!e.2) false) [0, 1] (c.leaveResume (sreg 2 0x10401 sM).mach)).2.1.any fun y => decide (y.cause ≠ 3)) &&
      meets (e.1 oM) sPage (fun c => !c.hand && !c.ctl &&
        match (c.checkLanes (c.plain (memSize c.o) e.2 (!e.2) false) [0, 1] (c.leaveResume sPage.mach)).2.1 with
        | [] => false
        | ys => ys.all fun y => decide (y.cause = 3))) = true := by decide +kernel

/-- Tag keys: s4 is in slot 0, s5 in none. -/
def sTag : State := after (.tagi { z with d := 3, a := 4, b := 6 }) (sreg 4 0x77 (sreg 5 0x78 sM))

theorem wit_FencesPrefetchAndTags :
    (plainIssue (.fence { z with mods := 8 }) s0 && plainIssue (.ifence z) s0 && plainIssue (.prf { z with a := 2, mods := 8 }) sM && sM.mach.bad.isEmpty &&
      meets (.tagl { z with d := 3, a := 4 }) sTag (fun c => (c.tagFind (sTag.mach.core 0) (tagKey (c.s 4))).isSome) &&
      meets (.tagl { z with d := 3, a := 5 }) sTag (fun c => (c.tagFind (sTag.mach.core 0) (tagKey (c.s 5))).isNone) &&
      meets (.tagi { z with d := 3, a := 4, b := 6 }) sTag (fun c => (c.tagFind (sTag.mach.core 0) (tagKey (c.s 4))).isSome) &&
      meets (.tagi { z with d := 3, a := 5, b := 6 }) (sreg 6 99 sTag) (fun c => decide (c.tm.nscr ≤ (c.s 6).toNat)) &&
      plainIssue (.tagx { z with d := 3, a := 6 }) sTag && plainIssue (.tagx { z with len := 2, fn := 1, d := 3, a := 4 }) sTag) = true := by
  decide +kernel

/-! ## Witnesses: remote -/

def quiet (s : State) (c : Ctx) : Bool := decide (c.b.count 4 = 0 ∧ c.b.count 1 = 0) && s.mach.sent.all fun x => !x.owes s.mach.clk

theorem wit_RemoteOperationsSendLetters :
    (laneSenders.all fun e => meets (e.1 { oM with mods := 11 }) sM fun c =>
      passes sM (fun c => c.target (e.2.2 c.o) (e.2.2 c.o) false) c && roomy sM c && quiet sM c) = true := by decide +kernel

/-- s3 holds a row's length; s5 an offset; s6 a reply slot's address. -/
def sRow : State := sreg 3 64 (sreg 6 (BitVec.ofNat 64 winBase) sM)

theorem wit_RowsArrivalsAndRequestsAreSent :
    (meets (.ronceRow { z with len := 2, fn := 1, mods := 11, d := 5, a := 2, b := 3 }) sRow (fun c =>
        passesOne sRow (fun c => ⟨c.sea, 64, 8, false, true, false, false, .letter, .denied 0x24⟩) c && roomy sRow c && quiet sRow c &&
        !sRow.mach.mustWait c.key 1 .scratch (c.tm.phys c.core 0) 64) &&
      meets (.rarr { z with mods := 11, a := 2 }) sRow (fun c =>
        passesOne sRow (fun c => ⟨c.sea, 8, 8, false, true, false, false, .letter, .denied 0x24⟩) c && quiet sRow c && (c.b.heldMark 4).isNone) &&
      meets (.rarr { z with mods := 11, a := 2 }) (grp 3 sSt) (fun c =>
        passesOne (grp 3 sSt) (fun c => ⟨c.sea, 8, 8, false, true, false, false, .letter, .denied 0x24⟩) c && decide (c.b.count 1 ≠ 0)) &&
      meets (.rget { z with mods := 10, d := 6, a := 2 }) sRow (fun c => roomy sRow c && quiet sRow c &&
        match c.rgetCheck (laneList c.act) (c.leaveResume sRow.mach) with | (_ :: _, [], _) => true | _ => false)) = true := by decide +kernel

/-- A region of kind 1 over the bytes at 0x100400, with its status bytes, and a descriptor of a region at 0x10400. -/
def aRegion : Region := ⟨0x100400, 0x100480, 1, false, 0, 0, [(0x102000, 1)], [], 0, 0, 0, false, none, none⟩
def sReg : State := { sM with mach := sM.mach.modDie 0 fun d => { d with regions := [(0, some aRegion)] } }
def sDesc : State := mem 0x100400 8 0x11000 (mem 0x100408 8 0x11080 (mem 0x100410 8 2 (mem 0x100418 8 0x12000 sM)))
def sDefd : State := grp 3 (after (.accdef { z with mods := 11, d := 3, a := 2 }) sDesc)

theorem wit_AccumulatorReadsAreOutstanding :
    [0, 1].all (fun n => meets (.accrd { z with len := 2, fn := n, ty := if n = 0 then 4 else 0, mods := 12, d := 8, a := 2 }) sReg fun c =>
      passes sReg (fun c l => ⟨c.rea l, 16, 16, true, false, false, false, .local_, .denied 0x24⟩) c && roomy sReg c &&
        decide (c.b.regs.trapsOn = false) && (sReg.mach.regionAt 1 0x100400 16).isSome) = true := by decide +kernel

def ready (s : State) (wr : Bool) (c : Ctx) : Bool :=
  passesOne s (fun c => ⟨c.sea, 64, 64, true, wr, false, false, .local_, .allowed⟩) c && decide (c.b.count 1 = 0) &&
    !s.mach.threadBusy c.key c.grp .dev

theorem wit_RegionsAreDefined :
    (meets (.accdef { z with mods := 11, d := 3, a := 2 }) sDesc (fun c => ready sDesc false c &&
        !(c.define sDesc.mach (c.readOwn sDesc.mach 0 [piece sDesc (fun c => ⟨c.sea, 64, 64, true, false, false, false, .local_, .allowed⟩) c])).1.getLsbD 63) &&
      meets (.accdef { z with mods := 11, d := 3, a := 2 }) sM (fun c => ready sM false c) &&
      [sM, sDefd].all (fun s => meets (.accdefFree { z with len := 2, fn := 1, mods := 11, d := 3, a := 2 }) s (ready s false) &&
        meets (.accdefStep { z with len := 2, fn := 2, mods := 11, d := 3, a := 2 }) s (ready s false) &&
        meets (.accdefQuery { z with len := 2, fn := 3, mods := 11, d := 3, a := 2 }) s (ready s true)) &&
      decide ((sDefd.mach.die 0).freeRegion = some 1)) = true := by decide +kernel

def reads8 (s : State) (c : Ctx) : Bool :=
  passesOne s (fun c => ⟨c.sea, 8, 8, true, false, false, false, .local_, .denied 0x24⟩) c && !s.mach.mustWait c.key c.grp .dev 0x100400 8
/-- An arrival word that waits for one arrival, and a group parked on it. -/
def sArr : State := mem 0x100400 8 (2 ^ 32) sM
def oA : Opn := { z with mods := 11, d := 3, a := 2 }
def sPark : State := after (.arrwait oA) sArr

theorem wit_ArrivalsAreAwaited :
    (meets (.arrwait oA) sM (reads8 sM) && meets (.arrwait oA) sArr (reads8 sArr) && meets (.arrwait { oA with len := 2, fn := 1 }) sArr (reads8 sArr) &&
      (match ((sPark.mach.bundle 0).lane 1).st with | .wait (.arrival _ pa) _ _ => decide (pa = 0x100400) | _ => false)) = true := by decide +kernel

/-- Letters, and requests, on their way; the first of them. -/
def sRadd : State := after (.radd { oM with mods := 11 }) sM
def sRget : State := after (.rget { z with mods := 10, d := 6, a := 2 }) sRow
def first (s : State) (P : Letter → Bool) : Bool := match s.mach.wire with | w :: _ => P w.letter | [] => false
def later (n : Nat) (s : State) : State := { s with mach := { s.mach with clk := s.mach.clk + n } }

def accepted (s : State) (l : Letter) : Bool :=
  decide (l.tpkg.toNat = s.mach.pkg ∧ (pmPkg l.pm = s.mach.pkg ∨ s.boot.pkgV = true)) && !s.mach.fenced (pmPkg l.pm) && !letterBad l &&
    match s.mach.takeCopy l (pmPkg l.pm) 0 with | some (a, _) => decide (a ≤ 250) | none => false

theorem wit_LettersAreApplied :
    (first sRadd (fun l => decide (l.op ≠ 9 ∧ l.op ≠ 10) && accepted sRadd l) &&
      first (later 2000000 sRadd) (fun l => decide (l.op ≠ 9 ∧ l.op ≠ 10 ∧ l.tpkg.toNat = 0) &&
        match (later 2000000 sRadd).mach.takeCopy l (pmPkg l.pm) 0 with | some (a, _) => decide (250 < a) | none => false) &&
      first sRadd (fun l => decide (l.op = 1))) = true := by decide +kernel

def pm0 : W64 := postmark 0 0 0 0

theorem wit_RequestsAreAnsweredAndPostmarksLeave :
    (first sRget (fun l => decide (l.op = 9) && accepted sRget l && !sRget.mach.secureSpan l.tpa.toNat (2 ^ l.sz.toNat) &&
        !sRget.mach.damaged .dev l.tpa.toNat (2 ^ l.sz.toNat)) &&
      first sRget (fun l => (let s : State := { sRget with mach := { sRget.mach with ranges := [(0x100000, 0x40000000)] } }
        decide (l.op = 9 ∧ l.world = false) && accepted s l && s.mach.secureSpan l.tpa.toNat (2 ^ l.sz.toNat))) &&
      (let s : State := { s0 with mach := { s0.mach with settles := [(0, pm0)] } }
       s.mach.settles.contains (0, pm0)) &&
      (let s := later 1000000 { s0 with mach := s0.mach.setMark 0 pm0 (some 0) }
       match Sparse.get none (s.mach.die 0).marks pm0.toNat with | some x => decide (x + 200 * Config.usCycles ≤ s.mach.clk) | none => false)) = true := by
  decide +kernel

/-- The first letter of sRadd is applied; an answer of each status is on its way. -/
def sAck (st : Nat) : State := { sRadd with mach := { sRadd.mach with acks := [(pm0, st)] } }
def sSent (f : Sent → Sent) : State := later 100000 { sRadd with mach := { sRadd.mach with sent := sRadd.mach.sent.map f } }
/-- The first reply is on its way. -/
def sReply : State := match sRget.mach.wire with | w :: _ => after (.rgetRead w.letter 0) sRget | [] => sRget

theorem wit_SendersFollowTheirLetters :
    ([0, 1, 2].all (fun st => match (sAck st).mach.sentAt pm0 with
        | some x => !x.acked && ((sAck st).mach.takeAck x.letter.tpkg.toNat pm0 st).isSome && decide (x.letter.op ≠ 9)
        | none => false) &&
      (match (sSent id).mach.sentAt pm0 with
        | some x => !x.acked && !x.refused && decide (x.timer + 8 * Config.usCycles ≤ (sSent id).mach.clk ∧ x.resends < 16) | none => false) &&
      (match (sSent fun x => { x with refused := true }).mach.sentAt pm0 with | some x => !x.acked && x.refused | none => false) &&
      (match (sSent fun x => { x with acked := true }).mach.sentAt pm0 with
        | some x => x.acked && decide (x.letter.op ≠ 9 ∧ x.last + 6 * Config.usCycles ≤ (sSent id).mach.clk) | none => false) &&
      sReply.mach.wire.any fun w => let l := w.letter
        match sReply.mach.sentAt l.pm with
        | some x => decide (l.op = 10 ∧ l.tpkg.toNat = 0) && x.answeredBy l && x.slot.isSome &&
            (match sReply.mach.takeCopy l x.letter.tpkg.toNat 0 with | some (a, _) => decide (a ≤ 250) | none => false) &&
            (match x.sender with | .bundle key out => (sReply.mach.bundle key).outs.any fun y => decide (y.id = out) | _ => false)
        | none => false) = true := by decide +kernel

/-! ## Witnesses: meetings and copies -/

def withRegion (i : Nat) (r : Region) (s : State) : State :=
  { s with mach := s.mach.modDie 0 fun d => { d with regions := Sparse.put none d.regions i (some r) } }
/-- A meeting record of two members at 0x10400, its regions defined; the meeting open; and its first round open. -/
def sRec : State :=
  withRegion 0 { aRegion with base := 0x102000, limit := 0x102080 } (withRegion 1 { aRegion with base := 0x103000, limit := 0x103080 }
    (mem 0x100400 8 0x12000 (mem 0x100408 8 0x13000 (mem 0x100410 8 0x14000 (mem 0x100418 8 (2 + 2 * 2 ^ 16 + 2 ^ 40) sM)))))
def sOpen : State := grp 3 (after (.mopen { z with d := 4, a := 2 }) sRec)
def sRound : State := after (.meetingClearComplete 0 2) sOpen

def recs (s : State) (w loc : Bool) (c : Ctx) : Bool := passesOne s (fun c => c.recAccess w loc) c && !c.tagBad
def table (s : State) (c : Ctx) : Bool := recs s true true c && decide (c.b.count 1 = 0) && !s.mach.threadBusy c.key c.grp .dev

def oT : Opn := { z with d := 4, a := 2 }

theorem wit_MeetingInstructions :
    (meets (.mpost { z with d := 8, a := 2, b := 6, mp := 0 }) sOpen (fun c => recs sOpen true false c && decide (c.act ≠ 0) && roomy sOpen c && quiet sOpen c) &&
      meets (.mpost { z with len := 2, ty := 4, d := 8, a := 2, b := 6, mn := true }) sOpen (fun c => !c.tagBad && decide (c.act = 0)) &&
      [(.marr : Opn → Instr), .mrel].all (fun e => meets (e { z with a := 2 }) sOpen fun c => recs sOpen true false c && quiet sOpen c && sOpen.mach.ops.isEmpty) &&
      [sOpen, sRound].all (fun s => meets (.mwait oT) (grp 3 s) fun c => recs s false true c && !s.mach.mustWait c.key c.grp .dev 0x100400 128) &&
      meets (.mwait { oT with len := 2, fn := 1 }) sOpen (fun c => recs sOpen false true c && !sOpen.mach.mustWait c.key c.grp .dev 0x100400 128) &&
      (match (((after (.mwait oT) sOpen).mach.bundle 0).lane 1).st with | .wait (.meeting _ rc _) _ _ => decide (rc = 0x100400) | _ => false) &&
      [0, 1, 2].all (fun n => meets (.mstat { oT with len := 2, fn := n }) sOpen fun c => recs sOpen false true c && !sOpen.mach.mustWait c.key c.grp .dev 0x100400 128 &&
        decide (c.memberNo < nfld (sOpen.mach.rec8 0x100400 24) 12 0) && (sOpen.mach.meetingAt c.die 0x100400).isSome)) = true := by decide +kernel

theorem wit_MeetingsOpenAndClose :
    (meets (.mopen oT) sRec (fun c => table sRec c && !(c.mopen sRec.mach 0x100400 (sRec.mach.readBytes .dev 0x100400 128)).1.getLsbD 63) &&
      meets (.mopen oT) sM (fun c => table sM c && (c.mopen sM.mach 0x100400 (sM.mach.readBytes .dev 0x100400 128)).1.getLsbD 63) &&
      meets (.mclose oT) sM (fun c => table sM c && (sM.mach.meetingAt c.die 0x100400).isNone) &&
      meets (.mclose oT) sOpen (fun c => table sOpen c && (sOpen.mach.meetingAt c.die 0x100400).isSome) &&
      match (Sparse.get none (sOpen.mach.die 0).regions 2).bind Region.meeting with
      | some g => decide ((sOpen.mach.par g.record 0).rst = 3) && (Sparse.get none (sOpen.mach.die 0).regions g.acc0).isSome
      | none => false) = true := by decide +kernel

/-- A copy record of 16 elements of 4 bytes at 0x10400, without and with a completion ring at 1,024 of the scratchpad. -/
def sCpy : State := mem 0x100400 8 0x11000 (mem 0x100408 8 17 (mem 0x100410 4 64 (mem 0x100434 1 15 sM)))
def sRing : State := mem 0x100438 8 (0x100 + 16 * 65536) (scr 1024 8 (2048 + 4 * 2 ^ 32) sCpy)
def oC : Opn := { z with a := 2, b := 4, c := 6 }
/-- The copy is queued, has an engine, and has ended. -/
def sQd (s : State) : State := after (.cpy oC) s
def sRun (s : State) : State := after (.copyDispatch 0) (sQd s)
def sDone (s : State) : State := (List.range 4).foldl (fun s _ => after (.copyPage 0 false) s) (sRun s)

theorem wit_CopiesAreQueued :
    ([((.cpy : Opn → Instr), false), (.cpym, true)].all (fun e => meets (e.1 oC) sRing (fun c => (c.leader == some 0) &&
        passesOne sRing (fun c => ⟨c.s 2, 64, 64, true, false, false, false, .local_, .allowed⟩) c &&
        !sRing.mach.mustWait c.key 1 .dev 0x100400 64 && roomy sRing c && (sRing.mach.copyEntry 0 0).isSome &&
        let d := sRing.mach.readBytes .dev 0x100400 64
        (c.recordBad e.2 d).isNone && (c.copyFits sRing.mach 0 d (ringOf d false 0)).isNone &&
          !(ringOf d false 0).any fun k => sRing.mach.mustWait c.key 1 .scratch (c.tm.phys c.core k) 64) &&
      meets (e.1 { oC with mods := 0x100 }) sRing fun c => c.leader.isNone) &&
      (sQd sRing).mach.copies.any fun x => decide (coreOfKey x.key = 0 ∧ x.st = 0)) = true := by decide +kernel

theorem wit_CopiesMoveAndComplete :
    ((sRun sRing).mach.copies.any (fun x => decide (x.id = 0 ∧ x.st = 1 ∧ x.f ≤ cpSize x.desc ∧ cpSize x.desc ≤ 65536) &&
        !(sRun sRing).mach.issuerBusy x.key x.lane x.id) &&
      [sCpy, sRing].all fun s => (sDone s).mach.copies.any fun x => decide (x.id = 0 ∧ x.st = 4 ∧ nfld (cpCtl x.desc) 14 14 = 0) &&
        !(sDone s).mach.fillsFirst x && ((sDone s).mach.bundle x.key).outs.any (fun y => decide (y.id = x.out)) &&
        match x.ring with
        | some off => !x.noRec && ((sDone s).mach.claimSlot ((sDone s).mach.team 0) 0 off).1.isSome
        | none => true) = true := by decide +kernel

/-- The ring holds the copy's record; s2 names its header. -/
def sRec1 : State := sreg 2 1024 (grp 3 (after (.copyCompletionStep 0) (sDone sRing)))
def sRec0 : State := sreg 2 1024 sRing
def polls (s : State) (v : Bool) (c : Ctx) : Bool :=
  !s.mach.threadBusy c.key c.grp .scratch && match s.mach.headSlot c.tm c.core (c.s 2).toNat with | some (_, x) => x == v | none => false

theorem wit_RingsAreRead :
    ([(.cpoll : Opn → Instr), .csleep].all (fun e => meets (e oT) sRec1 (polls sRec1 true) && meets (e oT) sRec0 (polls sRec0 false)) &&
      [sRec0, { sRec0 with mach := { sRec0.mach with scratch := sRec1.mach.scratch } }].all fun s =>
        (let t := after (.csleep oT) sRec0
         let u : State := { t with mach := { t.mach with scratch := s.mach.scratch } }
         match ((u.mach.bundle 0).lane 1).st with
         | .wait (.ring _ _ off) _ _ => (u.mach.headSlot (u.mach.team 0) 0 off).isSome
         | _ => false)) = true := by decide +kernel

/-! ## Witnesses: barriers, mailbags, waits, leave -/

/-- s2 names barrier 1 of team 0. -/
def sBarv : State := grp 3 (after (.barvSelf { z with len := 2, fn := 1, mods := 1, d := 2 }) (inT (fun t => { t with gen := 1 }) s0))
def noOps (s : State) (c : Ctx) : Bool := decide (c.b.count 1 = 0) && !(s.mach.ops.any fun x => decide (x.key = c.key) && !x.counted)

theorem wit_Barriers :
    ([s0, grp 3 s0].all (fun s => [{ z with mods := 1 }, { z with mods := 0x11, b := 2 }].all fun o => meets (.bar o) (sreg 2 64 s) fun c =>
        !(c.tm.bar 1).misuse (if bitAt o.mods 4 then some 64 else none) (popCount c.grp) && !(sreg 2 64 s).mach.threadsBusy c.key c.grp &&
        decide (c.tm.killed = false ∧ c.key ∈ s.mach.bundlesOf c.tk ∧ (s.mach.awayFrames c.tk).isEmpty = true) && !s.mach.anyFiled c.tk) &&
      meets (.barv oT) sBarv (fun c => noOps sBarv c && (match c.barTarget sBarv.mach (c.s 2) with | .ok tk => decide (((sBarv.mach.team tk).bar 1).mode ≠ 1) | _ => false)) &&
      meets (.barv oT) sM (fun c => noOps sM c && (match c.barTarget sM.mach (c.s 2) with | .ok _ => false | _ => true)) &&
      plainIssue (.barvSelf { z with len := 2, fn := 1, mods := 1, d := 2 }) s0) = true := by decide +kernel

/-- Mailbag 1 with 4 stages, of which the numbers claimed, filled, taken and freed are given. -/
def bag (cl fi ta fr : Nat) (s : State) : State := inT (fun t => t.setMail 1 ⟨4, .ofNat 32 cl, .ofNat 32 fi, .ofNat 32 ta, .ofNat 32 fr, false⟩) s
def oB : Opn := { z with d := 4, mods := 1 }
def has (s : State) (c : Ctx) : Bool := decide ((c.tm.mail 1).stages ≠ 0 ∧ (s.mach.team? c.tk).isSome = true)
def mails (s : State) (r : Bool) (free : Bool) (c : Ctx) : Bool :=
  has s c && ((c.tm.mail 1).ready free == r) && (s.mach.mailWaiters c.tk 1 free).isEmpty
/-- A group is parked until a stage is full. -/
def sMbw : State := after (.mbwait oB) (bag 0 0 0 0 s0)

theorem wit_Mailbags :
    (meets (.mbwait oB) s0 (fun c => decide ((c.tm.mail 1).stages = 0)) && meets (.mbwait oB) (bag 1 1 0 0 s0) (mails (bag 1 1 0 0 s0) true false) &&
      meets (.mbwait oB) (bag 0 0 0 0 s0) (mails (bag 0 0 0 0 s0) false false) &&
      [1, 2, 3].all (fun n => meets (.mbwait { oB with len := 2, fn := .ofNat 8 n }) (bag 0 0 0 0 s0) (mails (bag 0 0 0 0 s0) (n % 2 = 1) (n % 2 = 1))) &&
      meets (.mbwait { oB with len := 2, fn := 4 }) (bag 0 0 0 0 s0) (has (bag 0 0 0 0 s0)) &&
      [bag 1 1 0 0 sMbw, sMbw].all (fun s => match ((s.mach.bundle 0).lane 0).st with | .wait (.mailbag _ _ mb) _ _ => decide (mb = 1) | _ => false) &&
      [((.mbfill : Opn → Instr), bag 1 0 0 0 s0), (.mbfill, bag 0 0 0 0 s0), (.mbfree, bag 1 1 1 0 s0), (.mbfree, bag 0 0 0 0 s0)].all (fun e =>
        meets (e.1 { z with mods := 1 }) e.2 fun c => has e.2 c && noOps e.2 c) &&
      [(.mbfill : Opn → Instr), .mbfree].all fun e => meets (e { z with mods := 1 }) s0 fun c => decide ((c.tm.mail 1).stages = 0)) = true := by
  decide +kernel

/-- Parked on the mem counter, and asleep; and leave asked for, and held. -/
def sWk : State := after (.waitk { z with mods := 1 }) (grp 3 sSt)
def sSl : State := after (.sleep { z with a := 4 }) s0
def leaveIs (n : Nat) : State := inT (fun t => { t with leave := ⟨n, 0, false⟩ }) { s0 with mach := s0.mach.modDie 0 fun d => { d with share := 4 } }

theorem wit_WaitsSleepsAndLeave :
    (meets (.waitk { z with mods := 1 }) s0 (fun c => decide (c.b.count 1 = 0)) && meets (.waitk { z with mods := 1 }) (grp 3 sSt) (fun c => decide (c.b.count 1 ≠ 0) && !c.hand) &&
      meets (.waitk { z with mods := 1 }) (inB (fun b => { b with outs := [⟨0, 1, false⟩] }) sH) (fun c => decide (c.b.count 1 ≠ 0) && c.hand) &&
      (match ((sWk.mach.bundle 0).lane 1).st with | .wait (.counter k _) _ _ => decide (k = 1) && ((sWk.mach.bundle 0).heldMark k).isNone | _ => false) &&
      plainIssue (.yield z) s0 && plainIssue (.yieldGrp { z with len := 2, fn := 1 }) s0 && plainIssue (.sleep { z with a := 4 }) s0 &&
      meets (.sleep { z with a := 4 }) (sreg 4 (BitVec.ofNat 64 (2 ^ 32)) s0) (fun c => decide (2 ^ 32 ≤ (c.s 4).toNat)) &&
      (match ((sSl.mach.bundle 0).lane 1).st with | .wait (.sleep till) _ _ => decide (till ≤ sSl.mach.clk) | _ => false) &&
      meets (.pwrq { z with d := 4 }) s0 (fun c => (s0.mach.team? c.tk).isSome) && meets (.pwrqRel { z with len := 2, fn := 1, d := 4 }) (leaveIs 2) (fun c => decide (c.tm.leave.st = 2)) &&
      (let m := (leaveIs 1).mach
       [0, 1, 2, 3].find? (fun d => (bestRequest (m.requests d)).any fun r => decide (r.who = 0)) == some 0 && !(m.die 0).hold && decide ((m.die 0).share ≠ 0)) &&
      (later 5000 (leaveIs 2)).mach.teams.any fun p => p.2.any fun t => decide (t.leave.st = 2 ∧ t.leave.since + 4096 ≤ 5000)) = true := by decide +kernel

/-! ## Witnesses: gather and matrix -/

/-- Handle descriptors: dense and writable; block-packed, and writable with a pack state. -/
def descOf (offtab stride pstate attr : Nat) : List Byte :=
  leBytes 8 0x11000 ++ leBytes 8 0x1000 ++ leBytes 8 offtab ++ leBytes 4 4 ++ leBytes 4 64 ++ leBytes 8 stride ++ leBytes 8 pstate ++ leBytes 8 attr
    ++ leBytes 8 0
def dense : List Byte := descOf 0 256 0 0x18
def packedD : List Byte := descOf 0x14000 0 0x13000 0x19
def bound (d : List Byte) : State := inT (fun t => { t with handles := Sparse.put [] t.handles 1 d }) sM
/-- The dense descriptor stands at 0x10400. -/
def sHset : State := { sM with mach := sM.mach.writeBytes .dev 0x100400 dense }
def oG : Opn := { z with d := 8, a := 1, b := 6 }

theorem wit_GatherUnit :
    ([(sHset, false), (sM, true)].all (fun e => meets (.hset { z with d := 1, a := 2 }) e.1 fun c =>
        passesOne e.1 (fun c => ⟨c.s 2, 64, 64, true, false, false, false, .local_, .allowed⟩) c && !e.1.mach.mustWait c.key c.grp .dev 0x100400 64 &&
        (e.1.mach.team? c.tk).isSome && (handleBad (e.1.mach.readBytes .dev 0x100400 64) == e.2)) &&
      plainIssue (.ginv z) s0 &&
      [(dense, 0), (packedD, 2)].all (fun e => meets (.gld { oG with len := 2, fn := .ofNat 8 e.2 }) (bound e.1) fun c =>
        decide (c.tm.handle? 1 = some e.1) && roomy (bound e.1) c &&
        match c.gldLanes e.1 (decide (e.2 = 2)) (laneList c.act) (c.leaveResume (bound e.1).mach) with | (_ :: _, [], _) => true | _ => false) &&
      [0, 1].all (fun n => meets (.gsc { oG with len := 2, fn := .ofNat 8 n, ty := if n = 1 then 4 else 0 }) (bound dense) fun c =>
        decide (c.tm.handle? 1 = some dense) && gscFits c.o dense && roomy (bound dense) c &&
        match c.gscCheck dense (laneList c.act) (c.leaveResume (bound dense).mach) with
        | (ps, [], _) => !ps.isEmpty && !ps.any fun x => (bound dense).mach.mustWait c.key (laneBit x.1) .dev x.2.1.addr 4
        | _ => false) &&
      meets (.gsc { oG with len := 2, fn := 2 }) (bound packedD) (fun c => decide (c.tm.handle? 1 = some packedD) && gscFits c.o packedD && roomy (bound packedD) c &&
        decide (fld (c.s 6) 31 0 < hRows packedD * hCpr packedD) &&
        passesOne (bound packedD) (fun _ => ⟨0x13000, 16, 16, false, true, false, false, .local_, .denied 0x2A⟩) c &&
        passesOne (bound packedD) (fun _ => ⟨0x14000, 4, 4, false, true, false, false, .local_, .denied 0x2A⟩) c) &&
      plainIssue (.nzscan { z with len := 2, ty := 4, d := 8, a := 4, b := 6 }) s0) = true := by decide +kernel

/-- Format slots 0 and 1 hold ETYPE 4, and leave is held. -/
def sMx : State := inT (fun t => { t with leave := ⟨2, 0, false⟩ }) (inG (fun g => { g with slots := [4, 4] }) sM)
/-- With the block of an MXD of two groups on tiles 0 and 1 at the start of the scratchpad. -/
def sMxd : State := scr 0 8 (2 ^ 32 + 2 ^ 48) sMx
def engine (s : State) (c : Ctx) : Bool := !c.mxEarly && decide ((s.mach.core c.core).mx.length < 32) && !c.counterFull 3

theorem wit_MatrixInstructionsAreQueued :
    (meets (.mxp z) sMx (fun c => engine sMx c && (c.leader == some 0) && match c.mxCheck false c.mxDefault with | .ok _ => true | _ => false) &&
      meets (.mxp { z with mods := 0x100 }) sMx (fun c => engine sMx c && c.leader.isNone) &&
      [((.mxp : Opn → Instr), false, sMx), (.mxd, true, sMxd)].all fun e => meets (e.1 { z with len := if e.2.1 then 0 else 2, a := 4 }) e.2.2 fun c =>
        engine e.2.2 c && (c.leader == some 0) && !e.2.2.mach.mustWait c.key 1 .scratch (c.tm.phys c.core 0) 64 &&
        match c.mxCheck e.2.1 (mxParse (c.scratchRead e.2.2.mach 0 0 64)) with | .ok _ => true | _ => false) = true := by decide +kernel

/-- s4 selects one column, s5 tile 0. -/
def sAc : State := sreg 5 1 (sreg 4 0x10000 sMx)
def oV (n : Nat) : Opn := { z with len := 2, fn := .ofNat 8 n, ty := if n < 2 then 4 else 0, d := if n % 2 = 0 then 8 else 0, a := if n % 2 = 0 then 0 else 8, b := 4 }

theorem wit_LayoutsAndTiles :
    ([0, 1].all (fun n => meets (.ldt { z with len := 2, fn := n, d := 8, a := 4, b := 6 }) s0 fun c => lanes fun l => (c.ldtReads l).all fun x =>
        decide (x.1 + x.2 ≤ c.tm.alloc) && !s0.mach.mustWait c.key (laneBit l) .scratch (c.tm.phys c.core x.1) x.2) &&
      [0, 1].all (fun n => plainIssue (.unpk { z with len := 2, fn := n, d := 8, a := 4 }) s0) &&
      (List.range 4).all (fun n => meets (.accmv (oV n)) sAc fun c => engine sAc c && accSelOk (c.s 4) && !c.b.regs.trapsOn) &&
      [true, false].all (fun w => meets ((if w then Instr.mxsave else .mxload) { z with a := 2, mods := 8 }) sAc fun c => engine sAc c &&
        passesOne sAc (fun c => ⟨c.sea, 20480, 64, !w, w, false, false, .local_, .allowed⟩) c) &&
      meets (.mxclr { z with a := 5 }) sAc (fun c => engine sAc c && decide ((c.s 5).toNat < 2 ^ c.tm.tiles.length)) &&
      meets (.mxclrLatch { z with len := 2, fn := 1 }) sAc (fun c => !c.mxEarly) &&
      [0, 1, 2].all (fun n => meets (.mxstat { z with len := 2, fn := n, d := 4 }) sAc (engine sAc))) = true := by decide +kernel

def chosen (s : State) (P : MxKind → Bool) : Bool :=
  match s.mach.mxNext 0 with
  | some x => !s.mach.mxWaits x && P x.kind && (s.mach.bundle? x.key).isSome && s.mach.leaveHeld x.team &&
      match x.out with
      | some id => (s.mach.bundle x.key).outs.any fun y => decide (y.id = id)
      | none => true
  | none => false

theorem wit_EngineQueueActs :
    (chosen (after (.mxp z) sMx) (fun k => match k with | .mxp _ => true | _ => false) &&
      chosen (after (.mxd { z with a := 4 }) sMxd) (fun k => match k with | .mxd _ => true | _ => false) &&
      chosen (after (.accmv (oV 0)) sAc) (fun k => match k with | .accRead .. => true | _ => false) &&
      chosen (after (.accmv (oV 1)) sAc) (fun k => match k with | .accWrite _ es => es.all fun e => decide (e.1 < 4096) | _ => false) &&
      chosen (after (.mxsave { z with a := 2, mods := 8 }) sAc) (fun k => match k with | .save _ [(_, _, 20480)] _ _ => true | _ => false) &&
      chosen (after (.mxload { z with a := 2, mods := 8 }) sAc) (fun k => match k with | .load _ [(_, _, 20480)] _ _ => true | _ => false) &&
      chosen (after (.mxclr { z with a := 5 }) sAc) (fun k => match k with | .clear _ => true | _ => false) &&
      chosen (after (.mxstat { z with d := 4 }) sAc) (fun k => match k with | .stat .. => true | _ => false)) = true := by decide +kernel

/-! ## Witnesses: neighbour engine, control core, tapes, locations -/

/-- A pair job with the grid header at 0x10400, and a bin job whose box is too small, their blocks at the start of the scratchpad. -/
def sPair : State := scr 8 8 0x10400 (scr 56 4 16 sM)
def f1 : Nat := 0x3F800000
def sBin : State :=
  scr 0 8 0x11000 (scr 8 8 0x10400 (scr 16 8 1 (scr 24 8 (f1 + f1 * 2 ^ 32) (scr 32 8 (f1 + f1 * 2 ^ 32) (scr 40 8 (3 * 2 ^ 32 + 3 * 2 ^ 42 + 3 * 2 ^ 52) sM)))))
def oN : Opn := { z with a := 4 }
def nbr (s : State) (bin bad : Bool) (c : Ctx) : Bool :=
  decide (c.tm.alloc ≥ 128 ∧ (s.mach.die c.die).jobs.length < 64) && !s.mach.mustWait c.key c.grp .scratch (c.tm.phys c.core 0) 80 &&
    (nbBad c.tm bin (c.scratchRead s.mach (lowestLane c.grp) 0 80) == bad)

theorem wit_NeighbourJobsAreQueued :
    (meets (.nbin oN) sBin (nbr sBin true false) && meets (.npair oN) sPair (nbr sPair false false) && meets (.npairRes { oN with fn := 1 }) sPair (nbr sPair false false) &&
      [((.nbin : Opn → Instr), 0, true), (.npair, 0, false), (.npairRes, 1, false)].all (fun e => meets (e.1 { oN with fn := e.2.1 }) sM (nbr sM e.2.2 true) &&
        meets (e.1 { oN with fn := e.2.1 }) (sreg 4 1 sM) (fun c => decide ((c.s 4).toNat % 128 ≠ 0)) &&
        meets (e.1 { oN with fn := e.2.1 }) (sreg 4 0x10000 sM) (fun c => decide ((c.s 4).toNat % 128 = 0 ∧ c.tm.alloc < (c.s 4).toNat + 128))) &&
      meets (.nstat { z with d := 5, a := 4 }) sM (fun c => decide (128 ≤ c.tm.alloc) && !sM.mach.mustWait c.key c.grp .scratch (c.tm.phys c.core 80) 8) &&
      plainIssue (.nstatEng { z with len := 2, fn := 1, d := 5 }) s0) = true := by decide +kernel

def sJob (bin : Bool) (s : State) : State := after (if bin then .nbin oN else .npair oN) s
def isJob (s : State) (P : NbrJob → Bool) : Bool := decide (s.mach.jobDie 0 = some 0) && match s.mach.job? 0 0 with | some j => P j | none => false
def sAct (bin : Bool) (s : State) : State := after (.neighbourJobStart 0 false) (sJob bin s)
/-- The job has records for a stage of one record of mailbag 1; or none, its work done. -/
def sRecs (rs : List (List Byte)) (s : State) : State :=
  { s with mach := (sJob false s).mach.modJob 0 0 fun j => { j with st := 2, recs := rs } }
def sStage : State := scr 60 2 1 (scr 16 8 (2 ^ 29 + 2 ^ 30) (scr 56 4 0 (bag 0 0 0 0 sPair)))
def idle (s : State) (j : NbrJob) : Bool := decide (j.st = 1 ∧ j.fid = none) && !(laneList j.lanes).any fun l => s.mach.issuerBusy j.key l j.id

/-- An active job, n turns of it later. -/
def sTurns (n : Nat) (s : State) : State := (List.range n).foldl (fun s _ => after (.neighbourJobStart 0 false) s) s
def asksOf (j : NbrJob) (P : NReq → Bool) : Bool := match j.prog.after j.got with | .ask q _ _ => P q | _ => false
def endsOf (j : NbrJob) (P : NOut → Bool) : Bool := match j.prog.after j.got with | .ends o => P o | _ => false
def passesJob (s : State) (j : NbrJob) (va : W64) (n : Nat) (w : Bool) : Bool := match (jobCheck s j va n w).1 with | .ok _ => true | _ => false

theorem wit_NeighbourJobsRun :
    (isJob (sJob false sPair) (fun j => decide (j.st = 0 ∧ (((sJob false sPair).mach.die 0).jobs.filter fun y => decide (y.st ≠ 0)).length < 4)) &&
      isJob (sAct true sBin) (fun j => idle (sAct true sBin) j && j.bin && asksOf j fun q =>
        match q with | .keep va _ => passesJob (sAct true sBin) j va 1 true && decide (j.got = []) | _ => false) &&
      isJob (sTurns 1 (sAct true sBin)) (fun j => idle (sTurns 1 (sAct true sBin)) j && decide (j.got.length = 1 ∧ boxSmall j.job ≠ 0) && endsOf j fun o => decide (o.state = 4)) &&
      isJob (sAct false sPair) (fun j => idle (sAct false sPair) j && asksOf j fun q => match q with | .read va n => passesJob (sAct false sPair) j va n false | _ => false)) = true := by
  decide +kernel

theorem wit_NeighbourJobs_header :
    (isJob (sTurns 16 (sAct false sPair)) (fun j => idle (sTurns 16 (sAct false sPair)) j && decide (j.got.length = 16) && endsOf j fun o => decide (o.state = 11)) &&
      (let s := sTurns 16 (sAct false (mem 0x100400 8 1 sPair))
       isJob s fun j => idle s j && decide (j.got.length = 16 ∧ (s.mach.team j.team).leave.st = 0) && asksOf j fun q => match q with | .leave => true | _ => false)) = true := by
  decide +kernel

theorem wit_NeighbourJobs_results :
    ([(sStage, true), (bag 4 0 0 0 sStage, false)].all (fun e => isJob (sRecs [fillerRecord] e.1) fun j => decide (j.st = 2 ∧ j.recs ≠ []) &&
        match (sRecs [fillerRecord] e.1).mach.team? j.team with
        | some tm => !tm.killed && ((tm.mail (nbMbid j.job)).canClaim == e.2) && decide ((tm.mail (nbMbid j.job)).fill ≠ (tm.mail (nbMbid j.job)).claim + 1) &&
            ((sRecs [fillerRecord] e.1).mach.mailWaiters j.team (nbMbid j.job) true).isEmpty
        | none => false) &&
      isJob (sRecs [] sStage) (fun j => decide (j.st = 2 ∧ j.recs = [] ∧ j.arrFid = none ∧ nbArr j.job = false) && ((sRecs [] sStage).mach.team? j.team).isSome)) = true := by
  decide +kernel

def sregK (n : Nat) (x : W64) (s : State) : State := { s with mach := s.mach.modBundle 128 fun b => b.modRegs fun r => r.setS n x }
def sK2 : State := sregK 2 0x10400 sK
def sTray : State := inC (fun k => { k with tray := [⟨1, 2, 3⟩] }) sK2
def sEv : State := after (.evget { z with d := 4 }) sK2

theorem wit_InTrayAndControl :
    ([sTray, sK2].all (fun s => plainIssue (.evget { z with d := 4 }) s && plainIssue (.evget { z with len := 2, fn := 1, d := 4 }) s) &&
      [sEv, inC (fun k => { k with tray := [⟨1, 2, 3⟩] }) sEv].all (fun s => match ((s.mach.bundle 128).lane 0).st with | .wait (.event d) _ _ => decide (d = 4) | _ => false) &&
      [s0, sK2, inC (fun k => { k with tray := List.replicate 256 ⟨1, 2, 3⟩ }) s0].all (fun s => meets (.evpost { z with d := 6, a := 4 }) s fun c => c.memQuiet s.mach) &&
      [s0, inC (fun k => { k with cst := 1 }) s0, sreg 4 1 s0].all (fun s => meets (.evpostStart { z with len := 2, fn := 1, d := 3, a := 4 }) s fun c => c.memQuiet s.mach && !c.ctl) &&
      plainIssue (.evpostStat { z with len := 2, fn := 2, d := 3 }) s0 && plainIssue (.evpostHpc { z with len := 2, fn := 3, d := 3 }) s0 &&
      plainIssue (.evpostDrop { z with len := 2, fn := 4, d := 3 }) sK2) = true := by decide +kernel

def oQ (sz : Nat) : Opn := { z with d := 4, a := 2, mods := .ofNat 13 (8 + sz) }
/-- A dependence counter at 0x10400, and its decrement outstanding. -/
def sDec (n : Nat) : State := after (.tdec (oQ 3)) (mem 0x100400 8 n sK2)
def kbag (cl fi : Nat) (s : State) : State := bag cl fi 0 0 s
def oD : Opn := { z with d := 12, a := 8, b := 4 }
/-- s4 names mailbag 1 at the start of the scratchpad. -/
def sDsp (x : Nat) : State := sregK 4 (.ofNat 64 x) (kbag 0 0 sK2)
def sClm : State := after (.tdisp oD) (sDsp (2 ^ 32))

theorem wit_TapesAndDispatch :
    (meets (.tapef (oQ 0)) sK2 (fun c => passesOne sK2 (fun c => ⟨c.sea, 32, 32, true, false, false, false, .local_, .allowed⟩) c && !sK2.mach.mustWait c.key c.grp .dev 0x100400 32) &&
      meets (.tdec (oQ 3)) sK2 (fun c => passesOne sK2 (fun c => ⟨c.sea, 8, 8, false, true, false, false, .local_, .denied 0x24⟩) c && !sK2.mach.inMeeting c.die 0x100400 8 && roomy sK2 c) &&
      [0, 1 + 2 ^ 47].all (fun n => performs (sDec n) 0 0 fun _ p => match p.kind with | .dec _ => true | _ => false) &&
      [sDsp (2 ^ 40), sDsp 0, sDsp (2 ^ 32 + 0x10000), sDsp (2 ^ 32)].all (fun s => meets (.tdisp oD) s fun c => (c.dispTarget s.mach).isSome && roomy s c && (s.mach.team? 0).isSome) &&
      meets (.tdisp oD) (kbag 4 0 (sDsp (2 ^ 32))) (fun c => !(c.tm.mail 1).canClaim) &&
      meets (.tdisp oD) (inG (fun g => { g with world := true }) (sDsp (2 ^ 32))) (fun c => c.g.world) &&
      match sClm.mach.team? 0 with
      | some t => t.disp.any fun d => decide (d.mb = 1 ∧ 2 ^ 31 > ((t.mail 1).fill - BitVec.ofNat 32 d.n).toNat ∧ (t.mail 1).fill ≠ (t.mail 1).claim) &&
          !sClm.mach.issuerBusy d.key 0 d.out && (sClm.mach.bundle d.key).outs.any fun y => decide (y.id = d.out)
      | none => false) = true := by decide +kernel

/-- A location descriptor at 0x10400 whose table of 16 entries lies at the address given; that of another die's memory is at 0x20000. -/
def sLoc (base e : Nat) : State :=
  mem 0x100400 8 base (mem 0x100408 8 (4 + 256) (mem 0x102000 8 e (mem 0x820 8 0x20000 (mem 0x828 8 0x30000 (mem 0x830 8 0x3000000000 (mem 0x838 8 0x1D sK2))))))
def locs (s : State) (bad : Bool) (c : Ctx) : Bool :=
  passesOne s (fun c => ⟨c.sea, 32, 32, true, false, false, false, .local_, .allowed⟩) c && !s.mach.threadBusy c.key c.grp .dev && !s.mach.threadBusy c.key c.grp .scratch &&
    (locBad (s.mach.readBytes .dev 0x100400 32) == bad)
def probe (s : State) (here : Bool) (c : Ctx) : Bool :=
  locs s false c && decide ((s.mach.core c.core).loc = []) &&
    match s.mach.check c.agent ⟨locAddr c (s.mach.readBytes .dev 0x100400 32), 16, 16, true, false, false, false, .letter, .denied 0x24⟩ with
    | (.ok qs, _) => decide (homeDie (onePiece qs).addr = c.die) == here
    | _ => false

theorem wit_LocationsAreFound :
    (meets (.locq (oQ 0)) sK2 (locs sK2 true) && meets (.locq (oQ 0)) (sLoc 0x12000 0) (probe (sLoc 0x12000 0) true) &&
      meets (.locq (oQ 0)) (sLoc 0x12000 (2 ^ 32)) (probe (sLoc 0x12000 (2 ^ 32)) true) && meets (.locq (oQ 0)) (sLoc 0x20000 0) (fun c => probe (sLoc 0x20000 0) false c && quiet (sLoc 0x20000 0) c) &&
      meets (.locq (oQ 0)) (inC (fun k => { k with loc := [(0x100400, 0, 5)] }) (sLoc 0x12000 0)) (fun c => locs (sLoc 0x12000 0) false c) &&
      meets (.locqInv { z with len := 2, fn := 1, mods := 8 }) sK2 (fun c => !(sK2.mach.ops.any fun x => decide (x.key = c.key) && x.acq))) = true := by decide +kernel

/-! ## Witnesses: collectives -/

/-- Group 0 has two members, port 0 and a right neighbour; it has no tree neighbour, or package 5 is its child. -/
def grp0 (tree : Bool) : Group := { Group.reset with gctl := 2 ^ 63 + 2 ^ 32 + 2, gring := 2 ^ 47 + 5 + 6 * 2 ^ 16, gtree := if tree then 2 ^ 15 + 5 else 0 }
def sGrp (tree : Bool) (s : State) : State := { s with mach := s.mach.setGroup 0 (grp0 tree) }
def aChunk (rx : Nat) : Chunk := ⟨0, 0, List.replicate 64 0, [0, 0], [(0x102000, 256)], none, rx, 0, 0, []⟩
def anInst (st : Nat) : Inst := ⟨0, 0, st, 0, 0, 1, some 0, 64, 0, 0, [aChunk 0], [], 1, [], none, []⟩
def sInst (x : Inst) (s : State) : State := { s with mach := { s.mach with insts := [x] } }
def oCl : Opn := { z with d := 3, a := 4 }

theorem wit_CollectiveInstructions :
    ([s0, sreg 4 (2 ^ 38) (sGrp true s0), sGrp true s0, sreg 4 0xFFFFFFFF00000000 (sGrp false s0), sInst (anInst 2) (sGrp true s0)].all (fun s =>
        plainIssue (.clstat oCl) s && meets (.clabort oCl) s fun c => !c.counterFull 5) &&
      plainIssue (.clstep { z with a := 4 }) s0 && meets (.clstep { z with a := 4 }) (sreg 4 65536 s0) (fun c => decide (2 ^ 16 ≤ (c.s 4).toNat)) &&
      plainIssue (.clstepRd { z with len := 2, fn := 1, d := 3 }) s0 &&
      decide (abortedGroup (grp0 true) 0 = { grp0 true with last := 0, av := true, aborts := 1, cur := 1 })) = true := by decide +kernel

/-- Grid 0 is bound to sequence 0 of group 0, its chunk 0 of 64 elements due. -/
def sFire (leave : Nat) (s : State) : State :=
  inG (fun g => { g with coll := [0, 0x11000, 0x12000, 1 + 65536], due := [⟨0, ⟨leave, 0, false⟩, 0⟩] }) (sGrp true s)
def fires (s : State) : Bool :=
  s.mach.bad.isEmpty && match s.mach.grid? 0 with | some g => decide (g.coll ≠ []) && (match s.mach.chunkSpans g 0 with | (.ok _, _) => true | _ => false) | none => false
def seg0 : Segment := ⟨0, 0, 0, 1, 2, 1, false, 0, List.replicate 32 0⟩
/-- Of four members, the chunk awaits its first segment, of the rank before. -/
def sFour : State := sInst { anInst 2 with chunks := [{ aChunk 0 with marks := [0, 0, 0, 0] }] }
  { s0 with mach := s0.mach.setGroup 0 { grp0 true with gctl := 2 ^ 63 + 2 ^ 32 + 4 } }
def gives (i : Instr) (s : State) (P : State → Bool) : Bool := match exec i s with | .next t => P t | _ => false

theorem wit_CollectivesRun :
    ([0, 2].all (fun l => fires (sFire l s0) && gives (.chunkFire 0 0) (sFire l s0) fun t => decide (t.mach.out.length = l / 2)) &&
      (match sFour.mach.inst? 0 0 with
        | some x => decide (x.st < 3 ∧ (aChunk 0).expects 0 4 = (3, false) ∧ ((aChunk 0).segVals x.n 4 3).length = 16)
        | none => false) &&
      gives (.segmentReceive ⟨0, 0, 0, 3, 4, 1, false, 0, List.replicate 16 0⟩) sFour (fun t => decide (t.mach.out.length = 2)) &&
      gives (.segmentReceive { seg0 with chunk := 3 }) (sInst { anInst 1 with chunks := [] } (sGrp true s0)) (fun t => (t.mach.inst? 0 0).any fun x => decide (x.early.length = 1)) &&
      [seg0, { seg0 with chunk := 3 }].all (fun e => gives (.segmentReceive { e with nchunk := 9, seg := 0 }) (sInst (anInst 2) (sGrp true s0)) fun t =>
        (t.mach.inst? 0 0).any fun x => decide (x.cause = 0x52)) &&
      gives (.segmentTimeout 0 0 0) (later 10000000 (sInst (anInst 2) (sGrp true s0))) (fun t => (t.mach.inst? 0 0).any fun x => decide (x.cause = 0x50)) &&
      gives (.linkLoss 0) (sInst (anInst 2) (sGrp true s0)) (fun t => (t.mach.inst? 0 0).any fun x => decide (x.cause = 0x51)) &&
      gives (.groupHold 0) (sInst (anInst 2) (sGrp true s0)) (fun t => (t.mach.inst? 0 0).any fun x => decide (x.cause = 0x55)) &&
      [5, 6].all (fun p => gives (.abortReceive 0 0 0x51 p) (sGrp true s0) fun t => (t.mach.inst? 0 0).any fun x => decide (x.st = 4)) &&
      gives (.abortAnswer 0 0 5) (after (.clabort oCl) (sGrp true s0)) (fun t => decide ((t.mach.bundle 0).outs = [])) &&
      gives (.ringTrafficAcknowledgement 0 0) (sInst { anInst 2 with written := 1 } (sGrp true s0)) (fun t =>
        (t.mach.inst? 0 0).any fun x => decide (x.st = 3))) = true := by decide +kernel

/-! ## Witnesses: grids, teams, regrouping, eviction -/

/-- A launch record at physical address pa: one team of 32 threads of 16 registers, with a size word at vsize and a guard at vguard. -/
def record (pa gx vsize vguard : Nat) (s : State) : State :=
  mem pa 8 0x10000 (mem (pa + 8) 8 (gx + 2 ^ 32 + 2 ^ 48) (mem (pa + 16) 8 (32 + 2 ^ 16 + 2 ^ 32) (mem (pa + 24) 8 16 (mem (pa + 56) 8 vsize (mem (pa + 64) 8 vguard s)))))
def oLn : Opn := { z with d := 3, a := 2, mods := 8 }
def launches (s : State) (ok : Bool) (c : Ctx) : Bool :=
  passesOne s (fun c => ⟨c.s c.o.a.toNat, 512, 64, true, false, false, false, .local_, .allowed⟩) c && c.memQuiet s.mach &&
    match launchLead c with
    | some lead =>
      let ps := [piece s (fun c => ⟨c.s c.o.a.toNat, 512, 64, true, false, false, false, .local_, .allowed⟩) c]
      match s.mach.accept (c.readOwn s.mach lead ps) (launchOrigin c ps) with | (.ok _, _) => ok | (.error _, _) => !ok
    | none => false
/-- Launch queue 0 in device memory, its one record at 0x110000. -/
def sQueue (s : State) : State :=
  mem 0x130000 8 1 { s with boot := { s.boot with state := 3, pkgV := true }
                            mach := s.mach.setQueue 0 { (s.mach.queue 0) with ctl := 2 ^ 16 + 4, base := 0x110000, tail := 0x130000 } }
def takes (s : State) (ok : Bool) : Bool :=
  let m := s.mach.observe
  let qu := m.queue 0
  decide (m.nextQueue = some 0) &&
    match (m.setQueue 0 { qu with head := qu.head + 1, seen := none }).accept (m.headRecord qu) (queueOrigin qu) with
    | (.ok _, _) => ok
    | (.error _, _) => !ok

theorem wit_GridsAreLaunchedAndRetire :
    (meets (.launch oLn) (grp 2 sM) (fun c => (launchLead c).isNone) &&
      meets (.launch oLn) (record 0x100400 1 0 0 sM) (launches (record 0x100400 1 0 0 sM) true) &&
      meets (.launch oLn) sM (launches sM false) && meets (.launch oLn) (inG (fun g => { g with depth := 10 }) sM) (fun c => launches sM false c) &&
      takes (sQueue (record 0x110000 1 0 0 s0)) true && takes (sQueue s0) false &&
      gives (.guardMet 0) (inG (fun g => { g with guarded := true }) s0) (fun t => (t.mach.grid? 0).any fun g => !g.guarded) &&
      gives (.guardMet 0) (mem 0x102000 8 (2 ^ 31) (inG (fun g => { g with guarded := true, sizeaddr := some 0x102000 }) s0)) (fun t => (t.mach.grid? 0).isNone) &&
      gives (.gridRetire 0) (inG (fun g => { g with retired := 1 }) s0) (fun t => (t.mach.grid? 0).isNone) &&
      gives (.gridRetire 0) (inG (fun g => { g with retired := 1 }) (sFire 0 s0)) (fun t => (t.mach.grid? 0).any Grid.closed)) = true := by decide +kernel

/-- Grid 0 has its one team still to place. -/
def sPlace : State := inG (fun g => { g with next := 0, regs := 16, scr := 32, tiles := 0, diemask := 1 }) { s0 with mach := s0.mach.setTeam 0 none |>.setBundle 0 none }
def noRuns (s : State) : State := { s with mach := { s.mach with runs := [] } }

theorem wit_TeamsArePlacedAndRun :
    (gives (.teamDispatch 0) sPlace (fun t => (t.mach.team? 0).isSome && (t.mach.bundle? 0).isSome) &&
      gives (.bundleFree 0) (inB (fun b => { b with lanes := [] }) (noRuns s0)) (fun t => (t.mach.bundle? 0).isNone) &&
      decide ((s0.mach.run? 0).isSome ∧ (noRuns s0).mach.winner 0 = some 0 ∧ (noRuns s0).mach.run? 0 = none ∧ (noRuns sH).mach.winner 0 = some 0) &&
      (((noRuns s0).mach.bundle 0).nextLane 0 false == some 0) && ((noRuns s0).mach.bundle 0).looseMark.isNone) = true := by decide +kernel

/-- A team whose registers are 16 deep; its bundle of one thread. -/
def sOne : State := grp 1 (inB (fun b => { b with lanes := [(0, b.lane 0)] }) (inG (fun g => { g with regs := 16 }) s0))
def oRf : Opn := { z with a := 4, mods := 2 }
def sFile : State := after (.reform oRf) sOne

theorem wit_ThreadsAreRegrouped :
    (plainIssue (.reform oRf) s0 && meets (.reform oRf) (inR (fun r => r.setJ 1 2) s0) (fun c => decide (c.b.regs.getJ 1 ≠ 0)) &&
      meets (.reform oRf) (inR (fun r => r.setV 4 3 2) s0) (fun c => decide ((c.v2 4 3).toNat % 4 ≠ 0)) &&
      (match sFile.mach.bundle? 0 with
        | some b => sFile.mach.mayFile 0 b && decide ((sFile.mach.core 0).holes = []) && match b.lanes with
          | [(_, y)] => decide (y.st = .reform 2 0)
          | _ => false
        | none => false) &&
      (let s := after (.reformFiling 0) sFile
       match (s.mach.core 0).holes with
       | [h] => decide (h.thr.length = 1 ∧ s.mach.waitingSlot h.team = some 0 ∧ s.mach.clk < h.born + (s.mach.gridOf (s.mach.team h.team)).age)
       | _ => false) &&
      (let s := later 2000000 (after (.reformFiling 0) sFile)
       match (s.mach.core 0).holes with
       | [h] => decide (h.born + (s.mach.gridOf (s.mach.team h.team)).age ≤ s.mach.clk)
       | _ => false)) = true := by decide +kernel

/-- Core 0 alone is secure, and secure grid 1 of a higher priority does not fit beside the team there; die 0 has a save pool. -/
def sEv1 : State :=
  let s := noRuns (inC (fun k => { k with world := true }) sOne)
  let d := s.mach.desk
  { s with mach := { s.mach.setGrid 1 (some { placeGrid with threads := 160, regs := 1024, scr := 0, tiles := 0, next := 0, world := true, pri := 3, diemask := 1 }) with
    desk := { d with svbase := Sparse.put 0 d.svbase 0 (0x200000 + 1), svsize := Sparse.put 0 d.svsize 0 256 } } }

theorem wit_WorkIsEvicted :
    ((sEv1.mach.placeFor ((sEv1.mach.grid? 1).getD Grid.none)).isNone && decide (sEv1.mach.evictPlan ((sEv1.mach.grid? 1).getD Grid.none) = some (.bundles [0])) &&
      (match sEv1.mach.bundle? 0 with
        | some b => (sEv1.mach.team? b.team).isSome && sEv1.mach.mayEvict 0 b
        | none => false) && (sEv1.mach.saveBundle 0).isSome) = true := by decide +kernel

/-- A frame in the pool where nothing was saved; with a header it holds a bundle without threads. -/
def aFrame : Frame := ⟨false, 0, 0x200000, 0x10000, 0, false, 0, 1, none, [⟨0, 0x200000, Bundle.start 0 0⟩], none, [], []⟩
def sFrm (f : Frame) : State := { s0 with mach := { s0.mach.setBundle 0 none with frames := [f] } }
def restores (s : State) (bad : Bool) : Bool :=
  match s.mach.frames with
  | [f] => match f.parts with
    | [p] => !f.whole && f.sid.isNone && decide (f.order = 1) && s.mach.frameFits f && (s.mach.team? f.key).isSome && (s.mach.grid? f.grid).isSome &&
      ((s.mach.bundleBad p.addr p.bnum (s.mach.gridOf (s.mach.team f.key)) (s.mach.team f.key).alloc false || repeats (s.mach.tidxOf f.key ++ s.mach.frameTidx p.addr)) == bad)
    | _ => false
  | _ => false

theorem wit_WorkIsRestored : (restores (mem 0x200000 8 (1 + 2 ^ 8 + 1536 * 2 ^ 24) (mem 0x200900 64 ((2 ^ 512 - 1) / 65535) (sFrm aFrame))) false && restores (sFrm aFrame) true) = true := by decide +kernel

theorem wit_HaltedWorkResumes :
    (let f : Frame := { aFrame with whole := true, sid := some 7, team := some placeTeam }
     gives (.stresumeResume 7) (sFrm f) (fun t => decide (t.mach.frames = [{ f with sid := none }])) &&
       gives (.stresumeKill 7) (sFrm f) fun t => decide (t.mach.frames = []) && (t.mach.grid? 0).any Grid.anyKilled) = true := by decide +kernel

/-! ## Witnesses: traps, the host, the whole machine -/

/-- An instruction arrives and is refused there. -/
def refused (i : Instr) (s : State) (P : Ctx → Rule → Trap → Bool) : Bool :=
  match opnOf i with
  | none => false
  | some o =>
    match ruleOf i s.inHandler with
    | none => false
    | some r =>
      match (ctxOf s o).map r.view with
      | none => false
      | some c => decide (c.grp ≠ 0 ∧ s.mach.blocked c.key &&& c.grp = 0) && match r.refuses c with | some x => P c r x | none => false

/-- TVBASE names handlers at 0x20000. -/
def sTv : State := inB (fun b => { b with trap := { b.trap with tvbase := 0x20001 } }) s0

theorem wit_IllegalInstructionsTrap :
    (refused (.sset { z with len := 2, ty := 2, fn := 6, d := 3, a := 4 }) sTv (fun c r x => decide (x.cls = clsIll ∧ c.hand = false ∧ bitAt c.b.trap.tvbase 0 = true) && !(r.form c.o).fits r.opc c.o) &&
      refused (.launch { oLn with d := 127 }) sH (fun c r x => decide (c.hand = true ∧ x.cls = clsIll) && !handlerOk r.opc c.o) &&
      refused (.jenrol { z with d := 9 }) s0 (fun c r x => decide (x.cls = clsOperand) && !(r.opds c.o).all (Opd.ok c)) &&
      refused (.mxp z) (inG (fun g => { g with roletab := 1 }) s0) (fun _ _ x => decide (x.cls = clsRole)) &&
      decide ((ctxOf (grp 3 sLd) z).isSome ∧ (grp 3 sLd).mach.blocked 0 &&& 3 ≠ 0)) = true := by decide +kernel

theorem wit_SsetTakesItsConditionFromFn :
    ((List.range 6).all (fun n => plainIssue (.sset { z with len := 2, ty := 2, fn := .ofNat 8 n, d := 3, a := 4 }) s0) &&
      refused (.sset { z with len := 2, ty := 2, fn := 6, d := 3, a := 4 }) s0 (fun c _ _ => decide (6 ≤ c.o.fn.toNat)) &&
      (Instr.sset { z with d := 3, a := 4 }).wf) = true := by decide +kernel

/-- A result of FRCP is still to be written. -/
def sDelay : State := after (.frcp { z with len := 2, d := 8, a := 4, ty := 4, la := 3 }) sTv
def aTrap : Trap := boundaryTrap clsDebug 0x71 0x10000 3 [⟨0, clsDebug, 0x71, 0, 0⟩]
def sPend (s : State) : State := noRuns (inB (fun b => { b with pend := some aTrap }) s)

theorem wit_TrapsAreTaken :
    (decide ((sTv.mach.bundle? 0).isSome ∧ (sTv.mach.bundle 0).hand = none ∧ sTv.mach.writing 0 = false ∧ sDelay.mach.writing 0 = true) &&
      [sTv, s0, sH].all (fun s => (s.mach.team? 0).isSome && (s.mach.bundle? 0).isSome) &&
      decide (((sK.mach.raise 0 ⟨128, 1#32, 0x10000, 0⟩ aTrap).core 0).cst = 2) &&
      gives (.trapEntry 0) (sPend sTv) (fun t => (t.mach.bundle 0).hand.isSome) &&
      gives (.trapEntry 0) (sPend sDelay) (fun t => (t.mach.bundle 0).hand.isNone) &&
      plainIssue (.trap { z with imm := 7 }) s0 && plainIssue (.trap { z with mp := 2, imm := 7 }) s0 && plainIssue (.bkpt { z with imm := 3 }) s0) = true := by decide +kernel

/-- In a handler whose trap has named lanes 0 and 1, and s5 kills, s4 retries. -/
def sHt (kill : W64) : State := inB (fun b => { b with trap := { b.trap with tmask := 3, tpc := 0x10000 }, regs := (b.regs.setS 4 1).setS 5 kill }) sH
/-- The stop queue is enabled, and die 0 has a save pool. -/
def sStq : State :=
  let s := inG (fun g => { g with regs := 16, scr := 0, tiles := 0 }) (inT (fun t => { t with tiles := [], nscr := 0 }) s0)
  let d := s.mach.desk
  { s with mach := { s.mach with desk := { d with stqbase := 2, svbase := Sparse.put 0 d.svbase 0 (0x200000 + 1), svsize := Sparse.put 0 d.svsize 0 256 } } }

theorem wit_HandlersAndHalt :
    ([3, 0x80, 0x81, 0x82, 0x83, 0x84, 0x85, 0x86].all (fun n => plainIssue (.swrpRd { z with d := 3, mods := n }) sH) &&
      [3, 0x80, 0x81, 0x82].all (fun n => plainIssue (.swrpWr { z with fn := 1, d := 5, mods := n }) sH) &&
      meets (.swrpWr { z with fn := 1, d := 5, mods := 0x82 }) (inR (fun r => r.setW 5 2) sH) (fun c => decide (fld (c.s 5) 1 0 ≠ 0)) &&
      plainIssue (.swrpSb { z with len := 2, fn := 2, d := 6, a := 2 }) sH &&
      plainIssue (.tret { z with a := 4, b := 5 }) (sHt 0) &&
      meets (.tret { z with a := 4, b := 5 }) (sHt 2) (fun c => lanes fun l => decide (3 ≤ 2 ^ l ∨ (c.b.lane l).st = .runnable)) &&
      meets (.halt z) s0 (fun c => decide (c.b.count 1 = 0)) &&
      meets (.halt z) sStq (fun c => decide (c.b.count 1 = 0) &&
        (let m := (c.step (c.leaveResume sStq.mach)).closeRun c.q c.run c.nextPc
         m.maySaveTeam c.tk (fun k b => m.settled k b || (m.heldAtHalt k b).isSome) && ((m.passHalts c.tk).saveTeam c.tk (some 0)).isSome)) &&
      meets (.halt z) (inC (fun k => { k with cst := 1, owner := 0 }) sStq) (fun c =>
        (let m := (c.step (c.leaveResume (inC (fun k => { k with cst := 1, owner := 0 }) sStq).mach)).closeRun c.q c.run c.nextPc
         !m.maySaveTeam c.tk (fun k b => m.settled k b || (m.heldAtHalt k b).isSome)))) = true := by decide +kernel

/-- READY, with a cached translation that an invalidation of everything drops. -/
def sRdy : State := { s0 with boot := { s0.boot with state := 3, pkgV := true } }
def sTlb : State := after (.tlbinvc 0x400) (noRuns (after (.ld oM) sRdy))

theorem wit_HostRegistersAreWritten :
    (decide (sRdy.boot.state = 3 ∧ s0.boot.pkgV = false ∧ State.reset.boot.state ≠ 3 ∧ bitAt sRdy.mach.desk.tlbinvc 63 = false ∧ bitAt sTlb.mach.desk.tlbinvc 63 = true) &&
      gives .tlbinvComplete sTlb (fun t => !bitAt t.mach.desk.tlbinvc 63) && gives (.fqresume 0) sRdy (fun _ => true) &&
      gives (.fenceTableWrite 3 (2 ^ 63 + 9)) sRdy (fun t => t.mach.fenced 9) && gives (.pkgidWrite 7) { sRdy with boot := { sRdy.boot with pkgV := false } } (fun t => decide (t.mach.pkg = 7)) &&
      [1, 2].all (fun n => decide (({ sRdy with boot := { sRdy.boot with mbBusy := true, mbCode := n, nonce := List.replicate 32 0 } } : State).boot.mbCode = n)) &&
      gives (.registerWrite 0x200000 8 2000) sRdy (fun t => decide (t.boot.pwrlim = 2000)) && gives (.registerWrite 0x1000 8 0x2001) sRdy (fun t => decide (t.readReg 0x1000 8 = 0x2001)) &&
      decide (bitAt ((sGrp true sRdy).mach.group 0).gctl 63 = true ∧ bitAt ((sGrp true sRdy).mach.group 0).gctl 61 = false)) = true := by decide +kernel

def sRom : State := { State.reset with boot := { State.reset.boot with state := 1 } }
def aWorlds : Worlds := ⟨[3], [2], [4], [(0x40000000, 0x80000000)], []⟩

theorem wit_HostMemoryBootAndPower :
    (decide (sRdy.mach.linkUp = true ∧ sRdy.mach.secureRange 0x100000 64 = false ∧ State.reset.boot.state = 0) && sRdy.mach.bad.isEmpty &&
      ({ sRdy with mach := { sRdy.mach with ranges := [(0x100000, 0x200000)] } } : State).mach.secureRange 0x100000 64 &&
      gives (.bootRom 0 5) State.reset (fun t => decide (t.boot.state = 1)) && gives (.bootRom 0 5) sRom (fun t => decide (t.boot.state = 2)) &&
      gives (.bootRom 2 5) sRom (fun t => decide (t.boot.cause = 2)) &&
      decide (worldsOk aWorlds = true) && (after (.thermalShutdown 0 120) s0).boot.stopped) = true := by decide +kernel

/-- The run of s0 fetches the words at its program counter: NOP of two words, and none of memory. -/
theorem wit_StepRunsTheDecodedInstruction :
    (match ctxOf s0 Opn.zero with
      | some c => (match c.fetchWord s0.mach c.pc [] with
          | (.ok (w, got), m) => decide (fld w 28 21 ≠ 0xFF) && match c.fetchTail (1 + tailWords w) (tailWords w) (c.pc + 4) m got [] with
            | (.ok (ws, got'), _) => !(s0.mach.mixed got').1 && match decodeWords (w :: ws) with | .ok _ => true | .error _ => false
            | _ => false
          | _ => false) && (match s0.mach.check c.agent ⟨c.pc, 4, 4, false, false, true, false, .fetch, .allowed⟩ with
            | (.ok ps, _) => decide ((onePiece ps).addr % 64 ≤ 60)
            | _ => false)
      | none => false) = true := by decide +kernel

theorem wit_DecodeOfEncode :
    (encodedWords.all fun e => (opnOf e.2.2).isSome && e.2.2.wf && match decodeWords (encode e.2.2) with | .ok i => decide (i = e.2.2) | .error _ => false) = true := by
  decide +kernel

/-! ## Witnesses for the clauses: each list holds one state for each clause of a statement -/

/-- Every fact of a list holds. -/
abbrev all (xs : List Bool) : Prop := xs.all id = true

/-- Rule tables: each row has a type, and each type an element. -/
theorem wit_VectorOps_tables : all [integerTable.all fun e => !e.2.1.isEmpty && e.2.1.all fun ty => decide (0 < intCount ty),
    bitTable.all fun _ => (List.range 4).all fun ty => decide (0 < intBits ty)] := by decide +kernel

/-- A delayed result in v8 and flags of an ACCMV are still to come while the group goes on. -/
def sWin : State := after (.frcp { z with len := 2, d := 8, a := 4, ty := 4, la := 3 }) s0
def sFlags : State := after (.accmv { oV 0 with la := 3 }) sAc

theorem wit_SpecialRegisters_wait : all [
    meets (.smov { z with len := 2, fn := 1, d := 4, a := 8, b := 2 }) sWin (fun c => sWin.mach.regPending c.key 8 ((c.s 2).toNat % 32)),
    meets (.srd { z with d := 4, b := 18 }) sFlags (fun c => sFlags.mach.flagsDue c.key),
    meets (.swr { z with a := 4, b := 18 }) sFlags (fun c => sFlags.mach.flagsDue c.key),
    [5#64, 0x20, 0x2000].all fun x => meets (.swr { z with a := 4, b := 17 }) (sreg 4 x s0) fun c =>
      !decide (fld (c.s 4) 63 13 = 0 ∧ fld (c.s 4) 7 5 = 0 ∧ fld (c.s 4) 2 0 ≤ 4)] := by decide +kernel

theorem wit_CrossLane_first : all ([1, 2].map fun n => plainIssue (.xbcst { z with len := 2, fn := n, d := 8, a := 4 }) s0) := by decide +kernel

/-- All lanes are enrolled in mask 1: lane 5 is parked there, or stands elsewhere. -/
def sAll (s : State) : State := inR (fun r => r.setJ 1 0xFFFFFFFF) s
theorem wit_Masks_release : all [
    meets (.exit z) (sAll sJoin) (fun c => decide (c.g.det = false) && exitFrees c 1 && (List.range 16).all fun k => decide ((c.tm.bar k).mode ≠ 1)),
    meets (.exit z) (sAll (grp 0xFFFFFFDF s0)) (fun c => !exitFrees c 1),
    meets (.jwait { z with d := 1 }) (sAll sJoin) (fun c => !c.g.legacy && allJoined c 1 && decide (c.b.regs.getJ 1 ≠ 0)),
    meets (.jwait { z with d := 1 }) (sAll (grp 0xFFFFFFDF s0)) (fun c => !c.g.legacy && !allJoined c 1)] := by decide +kernel

/-- No access of narrow scope stands beside this one. -/
def dieScope (s : State) (x : Op) : Bool := s.mach.early.isEmpty && (s.mach.ops.all fun y => !y.acq || decide (y.scope = 0)) && (!x.rel || decide (x.scope = 0))
/-- A sweep of two iterations in two lanes, n of the reads and k of the writes of its first operations performed. -/
def sSw : State := after (.sweep 0x20 (sweepOf 2)) (grp 3 s0)
def opNow (s : State) : Nat := match s.mach.ops with | x :: _ => x.id | [] => 0
def sReads (n : Nat) (s : State) : State := (List.range n).foldl (fun s k => after (.loadDataReturn (opNow s) k false false) s) s
def sWrites (n : Nat) (s : State) : State := (List.range n).foldl (fun s k => after (.writePerformed (opNow s) k) s) s
def sweeps (s : State) (unit : Nat) (rd last : Bool) (it : Nat) : Bool :=
  match s.mach.performable (opNow s) unit with
  | some (x, p) => decide (x.dest = .sweep ∧ p.lane < 32) && !x.counted && dieScope s x && !s.mach.damaged p.space p.addr p.size &&
      ((match p.kind with | .read [] => true | _ => false) == rd) && (x.parts.all fun y => (match y.kind with | .read [] => true | _ => false) == rd) &&
      (((x.parts.zipIdx.filter fun y => decide (y.2 ≠ unit)).all fun y => y.1.done) == last) &&
      match s.mach.bundle? x.key with
      | some b => match b.sweep with
        | some w => decide (w.it = it ∧ b.regs.fpctl = 0) && (sweepElem w.opc).isSome
        | none => false
      | none => false
  | none => false

theorem wit_Sweeps_traps : all [
    meets (.sweep 0x20 { sweepOf 1 with mp := 1 }) s0 (fun c => decide (sweepCount c.o ≠ 0 ∧ c.written = 0)),
    meets (.sweep 0x20 (sweepOf 1)) (sreg 8 0x10000 s0) (fun c => decide (sweepCount c.o ≠ 0 ∧ c.written ≠ 0) && decide (c.sweepConds vruleAdd 4 ≠ [])),
    meets (.sweep 0x20 (sweepOf 2)) (grp 3 s0) (fun c => decide (sweepCount c.o = 2 ∧ c.written ≠ 0) && decide (c.sweepConds vruleAdd 4 = []))] := by
  decide +kernel
theorem wit_Sweeps_iterations : all [
    sweeps sSw 0 true false 0, sweeps (sReads 3 sSw) 3 true true 0, sweeps (sReads 4 sSw) 0 false false 0, sweeps (sWrites 1 (sReads 4 sSw)) 1 false true 0,
    sweeps (sWrites 1 (sReads 4 (sWrites 2 (sReads 4 sSw)))) 1 false true 1] := by decide +kernel

theorem wit_BlockConversions_trap : all [
    meets (.fcvtBlk { z with len := 2, d := 8, a := 4, b := 1, fn := 1, mods := 4 }) s0 (fun c => (c.slotTrap 1 fun x => decide (4 ≤ slotEtype x ∧ slotEtype x ≤ 6 ∧ slotSmode x = 1)).isSome),
    meets (.fcvtDec { z with len := 2, fn := 2, d := 8, a := 4, b := 1, ty := 4 }) s0 (fun c => (c.slotTrap 1 fun x => decide (4 ≤ slotEtype x ∧ slotEtype x ≤ 8)).isSome)] := by
  decide +kernel

/-- 257 operations of another bundle of the core, each of 32 lines. -/
def aCrowd : Op :=
  { id := 0, key := 1, acq := false, rel := false, serial := false, dest := .none, size := 4, win := [], counted := false, asid := 0
    parts := (List.range 32).map fun k => ⟨0, .dev, 128 * k, 4, 0, .read [], false, 0, 0, false⟩ }
def crowd (s : State) : State := { s with mach := { s.mach with ops := s.mach.ops ++ List.replicate 257 aCrowd } }
def crowded (s : State) (c : Ctx) : Bool := s.mach.trackerFull c.core [] 
/-- The guard p1 holds in no lane. -/
def off (o : Opn) : Opn := { o with mp := 1 }

theorem wit_Accesses_held : all ([((.st : Opn → Instr), false, true), (.ld, true, false), (.atom, true, true)].map fun e =>
    meets (e.1 oM) (crowd sM) fun c => passes (crowd sM) (fun c => c.plain (memSize c.o) e.2.1 e.2.2 (e.2.1 && e.2.2)) c && crowded (crowd sM) c) := by
  decide +kernel
theorem wit_Accesses_none : all ([((.st : Opn → Instr), false, true), (.stl, false, true), (.ld, true, false), (.lda, true, false), (.atom, true, true)].map fun e =>
    meets (e.1 (off oM)) sM fun c => decide (c.act = 0) && roomy sM c) := by decide +kernel
theorem wit_Accesses_dieScope : all ([sLd, sSt, sAt].map fun s => performs s 0 0 fun x p => dieScope s x && decide (x.dest ≠ .sweep ∧ p.lane < 32)) := by
  decide +kernel
theorem wit_Accesses_handler : all [meets (.ld { oM with d := 8 }) (sreg 2 (BitVec.ofNat 64 winBase) (grp 1 sH)) fun c => c.hand] := by decide +kernel

/-- The range entry of the page with other attributes. -/
def sAttr (a : Nat) (s : State) : State := mem 0x818 8 a s
def found (s : State) (P : Agent → Xlat → Bool) : Bool :=
  meets (.nop z) s fun c => match s.mach.translate c.agent.asid 0x10400 c.agent.unit c.agent.die with
    | (.found x, _) => decide (0x10400 + 8 ≤ x.hi) && P c.agent x
    | _ => false
/-- An open meeting whose record lies at 0x100400 of device memory. -/
def sMeet (s : State) : State := withRegion 5 { aRegion with base := 0x200000, limit := 0x200080, kind := 3, meeting := some ⟨0x100400, 0x105000, 2, 0, 1⟩ } s

theorem wit_Checks_first : all [
    decide (fld (2 ^ 63 : W64) 63 55 ≠ 0 ∧ fld (2 ^ 63 : W64) 63 55 ≠ 0x1FF ∧ fld (2 ^ 54 : W64) 63 55 = 0 ∧ fld (BitVec.allOnes 64) 63 55 = 0x1FF),
    decide (winBase = 0xFFFFFFFFFF000000 ∧ winBase - 2 < winBase ∧ winBase < winBase - 2 + 4),
    [0, 0xFFFF, 0x10000, 0xFFFFF8].all fun off => meets (.nop z) sM fun c => (match c.agent.alloc with | a => decide (a = 0x10000)) && decide (off + 8 ≤ 2 ^ 24),
    match sPage.mach.translate 0 0x50000 0 0 with | (.bad c, _) => decide (c = 3) | _ => false] := by decide +kernel

theorem wit_Checks_last : all [
    found (sAttr 5 sM) fun _ x => bitAt x.attr 2 && !bitAt x.attr 3 && !bitAt x.attr 4,
    found (sAttr 0x9D sM) fun ag x => bitAt x.attr 7 && !ag.secure,
    found (sMeet sM) fun ag x => !bitAt x.attr 7 && (sMeet sM).mach.inMeeting ag.die (x.pa + 0x400) 8 && decide (fld x.attr 6 5 = 0),
    found sM fun ag x => decide (fld x.attr 6 5 = 0 ∧ x.pa / Config.dieBytes = ag.die),
    found (mem 0x810 8 0x3000000000 sM) fun ag x => decide (fld x.attr 6 5 = 0 ∧ x.pa / Config.dieBytes ≠ ag.die),
    found (sAttr 0x3D sM) fun _ x => decide (fld x.attr 6 5 = 1),
    found (sAttr (0x5D + 5 * 2 ^ 50) sM) fun _ x => decide (fld x.attr 6 5 = 2)] := by decide +kernel

/-- Tables of five levels at 0x2000 to 0x6000, no range entry, an entry of level k given. -/
def sTab (k e : Nat) : State :=
  let at_ := fun i => [0x2000, 0x3000, 0x4000, 0x5000, 0x6000].getD i 0
  let s := mem 0 8 0x2001 (mem 0x800 32 0 s0)
  let s := (List.range k).foldl (fun s i => mem (at_ i) 8 (at_ (i + 1) + 3) s) s
  mem (at_ k) 8 e s
def path (s : State) (k : Nat) (P : W64 → Bool) : Bool :=
  let at_ := fun i => [0x2000, 0x3000, 0x4000, 0x5000, 0x6000].getD i 0
  let root := s.mach.read64 .dev (s.mach.desk.space 0)
  s.mach.bad.isEmpty && bitAt s.mach.desk.astbase 0 && decide (s.mach.desk.space 0 + 0x1000 ≤ devTop) && bitAt root 0 && decide (at_ 0 = fld root 49 11 * 2048) &&
    ((List.range 64).all fun i => !bitAt (rangeWordAt s.mach 0 i 3) 0) &&
    ((List.range (k + 1)).all fun i => decide (at_ i % tableBytes i = 0 ∧ at_ i + tableBytes i ≤ devTop)) &&
    ((List.range k).all fun i => let e := entryAt s.mach 0 i (at_ i)
      bitAt e 0 && bitAt e 1 && decide (fld e 63 50 = 0 ∧ fld e 7 2 = 0 ∧ at_ (i + 1) = fld e 49 8 * 256)) &&
    P (entryAt s.mach 0 k (at_ k))

theorem wit_Walks : all [
    !bitAt State.reset.mach.desk.astbase 0,
    [0, 1].all fun e => let s := mem (0x800 + 32 * e) 32 (0x10000 + 0x20000 * 2 ^ 64 + 0x100000 * 2 ^ 128 + 0x1D * 2 ^ 192) (mem 0x800 32 0 s0)
      s.mach.bad.isEmpty && bitAt (rangeWordAt s.mach 0 e 3) 0 && ((List.range e).all fun i => !bitAt (rangeWordAt s.mach 0 i 3) 0) &&
        !attrBad s.mach.pkg (rangeWordAt s.mach 0 e 3) 0x100000 0x10000 && canonical (rangeWordAt s.mach 0 e 0),
    !bitAt ((mem 0x800 32 0 s0).mach.read64 .dev 0) 0,
    [0, 1, 2, 3, 4].all fun k => path (sTab k 0) k fun e => !bitAt e 0,
    [0, 1].all fun k => path (sTab k 1) k fun e => bitAt e 0 && !bitAt e 1,
    [2, 3].all fun k => path (sTab k 0x1001D) k fun e => bitAt e 0 && !bitAt e 1 && decide (fld e 49 16 * 65536 % pageBytes k ≠ 0),
    path (sTab 4 0x20D) 4 fun e => bitAt e 0 && !bitAt e 1 && attrBad 0 e 0 0x10000,
    [2, 3, 4].all fun k => path (sTab k 0x4000001D) k fun e => bitAt e 0 && !bitAt e 1 && decide (fld e 49 16 * 65536 % pageBytes k = 0) &&
      !attrBad 0 e (fld e 49 16 * 65536) (pageBytes k)] := by decide +kernel

/-- Lane 0 fails a check that is no page fault, in a handler and on the control core every fault traps. -/
theorem wit_Failed_there : all [
    meets (.ld oM) (sreg 2 0x50000 (mem 0 8 0x2001 (grp 1 sH))) (fun c => c.hand && ((c.checkLanes (c.plain (memSize c.o) true false false) [0]
      (c.leaveResume (sreg 2 0x50000 (mem 0 8 0x2001 (grp 1 sH))).mach)).2.1.map Cond.cause == [3])),
    meets (.ld { oM with d := 4 }) (sregK 2 0x50000 (mem 0 8 0x2001 sK)) (fun c => c.ctl && ((c.checkLanes (c.plain (memSize c.o) true false false) [0]
      (c.leaveResume (sregK 2 0x50000 (mem 0 8 0x2001 sK)).mach)).2.1.map Cond.cause == [3]))] := by decide +kernel

/-- A letter's target that is misaligned (R193). -/
theorem wit_Letters_refused : all (laneSenders.map fun e => let s := sreg 2 0x10401 sM
    meets (e.1 { oM with mods := 11 }) s fun c => (c.checkLanes (c.target (e.2.2 c.o) (e.2.2 c.o) false) [0, 1] (c.leaveResume s.mach)).2.1.any fun y => decide (y.cause ≠ 3)) := by
  decide +kernel
/-- The next postmarks are free. -/
def fresh (s : State) (c : Ctx) : Bool := [0, 1, 2].all fun i => !s.mach.unsettled (markOf s c i)
theorem wit_Letters_marks : all ((laneSenders.map fun e => meets (e.1 { oM with mods := 11 }) sM fun c => quiet sM c && fresh sM c) ++
    laneSenders.map fun e => meets (e.1 (off { oM with mods := 11 })) sM fun c => decide (c.act = 0)) := by decide +kernel

theorem wit_Rows : all [
    [0#64, 7, 264, 0xFFF8].all fun n => meets (.ronceRow { z with len := 2, fn := 1, mods := 11, d := 5, a := 2, b := 3 }) (sreg 3 n sRow) fun c =>
      canonical c.sea && decide (c.sea.toNat % 8 = 0) && !decide ((c.s 3).toNat % 8 = 0 ∧ 8 ≤ (c.s 3).toNat ∧ (c.s 3).toNat ≤ 256 ∧ c.sea.toNat % 65536 + (c.s 3).toNat ≤ 65536),
    [8#64, 256].all fun n => meets (.ronceRow { z with len := 2, fn := 1, mods := 11, d := 5, a := 2, b := 3 }) (sreg 3 n sRow) fun c =>
      decide ((c.s 5).toNat + (c.s 3).toNat ≤ c.tm.alloc) && fresh sRow c,
    meets (.ronceRow { z with len := 2, fn := 1, mods := 11, d := 5, a := 2, b := 3 }) (sreg 5 0x10000 sRow) fun c => decide (c.tm.alloc < (c.s 5).toNat + (c.s 3).toNat),
    (let s := inB (fun b => { b with marks := [⟨9, true, clsRemote, clsAsync, 0x31, 0, 4, true⟩] }) sRow
     meets (.rarr { z with mods := 11, a := 2 }) s fun c => (c.b.heldMark 4).isSome),
    meets (.rarr { z with mods := 11, a := 2 }) sRow (fresh sRow),
    meets (.rget { z with mods := 10, d := 6, a := 2 }) sRow (fresh sRow),
    meets (.rget (off { z with mods := 10, d := 6, a := 2 })) sRow fun c => decide (c.act = 0),
    (let s := sreg 6 (BitVec.ofNat 64 winBase) (grp 3 (after (.lda { oM with la := 3 }) sM))
     meets (.rget { z with mods := 10, d := 6, a := 2 }) s fun c => s.mach.ops.any fun x => decide (x.key = c.key) && x.acq && x.parts.any fun p => !p.done && c.act.getLsbD p.lane)] := by decide +kernel

/-- ACCRD at issue while FPCTL enables an exception; outside every region; every status of a line. -/
def oAr : Opn := { z with len := 2, fn := 0, ty := 4, mods := 12, d := 8, a := 2 }
def sEn : State := inR (fun r => { r with fpctl := 0x100 }) sReg
theorem wit_AccumulatorReads : all [
    meets (.accrd oAr) sEn (fun c => c.b.regs.trapsOn && (match c.accCheck (laneList c.act) (c.leaveResume sEn.mach) with | (_ :: _, [], _) => true | _ => false)),
    meets (.accrd (off oAr)) sReg fun c => decide (c.act = 0),
    meets (.accrd oAr) (crowd sReg) fun c => crowded (crowd sReg) c,
    meets (.accrd oAr) sM fun c => ((c.accCheck (laneList c.act) (c.leaveResume sM.mach)).2.1.map Cond.cause == [0x25, 0x25]) &&
      (match sM.mach.check c.agent (c.accAccess 0) with | (.ok _, _) => true | _ => false),
    [1, 2, 12].all fun st => Nat.testBit st 1 || Nat.testBit st 0 || (Nat.testBit st 2 && Nat.testBit st 3),
    [4, 8].all fun st => !Nat.testBit st 1 && !Nat.testBit st 0 && (Nat.testBit st 2 != Nat.testBit st 3)] := by decide +kernel

/-- A region whose base is that of sDesc's descriptor, with an owner, of the secure world, or neither. -/
def sNamed (f : Region → Region) : State := withRegion 0 (f { aRegion with base := 0x101000, limit := 0x101080 }) sDesc
def dDesc : List Byte := sDesc.mach.readBytes .dev 0x100400 64
def names (s : State) (P : Ctx → Nat × Region → Bool) : Bool :=
  meets (.accdefFree { z with len := 2, fn := 1, mods := 11, d := 3, a := 2 }) s fun c => ready s false c &&
    match c.localSpan s.mach (fieldAt dDesc 0 8) 1 with
    | (some ps, m) => match (m.die c.die).table.find? fun y => decide (y.2.base = (onePiece ps).addr) with | some y => P c y | none => false
    | _ => false
theorem wit_Regions_named : all [
    [(.accdef : Opn → Instr), .accdefFree, .accdefStep, .accdefQuery].zipIdx.all fun e => meets (e.1 { z with len := 2, fn := .ofNat 8 e.2, mods := 11, d := 3, a := 2 }) (grp 3 sSt) fun c =>
      decide (c.b.count 1 ≠ 0),
    names (sNamed id) (fun c y => decide (y.2.owner = none ∧ y.2.meeting = none) && (y.2.secure == c.g.world)),
    names (sNamed fun r => { r with secure := true }) (fun c y => y.2.secure && !c.g.world),
    names (sNamed fun r => { r with owner := some 3 }) (fun c y => y.2.owner.isSome && (!y.2.secure || c.g.world)),
    names (sNamed fun r => { r with meeting := some ⟨0x101000, 0x105000, 2, 0, 1⟩ }) (fun c y => y.2.meeting.isSome && (!y.2.secure || c.g.world)),
    meets (.accdefFree { z with len := 2, fn := 1, mods := 11, d := 3, a := 2 }) sDesc fun c => match c.localSpan sDesc.mach (fieldAt dDesc 0 8) 1 with
      | (some ps, m) => ((m.die c.die).table.find? fun y => decide (y.2.base = (onePiece ps).addr)).isNone
      | _ => false] := by decide +kernel

/-- Its own store to the word is outstanding; the word that a group waits for has its arrivals. -/
theorem wit_Arrivals_cases : all [
    meets (.arrwait oA) (grp 3 sSt) fun c => (grp 3 sSt).mach.mustWait c.key c.grp .dev 0x100400 8,
    [sPark, mem 0x100400 8 (1 + 2 ^ 32) sPark].all fun s => !s.mach.damaged .dev 0x100400 8 && match ((s.mach.bundle 0).lane 1).st with | .wait (.arrival _ pa) _ _ => decide (pa = 0x100400) | _ => false] := by
  decide +kernel

/-- A letter of another package, and one made of it. -/
def aLet : Letter := { blankLetter with pm := postmark 9 0 0 0, tpa := 0x100400, op := 1, ty := 0, sz := 2, data := 5 }
def sPkg : State := { s0 with boot := { s0.boot with pkgV := true } }
def taken (s : State) (l : Letter) : Bool := decide (l.tpkg.toNat = s.mach.pkg ∧ pmPkg l.pm ≠ s.mach.pkg) && s.boot.pkgV && !s.mach.fenced 9 && !letterBad l &&
  match s.mach.takeCopy l (pmPkg l.pm) 250 with | some (a, _) => decide (a = 250) | none => false
theorem wit_Letters_from_outside : all [
    taken sPkg aLet, taken { sPkg with mach := sPkg.mach.setMark 0 aLet.pm (some 0) } aLet,
    decide (pmPkg aLet.pm ≠ s0.mach.pkg ∧ s0.boot.pkgV = false ∧ aLet.op ≠ 9 ∧ aLet.op ≠ 10),
    (let s : State := { sPkg with mach := { sPkg.mach with fence := [(0, 2 ^ 63 + 9)] } }; s.mach.fenced (pmPkg aLet.pm)), letterBad { aLet with rsv := true },
    match sPkg.mach.takeCopy aLet 9 251 with | some (a, _) => decide (250 < a) | none => false] := by decide +kernel

/-- Regions of kinds 1 and 2 over 0x100400 to 0x100480, with the data of sM elsewhere. -/
def sKind (k : Nat) (f : Region → Region) : State := withRegion 0 (f { aRegion with kind := k }) s0
def at16 (s : State) (l : Letter) (k n : Nat) (P : Region → Bool) : Bool :=
  s.mach.bad.isEmpty && match s.mach.regionAt k l.tpa.toNat n with | some (_, g) => P g | none => false
def takes16 (s : State) (l : Letter) (n : Nat) (g : Region) : Bool :=
  (!(g.secure || s.mach.secureRange l.tpa.toNat n) || l.world) && (!l.aof || decide (l.aux.toNat < g.arrn))
def add (x : W64) : Letter := { aLet with op := 2, ty := 4, data := x }
theorem wit_Letters_plain : all [
    [1, 3, 4, 5, 8].all fun op => !(decide ((op : BitVec 8) = 2)) && !s0.mach.inRegion 0x100400 8 && !s0.mach.secureRange 0x100400 8,
    (sKind 1 id).mach.inRegion 0x100400 4, (let s : State := { s0 with mach := { s0.mach with ranges := [(0x100000, 0x200000)] } }; s.mach.secureRange 0x100400 4 && !s.mach.inRegion 0x100400 4)] := by
  decide +kernel
theorem wit_Letters_accumulate : all [
    at16 (sKind 1 fun r => { r with owner := some 3 }) (add 0) 1 16 fun g => g.owner.isSome,
    at16 (sKind 1 fun r => { r with secure := true }) (add 0) 1 16 fun g => decide (g.owner = none) && g.secure && !(add 0).world,
    at16 (sKind 1 fun r => { r with stepEn := true, stepTag := 1 }) (add 0) 1 16 fun g => takes16 s0 (add 0) 16 g && g.stepEn && decide (g.stepTag ≠ (add 0).step),
    at16 (sKind 1 id) (add 0) 1 16 fun g => takes16 s0 (add 0) 16 g && decide (g.owner = none ∧ g.stepEn = false),
    [0x7FC00000#64, 0x7F800000, 0xFF800000, 0x3F800000, 0x3F400000, 0].all fun x => decide ((add x).op = 2),
    (s0.mach.regionAt 1 (add 0).tpa.toNat 16).isNone] := by decide +kernel
def once (x : W64) (aof : Bool) (aux : Nat) : Letter := { aLet with op := 6, sz := 3, data := x, aof := aof, aux := .ofNat 16 aux }
def sArrs : Region → Region := fun r => { r with arr := [(0x103000, 64)], arrn := 8 }
theorem wit_Letters_once : all [
    at16 (sKind 2 fun r => { r with secure := true }) (once 1 false 0) 2 8 fun g => g.secure,
    at16 (sKind 2 sArrs) (once 1 true 8) 2 8 fun g => decide (g.arrn = 8),
    at16 (sKind 2 fun r => { r with stepEn := true, stepTag := 1 }) (once 1 false 0) 2 8 fun g => takes16 s0 (once 1 false 0) 8 g && g.stepEn,
    at16 (mem 0x102000 1 1 (mem 0x100400 8 7 (sKind 2 sArrs))) (once 1 true 7) 2 8 fun g => takes16 s0 (once 1 true 7) 8 g && decide (presencePlace g 0x100400 = 0x102000 ∧ presenceBit g 0x100400 = 0),
    at16 (sKind 2 sArrs) (once 1 true 7) 2 8 fun g => takes16 s0 (once 1 true 7) 8 g && decide (presencePlace g 0x100400 = 0x102000)] := by decide +kernel

/-- Meeting letters at sRound's home: the record at 0x100400, its round open. -/
def mLet (op : BitVec 8) (tag k : Nat) : Letter := { aLet with op := op, ty := 4, sz := 2, rtag := .ofNat 32 tag, member := .ofNat 12 k, data := 0x3F800000 }
def opens (s : State) (P : Region → Meeting → Nat → Bool) : Bool :=
  s.mach.bad.isEmpty && match (s.mach.die 0).table.findSome? fun y => y.2.meeting.bind fun g => if g.record = 0x100400 then some (y.2, g) else none with
    | some (r, g) => P r g (recField s.mach 0x100400 40 4)
    | none => false
def held (s : State) : Bool := (recField s.mach 0x100400 40 8).testBit 32
def roundSum (s : State) (c : Nat) : Nat := s.mach.readNat .dev (0x100400 + 48 + 16 * parityOf s.mach 0x100400 c) 16
theorem wit_MeetingLetters : all [
    (((s0.mach.die 0).table.findSome? fun y => y.2.meeting.bind fun g => if g.record = 0x100400 then some (y.2, g) else none)).isNone,
    opens (withRegion 2 { aRegion with base := 0x100400, limit := 0x100480, kind := 3, secure := true, meeting := some ⟨0x100400, 0x104000, 2, 0, 1⟩ } sOpen) fun r _ _ => r.secure,
    opens sRound fun r g _ => !r.secure && decide (g.n = 2 ∧ g.n ≤ (mLet 0x11 0 2).member.toNat ∧ (mLet 0x11 0 1).member.toNat < g.n),
    opens sOpen fun r _ _ => !r.secure && held sOpen,
    opens sRound fun _ _ c => !held sRound && decide (c = 0 ∧ (c + 2 ^ 32 - 1) % 2 ^ 32 ≥ 2 ^ 31 ∧ (c + 2 ^ 32 - 2) % 2 ^ 32 ≥ 2 ^ 31),
    opens sRound fun _ _ c => !held sRound && decide (nfld (recField sRound.mach 0x100400 24 8) 35 32 = 1 ∧ 1 < (c + 2 ^ 32 - (2 ^ 32 - 2)) % 2 ^ 32 ∧ (c + 2 ^ 32 - (2 ^ 32 - 2)) % 2 ^ 32 < 2 ^ 31),
    opens sRound fun _ g c => decide (sval 128 (roundSum sRound c) = 0 ∧ roundSum sRound c = roundSum (mem g.mem 4 0 sRound) c ∧
      parityOf (mem g.mem 4 0 sRound).mach g.record c = parityOf sRound.mach g.record c) && !(sRound.mach.readNat .dev (g.mem + 8) 8).testBit 56,
    opens sRound fun _ g c => match Sparse.get none (sRound.mach.die 0).regions (if parityOf sRound.mach 0x100400 c = 0 then g.acc0 else g.acc1) with
      | some a => decide (8 ≤ (a.limit - a.base) / 16 ∧ a.stepEn = false) | none => false,
    opens (withRegion 0 { aRegion with base := 0x102000, limit := 0x102080, stepEn := true, stepTag := 4 } sRound) fun _ g c =>
      decide ((if parityOf sRound.mach 0x100400 c = 0 then g.acc0 else g.acc1) = 0)] := by decide +kernel

/-- What has come to the sender, its operation resident and counted. -/
def counts (s : State) (x : Sent) : Bool :=
  match x.sender with
  | .bundle key out => (match s.mach.bundle? key with | some b => b.outs.any fun y => decide (y.id = out) | none => false)
  | _ => false
def sentIs (s : State) (pm : W64) (P : Sent → Bool) : Bool := match s.mach.sentAt pm with | some x => counts s x && P x | none => false
theorem wit_Answers : all [
    [0, 1, 2, 4].all fun st => sentIs (sAck st) pm0 fun x => !x.acked && decide (x.letter.op ≠ 9) && ((sAck st).mach.takeAck x.letter.tpkg.toNat pm0 st).isSome,
    [0, 1, 3].all fun st => let s : State := { sRget with mach := { sRget.mach with acks := [(pm0, st)] } }
      sentIs s pm0 fun x => !x.acked && decide (x.letter.op = 9) && (s.mach.takeAck x.letter.tpkg.toNat pm0 st).isSome,
    [0, 15, 16].all fun n => sentIs (sSent fun x => { x with resends := n }) pm0 fun x => !x.acked && !x.refused && decide (x.resends = n ∧ x.timer + 8 * Config.usCycles ≤ (sSent id).mach.clk) &&
      (sSent id).mach.sent.all fun y => !y.owes (sSent id).mach.clk,
    [6 * Config.usCycles, 100000].all fun n => let s := later n { sRadd with mach := { sRadd.mach with sent := sRadd.mach.sent.map fun x => { x with acked := true } } }
      sentIs s pm0 fun x => x.acked && decide (x.letter.op ≠ 9 ∧ x.last + 4 * Config.usCycles < s.mach.clk ∧ max x.timer (x.last + 4 * Config.usCycles) + 2 * Config.usCycles ≤ s.mach.clk),
    (let s := later 1000000 { sRadd with mach := { sRadd.mach with wire := [] }.setMark 0 pm0 (some 0) }
     decide (200 * Config.usCycles ≤ s.mach.clk) && s.mach.mayCome pm0),
    (let s := later 1000000 { s0 with mach := s0.mach.setMark 0 pm0 (some 0) }; !s.mach.mayCome pm0)] := by decide +kernel

/-- A store beside the record, or an acquire of it, is outstanding. -/
def sOpenSt : State := grp 3 (after (.st { oM with a := 6 }) (sreg 6 0x11000 sOpen))
def sOpenLd : State := grp 3 (after (.lda { oM with la := 3 }) sOpen)
/-- Tag words with a reserved bit; MARR and MREL while an older store is outstanding; rounds over, open, ahead and gone. -/
theorem wit_Meetings_held : all [
    [(.mpost : Opn → Instr), .marr, .mrel, .mwait, .mstat].zip [{ z with d := 8, a := 2, b := 6 }, { z with a := 2 }, { z with a := 2 }, oT, oT] |>.all fun e =>
      meets (e.1 e.2) (sreg 3 (2 ^ 44) sOpen) fun c => decide (fld (c.s (c.o.a.toNat + 1)) 63 44 ≠ 0),
    [(.marr : Opn → Instr), .mrel].all fun e => meets (e { z with a := 2 }) sOpenSt fun c => recs sOpenSt true false c && decide (c.b.count 1 ≠ 0),
    [(.mpost : Opn → Instr), .marr, .mrel].zip [{ z with d := 8, a := 2, b := 6 }, { z with a := 2 }, { z with a := 2 }] |>.all fun e => meets (e.1 e.2) sOpen fun c => fresh sOpen c,
    [(.mwait : Opn → Instr), .mstat].all fun e => meets (e oT) sOpenLd fun c => recs sOpenLd false true c &&
      sOpenLd.mach.mustWait c.key c.grp .dev 0x100400 128] := by decide +kernel
def status (s : State) (t : Nat) : Nat := roundIs s.mach 0x100400 t
def parked (s : State) (P : Nat → Bool) : Bool := s.mach.bad.isEmpty && match ((s.mach.bundle 0).lane 1).st with | .wait (.meeting _ rc tag) _ _ => decide (rc = 0x100400) && P tag.toNat | _ => false
def sMw : State := after (.mwait oT) sRound
theorem wit_Rounds : all [
    decide (status sOpen 0 = 3 ∧ status sRound 0 = 1 ∧ status sRound 1 = 0 ∧ status sRound (2 ^ 32 - 2) = 4),
    meets (.mwait oT) sRound fun c => recs sRound false true c && decide (status sRound c.roundTag = 1) && !sRound.mach.mustWait c.key c.grp .dev 0x100400 128,
    meets (.mwait oT) (sreg 3 (2 ^ 32 - 2) sRound) fun c => recs (sreg 3 (2 ^ 32 - 2) sRound) false true c && decide (status sRound c.roundTag = 4),
    parked sMw fun t => decide (status sMw t = 1), parked (mem 0x100428 8 (2 ^ 33) sMw) fun t => decide (status (mem 0x100428 8 (2 ^ 33) sMw) t = 5),
    meets (.mstat { oT with len := 2, fn := 2 }) (sreg 3 (2 * 2 ^ 32) sOpen) fun c => recs sOpen false true c && decide (c.memberNo = 2 ∧ nfld (recField sOpen.mach 0x100400 24 8) 12 0 = 2),
    meets (.mstat { oT with len := 2, fn := 2 }) (sreg 3 (2 ^ 32) sOpen) fun c => decide (c.memberNo = 1) && (match sOpen.mach.meetingAt c.die 0x100400 with
      | some (_, g) => !sOpen.mach.mustWait c.key c.grp .dev (g.mem + 16) 16 | none => false),
    meets (.mstat { oT with len := 2, fn := 2 }) sRec fun c => decide (c.memberNo = 0) && (sRec.mach.meetingAt c.die 0x100400).isNone &&
      match sRec.mach.check c.agent ⟨sRec.mach.read64 .dev 0x100410, 16, 16, true, false, false, false, .local_, .denied 0x24⟩ with | (.ok _, _) => true | _ => false] := by decide +kernel

/-- What MOPEN finds: the table's pieces, and the regions of the two accumulators. -/
def finds (s : State) (P : Ctx → Option (List Piece) → Option (Nat × Region) → Option (Nat × Region) → Mach → Bool) : Bool :=
  meets (.mopen oT) s fun c => table s c &&
    let d := s.mach.readBytes .dev 0x100400 128
    match c.localSpan s.mach (fieldAt d 16 8) (16 * nfld (fieldAt d 24 8) 12 0) with
    | (qs, m1) => match c.accRegion m1 (fieldAt d 0 8) with
      | (r0, m2) => match c.accRegion m2 (fieldAt d 8 8) with
        | (r1, m3) => !recordBad d && P c qs r0 r1 m3
def oneTable (qs : Option (List Piece)) : Bool := match qs with | some [_] => true | _ => false
def both (r0 r1 : Option (Nat × Region)) (P : Nat × Region → Nat × Region → Bool) : Bool := match r0, r1 with | some a, some b => P a b | _, _ => false
def sRec2 (f : Region → Region) : State := withRegion 0 (f { aRegion with base := 0x102000, limit := 0x102080 }) sRec
theorem wit_Meetings_open_errors : all [
    [(.mopen : Opn → Instr), .mclose].all fun e => meets (e oT) (grp 3 (after (.st oM) sRec)) fun c => recs (grp 3 (after (.st oM) sRec)) true true c && decide (c.b.count 1 ≠ 0),
    meets (.mopen oT) sM fun c => table sM c && recordBad (sM.mach.readBytes .dev 0x100400 128),
    finds (mem 0x100410 8 0x50000 (mem 0 8 0x2001 sRec)) fun _ qs _ _ _ => qs.isNone,
    finds (mem 0x100410 8 0x1FFF0 (mem 0x820 32 (0x20000 + 0x30000 * 2 ^ 64 + 0x200000 * 2 ^ 128 + 0x1D * 2 ^ 192) sRec)) fun _ qs _ _ _ => qs.any fun q => decide (q.length = 2),
    finds (mem 0x100408 8 0x15000 sRec) fun _ qs r0 r1 _ => oneTable qs && r0.isSome && r1.isNone,
    finds (sRec2 fun r => { r with owner := some 9 }) fun _ qs r0 r1 _ => oneTable qs && both r0 r1 fun a _ => a.2.owner.isSome,
    finds (sRec2 fun r => { r with secure := true }) fun c qs r0 r1 _ => oneTable qs && both r0 r1 fun a _ => a.2.secure && !c.g.world && a.2.owner.isNone,
    finds (sRec2 fun r => { r with limit := 0x102100 }) fun _ qs r0 r1 _ => oneTable qs && both r0 r1 fun a b => decide (a.2.limit - a.2.base ≠ b.2.limit - b.2.base),
    finds (withRegion 7 { aRegion with base := 0x100480, limit := 0x100500 } (withRegion 8 { aRegion with base := 0x104010, limit := 0x104020, kind := 2 } sRec)) fun _ qs r0 r1 m =>
      oneTable qs && both r0 r1 fun a b => decide (a.1 ≠ b.1) && m.inRegion 0x104000 32,
    finds sRec fun c qs r0 r1 m => oneTable qs && both r0 r1 fun a b => decide (a.1 = 0 ∧ b.1 = 1 ∧ (m.die c.die).freeRegion = some 2) && !m.inRegion 0x100400 128 && !m.inRegion 0x104000 32] := by
  decide +kernel

/-- Every entry of the die's table is taken. -/
def fullTable : Sparse (Option Region) := (List.range 4096).map fun k => (k, some { aRegion with base := 0x102000 + 0x1000 * (k % 2), limit := 0x102080 + 0x1000 * (k % 2) })
theorem sparse_full (r : Nat → Option Region) (h : ∀ k, r k ≠ none) : ∀ (n a k : Nat), a ≤ k → k < a + n →
    Sparse.get none ((List.range' a n).map fun k => (k, r k)) k ≠ none
  | 0, _, _, h1, h2 => by omega
  | n + 1, a, k, h1, h2 => by
    rw [List.range'_succ, List.map_cons, Sparse.get]
    split
    · exact h _
    · exact sparse_full r h n (a + 1) k (by omega) (by omega)
theorem wit_MeetingsTableFull : (∀ k < 4096, Sparse.get none fullTable k ≠ none) ∧
    finds { sRec with mach := sRec.mach.modDie 0 fun d => { d with regions := fullTable } } (fun c qs r0 r1 m => oneTable qs &&
      both r0 r1 fun a b => decide (a.1 = 0 ∧ b.1 = 1 ∧ (m.die c.die).regions.length = fullTable.length)) = true :=
  ⟨fun k hk => by
    rw [fullTable, List.range_eq_range']
    exact sparse_full _ (fun _ => by simp) 4096 0 k (by omega) (by omega), by decide +kernel⟩
theorem wit_Meetings_clear : all [
    match (Sparse.get none (sOpen.mach.die 0).regions 2).bind Region.meeting with
    | some g => decide (nfld (parityWord sOpen.mach g.record 0) 31 29 = 3 ∧ nfld (parityWord sOpen.mach g.record 1) 31 29 ≠ 3) | none => false,
    (let s := mem 0x100450 8 0 (mem 0x100458 8 (3 * 2 ^ 29) sOpen)
     match (Sparse.get none (s.mach.die 0).regions 2).bind Region.meeting with
     | some g => decide (nfld (parityWord s.mach g.record 0) 31 29 ≠ 3 ∧ nfld (parityWord s.mach g.record 1) 31 29 = 3) && (Sparse.get none (s.mach.die 0).regions g.acc1).isSome | none => false)] := by
  decide +kernel

/-- The leader's older store to the record is outstanding; the record is that of a copy into memory; a control word is asked for. -/
def sBusy : State := grp 3 (after (.st oM) sRing)
def leads (s : State) (P : Ctx → List Byte → List Piece → Mach → Bool) (c : Ctx) : Bool :=
  (c.leader == some 0) && decide ((c.leaveResume s.mach).bad = []) &&
  match (c.leaveResume s.mach).check c.agent ⟨c.s 2, 64, 64, true, false, false, false, .local_, .allowed⟩ with
  | (.ok ps, m) => P c (c.readOwn s.mach 0 ps) ps m
  | _ => false
def mayCopy (s : State) (cw : Bool) (c : Ctx) (d : List Byte) : Bool :=
  !s.mach.mustWait c.key 1 .dev 0x100400 64 && (c.recordBad false d).isNone && (c.copyFits s.mach 0 d (ringOf d cw (c.s 8))).isNone && roomy s c && (s.mach.copyEntry 0 0).isSome
def sArrw (va : Nat) : State := sreg 8 (2 ^ 32) (sreg 9 (.ofNat 64 va) (mem 0 8 0x2001 sCpy))
theorem wit_Copies_traps : all [
    meets (.cpy oC) sBusy (leads sBusy fun c _ _ _ => sBusy.mach.mustWait c.key 1 .dev 0x100400 64),
    meets (.cpy oC) sM (leads sM fun c d _ _ => (c.recordBad false d).isSome),
    meets (.cpy oC) (sreg 6 0x10000 sRing) (leads (sreg 6 0x10000 sRing) fun c d _ _ => (c.recordBad false d).isNone && (c.copyFits (sreg 6 0x10000 sRing).mach 0 d (ringOf d false 0)).isSome),
    (let s := sArrw 0x11000
     meets (.cpy { oC with d := 8, mods := 0x80 }) s (leads s fun c d _ m => mayCopy s true c d && match m.check c.agent ⟨0x11000, 8, 8, false, true, false, false, .letter, .denied 0x24⟩ with | (.ok _, _) => true | _ => false)),
    [(0x50000, 3), (0x11004, 0x10), (2 ^ 63, 1)].all fun e => let s := sArrw e.1
     meets (.cpy { oC with d := 8, mods := 0x80 }) s (leads s fun c d _ m => mayCopy s true c d && match m.check c.agent ⟨.ofNat 64 e.1, 8, 8, false, true, false, false, .letter, .denied 0x24⟩ with
      | (.error k, _) => decide (k = e.2 ∨ e.2 = 1 ∧ k ≠ 3) | _ => false),
    meets (.cpy { oC with d := 8, mods := 0x80 }) sCpy (leads sCpy fun c d _ _ => mayCopy sCpy true c d && !bitAt (c.s 8) 32)] := by decide +kernel

/-- The copy of 64 bytes in direction k, its base and destination given, at work. -/
def sDir (k base dst : Nat) (s : State) : State := sRun (sreg 6 (.ofNat 64 dst) (mem 0x100400 8 base (mem 0x100408 8 (17 + 64 * k) (s))))
def works (s : State) (P : Copy → Bool) : Bool := s.mach.copies.any fun x =>
  decide (x.id = 0 ∧ x.st = 1 ∧ x.f ≤ cpSize x.desc ∧ cpSize x.desc ≤ 65536) && !s.mach.issuerBusy x.key x.lane x.id && P x
/-- The page of image byte 0 of the source or destination is reached, or not. -/
def reach (s : State) (x : Copy) (w : Bool) : Except Nat (Nat × Piece) :=
  match (if w then destVa x 0 else copyAddr x 0) with
  | none => .error 0
  | some va => (s.mach.reachPage (copyAgent s.mach x) va w (if w then .copyDest else .local_)).1
def stops (s : State) (w : Bool) (P : Nat → Bool) : Bool := works s fun x => match reach s x w with | .error k => P k | _ => false
def stands (s : State) (w : Bool) (P : Copy → Piece → Bool) : Bool := works s fun x => match reach s x w with | .ok q => P x q.2 | _ => false
/-- Where the copy meets an open meeting at 0x102000, and where its destination lies on another die. -/
def sAway : State := mem 0x810 8 0x3000000000 sCpy
def sDst (k base dst : Nat) (s : State) : State := sDir k base dst (mem 0x820 32 (0x20000 + 0x30000 * 2 ^ 64 + 0x3000000000 * 2 ^ 128 + 0x1D * 2 ^ 192) s)

theorem wit_Copies_pages : all [
    stands (sDir 0 0x11000 0 sCpy) false fun x q => decide (cpDir x.desc = 0) && q.pkg.isNone,
    stands (sDir 1 0x11000 0 sCpy) true fun x q => decide (cpDir x.desc = 1) && q.pkg.isNone,
    stands (sDir 2 0x11000 0x12000 sCpy) true fun x q => decide (cpDir x.desc = 2) && q.pkg.isNone,
    stands (sDir 2 0x11000 0x12000 sCpy) false fun _ q => q.pkg.isNone,
    [(0, 0, false), (1, 0, true), (2, 0x50000, true)].all fun e => stops (sDir e.1 (if e.1 = 2 then 0x11000 else 0x50000) e.2.1 (mem 0 8 0x2001 sCpy)) e.2.2 fun k => decide (k = 3),
    [(0, 0, false), (1, 0, true), (2, 0x50000, true)].all fun e => stops (sDir e.1 (if e.1 = 2 then 0x11000 else 0x50000) e.2.1 sCpy) e.2.2 fun k => decide (k ≠ 3),
    stands (sMeet (sDir 1 0x10000 0 (mem 0x818 8 0x1D sCpy))) true fun _ q => decide (q.space = .dev) && q.pkg.isNone,
    [(0x20000, true), (0x20004, false)].all fun e => stands (sDst 1 e.1 0 sCpy) true fun x q => decide (q.space = .dev ∧ homeDie q.addr ≠ dieOfCore (coreOfKey x.key) ∧ (e.1 % 8 = 0 ↔ e.2 = true)) && q.pkg.isNone &&
      (List.range 64).all fun k => destVa x k == some (.ofNat 64 (e.1 + k)),
    (sDone (sCpy)).mach.copies.all fun x => !(sDone sCpy).mach.fillsFirst x] := by decide +kernel

/-- Two copies fill one mailbag; the second waits for the first. -/
def sTwo : State := (fun s : State => { s with mach := { s.mach with copies := (s.mach.copies.map fun x => { x with st := 1 }) ++ s.mach.copies.map fun x => { x with id := 9, st := 4 } } })
  (sDone (bag 1 0 0 0 (mem 0x100408 8 (17 + 2 ^ 17 + 2 ^ 24) sCpy)))
theorem wit_Copies_fills : all [(sTwo.mach.copies.find? fun x => decide (x.id = 9 ∧ x.st = 4)).any fun x => sTwo.mach.fillsFirst x] := by decide +kernel

/-- A group sleeps until a record comes to the ring. -/
def sCs : State := after (.csleep oT) sRec0
def readable (s : State) (t : Team) (off : Nat) : Bool := decide (off + 64 ≤ t.alloc ∧ headSlotAt s.mach t 0 off + 16 ≤ t.alloc)
def holds (s : State) (t : Team) (off : Nat) : Bool :=
  decide (nfld (ringWord s.mach t 0 (headSlotAt s.mach t 0 off) 8 8) 63 63 = (ringHeadNo s.mach t 0 off / 2 ^ ringLog s.mach t 0 off + 1) % 2)
def slept (s : State) (rd valid : Bool) : Bool :=
  match ((s.mach.bundle 0).lane 1).st with
  | .wait (.ring _ _ off) _ _ => (readable s (s.mach.team 0) off == rd) && (!rd || (holds s (s.mach.team 0) off == valid))
  | _ => false
theorem wit_Rings : all [
    [(.cpoll : Opn → Instr), .csleep].all fun e =>
      meets (e oT) (sreg 2 1056 sRec0) (fun c => decide ((c.s 2).toNat % 64 ≠ 0)) &&
      meets (e oT) (sreg 2 0x10000 sRec0) (fun c => !readable sRec0 c.tm 0x10000 && !sRec0.mach.threadBusy c.key c.grp .scratch) &&
      (let s := sreg 2 1024 (grp 3 (after (.st oM) (sreg 2 (.ofNat 64 (winBase + 512)) sRec0)))
       meets (e oT) s fun c => s.mach.threadBusy c.key c.grp .scratch),
    slept sCs true false, slept { sCs with mach := { sCs.mach with scratch := sRec1.mach.scratch } } true true,
    slept (scr 1024 8 (0x10000 + 4 * 2 ^ 32) sCs) false false] := by decide +kernel

/-- Barrier 1 in its two modes, with arrivals; team 1 of another core's octant, and a secure grid. -/
def barIs (b : Barrier) (s : State) : State := inT (fun t => t.setBar 1 b) s
def barO : Opn := { z with mods := 1 }
def barE : Opn := { z with mods := 0x11, b := 2 }
def aBar : Barrier := { mode := 2, e := 64, arrivals := 33, recv := [], last := [] }
theorem wit_Barriers_each : all [
    [0, 65536, 32, 63].all fun e => meets (.bar barE) (sreg 2 (.ofNat 64 e) (barIs aBar s0)) fun c => decide ((c.s 2).toNat = e),
    meets (.bar barE) (sreg 2 31 s0) fun c => decide (31 < (c.tm.bar 1).arrivals + popCount c.grp),
    meets (.bar barE) (sreg 2 64 (barIs { aBar with mode := 1 } s0)) fun c => decide ((c.tm.bar 1).mode = 1),
    meets (.bar barO) (barIs aBar s0) fun c => decide ((c.tm.bar 1).mode = 2),
    (let s := grp 3 (after (.st oM) sM)
     meets (.bar barO) s fun c => s.mach.threadsBusy c.key c.grp),
    meets (.bar barE) (sreg 2 64 s0) fun c => decide ((c.tm.bar 1).arrivals + popCount c.grp ≠ 64),
    meets (.bar barE) (sreg 2 64 (barIs { aBar with arrivals := 32 } s0)) fun c => decide ((c.tm.bar 1).arrivals + popCount c.grp = 64),
    meets (.bar barO) s0 fun c => (atBarrier s0 c 1).allArrived c.tk 1,
    meets (.bar barO) (inG (fun g => { g with det := true }) s0) fun c => c.g.det && (atBarrier s0 c 1).allArrived c.tk 1,
    meets (.bar barO) (grp 3 s0) fun c => !(atBarrier (grp 3 s0) c 1).allArrived c.tk 1] := by decide +kernel

/-- BARV: what its address names. -/
def aims (x : Nat) (s : State) (P : Ctx → Nat → Bool) : Bool := meets (.barv oT) (sreg 2 (.ofNat 64 x) s) fun c => noOps s c && P c ((c.die * 96 + x / 16 % 128) * 128 + x / 2048 % 128)
def nm (s : State) (tk x : Nat) : Bool := decide (x < 2 ^ 50) && (s.mach.team? tk).any fun tm => decide (tm.gen.toNat = x / 2 ^ 18 ∧ tm.killed = false)
def sGen : State := inT (fun t => { t with gen := 1 }) (grp 3 s0)
theorem wit_Barv : all [
    aims (2 ^ 18 + 1 + 8 * 16) sGen fun c _ => decide (8 / 8 ≠ c.core % 96 / 8),
    [2 ^ 18 + 1 + 16, 2 ^ 18 + 1 + 2048, 2 ^ 19 + 1, 2 ^ 50 + 2 ^ 18 + 1].all fun x => aims x sGen fun _ tk => !nm sGen tk x,
    aims (2 ^ 18 + 1) (inT (fun t => { t with killed := true }) sGen) fun _ tk => !nm (inT (fun t => { t with killed := true }) sGen) tk (2 ^ 18 + 1),
    aims (2 ^ 18 + 1) (barIs { aBar with arrivals := 64 } sGen) fun c tk => nm sGen tk (2 ^ 18 + 1) && decide ((c.tm.bar 1).e < (c.tm.bar 1).arrivals + 1),
    aims (2 ^ 18 + 1) (barIs { aBar with mode := 1 } sGen) fun _ tk => nm sGen tk (2 ^ 18 + 1) && !sGen.mach.allArrived tk 1,
    aims (2 ^ 18 + 1) (barIs aBar sGen) fun _ tk => nm sGen tk (2 ^ 18 + 1),
    aims (2 ^ 18 + 1) (barIs { aBar with arrivals := 63 } sGen) fun _ tk => nm sGen tk (2 ^ 18 + 1) && (sGen.mach.awayFrames tk).isEmpty,
    (let s := grp 3 (after (.st oM) sM)
     meets (.barv oT) s fun c => !noOps s c)] := by decide +kernel

theorem wit_Mailbags_each : all [
    (let s := grp 0xFFFFFFFE (after (.mbwait oB) (grp 1 (bag 0 0 0 0 s0)))
     let s := bag 1 1 0 0 s
     meets (.mbwait oB) s fun c => has s c && decide ((s.mach.mailWaiters c.tk 1 false).length = 1)),
    [(.mbfill : Opn → Instr), .mbfree].all fun e => let s := bag 1 0 0 0 (grp 3 (after (.st oM) sM))
      meets (e { z with mods := 1 }) s fun c => has s c && !noOps s c] := by decide +kernel

/-- Lane l of bundle 0 waits on a counter, or sleeps. -/
def waitsOn (s : State) (l : Nat) (P : Bundle → Nat → Nat → Bool) : Bool :=
  match ((s.mach.bundle 0).lane l).st with | .wait (.counter k n) _ _ => P (s.mach.bundle 0) k n | _ => false
def aMark : Mark := ⟨0, true, clsRemote, clsAsync, 0x32, 0, 1, true⟩
/-- What leave a team holds or asks for; two chunks ask for it. -/
def leaveSt (v : Leave) : State := inT (fun t => { t with leave := v }) { s0 with mach := s0.mach.modDie 0 fun d => { d with share := 2 ^ 70 } }
def leaveAsks (s : State) (P : Mach → Request → Bool) : Bool := match s.mach.requests 0 with | [x] => P s.mach x | _ => false
def sLc : State := inG (fun g => { g with due := [⟨0, ⟨1, 3, false⟩, 0⟩] }) s0
theorem wit_Waits : all [
    meets (.waitk { z with len := 2, mods := 1, a := 4 }) (sreg 4 (2 ^ 63) sM) fun c => decide (c.b.count 1 ≤ min (c.s 4).toNat 65535),
    waitsOn (inB (fun b => { b with outs := [] }) sWk) 0 fun b k n => decide (b.count k ≤ n) && (b.heldMark k).isNone,
    waitsOn sWk 0 fun b k n => decide (n < b.count k) && (b.heldMark k).isNone,
    waitsOn (inB (fun b => { b with marks := [aMark], outs := [] }) sWk) 0 fun b k _ => (b.heldMark k).isSome,
    waitsOn (inB (fun b => { b with marks := [aMark] }) sWk) 0 fun b k n => decide (n < b.count k) && (b.heldMark k).isSome,
    (inB (fun b => { b with marks := [aMark] }) sWk).mach.atBoundary 0, !(inB (fun b => { b with marks := [aMark] }) (grp 4 sWk)).mach.atBoundary 0,
    meets (.sleep { z with a := 4 }) (sreg 4 (2 ^ 32 - 1) s0) fun c => decide ((c.s 4).toNat < 2 ^ 32)] := by decide +kernel

theorem wit_Leave : all [
    [(⟨2, 0, false⟩, true), (⟨0, 0, false⟩, false), (⟨1, 0, false⟩, false), (⟨2, 0, true⟩, false)].all fun (e : Leave × Bool) =>
      [(.pwrq { z with d := 4 }), (.pwrqRel { z with len := 2, fn := 1, d := 4 })].all fun i => meets i (leaveSt e.1) fun c =>
        decide ((c.tm.leave.st = 2 ∧ (leaveSt e.1).mach.clk < c.tm.leave.since + 4096 ∧ c.tm.leave.rel = false) ↔ e.2 = true),
    meets (.pwrqRel { z with len := 2, fn := 1, d := 4 }) (after (.mxp z) sMx) fun c => (after (.mxp z) sMx).mach.leaveRuns c.tk == false,
    leaveAsks (leaveSt ⟨1, 0, false⟩) fun m x => decide (x.who < 2 ^ 40) && !(m.die 0).hold,
    leaveAsks { leaveSt ⟨1, 0, false⟩ with mach := (leaveSt ⟨1, 0, false⟩).mach.modDie 0 fun d => { d with hold := true } } fun m _ => (m.die 0).hold,
    leaveAsks sLc fun _ x => decide (2 ^ 40 ≤ x.who),
    [⟨2, 0, false⟩, ⟨2, 0, true⟩, ⟨3, 0, false⟩].all fun v => let s := later 5000 (leaveSt v)
      !s.mach.leaveRuns 0 && decide (v.st = 3 ∨ (v.st = 2 ∧ (v.rel = true ∨ v.since + 4096 ≤ s.mach.clk))),
    decide (¬ (2 : Nat) + 4096 ≤ (leaveSt ⟨2, 2, false⟩).mach.clk)] := by decide +kernel

/-- GLD and GSC: the lanes' places, and what stops them. -/
def gld1 (n : Nat) : Instr := .gld { oG with len := 2, fn := .ofNat 8 n }
def gsc1 (n : Nat) : Instr := .gsc { oG with len := 2, fn := .ofNat 8 n, ty := if n = 1 then 4 else 0 }
def unmapped (d : List Byte) : List Byte := leBytes 8 0x50000 ++ d.drop 8
def wideD : List Byte := descOf 0 256 0 0x1B
theorem wit_Gathers : all [
    [gld1 0, gsc1 0].all fun i => meets i sM fun c => decide (c.tm.handle? 1 = none),
    meets (.hset { z with d := 1, a := 2 }) (grp 3 (after (.st oM) sHset)) fun c => (grp 3 (after (.st oM) sHset)).mach.mustWait c.key c.grp .dev 0x100400 64,
    meets (.ginv z) (grp 3 (after (.lda { oM with len := 2, la := 7 }) sM)) fun c => (grp 3 (after (.lda { oM with len := 2, la := 7 }) sM)).mach.ops.any fun x => decide (x.key = c.key) && x.acq && x.parts.any fun p => !p.done && c.grp.getLsbD p.lane,
    meets (gld1 2) (bound dense) fun c => decide (c.tm.handle? 1 = some dense ∧ hFmt dense = 0),
    meets (gsc1 2) (bound dense) fun c => decide (c.tm.handle? 1 = some dense) && !gscFits c.o dense,
    meets (gld1 0) (bound (unmapped dense)) fun c => ((c.gldLanes (unmapped dense) false (laneList c.act) (c.leaveResume (bound (unmapped dense)).mach)).2.1.any fun y => decide (y.cause ≠ 3)),
    meets (gsc1 0) (bound (unmapped dense)) fun c => ((c.gscCheck (unmapped dense) (laneList c.act) (c.leaveResume (bound (unmapped dense)).mach)).2.1.any fun y => decide (y.cause ≠ 3)),
    meets (.gsc { oG with len := 2, fn := 2 }) (sreg 6 (2 ^ 31) (bound packedD)) fun c => decide (hRows packedD * hCpr packedD ≤ fld (c.s 6) 31 0),
    meets (gld1 0) (crowd (bound dense)) fun c => (match c.gldLanes dense false (laneList c.act) (c.leaveResume (crowd (bound dense)).mach) with | (ps, [], m) => m.trackerFull c.core ps | _ => false),
    [(gld1 0, false), (gsc1 0, true)].all fun e => meets (match e.1 with | .gld o => .gld (off o) | .gsc o => .gsc (off o) | i => i) (bound dense) fun c => decide (c.act = 0)] := by decide +kernel

/-- In a handler with no tile saved; an engine queue of 32. -/
def sMxH : State := inB (fun b => { b with hand := some 0x10000 }) sMx
def aJob : MxJob := ⟨900, 0, 0, 1, none, .clear [], 0⟩
def sMxFull (s : State) : State := inC (fun k => { k with mx := List.replicate 32 aJob }) s
def unsaved (c : Ctx) : Bool := c.hand && (List.range c.tm.tiles.length).any fun k => !c.b.savedTiles.contains k
theorem wit_Matrix_each : all [
    [Instr.mxp z, .accmv (oV 0), .mxstat { z with len := 2, d := 4 }].all fun i => meets i (inR (fun r => r.sset true 4 0x10000) sMxH) unsaved,
    [.mxload { z with a := 2, mods := 8 }, .mxclrLatch { z with len := 2, fn := 1 }].all fun i => meets i sMxH unsaved,
    meets (.mxclr { z with a := 5 }) (inR (fun r => r.sset true 5 1) sMxH) unsaved,
    meets (.mxp z) (sMxFull sMx) fun c => !unsaved c && decide (32 ≤ ((sMxFull sMx).mach.core c.core).mx.length),
    meets (.mxp { z with len := 2, a := 4 }) (sreg 4 32 sMx) fun c => decide ((c.s 4).toNat % 64 ≠ 0),
    meets (.mxp { z with len := 2, a := 4 }) (sreg 4 0x10000 sMx) fun c => decide (c.tm.alloc < (c.s 4).toNat + 64),
    (let s := grp 3 (after (.st oM) (sreg 2 (.ofNat 64 winBase) sMx))
     meets (.mxp { z with len := 2, a := 4 }) s fun c => s.mach.mustWait c.key 1 .scratch (c.tm.phys c.core 0) 64),
    meets (.mxp z) sM fun c => !unsaved c && (match c.mxCheck false c.mxDefault with | .error _ => true | _ => false),
    meets (.mxp { z with mods := 0x80 }) (inB (fun b => { b with latch := none }) sMx) fun c => !decide (2 ≤ sMx.mach.latches (quadOfKey c.key)) && c.b.latch.isNone] := by decide +kernel

theorem wit_Layouts_each : all [
    [0, 1].all fun n => meets (.ldt { z with len := 2, fn := n, d := 8, a := 4, b := 6 }) (sreg 4 4 s0) fun c => decide (c.act ≠ 0 ∧ (c.s 4).toNat % (if n = 0 then 8 else 16) ≠ 0),
    meets (.ldt { z with len := 2, d := 8, a := 4, b := 6 }) (sreg 4 0xFFF8 (sreg 6 8 s0)) fun c => (laneList c.act).any fun l => (ldtPlaces c l).any fun x => decide (c.tm.alloc < x.1 + x.2),
    meets (.ldt { z with len := 2, d := 8, a := 4, b := 6 }) (crowd s0) fun c => (crowd s0).mach.trackerFull c.core ((laneList c.act).flatMap fun l => (ldtPlaces c l).map fun x =>
      let p : Piece := ⟨.scratch, c.tm.phys c.core x.1, x.2, none, 0⟩
      part l p (.ofNat 64 (winBase + x.1)) (.read (c.ownBytes l p))),
    meets (.ldt (off { z with len := 2, d := 8, a := 4, b := 6 })) s0 fun c => decide (c.act = 0),
    meets (.accmv (oV 0)) (sMxFull sAc) fun c => !unsaved c && decide (32 ≤ ((sMxFull sAc).mach.core c.core).mx.length),
    meets (.accmv (oV 0)) (inR (fun r => { r with fpctl := 0x1F00 }) sAc) fun c => !unsaved c && c.b.regs.trapsOn,
    meets (.accmv (oV 1)) (inR (fun r => r.setV 8 0 0x7F800001) sAc) fun c => !unsaved c && decide (c.act.getLsbD 0 = true ∧ fld (c.v 8 0) 30 23 = 255 ∧ fld (c.v 8 0) 22 0 ≠ 0) && !bitAt (c.v 8 0) 22,
    meets (.mxclr { z with a := 5 }) (sreg 5 (2 ^ 63) sAc) fun c => decide (2 ^ c.tm.tiles.length ≤ (c.s 5).toNat)] := by decide +kernel

/-- The queue's next instruction. -/
def mxHead (s : State) (P : MxJob → Bool) : Bool := match (s.mach.core 0).mx with
  | [x] => P x && !s.mach.mxWaits x && (s.mach.bundle? x.key).isSome
  | _ => false
def sChk (n : Nat) : State := after (.mxd { z with a := 4 }) (scr 0 8 (2 ^ 32 + 2 ^ 48) (inG (fun g => { g with chk := n }) sMx))
theorem wit_Engine_each : all [
    mxHead (inT (fun t => { t with leave := ⟨0, 0, false⟩ }) (after (.mxp z) sMx)) fun x => decide (x.g = 0) && !(inT (fun t => { t with leave := ⟨0, 0, false⟩ }) (after (.mxp z) sMx)).mach.leaveHeld x.team,
    [0, 2, 3].all fun n => mxHead (sChk n) fun x => (sChk n).mach.leaveHeld x.team && (match x.kind with | .mxd a => decide (a.chk = n ∧ ¬ x.g + 1 = 2 * a.ng) | _ => false) &&
      ((sChk n).mach.team? x.team).isSome,
    mxHead (inC (fun k => { k with mx := k.mx.map fun x => { x with g := 3 } }) (sChk 3)) fun x => (match x.kind with | .mxd a => decide (x.g + 1 = 2 * a.ng) | _ => false),
    (let s := after (.accmv (oV 0)) (inR (fun r => { r with fpctl := 0x1000 }) sAc)
     mxHead s fun x => x.out.isNone && match x.kind with
      | .accTrap ty rm d tile row col n ls _ _ _ => ((s.mach.core 0).accReads tile 0 ty rm d row col n ls).all fun r => decide (enabledOf (s.regs x.key).fpctl r.2.2 = 0)
      | _ => false)] := by decide +kernel

/-- The issuer's older store to the job block is outstanding; 64 jobs; four active ones. -/
def winBase' : W64 := .ofNat 64 winBase
def sBlk : State := grp 3 (after (.st oM) (sreg 2 winBase' sPair))
def manyJobs (n st : Nat) (s : State) : State := { s with mach := s.mach.modDie 0 fun d => { d with jobs := d.jobs ++ (List.range n).map fun k => { newJob (100 + k) 0 0 0 false false 0 (List.replicate 80 0) with st := st } } }
theorem wit_NeighbourJobs_held : all [
    meets (.npair oN) sBlk fun c => sBlk.mach.mustWait c.key c.grp .scratch (c.tm.phys c.core 0) 88,
    meets (.npair oN) (manyJobs 64 0 sPair) fun c => decide (64 ≤ ((manyJobs 64 0 sPair).mach.die c.die).jobs.length) && nbr (manyJobs 63 0 sPair) false false c,
    meets (.npair oN) (manyJobs 63 0 sPair) (nbr (manyJobs 63 0 sPair) false false),
    meets (.nstat { z with d := 5, a := 4 }) (sreg 4 64 sM) fun c => decide ((c.s 4).toNat % 128 ≠ 0),
    meets (.nstat { z with d := 5, a := 4 }) (sreg 4 0x10000 sM) fun c => decide (c.tm.alloc < (c.s 4).toNat + 128),
    (let s := grp 3 (after (.st oM) (sreg 2 (winBase' + 80) sM))
     meets (.nstat { z with d := 5, a := 4 }) s fun c => s.mach.mustWait c.key c.grp .scratch (c.tm.phys c.core 80) 8),
    [⟨2, 0, false⟩, ⟨0, 0, false⟩].all fun v => plainIssue (.nstatEng { z with len := 2, fn := 1, d := 5 }) (leaveSt v)] := by decide +kernel

/-- The active job's next access is `q`; its answer, or its error. -/
def work (s : State) (P : NbrJob → NReq → Bool) : Bool := isJob s fun j => idle s j && s.mach.bad.isEmpty && asksOf j (P j)
def answers (s : State) (j : NbrJob) (va : W64) (n : Nat) (w : Bool) (P : Except Nat (List Piece) → Bool) : Bool := P (jobCheck s j va n w).1
def notFound : Except Nat (List Piece) → Bool | .error e => decide (e = 3) | _ => false
def forbidden : Except Nat (List Piece) → Bool | .error e => decide (e ≠ 3) | _ => false
def onePlace : Except Nat (List Piece) → Bool | .ok [p] => decide (p.space = .dev) | _ => false
/-- The bin job of one particle in one box of 1 by 1 by 1 cells, at work; the page of the grid is absent, or may not be written. -/
def sBinA : State := sAct true (scr 40 8 (2 ^ 10 * 3 + 3 * 2 ^ 20 + 3) sBin)
def gridVa (va : Nat) (s : State) : State := s.but fun m => m.modJob 0 0 fun j => { j with job := j.job.take 8 ++ leBytes 8 va ++ j.job.drop 16 }
theorem wit_NeighbourJobs_accesses : all [
    isJob (manyJobs 4 1 (sJob false sPair)) fun j => decide (j.st = 0 ∧ 4 ≤ (((manyJobs 4 1 (sJob false sPair)).mach.die 0).jobs.filter fun y => decide (y.st ≠ 0)).length),
    work (sAct true sBin) fun j q => match q with | .keep va _ => answers (sAct true sBin) j va 1 true onePlace | _ => false,
    (let s := gridVa 0x50000 (mem 0 8 0x2001 (sAct true sBin)); work s fun j q => match q with | .keep va _ => answers s j va 1 true notFound | _ => false),
    (let s := mem 0x818 8 0x15 (sAct true sBin); work s fun j q => match q with | .keep va _ => answers s j va 1 true forbidden | _ => false),
    (let s := gridVa 0x50000 (mem 0 8 0x2001 (sAct false sPair)); work s fun j q => match q with | .read va n => answers s j va n false notFound | _ => false),
    (let s := gridVa 0x50000 (sAct false sPair); work s fun j q => match q with | .read va n => answers s j va n false forbidden | _ => false),
    (let s := (sAct false sPair).but fun m => m.modJob 0 0 fun j => { j with failVa := some 0x10400 }
     isJob s fun j => idle s j && j.failVa.isSome && asksOf j fun _ => true),
    (let s := sTurns 16 (sAct false (mem 0x100400 8 1 sPair))
     [⟨2, 0, false⟩, ⟨0, 0, false⟩].all fun v => let s := inT (fun t => { t with leave := v }) s
       work s fun j q => (match q with | .leave => true | _ => false) && (s.mach.team? j.team).isSome)] := by decide +kernel

/-- EVPOST finds the in-tray full, or room in it; the control core runs; the address is not one of an instruction. -/
theorem wit_InTray_each : all [
    (let s := grp 3 (after (.st oM) sM)
     [.evpost { z with d := 6, a := 4 }, .evpostStart { z with len := 2, fn := 1, d := 6, a := 4 }].all fun i => meets i s fun c => !noOps s c),
    meets (.evpost { z with d := 6, a := 4 }) (inC (fun k => { k with tray := List.replicate 256 ⟨1, 2, 3⟩ }) s0) fun c => noOps s0 c,
    meets (.evpost { z with d := 6, a := 4 }) (inC (fun k => { k with tray := List.replicate 255 ⟨1, 2, 3⟩ }) s0) fun c => noOps s0 c,
    [2, 2 ^ 63].all fun x => meets (.evpostStart { z with len := 2, fn := 1, d := 6, a := 4 }) (sreg 4 (.ofNat 64 x) s0) fun c => noOps s0 c && !(canonical (c.s 4) && decide ((c.s 4).toNat % 4 = 0)),
    meets (.evpostStart { z with len := 2, fn := 1, d := 6, a := 4 }) (sreg 4 0x10000 s0) fun c => noOps s0 c && !c.ctl && canonical (c.s 4)] := by decide +kernel

/-- TAPEF's reads return, the last of them after the others. -/
def sTape : State := after (.tapef (oQ 0)) sK2
def tapes (s : State) (n : Nat) (last : Bool) : Bool := match s.mach.performable 0 n with
  | some (x, p) => (match p.kind with | .read _ => true | _ => false) && (match x.dest with | .tape _ => true | _ => false) && !x.counted &&
      !s.mach.damaged p.space p.addr p.size && (x.parts.all fun q => decide (q.lane = 0)) && (s.mach.bundle? x.key).isSome && dieScope s x &&
      (((x.parts.zipIdx.filter fun y => decide (y.2 ≠ n)).all fun y => y.1.done) == last)
  | none => false
theorem wit_Tapes_each : all [
    tapes sTape 0 false, tapes ((List.range 3).foldl (fun s k => after (.loadDataReturn 0 k false false) s) sTape) 3 true,
    meets (.tapef (oQ 0)) (crowd sK2) fun c => (crowd sK2).mach.trackerFull c.core ((List.range 4).map fun k => part 0 ⟨.dev, 0x100400 + 8 * k, 8, none, 0⟩ 0 (.read [])),
    [0, 1 + 2 ^ 47, 1, 2, 1 + 2 ^ 47 + 96 * 2 ^ 48].all fun n => performs (sDec n) 0 0 fun x p => (match p.kind with | .dec _ => true | _ => false) &&
      dieScope (sDec n) x && decide (p.size = 8) && !(sDec n).mach.damaged p.space p.addr 8] := by decide +kernel

/-- The control core's run stands at the slot; an acquire of its is outstanding. -/
def runK (s : State) : State := { s with mach := s.mach.setRun 0 (some ⟨128, 1#32, 0x10000, 0⟩) }
def acqK : State := sK2.but fun m => { m with ops := [{ aCrowd with key := 128, acq := true }] }
def dispAt (x : Nat) (s : State) (P : Ctx → Bool) : Bool := meets (.tdisp oD) (sregK 4 (.ofNat 64 x) s) P
theorem wit_Dispatch_each : all [
    dispAt (2 ^ 35) (sDsp 0) fun c => decide (fld (c.s 4) 63 35 ≠ 0), dispAt 0 (sDsp 0) fun c => decide ((c.tm.mail 0).stages = 0),
    dispAt (2 ^ 32 + 0xFFA0) (sDsp 0) fun c => decide (c.tm.alloc < fld (c.s 4) 31 0 + 32 * (c.tm.mail 1).stages),
    dispAt (2 ^ 32 + 0xFF80) (sDsp 0) fun c => decide (fld (c.s 4) 31 0 + 32 * (c.tm.mail 1).stages = c.tm.alloc ∧ (c.tm.mail 1).stages ≠ 0) && (c.tm.mail 1).canClaim,
    dispAt (2 ^ 32) (kbag 4 0 sK2) fun c => !(c.tm.mail 1).canClaim,
    (let s := runK (after (.st { oM with a := 2 }) (sregK 2 winBase' (sDsp (2 ^ 32))))
     dispAt (2 ^ 32) s fun c => s.mach.mustWait c.key c.grp .scratch (c.tm.phys c.core 0) 32),
    [(0, true), (2 ^ 31, false)].all fun e => (let s := inT (fun t => { t.setMail 1 { t.mail 1 with claim := 5, fill := .ofNat 32 (if e.2 then 2 ^ 32 - 1 else 0) } with disp := t.disp.map fun d => { d with n := 0 } }) sClm
      match s.mach.team? 0 with
      | some t => t.disp.any fun d => decide (2 ^ 31 ≤ ((t.mail 1).fill - BitVec.ofNat 32 d.n).toNat) == e.2
      | none => false)] := by decide +kernel

/-- LOCQ: an entry of the key, one of another, and no room in the cache. -/
theorem wit_Locations_each : all [
    (let s := grp 1 (after (.st { oM with a := 2, d := 8 }) (sLoc 0x12000 0))
     meets (.locq (oQ 0)) (runK s) fun c => s.mach.threadBusy c.key c.grp .dev),
    meets (.locq (oQ 0)) (sLoc 0x50000 0) fun c => locs (sLoc 0x50000 0) false c &&
      match (sLoc 0x50000 0).mach.check c.agent ⟨locAddr c ((sLoc 0x50000 0).mach.readBytes .dev 0x100400 32), 16, 16, true, false, false, false, .letter, .denied 0x24⟩ with | (.error _, _) => true | _ => false,
    meets (.locq (oQ 0)) (mem 0x100408 8 (4 + 2 ^ 8) (sLoc 0x12000 (2 ^ 32 + 9))) fun c => probe (sLoc 0x12000 (2 ^ 32 + 9)) true c && decide (nfld (fieldAt ((sLoc 0x12000 0).mach.readBytes .dev 0x100400 32) 8 8) 12 8 = 1) && decide ((c.s 4).setWidth 32 ≠ (9 : W32)),
    meets (.locqInv { z with len := 2, fn := 1, mods := 8 }) acqK fun c => acqK.mach.ops.any fun x => decide (x.key = c.key) && x.acq] := by decide +kernel

/-- The arrival word of a finished neighbour job may be reached, is not present, or is forbidden. -/
def arrives (va : Nat) (s : State) (P : Except Nat (List Piece) → Bool) : Bool :=
  let s := (sRecs [] s).but fun m => m.modJob 0 0 fun j => { j with job := j.job.take 20 ++ [4 + (j.job.getD 20 0 &&& 3)] ++ (j.job.drop 21).take 43 ++ leBytes 8 va ++ j.job.drop 72 }
  isJob s fun j => decide (j.st = 2 ∧ j.recs = [] ∧ j.arrFid = none ∧ j.arrFail = none) && nbArr j.job && (s.mach.team? j.team).isSome && s.mach.bad.isEmpty &&
    P (s.mach.check (s.mach.engineAgent j.team (s.mach.gridOfTeam j.team).asid (s.mach.gridOfTeam j.team).world 104) ⟨nbArrAddr j.job, 8, 8, false, true, false, false, .local_, .denied 0x24⟩).1
theorem wit_NeighbourArrivals : all [arrives 0x11000 sStage onePlace, arrives 0x50000 (mem 0 8 0x2001 sStage) notFound, arrives 0x11004 sStage forbidden,
    arrives 0x50000 sStage forbidden] := by decide +kernel

/-- What CLSTAT and CLABORT find; the group's registers are those of sGrp. -/
def clAt (i : Instr) (x : Nat) (s : State) (P : Ctx → Group → Bool) : Bool := meets i (sreg 4 (.ofNat 64 x) s) fun c => P c (s.mach.group (clGroup c))
theorem wit_Collectives_each : all ([Instr.clstat oCl, .clabort oCl].map fun i => [
    clAt i 1024 (sGrp true s0) fun c _ => decide (1023 < clGroup c), clAt i 1 (sGrp true s0) fun _ g => !bitAt g.gctl 63,
    clAt i 0 ((sGrp true s0).but fun m => m.setGroup 0 { grp0 true with gctl := 2 ^ 63 + 2 ^ 62 + 2 }) fun c g => bitAt g.gctl 62 && !c.g.world,
    clAt i (4 * 2 ^ 32) (sGrp true s0) fun c g => decide ((clSeq c - g.cur + 16).toNat = 20),
    clAt i (3 * 2 ^ 32) (sGrp true s0) fun c g => decide ((clSeq c - g.cur).toNat = 3 ∧ (clSeq c - g.cur + 16).toNat = 19),
    clAt i ((2 ^ 32 - 16) * 2 ^ 32) (sGrp true s0) fun c g => decide ((clSeq c - g.cur + 16).toNat = 0 ∧ 4 ≤ (clSeq c - g.cur).toNat) && (s0.mach.inst? 0 (clSeq c)).isNone,
    clAt i 0 (sInst (anInst 2) (sGrp true s0)) fun c _ => ((sInst (anInst 2) (sGrp true s0)).mach.inst? 0 (clSeq c)).any fun x => decide (x.st ≠ 4) && x.ops.isEmpty].all id) := by decide +kernel

/-- A chunk of grid 0: stale, of a held group, before its turn, not reachable, without leave, and with it. -/
def dueAt (s : State) (P : Grid → Due → Group → Bool) : Bool := match s.mach.grid? 0 with
  | some g => g.due.any fun d => P g d (s.mach.group g.binding.1)
  | none => false
theorem wit_Chunks : all [
    dueAt (sInst (anInst 4) (sFire 2 s0)) fun g _ _ => (((sInst (anInst 4) (sFire 2 s0)).mach.inst? g.binding.1 g.binding.2).any fun x => decide (x.st = 4)),
    dueAt ((sFire 2 s0).but fun m => m.setGroup 0 { grp0 true with cur := 1 }) fun g _ gr => decide (4 ≤ (g.binding.2 - gr.cur).toNat),
    dueAt ((sFire 2 s0).but fun m => m.setGroup 0 { grp0 true with gctl := 2 ^ 63 + 2 ^ 61 + 2 }) fun g _ gr => bitAt gr.gctl 61 && decide ((g.binding.2 - gr.cur).toNat < 4),
    dueAt ((sFire 2 s0).but fun m => m.setGroup 0 { grp0 true with cur := 2 ^ 32 - 1 }) fun g _ gr => decide (g.binding.2 ≠ gr.cur ∧ (g.binding.2 - gr.cur).toNat < 4),
    dueAt (inG (fun g => { g with coll := [0, 0x50000, 0x12000, 1 + 65536] }) (sFire 2 s0)) fun g _ _ => (match (inG (fun g => { g with coll := [0, 0x50000, 0x12000, 1 + 65536] }) (sFire 2 s0)).mach.chunkSpans g 0 with | (.error _, _) => true | _ => false),
    [0, 1, 2].all fun n => dueAt (sFire n s0) fun g d gr => decide (d.leave.st = n ∧ g.binding.2 = gr.cur ∧ 2 ≤ fld gr.gctl 14 0) && (match (sFire n s0).mach.chunkSpans g 0 with | (.ok _, _) => true | _ => false),
    decide (nfld 0 33 32 = 0 ∧ nfld (2 ^ 32) 33 32 ≠ 0)] := by decide +kernel

/-- Segments: dropped, early, of no chunk, reduced on the way, complete and last. -/
def segOf (rank : Nat) (last : Bool) : Segment := ⟨0, 0, 0, rank, 2, 1, last, 0, List.replicate 32 0⟩
def sTwoM (rx : Nat) : State := sInst { anInst 2 with chunks := [aChunk rx], unacked := 1 } (sGrp true s0)
def awaits (s : State) (e : Segment) (P : Inst → Chunk → Nat → Bool) : Bool :=
  let n := fld (s.mach.group e.group).gctl 14 0
  (s.mach.inst? e.group e.seq).any fun x => decide (x.st = 2) && x.chunks.any fun c => decide (c.idx = e.chunk ∧ e.nmem = n ∧ e.nchunk = x.nchunk ∧
    (e.seg, e.complete) = c.expects (fld (s.mach.group e.group).gctl 29 16) n ∧ e.vals.length = (c.segVals x.n n e.seg).length ∧ e.seg < c.marks.length) && P x c n
theorem wit_Segments : all [
    awaits sFour ⟨0, 0, 0, 3, 4, 1, false, 0, List.replicate 16 0⟩ fun _ c n => decide (c.rx + 2 < n),
    (let e := segOf ((aChunk 0).expects 0 2).1 ((aChunk 0).expects 0 2).2; awaits (sTwoM 0) e fun _ c n => decide (n ≤ c.rx + 2 ∧ c.rx + 1 < 2 * (n - 1) ∧ c.dst.length = 1)),
    (let e := segOf ((aChunk 1).expects 0 2).1 ((aChunk 1).expects 0 2).2; awaits (sTwoM 1) e fun x c n => decide (n ≤ c.rx + 2 ∧ c.rx + 1 = 2 * (n - 1) ∧ c.dst.length = 1 ∧ c.arr = none ∧ x.unacked ≠ 0)),
    !bitAt (s0.mach.group 0).gctl 63, (sInst (anInst 3) (sGrp true s0)).mach.insts.all fun x => decide (3 ≤ x.st),
    (sInst (anInst 2) (sGrp true s0)).mach.insts.all fun x => decide (x.st = 2 ∧ x.ops = [] ∧ x.nchunk ≤ 3) && x.chunks.any (fun c => decide (c.port = 0))] := by decide +kernel

theorem wit_Launch_each : all [
    meets (.launch oLn) (inG (fun g => { g with depth := 10 }) sM) fun c => (launchLead c).isSome && decide (c.g.depth = 10),
    (let s := grp 3 (after (.st oM) (record 0x100400 1 0 0 sM)); meets (.launch oLn) s fun c => !noOps s c && decide (c.g.depth ≠ 10)),
    meets (.launch oLn) { record 0x100400 1 0 0 sM with mach := { (record 0x100400 1 0 0 sM).mach with grids := (record 0x100400 1 0 0 sM).mach.grids } } fun c => decide ((record 0x100400 1 0 0 sM).mach.deviceGrids < 65536 ∧ c.g.depth ≠ 10) && bitAt s0.mach.desk.astbase 0,
    decide (State.reset.boot.state ≠ 3), decide ((sQueue s0).mach.observe.nextQueue ≠ some 1), !(mem 0x100400 8 (2 ^ 32) s0).mach.guardMet (some 0x100400)] := by decide +kernel

/-- Where a team finds no room, and where it does; a bundle not over. -/
theorem wit_Teams_each : all [
    (inG (fun g => { g with diemask := 0 }) sPlace).mach.grids.all fun p => p.2.all fun g => (List.range 384).all fun k => !g.diemask.testBit (k / 96),
    (match sPlace.mach.grid? 0 with
      | some g => g.diemask.testBit 0 && decide (g.next < g.gx * g.gy * g.gz ∧ (sPlace.mach.core 0).world = g.world ∧ sPlace.mach.frames = []) && (sPlace.mach.freeRun 0 g.scr).isSome &&
          decide (sPlace.mach.team? 0 = none ∧ sPlace.mach.freeTeam 0 = some 0) && (sPlace.mach.freeTiles 0 g.tiles).isSome
      | none => false),
    (s0.mach.bundle? 0).any fun b => !s0.mach.freeable 0 b && !s0.mach.teamDone 0,
    (let s := inB (fun b => { b with lanes := [] }) (noRuns s0); (s.mach.bundle? 0).any fun b => s.mach.freeable 0 b),
    (let s := { noRuns s0 with mach := (noRuns s0).mach.setBundle 0 none }; s.mach.teamDone 0 && (s.mach.team? 0).any fun x => x.disp.isEmpty),
    (noRuns (inB (fun b => { b with marks := [{ aMark with held := false }] }) s0)).mach.bundles.any fun p => p.2.any fun b => b.looseMark.isSome,
    (noRuns (inB (fun b => { b with stepped := 1, trap := { b.trap with dbgctl := 1 } }) s0)).mach.bundles.any fun p => p.2.any fun b => b.looseMark.isNone && decide (b.stepped ≠ 0) && bitAt b.trap.dbgctl 0,
    ((noRuns s0).mach.bundle? 0).any fun b => decide ((b.ready ((noRuns s0).mach.barred 0 b)).getLsbD 0 = true ∧ b.hand = none ∧ b.waiting = false ∧ b.filing = false) && (noRuns s0).mach.unheld 0 b,
    ((noRuns sH).mach.bundle? 0).any fun b => b.hand.isSome && b.hwait.isNone && (noRuns sH).mach.unheld 0 b] := by decide +kernel

/-- Work that must wait for room, or for older work; a team whose frame is whole, and one that is not. -/
def wholeF : Frame := { aFrame with whole := true, key := 1, order := 1, team := some placeTeam }
def sWhole (s : State) : State := { s with mach := { s.mach with frames := [wholeF] } }
theorem wit_Restores_each : all [
    (let s := sFrm { aFrame with order := 2 }; let s : State := { s with mach := { s.mach with frames := aFrame :: s.mach.frames } }
     s.mach.frames.any fun x => decide (x.order < 2 ∧ x.die = aFrame.die ∧ x.sid = none) && s.mach.frameFits x),
    !(inG (fun g => { g with regs := 4096 }) (sFrm aFrame)).mach.frameFits aFrame,
    (let s := sWhole sPlace
     s.mach.frameFits wholeF && (s.mach.grid? 0).any fun g => s.mach.teamBad wholeF g placeTeam.nb && (s.mach.freeRun 0 g.scr).isSome && (s.mach.freeTiles 0 g.tiles).isSome && g.coll.isEmpty),
    (sFrm aFrame).mach.frames.all fun f => decide (f.sid ≠ some 7)] := by decide +kernel

/-- SWRP: values that may not stand in TVBASE, DBGCTL and TPC; a HALT whose save pool is full. -/
theorem wit_Handlers_each : all [
    [(0x80, 2), (0x80, 2 ^ 55), (0x81, 2), (0x82, 2)].all fun e => meets (.swrpWr { z with fn := 1, d := 5, mods := .ofNat 13 e.1 }) (inR (fun r => r.setW 5 (.ofNat 64 e.2)) sH) fun c =>
      match e.1 with | 0x80 => decide (fld (c.s 5) 11 1 ≠ 0 ∨ (fld (c.s 5) 63 55 ≠ 0 ∧ fld (c.s 5) 63 55 ≠ 511)) | 0x81 => decide (fld (c.s 5) 63 1 ≠ 0) | _ => decide (fld (c.s 5) 1 0 ≠ 0),
    [(0x80, 0x20001), (0x81, 1), (0x82, 0x10004), (3, 7)].all fun e => meets (.swrpWr { z with fn := 1, d := 5, mods := .ofNat 13 e.1 }) (inR (fun r => r.setW 5 (.ofNat 64 e.2)) sH) fun c => decide (c.s 5 = .ofNat 64 e.2),
    meets (.halt z) s0 fun c => decide (c.b.count 1 = 0) && !bitAt s0.mach.desk.stqbase 1,
    (let s : State := { sStq with mach := { sStq.mach with desk := { sStq.mach.desk with svsize := [] } } }
     meets (.halt z) s fun c =>
      let m := (c.step (c.leaveResume s.mach)).closeRun c.q c.run c.nextPc
      m.maySaveTeam c.tk (fun k b => m.settled k b || (m.heldAtHalt k b).isSome) && ((m.passHalts c.tk).saveTeam c.tk (some s.mach.desk.sid)).isNone)] := by decide +kernel

/-- A trap of a team with an enabled stop queue; the only bundle waits on a fault, and the resumption fails; an invalidation waits. -/
def sFlt : State := (inB (fun b => { b with fault := some (9, aTrap) }) (noRuns sRdy)).but fun m => { m with frames := [], copies := [], dies := [] }
theorem wit_Host_each : all [
    decide (sStq.mach.desk.stqwait = [] ∧ (sStq.mach.core 0).mx = [] ∧ (sStq.mach.desk.stqtail - sStq.mach.desk.stqhead).toNat < 2 ^ fld sStq.mach.desk.stqsize 4 0) && bitAt sStq.mach.desk.stqbase 1,
    bitAt (2 ^ 32 + 9 : W64) 32 && decide (((2 ^ 32 + 9 : W64).setWidth 32 : W32) = 9 ∧ sFlt.boot.state = 3) && (match sFlt.mach.bundles with | [(_, some b)] => b.fault.isSome | _ => false),
    (let s := after (.tlbinvc 0x400) sRdy
     let s : State := { s with mach := { s.mach with ops := (after (.st oM) sM).mach.ops } }
     bitAt s.mach.desk.tlbinvc 63 && s.mach.invBusy),
    decide (fld (0x600 : W64) 11 8 = 6 ∧ fld (0x500 : W64) 11 8 < 6),
    decide (1000 ≤ fld (1000 : W64) 12 0 ∧ fld (4201 : W64) 12 0 > 4200),
    decide (sRdy.mach.desk.fqwait = [] ∧ sRdy.mach.desk.elwait = []), decide (sRdy.boot.mbBusy = false),
    decide ((sRdy.mach.group 5).gctl = 0)] := by decide +kernel

theorem wit_Power_each : all [
    decide ((later 100000000 s0).mach.clk / (10 * Config.usCycles) > s0.boot.divided / (10 * Config.usCycles)),
    (let s := later 100000000 (leaveSt ⟨1, 0, false⟩); decide ((s.mach.requests 0).length = 1 ∧ (s.mach.requests 1).length = 0)),
    (let s : State := { State.reset with boot := { State.reset.boot with state := 1, fuse := 5 } }; decide ((4 : W64).toNat < s.boot.fuse.toNat ∧ s.boot.state = 1)),
    State.reset.mach.linkUp] := by decide +kernel

/-- A first word that cannot be fetched; words that are no instruction; an instruction of old and new blocks. -/
theorem wit_Steps_each : all [
    (match ctxOf (mem 0x818 8 0x0D s0) z with
      | some c => decide (c.grp ≠ 0) && match (mem 0x818 8 0x0D s0).mach.check c.agent ⟨c.pc, 4, 4, false, false, true, false, .fetch, .allowed⟩ with
        | (.error e, _) => decide (e ≠ 3) | _ => false
      | none => false),
    (ctxOf (noRuns s0) z).isNone,
    (match decodeWords [0xFFFFFFFF] with | .error _ => true | .ok _ => false),
    (s0.mach.mixed [(0, List.replicate 64 0, 1), (1, List.replicate 64 0, 2)]).1,
    !(s0.mach.mixed [(0, List.replicate 64 0, 0), (1, List.replicate 64 0, 1)]).1,
    (opnOf (.tlbinvComplete)).isNone] := by decide +kernel

theorem wit_StepsKeepTheInvariants : State.reset.BootInv ∧ State.reset.MemInv ∧ ∃ t, step State.reset = .next t :=
  ⟨by constructor <;> decide, by unfold State.MemInv; decide, _, rfl⟩

/-! ## Decoding: one word for each row, written out from the spec's tables of encodings (R22 to R25, R39, and the layouts of the chapters) -/

def reads (ws : List (Nat × Instr)) : Bool := ws.all fun e => decide (decodeTableWord 32 e.1 = some e.2)

theorem test_decode_control : reads
    [(0x00000000, .nop z), (0x0027FFFB, .bra { z with mp := 3, mn := true, imm := -20, mods := 1 }), (0x00400307, .brx { z with a := 6, b := 7 }),
      (0x0067FFFB, .call { z with mp := 3, mn := true, imm := -20, mods := 1 }), (0x00870000, .ret { z with mp := 3, mn := true }),
      (0x00A70000, .exit { z with mp := 3, mn := true }), (0x00C0C000, .jenrol { z with d := 3 }), (0x00E0C000, .jwait { z with d := 3 }),
      (0x01014300, .jmov { z with d := 5, a := 6 }), (0x01210300, .reform { z with mods := 4, a := 6 }),
      (0x01414300, .matchKeys { z with d := 5, a := 6 }), (0x01614307, .compact { z with d := 5, a := 6, b := 7 })] = true := by decide +kernel

theorem test_decode_scalar : reads
    [(0x01814307, .sadd { z with d := 5, a := 6, b := 7 }), (0x01A14307, .ssub { z with d := 5, a := 6, b := 7 }),
      (0x01C14307, .smul { z with d := 5, a := 6, b := 7 }), (0x01E14307, .smulh { z with d := 5, a := 6, b := 7 }),
      (0x02014307, .sand { z with d := 5, a := 6, b := 7 }), (0x02214307, .sor { z with d := 5, a := 6, b := 7 }),
      (0x02414307, .sxor { z with d := 5, a := 6, b := 7 }), (0x02614307, .sshl { z with d := 5, a := 6, b := 7 }),
      (0x02814307, .sshr { z with d := 5, a := 6, b := 7 }), (0x02A14307, .ssar { z with d := 5, a := 6, b := 7 }),
      (0x02C14307, .smin { z with d := 5, a := 6, b := 7 }), (0x02E14307, .smax { z with d := 5, a := 6, b := 7 }),
      (0x03014307, .sset { z with d := 5, a := 6, b := 7 }), (0x03214307, .ssel { z with d := 5, a := 6, b := 7 }),
      (0x0341407F, .sli { z with d := 5, b := 127 }), (0x03614300, .smov { z with d := 5, a := 6 }), (0x03814009, .srd { z with d := 5, b := 9 }),
      (0x03A00309, .swr { z with a := 6, b := 9 }), (0x03C14307, .plog { z with d := 5, a := 6, b := 7 })] = true := by decide +kernel

theorem test_decode_vector : reads
    [(0x04014307, .vadd { z with d := 5, a := 6, b := 7 }), (0x04214307, .vsub { z with d := 5, a := 6, b := 7 }),
      (0x04414307, .vmul { z with d := 5, a := 6, b := 7 }), (0x04614307, .vmulh { z with d := 5, a := 6, b := 7 }),
      (0x04814307, .vmad { z with d := 5, a := 6, b := 7 }), (0x04A14307, .vand { z with d := 5, a := 6, b := 7 }),
      (0x04C14307, .vor { z with d := 5, a := 6, b := 7 }), (0x04E14307, .vxor { z with d := 5, a := 6, b := 7 }),
      (0x05014307, .vshl { z with d := 5, a := 6, b := 7 }), (0x05214307, .vshr { z with d := 5, a := 6, b := 7 }),
      (0x05414307, .vsar { z with d := 5, a := 6, b := 7 }), (0x05614307, .vmin { z with d := 5, a := 6, b := 7 }),
      (0x05814307, .vmax { z with d := 5, a := 6, b := 7 }), (0x05A14300, .vabs { z with d := 5, a := 6 }),
      (0x05C14307, .vcmp { z with d := 5, a := 6, b := 7 }), (0x06014007, .vmov { z with d := 5, b := 7 }),
      (0x06214300, .vpopc { z with d := 5, a := 6 }), (0x06414300, .vclz { z with d := 5, a := 6 }),
      (0x06614300, .vbrev { z with d := 5, a := 6 }), (0x06814307, .vbfe { z with d := 5, a := 6, b := 7 }),
      (0x06A14307, .vbfi { z with d := 5, a := 6, b := 7 }), (0x06C14307, .vmix3 { z with d := 5, a := 6, b := 7 }),
      (0x06E14300, .vcvt { z with d := 5, a := 6 }), (0x07014307, .vadds { z with d := 5, a := 6, b := 7 }),
      (0x07214307, .vsubs { z with d := 5, a := 6, b := 7 }), (0x0741407F, .vli { z with d := 5, b := 127 })] = true := by decide +kernel

theorem test_decode_float : reads
    [(0x08014307, .fadd { z with d := 5, a := 6, b := 7 }), (0x08214307, .fsub { z with d := 5, a := 6, b := 7 }),
      (0x08414307, .fmul { z with d := 5, a := 6, b := 7 }), (0x08614307, .ffma { z with d := 5, a := 6, b := 7 }),
      (0x08814307, .fmin { z with d := 5, a := 6, b := 7 }), (0x08A14307, .fmax { z with d := 5, a := 6, b := 7 }),
      (0x08C14307, .fcmp { z with d := 5, a := 6, b := 7 }), (0x08E14300, .fclass { z with d := 5, a := 6 }),
      (0x09014300, .frint { z with d := 5, a := 6 }), (0x09214300, .fcvt { z with d := 5, a := 6 }), (0x09414300, .icvt { z with d := 5, a := 6 }),
      (0x09614300, .fcvti { z with d := 5, a := 6 }), (0x09814307, .fscale { z with d := 5, a := 6, b := 7 }),
      (0x09A14300, .fexpn { z with d := 5, a := 6 }), (0x09C14300, .fexpf { z with d := 5, a := 6 }),
      (0x09E14300, .flog2 { z with d := 5, a := 6 }), (0x0A014300, .frcp { z with d := 5, a := 6 }), (0x0A214300, .frsq { z with d := 5, a := 6 }),
      (0x0A414300, .fsqrt { z with d := 5, a := 6 }), (0x0A614300, .fsin { z with d := 5, a := 6 }), (0x0A814300, .fcos { z with d := 5, a := 6 }),
      (0x0AA14300, .ftanh { z with d := 5, a := 6 }), (0x0AC14307, .fsgn { z with d := 5, a := 6, b := 7 }),
      (0x0AE14300, .fkey { z with d := 5, a := 6 })] = true := by decide +kernel

theorem test_decode_crossLane : reads
    [(0x0C014307, .xshf { z with d := 5, a := 6, b := 7 }), (0x0C214307, .xrot { z with d := 5, a := 6, b := 7 }),
      (0x0C414307, .xbcst { z with d := 5, a := 6, b := 7 }), (0x0C614300, .xbal { z with d := 5, a := 6 }),
      (0x0C814307, .xbcnt { z with d := 5, a := 6, b := 7 }), (0x0CA14300, .xred { z with d := 5, a := 6 }),
      (0x0CC14300, .xscan { z with d := 5, a := 6 }), (0x0CE14307, .xmov { z with d := 5, a := 6, b := 7 })] = true := by decide +kernel

theorem test_decode_memory : reads
    [(0x0D016512, .ld { z with d := 5, a := 10, la := 2, mods := 10 }), (0x0D216502, .st { z with d := 5, a := 10, mods := 10 }),
      (0x0D416512, .lda { z with d := 5, a := 10, la := 2, mods := 10 }), (0x0D616502, .stl { z with d := 5, a := 10, mods := 10 }),
      (0x0D816513, .atom { z with d := 5, a := 10, la := 2, mods := 11 }), (0x0DB00000, .fence { z with mods := 8 }),
      (0x0DC14300, .tagl { z with d := 5, a := 6 }), (0x0DE14307, .tagi { z with d := 5, a := 6, b := 7 }),
      (0x0E014300, .tagx { z with d := 5, a := 6 }), (0x0E200000, .ifence z), (0x0E402500, .prf { z with a := 10, mods := 8 })] = true := by decide +kernel

theorem test_decode_remote : reads
    [(0x0F016503, .radd { z with d := 5, a := 10, mods := 11 }), (0x0F216503, .rmin { z with d := 5, a := 10, mods := 11 }),
      (0x0F416503, .rmax { z with d := 5, a := 10, mods := 11 }), (0x0F616503, .ror { z with d := 5, a := 10, mods := 11 }),
      (0x0F816502, .ronce { z with d := 5, a := 10, mods := 10 }), (0x0FA02503, .rarr { z with a := 10, mods := 11 }),
      (0x0FC16502, .rget { z with d := 5, a := 10, mods := 10 }), (0x0FE16514, .accrd { z with d := 5, a := 10, la := 2, mods := 12 }),
      (0x10016503, .accdef { z with d := 5, a := 10, mods := 11 }), (0x10216503, .arrwait { z with d := 5, a := 10, mods := 11 })] = true := by decide +kernel

theorem test_decode_meetings : reads
    [(0x11014300, .mopen { z with d := 5, a := 6 }), (0x11214307, .mpost { z with d := 5, a := 6, b := 7 }),
      (0x11400300, .marr { z with a := 6 }), (0x11614300, .mwait { z with d := 5, a := 6 }), (0x11814300, .mstat { z with d := 5, a := 6 }),
      (0x11A00300, .mrel { z with a := 6 }), (0x11C14300, .mclose { z with d := 5, a := 6 })] = true := by decide +kernel

theorem test_decode_copies : reads
    [(0x120731C8, .cpy { z with a := 6, b := 7, c := 4, mods := 1792 }), (0x122731C8, .cpym { z with a := 6, b := 7, c := 4, mods := 1792 }),
      (0x12414300, .cpoll { z with d := 5, a := 6 }), (0x12614300, .csleep { z with d := 5, a := 6 })] = true := by decide +kernel

theorem test_decode_gather : reads
    [(0x13014307, .gld { z with d := 5, a := 6, b := 7 }), (0x13214307, .gsc { z with d := 5, a := 6, b := 7 }),
      (0x13414307, .nzscan { z with d := 5, a := 6, b := 7 }), (0x13614300, .hset { z with d := 5, a := 6 }), (0x13800000, .ginv z)] = true := by decide +kernel

theorem test_decode_matrix : reads
    [(0x1407D867, .mxp { z with d := 11, a := 6, b := 7, mods := 1920 }), (0x14278006, .mxd { z with a := 6, mods := 1920 }),
      (0x14414307, .ldt { z with d := 5, a := 6, b := 7 }), (0x14614300, .unpk { z with d := 5, a := 6 }),
      (0x14814307, .accmv { z with d := 5, a := 6, b := 7 }), (0x14A16500, .mxsave { z with d := 5, a := 10, mods := 8 }),
      (0x14C16500, .mxload { z with d := 5, a := 10, mods := 8 }), (0x14E00300, .mxclr { z with a := 6 }), (0x15014000, .mxstat { z with d := 5 })] = true := by decide +kernel

theorem test_decode_neighbours : reads
    [(0x16000300, .nbin { z with a := 6 }), (0x16200300, .npair { z with a := 6 }), (0x16204300, .npairRes { z with fn := 1, a := 6 }),
      (0x16414300, .nstat { z with d := 5, a := 6 })] = true := by decide +kernel

theorem test_decode_launchAndSync : reads
    [(0x17014300, .launch { z with d := 5, a := 6 }), (0x17270007, .bar { z with b := 7, mods := 19 }),
      (0x17414300, .barv { z with d := 5, a := 6 }), (0x17615000, .mbwait { z with d := 5, mods := 2 }),
      (0x17801000, .mbfill { z with mods := 2 }), (0x17A01000, .mbfree { z with mods := 2 }), (0x17D00024, .waitk { z with mods := 4, imm := 9 }),
      (0x17E00000, .yield z), (0x18000300, .sleep { z with a := 6 }), (0x18214000, .pwrq { z with d := 5 })] = true := by decide +kernel

theorem test_decode_controlCore : reads
    [(0x19014000, .evget { z with d := 5 }), (0x19214300, .evpost { z with d := 5, a := 6 }),
      (0x19416500, .tapef { z with d := 5, a := 10, mods := 8 }), (0x19616503, .tdec { z with d := 5, a := 10, mods := 11 }),
      (0x19814307, .tdisp { z with d := 5, a := 6, b := 7 }), (0x19A16500, .locq { z with d := 5, a := 10, mods := 8 })] = true := by decide +kernel

theorem test_decode_collectives : reads
    [(0x1A014300, .clstat { z with d := 5, a := 6 }), (0x1A214300, .clabort { z with d := 5, a := 6 }), (0x1A400300, .clstep { z with a := 6 })] = true := by decide +kernel

theorem test_decode_traps : reads
    [(0x1B070004, .trap { z with mp := 3, mn := true, imm := 4 }), (0x1B263800, .tret { z with a := 6, b := 7 }),
      (0x1B400004, .bkpt { z with imm := 4 }), (0x1B600000, .halt z), (0x1B814009, .swrpRd { z with d := 5, mods := 9 }),
      (0x1B816009, .swrpWr { z with fn := 1, d := 5, mods := 9 })] = true := by decide +kernel

/-- Extended forms with a function code, and FCVT's two (R122, R123): the base word, and zeros. -/
def fnWord (opc fn : Nat) : Nat := 2 ^ 31 + opc * 2 ^ 21 + fn * 2 ^ 13
theorem test_decode_functions :
    ([(0x49, 1, (.fcvtBlk : Opn → Instr)), (0x49, 2, .fcvtDec), (0x7C, 1, .ronceRow), (0x80, 1, .accdefFree), (0x80, 2, .accdefStep), (0x80, 3, .accdefQuery),
      (0xA7, 1, .mxclrLatch), (0xB1, 1, .npairRes), (0xB2, 1, .nstatEng), (0xBA, 1, .barvSelf), (0xBF, 1, .yieldGrp), (0xC1, 1, .pwrqRel),
      (0xC9, 1, .evpostStart), (0xC9, 2, .evpostStat), (0xC9, 3, .evpostHpc), (0xC9, 4, .evpostDrop), (0xCD, 1, .locqInv), (0xD2, 1, .clstepRd),
      (0xDC, 1, .swrpWr), (0xDC, 2, .swrpSb)] : List (Nat × Nat × (Opn → Instr))).all
      (fun e => decide (decodeTableWord 32 (fnWord e.1 e.2.1) = some (e.2.2 { z with len := 2, fn := .ofNat 8 e.2.1 }))) = true := by decide +kernel

def words (ws : List Nat) : Nat := ws.foldr (fun w n => w + 2 ^ 32 * n) 0
/-- The spec's worked words (R42 and the tables of encodings of the chapters). -/
def worked (ws : List (List Nat × Instr)) : Bool := ws.all fun e => decide (decodeTableWord (32 * e.1.length) (words e.1) = some e.2)
theorem test_decode_worked : worked
    [([0x1FE00D20, 0x0802858C], .fadd { z with pre := true, mp := 3, zm := true, rm := 1, d := 10, a := 11, b := 12 }),
      ([0x88600000, 0x4B001838, 0x961452BC], .ffma { z with len := 2, d := 1200, a := 1300, b := 1400, c := 1200, rm := 3, ty := 7 }),
      ([0xC8000000, 0x80000021, 0x00200801, 0x08000000, 0x04000800], .sweep 0x40 { z with len := 3, d := 1, a := 2, b := 3, ty := 4, xf := 1, imm := 0x0400080008000000 }),
      ([0x00267FFB], .bra { z with mp := 3, imm := -20 }), ([0x83004000, 0x80000018, 0x00A01803], .sset { z with len := 2, fn := 2, d := 5, a := 6, b := 7, ty := 3 }),
      ([0x83C0000E, 0, 0x00600401], .plog { z with len := 2, mods := 14, d := 3, a := 1, b := 2 }),
      ([0x4740C000, 0x3F800000, 0], .vli { z with len := 1, d := 3, imm := 0x3F800000 }),
      ([0x8A400000, 0x00000120, 0x02805400], .fsqrt { z with len := 2, d := 20, a := 21, la := 2, ty := 4 }),
      ([0x1FE08000, 0x05E3068E], .vsel { z with pre := true, c := 2, d := 12, a := 13, b := 14 }),
      ([0x1FE50001, 0x0865058C], .ffma { z with pre := true, sb := true, c := 20, d := 20, a := 11, b := 12 }),
      ([0x80402000, 0x80000000, 0x00002402], .brx { z with len := 2, fn := 1, a := 9, b := 5 })] = true := by decide +kernel
theorem test_decode_worked_systems : worked
    [([0x8C006081, 0, 0x01602800], .xshf { z with len := 2, fn := 3, mods := 0x81, d := 11, a := 10 }),
      ([0x4D016202, 0x40, 0], .ld { z with len := 1, mods := 10, d := 5, a := 4, imm := 0x40 }),
      ([0x8D80415A, 0x80000008, 0x01200803], .atom { z with len := 2, fn := 2, mods := 0x15A, d := 9, a := 2, b := 7, ty := 1 }),
      ([0x8F80204B, 0x00500000, 0x00602802], .ronceRow { z with len := 2, fn := 1, mods := 0x4B, d := 3, a := 10, b := 4, c := 5 }),
      ([0x93004000, 0x00000100, 0x02800C03], .gld { z with len := 2, fn := 2, d := 20, a := 3, b := 6, la := 2 }),
      ([0x94402001, 0x80000000, 0x04001002], .ldt { z with len := 2, fn := 1, mods := 1, d := 32, a := 4, b := 5 }),
      ([0x97402003, 0, 0x00E00000], .barvSelf { z with len := 2, fn := 1, mods := 3, d := 7 }),
      ([0x17250006], .bar { z with mods := 18, b := 6 }), ([0x17C8000C], .waitk { z with mods := 2, imm := 3 })] = true := by decide +kernel

/-- R40, R41, R33: an unassigned opcode, a length that an opcode does not have, a reserved bit, a prefix before an opcode that takes none. -/
theorem test_decode_rejects :
    ([(32, 0x03E00000), (96, 0x40000000), (32, 0x17200080), (64, words [0x1FE00001, 0x01814307])].all fun e => (decodeTableWord e.1 e.2).isNone) = true := by
  decide +kernel

/-! ## Well-formed instructions: an ill-formed term for each check -/

theorem test_wf_accepts : ([.sadd { z with d := 5 }, .bra { z with imm := -20 }, .nop z, .runSelect 0] : List Instr).all Instr.wf = true := by decide +kernel
/-- R39: NOP has no literal. -/
theorem test_wf_length : (Instr.nop { z with len := 1 }).wf = false := by decide
/-- R33: a scalar instruction takes no prefix; a prefix holds a C of 7 bits, and no broadcast of a literal; without one there is no broadcast. -/
theorem test_wf_prefix :
    ([.sadd { z with pre := true }, .vadd { z with pre := true, c := 128 }, .vadd { z with pre := true, len := 1, sb := true }, .vadd { z with sb := true }] :
      List Instr).all (fun i => !i.wf) = true := by decide +kernel
/-- R29, R30: a bare base form has no rounding mode and no zeroing. -/
theorem test_wf_bare : ([.fadd { z with rm := 1 }, .fadd { z with zm := true }] : List Instr).all (fun i => !i.wf) = true := by decide +kernel
/-- R25, R31: a base form has no type and no extended function; an extended form no prefix. -/
theorem test_wf_extended : ([.vadd { z with ty := 4 }, .vadd { z with xf := 1 }, .vadd { z with len := 2, pre := true }] : List Instr).all (fun i => !i.wf) = true := by
  decide +kernel
/-- R22, R83: a literal where the form has none; a branch offset out of reach; a code of more than 16 bits. -/
theorem test_wf_literal :
    ([.vadd { z with imm := 1 }, .vadd { z with len := 2, imm := 1 }, .bra { z with imm := 2 ^ 20 }, .bra { z with imm := 2 }, .trap { z with imm := 65536 }] :
      List Instr).all (fun i => !i.wf) = true := by decide +kernel
/-- R23, R24: fields of a base form that its layout does not hold. -/
theorem test_wf_fields :
    ([.sadd { z with d := 128 }, .ld { z with a := 3 }, .ld { z with mods := 16 }, .bra { z with d := 1 }, .trap { z with mods := 1 }, .fence { z with mods := 16 },
      .cpy { z with a := 32 }, .mxp { z with d := 16 }, .mxd { z with b := 1 }, .bar { z with mods := 32 }, .mbwait { z with a := 1 }, .waitk { z with mods := 8 },
      .tret { z with b := 32 }, .swrpRd { z with mods := 512 }, .npair { z with d := 1 }, .reform { z with mods := 128 }] : List Instr).all (fun i => !i.wf) = true := by
  decide +kernel
/-- R26, R34: operands that stand for another instruction of the table. -/
theorem test_wf_constructor :
    ([.ronceRow { z with mods := 8 }, .npair { z with fn := 1 }, .sweep 0x40 { z with len := 3 }, .vadd { z with len := 3, xf := 1 }] : List Instr).all (fun i => !i.wf) = true := by
  decide +kernel

/-! ## One step each, on values worked out from the spec's rules -/

def sv (i : Instr) (s : State) (n : Nat) : W64 := (after i s).regs 0 |>.getS n
def vv (i : Instr) (s : State) (n l : Nat) : W32 := (after i s).regs 0 |>.getV n l
def sd (a b : W64) : State := sreg 4 a (sreg 5 b s0)
def oS : Opn := { z with d := 3, a := 4, b := 5 }
/-- R74: sums wrap, a product keeps its low half, its high half is signed, and a shift by 64 or more leaves zero, or the sign. -/
theorem test_scalar_wraps :
    (sv (.sadd oS) (sd (2 ^ 64 - 1) 2) 3 = 1 ∧ sv (.ssub oS) (sd 0 1) 3 = 2 ^ 64 - 1 ∧ sv (.smulh oS) (sd (2 ^ 64 - 1) 5) 3 = 2 ^ 64 - 1 ∧
      sv (.sshl oS) (sd 1 64) 3 = 0 ∧ sv (.sshr oS) (sd (2 ^ 63) 64) 3 = 0 ∧ sv (.ssar oS) (sd (2 ^ 63) 70) 3 = 2 ^ 64 - 1 ∧
      sv (.smin oS) (sd (2 ^ 64 - 1) 1) 3 = 2 ^ 64 - 1) := by decide +kernel

def vd (a b : W32) : State := inR (fun r => (r.setV 4 0 a).setV 6 0 b) s0
def oVf : Opn := { z with d := 8, a := 4, b := 6 }
/-- R105, R115: lanes are written apart; 1.5 + 2.25, 2^24 + 1 rounded to even, and the square root of 2.25. -/
theorem test_vector_lanes :
    (vv (.vadd oVf) (vd 0xFFFFFFFF 2) 8 0 = 1 ∧ vv (.vadd oVf) (vd 0xFFFFFFFF 2) 8 1 = 0 ∧ vv (.fadd oVf) (vd 0x3FC00000 0x40100000) 8 0 = 0x40700000 ∧
      vv (.fadd oVf) (vd 0x4B800000 0x3F800000) 8 0 = 0x4B800000 ∧ vv (.fsqrt { z with d := 8, a := 4 }) (vd 0x40100000 0) 8 0 = 0x3FC00000 ∧
      vv (.vmin oVf) (vd 0xFFFFFFFF 1) 8 0 = 0xFFFFFFFF) := by decide +kernel

/-- R150: a store, once performed, stands in memory, least significant byte first. -/
theorem test_store_then_memory :
    ((after (.writePerformed 0 0) (after (.st oM) (inR (fun r => r.setV 8 0 0x11223344) (grp 1 sM)))).mach.readByte .dev 0x100400 = 0x44) := by decide +kernel

/-- R83: a taken branch goes on from its own address plus its offset. -/
theorem test_branch_target : ((after (.bra { z with imm := 8 }) s0).mach.bundle 0 |>.lane 0).pc = 0x10008 := by decide +kernel

/-- A small step of the whole machine: SADD at the program counter. -/
theorem test_step_runs : (match step (sreg 4 7 (sreg 5 8 (State.reset.withFetchWord 32 0x0180C205))) with | .next t => (t.regs 0).getS 3 | _ => 0) = 15 := by
  decide +kernel

end Sys2Proof.Tests
end

section
/-! SUPPORT. Lane masks bit by bit, and what an instruction does whose meaning writes one element register over the lanes of a mask, with or
without exceptions for FPSTAT before it. -/

namespace Sys2Proof

theorem Sparse.insert_insert {α : Type} (m : Sparse α) (i : Nat) (v w : α) :
    Sparse.insert (Sparse.insert m i v) i w = Sparse.insert m i w := by
  induction m with
  | nil => simp [Sparse.insert]
  | cons x t ih =>
    simp only [Sparse.insert]
    split
    · simp [Sparse.insert]
    · next hlt =>
      split
      · simp [Sparse.insert]
      · next hne => simp [Sparse.insert, hlt, hne, ih]

end Sys2Proof

namespace Sys2Proof.Machine
open Sys2Proof.Claims

/-! ## Lane masks -/

theorem laneBit_eq_twoPow (i : Nat) : laneBit i = BitVec.twoPow 32 i := rfl

theorem getLsbD_foldl_laneBit (f : Nat → Bool) (ls : List Nat) (m : Lanes) (l : Nat) (hl : l < 32) :
    (ls.foldl (fun m i => if f i then m ||| laneBit i else m) m).getLsbD l = (m.getLsbD l || (decide (l ∈ ls) && f l)) := by
  induction ls generalizing m with
  | nil => simp
  | cons k t ih =>
    rw [List.foldl_cons, ih]
    by_cases e : l = k
    · subst e
      cases hf : f l <;> simp [laneBit_eq_twoPow, hl]
    · cases hf : f k <;> simp [laneBit_eq_twoPow, BitVec.getLsbD_twoPow, e, Ne.symm e]

@[simp] theorem getLsbD_laneMask (f : Nat → Bool) (l : Nat) : (laneMask f).getLsbD l = (decide (l < 32) && f l) := by
  by_cases hl : l < 32
  · unfold laneMask
    rw [getLsbD_foldl_laneBit f _ _ l hl]
    simp [hl]
  · rw [BitVec.getLsbD_of_ge _ _ (by omega)]
    simp [hl]

/-- One less than the mask of a lane is the mask of the lanes before it. -/
theorem getLsbD_laneBit_sub_one {i : Nat} (hi : i < 32) (j : Nat) : (laneBit i - 1).getLsbD j = decide (j < i) := by
  have hp : 2 ^ i < 2 ^ 32 := Nat.pow_lt_pow_right (by omega) hi
  have h1 : (laneBit i).toNat = 2 ^ i := (BitVec.toNat_twoPow 32 i).trans (Nat.mod_eq_of_lt hp)
  have hv : (laneBit i - 1).toNat = 2 ^ i - 1 := by
    have := Nat.two_pow_pos i
    rw [BitVec.toNat_sub, h1, show (1 : BitVec 32).toNat = 1 from rfl]
    omega
  rw [BitVec.getLsbD, hv, Nat.testBit_two_pow_sub_one]

/-- The lanes of a mask before a lane. -/
theorem and_laneBit_sub_one (m : Lanes) {i : Nat} (hi : i < 32) :
    m &&& (laneBit i - 1) = laneMask fun j => m.getLsbD j && decide (j < i) := by
  apply BitVec.eq_of_getLsbD_eq
  intro j hj
  rw [BitVec.getLsbD_and, getLsbD_laneBit_sub_one hi, getLsbD_laneMask, decide_eq_true hj, Bool.true_and]

/-! ## What a rule lets through -/

theorem Issues.opn_eq {i : Instr} {o : Opn} {s : State} {r : Rule} {c : Ctx} (h : Issues i o s r c) : c.o = o := by
  obtain ⟨-, -, -, -, -, ho, -⟩ := h.spec
  exact ho

theorem Issues.rule_eq {i : Instr} {o : Opn} {s : State} {r r' : Rule} {c : Ctx} (h : Issues i o s r c)
    (hr : ruleOf i s.inHandler = some r') : r = r' :=
  Option.some_inj.mp (h.rule.symm.trans hr)

/-- A rule that refuses nothing has found the encoding to fit (R41). -/
theorem fits_of_refuses_none {r : Rule} {c : Ctx} (h : r.refuses c = none) : (r.form c.o).fits r.opc c.o = true := by
  cases hf : (r.form c.o).fits r.opc c.o with
  | true => rfl
  | false =>
    unfold Rule.refuses at h
    simp only [hf, Bool.false_and, Bool.false_eq_true, not_false_eq_true, if_true] at h
    split at h <;> cases h

/-- The element type of an instruction that issues is one its opcode has (R26, R28). -/
theorem Issues.typeOf_mem {i : Instr} {o : Opn} {s : State} {r : Rule} {c : Ctx} (h : Issues i o s r c) {base : Nat}
    (hb : base ∈ (r.form c.o).tys) : typeOf c.o base ∈ (r.form c.o).tys := by
  have hf := fits_of_refuses_none h.legal
  simp only [Form.fits, Form.fieldsFit, Bool.and_eq_true, Bool.or_eq_true, decide_eq_true_eq] at hf
  obtain ⟨⟨⟨-, hty⟩, -⟩, -⟩ := hf
  unfold typeOf
  split
  · next hlen => exact List.contains_iff_mem.mp (hty.resolve_left (by omega))
  · exact hb

/-! ## Changes of registers one after the other -/

/-- Two changes of a bundle are one change. -/
theorem modBundle_modBundle (m : Mach) (k : Nat) (f g : Bundle → Bundle) :
    (m.modBundle k f).modBundle k g = m.modBundle k (g ∘ f) := by
  cases h : m.bundle? k with
  | none => simp [Mach.modBundle, h]
  | some b =>
    have h' : (m.setBundle k (some (f b))).bundle? k = some (f b) := by simp
    simp only [Mach.modBundle, h, h', Function.comp_apply]
    simp [Mach.setBundle, Sparse.put, Sparse.insert_insert]

theorem modRegs_modRegs (c : Ctx) (m : Mach) (f g : Regs → Regs) : c.modRegs (c.modRegs m f) g = c.modRegs m (g ∘ f) :=
  modBundle_modBundle m c.key _ _

/-- Without enabled exceptions FPSTAT takes those of every lane that takes part, and the results are written (R65). -/
theorem withFlags_eq_of_noTrap {c : Ctx} {fl : Nat → Nat} (h : NoTrap c fl) (m : Mach) (write : Mach → Res) :
    c.withFlags m ((laneList c.act).map fun l => (l, fl l)) write = write (c.modRegs m fun x => flagged x c fl) := by
  unfold Ctx.withFlags
  dsimp only
  rw [if_neg]
  · rfl
  · simp only [List.any_map, List.any_eq_true, Function.comp_apply, decide_eq_true_eq, not_exists, not_and, Decidable.not_not]
    exact fun l hl => h l ((mem_laneList _ _).mp hl)

/-! ## One element register -/

/-- An element for each lane of a list is one element write over the mask of those lanes. -/
theorem elemWrite_writeAll_lanes (ty d : Nat) {ls : List Nat} {w : Lanes} (g : Nat → Nat) (r : Regs)
    (hw : ∀ l, w.getLsbD l = true ↔ l ∈ ls) :
    ElemWrite r (r.writeAll (ls.flatMap fun k => regWrites ty d k (g k))) ty d w g := by
  refine ⟨fun n l hl => ?_, writeAll_frame _ r⟩
  rw [getV_writeAll_lanes ty d g ls r n l hl fun k hk => BitVec.lt_of_getLsbD ((hw k).mpr hk)]
  simp only [hw]

/-- An instruction completes whose meaning changes registers so that, `pre` done, an element register is written. -/
theorem Issues.gives_elemWrite {i : Instr} {o : Opn} {s : State} {r r' : Rule} {c : Ctx} (h : Issues i o s r c)
    (hr : ruleOf i s.inHandler = some r') {body : Ctx → Mach → Res} (he : exec i s = issue r' o s body) {pre f : Regs → Regs}
    (hb : ∀ m, body c m = .done (c.modRegs m f)) {ty d : Nat} {w : Lanes} {v : Nat → Nat}
    (hw : ∀ x, ElemWrite (pre x) (f x) ty d w v) :
    Gives i s fun t => OnlyRegs s t c ∧ StandsAt t c c.nextPc ∧ ElemWrite (pre (s.regs c.key)) (t.regs c.key) ty d w v := by
  obtain rfl := h.rule_eq hr
  obtain ⟨t, ht, honly, hstands, hregs⟩ := h.writesRegs he hb
  exact ⟨t, ht, honly, hstands, hregs ▸ hw _⟩

/-- Only the values of the lanes that take part matter. -/
theorem writesLanes_congr {i : Instr} {s : State} {c : Ctx} {ty : Nat} {v v' : Nat → Nat} (h : WritesLanes i s c ty v)
    (hv : ∀ l, c.act.getLsbD l = true → v l = v' l) : WritesLanes i s c ty v' := by
  have e : orZero c v = orZero c v' := funext fun l => ite_congr rfl (hv l) fun _ => rfl
  unfold WritesLanes
  exact e ▸ h

/-- An instruction whose meaning writes a result for each lane that takes part writes those lanes. -/
theorem Issues.writesLanes {i : Instr} {o : Opn} {s : State} {r r' : Rule} {c : Ctx} (h : Issues i o s r c)
    (hr : ruleOf i s.inHandler = some r') {body : Ctx → Mach → Res} (he : exec i s = issue r' o s body) {ty : Nat} {v : Nat → Nat}
    {fl : Nat → Nat}
    (hb : ∀ m, body c m = .done (c.putResults m 0 (c.allWrites ty ((laneList c.act).map fun l => (l, v l, fl l))))) :
    WritesLanes i s c ty v :=
  h.gives_elemWrite hr he (pre := id) hb fun x => elemWrite_allWrites c ty (fun l => (v l, fl l)) x h.written_covers

/-- An instruction whose meaning puts a word in each lane that takes part writes those lanes. -/
theorem Issues.writesLanes_of_putV {i : Instr} {o : Opn} {s : State} {r r' : Rule} {c : Ctx} (h : Issues i o s r c)
    (hr : ruleOf i s.inHandler = some r') {body : Ctx → Mach → Res} (he : exec i s = issue r' o s body) {v : Nat → W32}
    (hb : ∀ m, body c m = .done (c.modRegs m (c.putV c.o.d.toNat v))) : WritesLanes i s c 0 fun l => (v l).toNat := by
  refine h.gives_elemWrite hr he (pre := id) hb fun x => ⟨fun n l hl => ?_, putV_frame c _ v x⟩
  rw [getV_putV c _ v x n l hl]
  by_cases hact : c.act.getLsbD l = true <;> simp [orZero, hact, wideTy]

/-- As `Issues.gives_elemWrite`, for an instruction that may raise exceptions and raises none that is enabled. -/
theorem Issues.gives_flagged {i : Instr} {o : Opn} {s : State} {r r' : Rule} {c : Ctx} (h : Issues i o s r c)
    (hr : ruleOf i s.inHandler = some r') {body : Ctx → Mach → Res} (he : exec i s = issue r' o s body) {fl : Nat → Nat}
    (hn : NoTrap c fl) {ws : List (Nat × W32)}
    (hb : ∀ m, body c m = c.withFlags m ((laneList c.act).map fun l => (l, fl l)) fun m => .done (c.putResults m 0 ws))
    {ty d : Nat} {w : Lanes} {v : Nat → Nat} (hw : ∀ x : Regs, ElemWrite x (x.writeAll ws) ty d w v) :
    Gives i s fun t => OnlyRegs s t c ∧ StandsAt t c c.nextPc ∧
      ElemWrite (flagged (s.regs c.key) c fl) (t.regs c.key) ty d w v := by
  refine h.gives_elemWrite hr he (pre := fun x => flagged x c fl) (f := fun x => (flagged x c fl).writeAll ws) (fun m => ?_) fun x => hw _
  rw [hb, withFlags_eq_of_noTrap hn]
  exact congrArg Res.done (modRegs_modRegs c m _ _)

end Sys2Proof.Machine
end

section
/-! The block conversions FCVT.blk and FCVT.dec (R122, R123). -/

namespace Sys2Proof.Machine
open Sys2Proof.Claims

/-- A slot operand traps in one way only (R71). -/
theorem slotTrap_eq_some {c : Ctx} {k : Nat} {ok : BitVec 128 → Bool} {x : Trap} (h : c.slotTrap k ok = some x) :
    x = c.trap clsOperand 0x64 := by
  unfold Ctx.slotTrap at h
  split at h
  · cases h
  · exact (Option.some_inj.mp h).symm

/-- An instruction whose meaning begins with a bad slot raises OPERAND (R71). -/
theorem Issues.raises_slotTrap {i : Instr} {o : Opn} {s : State} {r r' : Rule} {c : Ctx} (h : Issues i o s r c)
    (hr : ruleOf i s.inHandler = some r') {body : Ctx → Mach → Res} (he : exec i s = issue r' o s body) {k : Nat}
    {ok : BitVec 128 → Bool} {x : Trap} (hx : c.slotTrap k ok = some x) (hb : ∀ m, body c m = .trap m x) :
    exec i s = .next { s with mach := (c.leaveResume s.mach).raise c.q c.run (c.trap clsOperand 0x64) } := by
  obtain rfl := h.rule_eq hr
  rw [he, h.traps (hb _), slotTrap_eq_some hx]

theorem exec_fcvtBlk (o : Opn) (s : State) : exec (.fcvtBlk o) s = execFcvtBlk o s := rfl
theorem exec_fcvtDec (o : Opn) (s : State) : exec (.fcvtDec o) s = execFcvtDec o s := rfl

end Sys2Proof.Machine

open Sys2Proof Sys2Proof.Machine Sys2Proof.Claims

/-- Settles O12: both conversions are a write of one register for the lanes, behind the exceptions of the lanes that take part; the slot is
looked at first. -/
theorem blockConversionsWriteLanes : Obligations.BlockConversionsWriteLanes := by
  unfold Obligations.BlockConversionsWriteLanes
  refine ⟨?blk, ?blkTrap, ?decTrap, ?dec⟩
  case blk =>
    intro o s r c h hslot src blk fl hn
    obtain rfl := h.opn_eq
    refine h.gives_flagged rfl ((exec_fcvtBlk _ _).trans rfl) hn (fun m => ?_) fun x =>
      elemWrite_writeAll_lanes 0 c.o.d.toNat (fun l => (blk.2.getD l (0, 0)).1 + 256 * blk.1) x fun l => (mem_laneList c.act l).symm
    dsimp only
    rw [hslot]
  case blkTrap =>
    intro o s r c x h hslot
    refine h.raises_slotTrap rfl ((exec_fcvtBlk _ _).trans rfl) hslot fun m => ?_
    dsimp only
    rw [hslot]
  case decTrap =>
    intro o s r c x h hslot
    refine h.raises_slotTrap rfl ((exec_fcvtDec _ _).trans rfl) hslot fun m => ?_
    dsimp only
    rw [hslot]
  case dec =>
    intro o s r c h hslot sl val res fl hn
    obtain rfl := h.opn_eq
    refine h.gives_flagged rfl ((exec_fcvtDec _ _).trans rfl) hn (fun m => ?_) fun x =>
      elemWrite_allWrites c 4 (fun l => ((res l).1, fl l)) x h.written_covers
    dsimp only
    rw [hslot]
    simp only [List.map_map]
    rfl

end

section
/-! VSEL, VLI, MATCH and COMPACT (R92, R93, R107, R111). -/

namespace Sys2Proof.Machine
open Sys2Proof.Claims

theorem exec_vsel (o : Opn) (s : State) : exec (.vsel o) s = execVsel o s := rfl
theorem exec_vli (o : Opn) (s : State) : exec (.vli o) s = execVli o s := rfl
theorem exec_matchKeys (o : Opn) (s : State) : exec (.matchKeys o) s = execMatchKeys o s := rfl
theorem exec_compact (o : Opn) (s : State) : exec (.compact o) s = execCompact o s := rfl

/-! ## MATCH -/

theorem elem_of_word (c : Ctx) {ty : Nat} (hw : wideTy ty = false) (hb : regBits ty = 32) (r l : Nat) :
    c.elem ty r l = (c.v r l).toNat := by
  unfold Ctx.elem
  rw [if_neg (by simp [hw]), hb]
  exact Nat.mod_eq_of_lt (c.v r l).isLt

/-- A key of MATCH is an element of its type. -/
theorem key64_toNat (c : Ctx) {ty : Nat} (h : ty ∈ [0, 1, 2, 3]) (r l : Nat) : (c.key64 ty r l).toNat = c.elem ty r l := by
  have hword : ((c.v r l).setWidth 64).toNat = (c.v r l).toNat := BitVec.toNat_setWidth_of_le (by omega)
  simp only [List.mem_cons, List.not_mem_nil, or_false] at h
  rcases h with rfl | rfl | rfl | rfl
  · exact hword.trans (elem_of_word c rfl rfl r l).symm
  · exact hword.trans (elem_of_word c rfl rfl r l).symm
  · rfl
  · rfl

theorem key64_eq_iff (c : Ctx) {ty : Nat} (h : ty ∈ [0, 1, 2, 3]) (r j i : Nat) :
    c.key64 ty r j = c.key64 ty r i ↔ c.elem ty r j = c.elem ty r i := by
  rw [← BitVec.toNat_inj, key64_toNat c h, key64_toNat c h]

/-! ## COMPACT -/

/-- The word of an element, or the pair of a wide one, is its register writes. -/
theorem writeAll_regWrites_pair {ty : Nat} (h : wideTy ty = true) (r : Regs) (d l : Nat) (x : W64) :
    r.writeAll (regWrites ty d l x.toNat) = r.setV2 d l x := by
  have hlo : BitVec.ofNat 32 x.toNat = x.setWidth 32 := by simp
  have hhi : BitVec.ofNat 32 (x.toNat / 2 ^ 32) = (x >>> 32).setWidth 32 := by
    apply BitVec.eq_of_toNat_eq
    simp [Nat.shiftRight_eq_div_pow]
  simp only [regWrites, h, if_true, hlo, hhi]
  rfl

theorem writeAll_regWrites_word {ty : Nat} (h : wideTy ty = false) (r : Regs) (d l : Nat) (x : W32) :
    r.writeAll (regWrites ty d l x.toNat) = r.setV d l x := by
  simp only [regWrites, h, Bool.false_eq_true, if_false, BitVec.ofNat_toNat, BitVec.setWidth_eq]
  rfl

/-- COMPACT moves an element of its type, a word or a pair. -/
theorem writeAll_regWrites_elem (c : Ctx) {ty : Nat} (h : ty ∈ [0, 2]) (r : Regs) (d l a k : Nat) :
    r.writeAll (regWrites ty d l (c.elem ty a k)) = if decide (ty = 2) then r.setV2 d l (c.v2 a k) else r.setV d l (c.v a k) := by
  simp only [List.mem_cons, List.not_mem_nil, or_false] at h
  rcases h with rfl | rfl
  · rw [elem_of_word c rfl rfl, writeAll_regWrites_word rfl]
    rfl
  · exact writeAll_regWrites_pair rfl r d l (c.v2 a k)

theorem writeAll_regWrites_zero {ty : Nat} (h : ty ∈ [0, 2]) (r : Regs) (d l : Nat) :
    r.writeAll (regWrites ty d l 0) = if decide (ty = 2) then r.setV2 d l 0 else r.setV d l 0 := by
  simp only [List.mem_cons, List.not_mem_nil, or_false] at h
  rcases h with rfl | rfl <;> rfl

/-- The writes of the items of a list are made one item after the other. -/
theorem writeAll_flatMap {α : Type} (xs : List α) (g : α → List (Nat × W32)) (r : Regs) :
    r.writeAll (xs.flatMap g) = xs.foldl (fun r x => r.writeAll (g x)) r := by
  simp [Regs.writeAll, List.foldl_flatMap]

/-- Pairing a list without repetition with another gives each of its first items the item at the same place. -/
theorem zip_eq_map_take {xs : List Nat} (hn : xs.Nodup) (ys : List Nat) :
    xs.zip ys = (xs.take ys.length).map fun x => (x, ys.getD (xs.idxOf x) 0) := by
  apply List.ext_getElem
  · simp [Nat.min_comm]
  · intro n h1 h2
    obtain ⟨hx, hy⟩ := Nat.lt_min.mp (List.length_zip ▸ h1)
    simp [hn.idxOf_getElem n hx, hy]

/-- The first items of a list are those at its first places. -/
theorem mem_take_iff_idxOf_lt {xs : List Nat} {x : Nat} (h : x ∈ xs) (n : Nat) : x ∈ xs.take n ↔ xs.idxOf x < n := by
  induction xs generalizing n with
  | nil => cases h
  | cons y t ih =>
    cases n with
    | zero => simp only [List.take_zero, List.not_mem_nil, Nat.not_lt_zero]
    | succ n =>
      by_cases e : x = y
      · subst e
        simp only [List.take_succ_cons, List.mem_cons_self, List.idxOf_cons_self, Nat.succ_pos]
      · have hx : x ∈ t := (List.mem_cons.mp h).resolve_left e
        have hb : (y == x) = false := beq_eq_false_iff_ne.mpr (Ne.symm e)
        simp only [List.take_succ_cons, List.mem_cons, e, false_or, List.idxOf_cons, hb, cond_false, ih hx n, Nat.succ_lt_succ_iff]

/-- The lanes that ZM clears (R30). -/
theorem mem_laneList_cleared (c : Ctx) (l : Nat) :
    l ∈ laneList (c.written &&& ~~~c.act) ↔ c.written.getLsbD l = true ∧ c.act.getLsbD l = false := by
  simp only [mem_laneList, BitVec.getLsbD_and, BitVec.getLsbD_not, Bool.and_eq_true, Bool.not_eq_true', decide_eq_true_eq]
  exact ⟨fun ⟨hw, _, ha⟩ => ⟨hw, ha⟩, fun ⟨hw, ha⟩ => ⟨hw, BitVec.lt_of_getLsbD hw, ha⟩⟩

/-- Lanes that COMPACT writes: the lowest that take part, as many as are packed, and those that ZM clears. -/
theorem compacted_getLsbD (c : Ctx) (l : Nat) :
    (compacted c).getLsbD l = true ↔
      l ∈ (laneList c.act).take (Claims.packed c).length ++ laneList (c.written &&& ~~~c.act) := by
  rw [List.mem_append, mem_laneList_cleared, compacted, getLsbD_laneMask]
  cases hact : c.act.getLsbD l with
  | true =>
    rw [mem_take_iff_idxOf_lt ((mem_laneList c.act l).mpr hact)]
    simp only [BitVec.lt_of_getLsbD hact, decide_true, Bool.true_and, if_true, Bool.true_eq_false, and_false, or_false]
    exact decide_eq_true_iff
  | false =>
    have hmem : l ∉ (laneList c.act).take (Claims.packed c).length := fun hm => by
      simp [(mem_laneList c.act l).mp (List.mem_of_mem_take hm)] at hact
    have hlt : c.written.getLsbD l = true → l < 32 := BitVec.lt_of_getLsbD
    simpa [hmem] using hlt

/-- The element that COMPACT packs into a lane. -/
def packedElem (c : Ctx) (ty l : Nat) : Nat := c.elem ty c.o.a.toNat ((Claims.packed c).getD (placeOf c l) 0)

/-- The register writes of COMPACT: packed elements, and zeros in the lanes that ZM clears. -/
def compactWrites (c : Ctx) (ty : Nat) : List (Nat × W32) :=
  ((laneList c.act).take (Claims.packed c).length ++ laneList (c.written &&& ~~~c.act)).flatMap fun l =>
    regWrites ty c.o.d.toNat l (orZero c (packedElem c ty) l)

theorem flatMap_congr_mem {α β : Type} {xs : List α} {f g : α → List β} (h : ∀ x ∈ xs, f x = g x) : xs.flatMap f = xs.flatMap g := by
  rw [List.flatMap_def, List.flatMap_def, List.map_congr_left h]

theorem compactWrites_eq (c : Ctx) (ty : Nat) :
    compactWrites c ty =
      ((laneList c.act).take (Claims.packed c).length).flatMap (fun l => regWrites ty c.o.d.toNat l (packedElem c ty l)) ++
        (laneList (c.written &&& ~~~c.act)).flatMap fun l => regWrites ty c.o.d.toNat l 0 := by
  rw [compactWrites, List.flatMap_append]
  congr 1
  · refine flatMap_congr_mem fun l hl => ?_
    rw [orZero, if_pos ((mem_laneList _ _).mp (List.mem_of_mem_take hl))]
  · refine flatMap_congr_mem fun l hl => ?_
    rw [orZero, if_neg (by simp [((mem_laneList_cleared c l).mp hl).2])]

/-- COMPACT's moves and zeros, one register after the other, are its writes (R93). -/
theorem writeAll_compactWrites (c : Ctx) {ty : Nat} (h : ty ∈ [0, 2]) (r : Regs) :
    r.writeAll (compactWrites c ty) =
      (laneList (c.written &&& ~~~c.act)).foldl
        (fun r l => if decide (ty = 2) then r.setV2 c.o.d.toNat l 0 else r.setV c.o.d.toNat l 0)
        (((laneList c.act).zip (Claims.packed c)).foldl
          (fun r p => if decide (ty = 2) then r.setV2 c.o.d.toNat p.1 (c.v2 c.o.a.toNat p.2)
            else r.setV c.o.d.toNat p.1 (c.v c.o.a.toNat p.2)) r) := by
  rw [compactWrites_eq, writeAll_append, writeAll_flatMap, writeAll_flatMap, zip_eq_map_take (laneList_nodup _), List.foldl_map]
  simp only [← writeAll_regWrites_elem c h, ← writeAll_regWrites_zero h]
  rfl

/-! ## The instructions -/

/-- VSEL (R107). -/
theorem vsel_writesLanes {o : Opn} {s : State} {r : Rule} {c : Ctx} (h : Issues (.vsel o) o s r c) :
    WritesLanes (.vsel o) s c (typeOf o 0) fun l =>
      if (c.b.regs.getP o.c.toNat).getLsbD l then c.elem (typeOf o 0) o.a.toNat l else c.elemB (typeOf o 0) l :=
  h.writesLanes rfl ((exec_vsel _ _).trans rfl) (fl := fun _ => 0) fun _ => rfl

/-- VLI (R111). -/
theorem vli_writesLanes {o : Opn} {s : State} {r : Rule} {c : Ctx} (h : Issues (.vli o) o s r c) :
    WritesLanes (.vli o) s c (typeOf o 0) fun _ => (immOf o).toNat :=
  h.writesLanes rfl ((exec_vli _ _).trans rfl) (fl := fun _ => 0) fun _ => rfl

/-- The lanes that take part and hold the key of lane i (R92). -/
def sameKey (c : Ctx) (ty i : Nat) : Lanes :=
  laneMask fun j => c.act.getLsbD j && decide (c.elem ty c.o.a.toNat j = c.elem ty c.o.a.toNat i)

/-- The count of the lanes of a mask before a lane, as a word. -/
theorem toNat_popCount_before (m : Lanes) {i : Nat} (hi : i < 32) :
    (BitVec.ofNat 32 (popCount (m &&& (laneBit i - 1)))).toNat = popCount (laneMask fun j => m.getLsbD j && decide (j < i)) := by
  have hle : popCount (m &&& (laneBit i - 1)) ≤ 32 := Nat.le_trans (List.length_filter_le _ _) (Nat.le_of_eq List.length_range)
  rw [BitVec.toNat_ofNat, Nat.mod_eq_of_lt (by omega), and_laneBit_sub_one m hi]

/-- MATCH (R92). -/
theorem matchKeys_writesLanes {o : Opn} {s : State} {r : Rule} {c : Ctx} (h : Issues (.matchKeys o) o s r c) :
    WritesLanes (.matchKeys o) s c 0 fun i =>
      (if o.fn = 0 then sameKey c (typeOf o 0) i else .ofNat 32 (popCount (sameKey c (typeOf o 0) i &&& (laneBit i - 1)))).toNat := by
  obtain rfl := h.opn_eq
  obtain rfl := h.rule_eq (r' := matchKeysRule) rfl
  have hty : typeOf c.o 0 ∈ [0, 1, 2, 3] := h.typeOf_mem List.mem_cons_self
  refine h.writesLanes_of_putV rfl ((exec_matchKeys _ _).trans rfl) fun m => ?_
  simp only [key64_eq_iff c hty]
  rfl

/-- COMPACT (R93). -/
theorem compact_elemWrite {o : Opn} {s : State} {r : Rule} {c : Ctx} (h : Issues (.compact o) o s r c) :
    Gives (.compact o) s fun t => OnlyRegs s t c ∧ StandsAt t c c.nextPc ∧
      ElemWrite (s.regs c.key) (t.regs c.key) (typeOf o 0) o.d.toNat (compacted c) (orZero c (packedElem c (typeOf o 0))) := by
  obtain rfl := h.opn_eq
  obtain rfl := h.rule_eq (r' := compactRule) rfl
  have hty : typeOf c.o 0 ∈ [0, 2] := h.typeOf_mem List.mem_cons_self
  refine h.gives_elemWrite rfl ((exec_compact _ _).trans rfl) (pre := id) (f := fun x => x.writeAll (compactWrites c (typeOf c.o 0)))
    (fun m => ?_) fun x => elemWrite_writeAll_lanes _ _ _ x (compacted_getLsbD c)
  simp only [writeAll_compactWrites c hty]
  rfl

end Sys2Proof.Machine

open Sys2Proof Sys2Proof.Machine Sys2Proof.Claims

/-- Settles O10: VSEL, VLI and MATCH write a value for each lane; COMPACT's moves, word by word, are one write over the lanes it packs into and
those that ZM clears. -/
theorem lanesAreSelectedAndPacked : Obligations.LanesAreSelectedAndPacked := by
  unfold Obligations.LanesAreSelectedAndPacked
  refine ⟨fun o s r c h => vsel_writesLanes h, fun o s r c h => vli_writesLanes h, ?_, fun o s r c h => ?_⟩
  · intro o s r c h same
    have hm := matchKeys_writesLanes h
    obtain rfl := h.opn_eq
    refine ⟨fun hfn => ?_, fun hfn => ?_⟩
    · refine writesLanes_congr hm fun i _ => ?_
      rw [if_pos hfn]
      rfl
    · refine writesLanes_congr hm fun i hi => ?_
      rw [if_neg (by simp [hfn])]
      exact toNat_popCount_before _ (BitVec.lt_of_getLsbD hi)
  · obtain rfl := h.opn_eq
    exact compact_elemWrite h

end

section
/-! What more of a rule lets an instruction through, and what an instruction does whose meaning leaves the registers as they are or may write
nothing at all. -/

namespace Sys2Proof.Machine
open Sys2Proof.Claims

/-- A rule that refuses nothing has found the issuer to be one that may issue the instruction. -/
theorem site_of_refuses_none {r : Rule} {c : Ctx} (h : r.refuses c = none) : r.site c = true := by
  cases hs : r.site c with
  | true => rfl
  | false =>
    unfold Rule.refuses at h
    simp only [hs, Bool.and_false, Bool.false_eq_true, not_false_eq_true, if_true] at h
    split at h <;> cases h

/-- The function of an instruction that issues is one its opcode has (R26). -/
theorem Issues.fn_mem {i : Instr} {o : Opn} {s : State} {r : Rule} {c : Ctx} (h : Issues i o s r c) :
    c.o.fn.toNat ∈ (r.form c.o).fns := by
  have hf := fits_of_refuses_none h.legal
  simp only [Form.fits, Form.fieldsFit, Bool.and_eq_true] at hf
  obtain ⟨⟨⟨⟨⟨⟨⟨⟨hfn, -⟩, -⟩, -⟩, -⟩, -⟩, -⟩, -⟩, -⟩ := hf
  exact List.contains_iff_mem.mp hfn

/-- Giving a bundle the registers it has changes nothing that can be seen. -/
theorem modRegs_id_untouched (c : Ctx) (m : Mach) : Untouched (c.modRegs m id) m c where
  machine := by
    unfold Ctx.modRegs Mach.modBundle
    split <;> rfl
  others k hk := by simp [Ctx.modRegs, hk]
  issuer b hb := ⟨b, by simpa [Ctx.modRegs, Bundle.modRegs] using hb, .refl b _⟩
  runs q _ := by rw [Ctx.modRegs, Mach.run_congr (Mach.modBundle_runs m c.key _)]
  cores k := by rw [Ctx.modRegs, Mach.core_congr (Mach.modBundle_cores m c.key _)]
  ops := by simp [Ctx.modRegs]
  later := by simp [Ctx.modRegs]

/-- An instruction whose meaning does nothing completes and changes no register. -/
theorem Issues.writesRegs_id {i : Instr} {o : Opn} {s : State} {r r' : Rule} {c : Ctx} (h : Issues i o s r c)
    (hr : ruleOf i s.inHandler = some r') {body : Ctx → Mach → Res} (he : exec i s = issue r' o s body)
    (hb : ∀ m, body c m = .done m) : WritesRegs i s c id := by
  obtain rfl := h.rule_eq hr
  obtain ⟨-, hbundle, hkey, -, hgrp, -, -, hhand⟩ := h.spec
  have hm := leaveResume_untouched c s.mach
  obtain ⟨b, hb', hkept⟩ := hm.issuer _ hbundle
  have hf := finish_untouched r c s.mach.nextOp (c.leaveResume s.mach) hkey hgrp
  obtain ⟨honly, hregs⟩ := onlyRegs_of (t := { s with mach := r.finish c s.mach.nextOp (c.leaveResume s.mach) })
    hbundle hm hb' id ((modRegs_id_untouched c _).trans hf) ⟨rfl, rfl, rfl⟩
  exact ⟨_, he.trans (h.done (hb _)), honly,
    standsAt_finish r c _ _ s hb' (hkept.hand.trans hhand.symm) hkey hgrp, hregs⟩

/-- As `Issues.writesRegs`, the rule being the one of the instruction. -/
theorem Issues.writesRegs_of_rule {i : Instr} {o : Opn} {s : State} {r r' : Rule} {c : Ctx} (h : Issues i o s r c)
    (hr : ruleOf i s.inHandler = some r') {body : Ctx → Mach → Res} (he : exec i s = issue r' o s body) {f : Regs → Regs}
    (hb : ∀ m, body c m = .done (c.modRegs m f)) : WritesRegs i s c f := by
  obtain rfl := h.rule_eq hr
  exact h.writesRegs he hb

/-- Results that are written only when a lane takes part are one element write (R136, R140). -/
theorem elemWrite_unlessEmpty {c : Ctx} (h : c.act &&& ~~~c.written = 0) (ty : Nat) (v : Nat → Nat) (x : Regs) :
    ElemWrite x (x.writeAll (c.unlessEmpty (c.allWrites ty ((laneList c.act).map fun l => (l, v l, 0))))) ty c.o.d.toNat
      (unlessEmpty c) (orZero c v) := by
  unfold Ctx.unlessEmpty unlessEmpty
  by_cases hact : c.act = 0
  · rw [if_pos hact, if_pos hact]
    exact elemWrite_writeAll_lanes ty c.o.d.toNat (ls := []) (orZero c v) x fun l => by simp
  · rw [if_neg hact, if_neg hact]
    exact elemWrite_allWrites c ty (fun l => (v l, 0)) x h

end Sys2Proof.Machine
end

section
/-! XSHF, XROT, XBCST and XBAL (R131 to R137). -/

namespace Sys2Proof.Machine
open Sys2Proof.Claims

theorem exec_xshf (o : Opn) (s : State) : exec (.xshf o) s = execXshf o s := rfl
theorem exec_xrot (o : Opn) (s : State) : exec (.xrot o) s = execXrot o s := rfl
theorem exec_xbcst (o : Opn) (s : State) : exec (.xbcst o) s = execXbcst o s := rfl
theorem exec_xbal (o : Opn) (s : State) : exec (.xbal o) s = execXbal o s := rfl

/-! ## Source lanes -/

/-- The lane count of R133: a shift is a division. -/
theorem laneCount_eq_countN (o : Opn) : laneCount o = countN o := by
  unfold laneCount countN
  rw [Nat.shiftRight_eq_div_pow]
  rfl

/-- The source lane of XSHF for each of its functions (R134). -/
theorem xshfSrc_eq_shfLane {c : Ctx} (h : c.o.fn.toNat ∈ [0, 1, 2, 3]) (i : Nat) : xshfSrc c i = shfLane c i := by
  simp only [List.mem_cons, List.not_mem_nil, or_false] at h
  unfold xshfSrc shfLane
  rw [laneCount_eq_countN]
  obtain hindex | hdown | hup | hxor := h
  · simp only [hindex]
    rfl
  · simp only [hdown, ← Nat.not_lt, ite_not]
  · simp only [hup, Config.bwidth, ← Nat.not_lt, ite_not]
  · simp only [hxor]
    rfl

/-- An instruction that moves values between lanes writes in every lane that takes part what its source lane held (R132). -/
theorem Issues.writesLanes_of_moveLanes {i : Instr} {o : Opn} {s : State} {r r' : Rule} {c : Ctx} (h : Issues i o s r c)
    (hr : ruleOf i s.inHandler = some r') {base : Nat} {src : Ctx → Nat → Nat} (he : exec i s = moveLanes r' base src o s)
    {lane : Nat → Nat} (hsrc : ∀ l, src c l = lane l) : WritesLanes i s c (typeOf o base) fun l => given c (typeOf o base) (lane l) := by
  obtain rfl := h.opn_eq
  refine h.writesLanes hr he (fl := fun _ => 0) fun m => ?_
  simp only [← hsrc]
  rfl

/-! ## The instructions -/

/-- XSHF (R134). -/
theorem xshf_writesLanes {o : Opn} {s : State} {r : Rule} {c : Ctx} (h : Issues (.xshf o) o s r c) :
    WritesLanes (.xshf o) s c (typeOf o 0) fun i => given c (typeOf o 0) (shfLane c i) := by
  obtain rfl := h.rule_eq (r' := xshfRule) rfl
  exact h.writesLanes_of_moveLanes rfl ((exec_xshf _ _).trans rfl) (xshfSrc_eq_shfLane h.fn_mem)

/-- XROT (R135). -/
theorem xrot_writesLanes {o : Opn} {s : State} {r : Rule} {c : Ctx} (h : Issues (.xrot o) o s r c) :
    WritesLanes (.xrot o) s c (typeOf o 0) fun i => given c (typeOf o 0) (rotLane c i) := by
  obtain rfl := h.opn_eq
  refine h.writesLanes_of_moveLanes rfl ((exec_xrot _ _).trans rfl) fun i => ?_
  rw [laneCount_eq_countN]
  rfl

/-- The lane that XBCST reads, by its function (R136). -/
theorem bcstLane_of_fn {c : Ctx} (h : c.o.fn.toNat ∈ [0, 1, 2]) :
    bcstLane c = if c.o.fn = 0 then (c.s c.o.b.toNat).toNat % Config.bwidth
      else if c.o.fn = 1 then lowestLane c.act else highestLane c.act := by
  have hfn : c.o.fn = 0 ∨ c.o.fn = 1 ∨ c.o.fn = 2 := by
    simp only [List.mem_cons, List.not_mem_nil, or_false] at h
    exact h.imp BitVec.eq_of_toNat_eq (Or.imp BitVec.eq_of_toNat_eq BitVec.eq_of_toNat_eq)
  unfold bcstLane
  rcases hfn with e | e | e <;> rw [e] <;> rfl

/-- XBCST of a lane given by number (R136). -/
theorem xbcst_writesLanes {o : Opn} {s : State} {r : Rule} {c : Ctx} (h : Issues (.xbcst o) o s r c) (hfn : o.fn = 0) :
    WritesLanes (.xbcst o) s c (typeOf o 0) fun _ => given c (typeOf o 0) (bcstLane c) := by
  obtain rfl := h.rule_eq (r' := xbcstRule) rfl
  obtain rfl := h.opn_eq
  refine h.writesLanes_of_moveLanes rfl ((exec_xbcst _ _).trans (if_pos hfn)) fun _ => ?_
  rw [bcstLane_of_fn h.fn_mem, if_pos hfn]

/-- XBCST of the first or last lane that takes part (R136). -/
theorem xbcst_elemWrite {o : Opn} {s : State} {r : Rule} {c : Ctx} (h : Issues (.xbcst o) o s r c) (hfn : o.fn ≠ 0) :
    Gives (.xbcst o) s fun t => OnlyRegs s t c ∧ StandsAt t c c.nextPc ∧
      ElemWrite (s.regs c.key) (t.regs c.key) (typeOf o 0) o.d.toNat (unlessEmpty c)
        (orZero c fun _ => given c (typeOf o 0) (bcstLane c)) := by
  obtain rfl := h.rule_eq (r' := xbcstRule) rfl
  obtain rfl := h.opn_eq
  refine h.gives_elemWrite rfl ((exec_xbcst _ _).trans (if_neg hfn)) (pre := id) (fun m => ?_) fun x =>
    elemWrite_unlessEmpty h.written_covers (typeOf c.o 0) (fun _ => given c (typeOf c.o 0) (bcstLane c)) x
  rw [bcstLane_of_fn h.fn_mem, if_neg hfn]
  rfl

/-- The lanes that take part and hold a predicate are the mask of XBAL (R137). -/
theorem getP_and_act_eq_ballot (c : Ctx) : c.b.regs.getP c.o.a.toNat &&& c.act = ballot c := by
  apply BitVec.eq_of_getLsbD_eq
  intro l hl
  rw [BitVec.getLsbD_and, ballot, getLsbD_laneMask, decide_eq_true hl, Bool.true_and, Bool.and_comm]

end Sys2Proof.Machine

open Sys2Proof Sys2Proof.Machine Sys2Proof.Claims

/-- Settles O5: the moves are writes of what each lane's source lane holds; XBAL by its four functions. -/
theorem crossLaneResults : Obligations.CrossLaneResults := by
  unfold Obligations.CrossLaneResults
  refine ⟨fun o s r c h => xshf_writesLanes h, fun o s r c h => xrot_writesLanes h, fun o s r c h hfn => xbcst_writesLanes h hfn,
    fun o s r c h hfn => xbcst_elemWrite h hfn, fun o s r c h => ?_⟩
  obtain rfl := h.opn_eq
  refine ⟨fun hfn => ?mask, fun hfn => ?upper, fun hfn => ?count, fun hfn => ?lanes⟩
  case mask => exact h.writesRegs_of_rule rfl ((exec_xbal _ _).trans rfl) fun m => by simp only [hfn, getP_and_act_eq_ballot]; rfl
  case upper => exact h.writesRegs_of_rule rfl ((exec_xbal _ _).trans rfl) fun m => by simp only [hfn]; rfl
  case count => exact h.writesRegs_of_rule rfl ((exec_xbal _ _).trans rfl) fun m => by simp only [hfn, getP_and_act_eq_ballot]; rfl
  case lanes => exact h.writesLanes_of_putV rfl ((exec_xbal _ _).trans rfl) fun m => by simp only [hfn, getP_and_act_eq_ballot]; rfl

end

section
/-! XBCNT, XRED, XSCAN and XMOV (R138 to R142). -/

namespace Sys2Proof.Machine
open Sys2Proof.Claims

theorem exec_xbcnt (o : Opn) (s : State) : exec (.xbcnt o) s = execXbcnt o s := rfl
theorem exec_xred (o : Opn) (s : State) : exec (.xred o) s = execXred o s := rfl
theorem exec_xscan (o : Opn) (s : State) : exec (.xscan o) s = execXscan o s := rfl
theorem exec_xmov (o : Opn) (s : State) : exec (.xmov o) s = execXmov o s := rfl

/-! ## Selection, reduction and scan -/

/-- XBCNT (R138). -/
theorem xbcnt_writesRegs {o : Opn} {s : State} {r : Rule} {c : Ctx} (h : Issues (.xbcnt o) o s r c) :
    WritesRegs (.xbcnt o) s c fun x => x.putP o.d.toNat c.written (c.act &&& laneMask fun l =>
      (topK (fun i => c.elem (typeOf o 1) o.a.toNat i) (decide (o.fn = 1)) (regBits (typeOf o 1)) (laneList c.act) []
        (min (c.s o.b.toNat).toNat (laneList c.act).length)).contains l) := by
  obtain rfl := h.opn_eq
  refine h.writesRegs_of_rule rfl ((exec_xbcnt _ _).trans rfl) fun m => ?_
  simp only [Ctx.putPred, BitVec.and_comm]

/-- An instruction of the issuer completes, FPSTAT taking the exceptions `fl` of the lanes that take part, and writes an element register,
nothing when no lane takes part (R140, R141). -/
def WritesUnlessEmpty (i : Instr) (s : State) (c : Ctx) (ty fl : Nat) (v : Nat → Nat) : Prop :=
  Gives i s fun t => OnlyRegs s t c ∧ StandsAt t c c.nextPc ∧
    ElemWrite (flagged (s.regs c.key) c fun _ => fl) (t.regs c.key) ty c.o.d.toNat (unlessEmpty c) (orZero c v)

/-- What XRED and XSCAN share: every lane that takes part has the exceptions of all combines (R141). -/
theorem Issues.writesUnlessEmpty {i : Instr} {o : Opn} {s : State} {r r' : Rule} {c : Ctx} (h : Issues i o s r c)
    (hr : ruleOf i s.inHandler = some r') {body : Ctx → Mach → Res} (he : exec i s = issue r' o s body) {fl ty : Nat} {v : Nat → Nat}
    (hn : NoTrap c fun _ => fl)
    (hb : ∀ m, body c m = c.withFlags m (c.allRaise fl) fun m =>
      .done (c.putResults m 0 (c.unlessEmpty (c.allWrites ty ((laneList c.act).map fun l => (l, v l, 0)))))) :
    WritesUnlessEmpty i s c ty fl v :=
  h.gives_flagged hr he hn hb fun x => elemWrite_unlessEmpty h.written_covers ty v x

/-- XRED (R140). -/
theorem xred_writesUnlessEmpty {o : Opn} {s : State} {r : Rule} {c : Ctx} (h : Issues (.xred o) o s r c)
    (hn : NoTrap c fun _ => (reduceTree (redEnv c) 5 c.present 0).2) :
    WritesUnlessEmpty (.xred o) s c (typeOf o 0) (reduceTree (redEnv c) 5 c.present 0).2 fun _ =>
      (reduceTree (redEnv c) 5 c.present 0).1.getD 0 :=
  h.writesUnlessEmpty rfl ((exec_xred _ _).trans rfl) hn fun _ => rfl

/-- XSCAN (R140). -/
theorem xscan_writesUnlessEmpty {o : Opn} {s : State} {r : Rule} {c : Ctx} (h : Issues (.xscan o) o s r c)
    (hn : NoTrap c fun _ => (scanSteps (redEnv c) 5 0 c.present 0).2) :
    WritesUnlessEmpty (.xscan o) s c (typeOf o 0) (scanSteps (redEnv c) 5 0 c.present 0).2 fun l =>
      if bitAt o.mods 0 = true then
        (if l = 0 then identityOf o.fn.toNat (typeOf o 0)
          else ((scanSteps (redEnv c) 5 0 c.present 0).1.getD (l - 1) none).getD (identityOf o.fn.toNat (typeOf o 0)))
      else ((scanSteps (redEnv c) 5 0 c.present 0).1.getD l none).getD 0 := by
  refine h.writesUnlessEmpty rfl ((exec_xscan _ _).trans rfl) hn fun m => ?_
  generalize scanSteps (redEnv c) 5 0 c.present 0 = x
  rfl

/-! ## XMOV -/

/-- XMOV is issued by a handler alone (R142). -/
theorem xmov_hand {o : Opn} {s : State} {r : Rule} {c : Ctx} (h : Issues (.xmov o) o s r c) : c.hand = true := by
  obtain rfl := h.rule_eq (r' := xmovRule) rfl
  exact site_of_refuses_none h.legal

/-- A form of XMOV that writes a w register of the handler. -/
theorem Issues.writesRegs_setW {i : Instr} {o : Opn} {s : State} {r r' : Rule} {c : Ctx} (h : Issues i o s r c)
    (hr : ruleOf i s.inHandler = some r') {body : Ctx → Mach → Res} (he : exec i s = issue r' o s body) (hh : c.hand = true)
    {d : Nat} {x : W64} (hb : ∀ m, body c m = .done (c.setS m d x)) : WritesRegs i s c fun y => y.setW d x := by
  refine h.writesRegs_of_rule hr he fun m => ?_
  rw [hb, Ctx.setS, hh]
  rfl

/-- A form of XMOV that writes a lane: a lane without a living thread ignores the write (R142). -/
theorem Issues.writesRegs_ite {i : Instr} {o : Opn} {s : State} {r r' : Rule} {c : Ctx} (h : Issues i o s r c)
    (hr : ruleOf i s.inHandler = some r') {body : Ctx → Mach → Res} (he : exec i s = issue r' o s body) {live : Bool}
    {f : Regs → Regs} (hb : ∀ m, body c m = .done (if live then c.modRegs m f else m)) :
    WritesRegs i s c fun x => if live then f x else x := by
  cases live with
  | true => exact h.writesRegs_of_rule hr he hb
  | false => exact h.writesRegs_id hr he hb

end Sys2Proof.Machine

open Sys2Proof Sys2Proof.Machine Sys2Proof.Claims

/-- Settles O6: XBCNT writes a predicate, XRED and XSCAN an element register behind the exceptions of their combines; XMOV by its six
functions. -/
theorem selectReduceScanMove : Obligations.SelectReduceScanMove := by
  unfold Obligations.SelectReduceScanMove
  refine ⟨fun o s r c h => xbcnt_writesRegs h, ?red, ?scan, ?mov⟩
  case red =>
    intro o s r c h x hn
    obtain rfl := h.opn_eq
    exact xred_writesUnlessEmpty h hn
  case scan =>
    intro o s r c h x id hn
    obtain rfl := h.opn_eq
    exact xscan_writesUnlessEmpty h hn
  case mov =>
    intro o s r c h l
    have hh := xmov_hand h
    obtain rfl := h.opn_eq
    refine ⟨fun hfn => ?readWord, fun hfn => ?writeWord, fun hfn => ?readPair, fun hfn => ?writePair, fun hfn => ?readPredicate,
      fun hfn => ?writePredicate⟩
    case readWord => exact h.writesRegs_setW rfl ((exec_xmov _ _).trans rfl) hh fun m => by simp only [hfn]; rfl
    case writeWord => exact h.writesRegs_ite rfl ((exec_xmov _ _).trans rfl) fun m => by simp only [hfn]; rfl
    case readPair => exact h.writesRegs_setW rfl ((exec_xmov _ _).trans rfl) hh fun m => by simp only [hfn]; rfl
    case writePair => exact h.writesRegs_ite rfl ((exec_xmov _ _).trans rfl) fun m => by simp only [hfn]; rfl
    case readPredicate => exact h.writesRegs_setW rfl ((exec_xmov _ _).trans rfl) hh fun m => by simp only [hfn]; rfl
    case writePredicate => exact h.writesRegs_of_rule rfl ((exec_xmov _ _).trans rfl) fun m => by simp only [hfn]; rfl

end
